-- ==== Sys2Proof/Word.lean ====
section
/-! DEFINITION. The words of the Ulgon architecture (spec/00_scope.md R8) and the sparse table that holds every
collection of the state that is indexed by a number. -/

namespace Sys2Proof

/-- A byte is 8 bits (R8). -/
abbrev Byte := BitVec 8
/-- A word is 32 bits (R8). -/
abbrev Word := BitVec 32
/-- A dword is 64 bits (R8). -/
abbrev Dword := BitVec 64
/-- A virtual address has 57 significant bits (R14, R372). -/
abbrev VAddr := BitVec 57

/-- A sparse table: the entries at rising keys, none equal to the table's default value. -/
abbrev Tab (α : Type) := List (Nat × α)

/-- A triple of 32-bit numbers: a grid, block or cluster shape or index (R26, R235). -/
structure Dim3 where
  x : Nat
  y : Nat
  z : Nat
deriving DecidableEq, Repr, Inhabited

end Sys2Proof
end

