-- ==== Sys2Proof/Syntax.lean ====
section
/-! DEFINITION. The instructions of the Ulgon architecture and the machine's events: one constructor for each row
of spec/opcode_table.json. An instruction's fields are the fields of its word (spec/02_instruction_word.md R44-R52,
spec/03_opcode_map.md R69-R83), each named by what it says; the rows from WARP_FORM on are steps of other agents
(spec/95_what_each_step_holds.md) and have no word. -/

namespace Sys2Proof

/-- An 8-bit operand field that names a vector register: 0-247, 248 for vz, 249-255 illegal (R46). -/
abbrev RegF := BitVec 8
/-- A predicate number: 0-6, or 7 for pt (R24, R46). -/
abbrev PredF := BitVec 3
/-- A handle number (R52). -/
abbrev HandleF := BitVec 4

/-- The fields every word carries beside its operands: STALL and the guard (R44, R53, R55). -/
structure Ctl where
  stall : BitVec 4
  pn : Bool
  ps : PredF
deriving DecidableEq, Repr, Inhabited

/-- The type codes of R69, in the order of their codes 0-21. -/
inductive Ty where
  | i32 | n32 | i64 | n64 | i16 | n16 | i8 | n8 | b32 | b64 | f32 | f64 | f16 | bf16
  | e4m3 | e5m2 | e3m2 | e2m3 | e2m1 | mxfp8 | mxfp6 | mxfp4
deriving DecidableEq, Repr, Inhabited

/-- The rounding override of R70. -/
inductive Rmo where
  | none | rne | rtz | rup | rdn | rna
deriving DecidableEq, Repr, Inhabited

/-- The condition codes of R71, in the order of their codes 0-7. -/
inductive Cond where
  | eq | ne | lt | le | gt | ge | un | ord
deriving DecidableEq, Repr, Inhabited

/-- The FP source and destination codes of R78. -/
inductive FpSrc where
  | f32 | f64 | f16 | bf16
deriving DecidableEq, Repr, Inhabited

/-- The scopes of R361. -/
inductive Scope where
  | blk | die | pkg | pod | sys
deriving DecidableEq, Repr, Inhabited

/-- The space and scope codes of form M (R50), in the order of their codes 0-7. -/
inductive Spsc where
  | gBlk | gDie | gPkg | gPod | gSys | s | l | c
deriving DecidableEq, Repr, Inhabited

/-- The address of form M: base field A, SPSC and OFF16 (R49). -/
structure MemOp where
  a : RegF
  sp : Spsc
  off : BitVec 16
deriving DecidableEq, Repr, Inhabited

/-- The widths of ld (R79, R171). -/
inductive LdW where
  | i8 | n8 | i16 | n16 | b32 | b64 | b128
deriving DecidableEq, Repr, Inhabited

/-- The serving codes of ld other than .acq (R172). -/
inductive LdV where
  | dflt | cg | cs
deriving DecidableEq, Repr, Inhabited

/-- The widths of st (R79, R173). -/
inductive StW where
  | b8 | b16 | b32 | b64 | b128
deriving DecidableEq, Repr, Inhabited

/-- The serving codes of st other than .rel (R174). -/
inductive StV where
  | dflt | cs
deriving DecidableEq, Repr, Inhabited

/-- The types of an atomic minimum or maximum (R80, OP 2-7). -/
inductive MinK where
  | i32 | n32 | i64
deriving DecidableEq, Repr, Inhabited

/-- The element formats of atomx (R182). -/
inductive XFmt where
  | f32 | f16 | bf16
deriving DecidableEq, Repr, Inhabited

/-- The accumulator codes of mdrain (R204). -/
inductive Acc where
  | f32 | f64 | i32
deriving DecidableEq, Repr, Inhabited

/-- What RUNTIME_REGISTER_WRITE writes: a dword of a context descriptor (R313), a dword of a queue descriptor
(R314), a partition's scheduling word (R326), or the name of the host error ring (R409). -/
inductive RtTarget where
  | descriptor (ctx dword : Nat)
  | queue (ctx queue dword : Nat)
  | scheduling (part : Nat)
  | errorRing
deriving DecidableEq, Repr, Inhabited

/-- One constructor for each row of spec/opcode_table.json. -/
inductive Instr where
  -- Class 0 and 1: integer, logic, bit and move (R86-R103, R117, R118)
  | iadd (c : Ctl) (d a b : RegF) (ty : Ty) (sat : Bool)
  | isub (c : Ctl) (d a b : RegF) (ty : Ty) (sat : Bool)
  | imul (c : Ctl) (d a b : RegF) (ty : Ty)
  | imulh (c : Ctl) (d a b : RegF) (ty : Ty)
  | imad (c : Ctl) (d a b x : RegF) (ty : Ty) (sat : Bool)
  | imadw (c : Ctl) (d a b x : RegF) (ty : Ty)
  | imin (c : Ctl) (d a b : RegF) (ty : Ty)
  | imax (c : Ctl) (d a b : RegF) (ty : Ty)
  | iabs (c : Ctl) (d a : RegF) (ty : Ty) (sat : Bool)
  | ineg (c : Ctl) (d a : RegF) (ty : Ty) (sat : Bool)
  | icmp (c : Ctl) (p : PredF) (a b : RegF) (cc : Cond) (ty : Ty)
  | lea (c : Ctl) (d a b : RegF) (sh : BitVec 4) (ty : Ty)
  | shl (c : Ctl) (d a b : RegF) (ty : Ty)
  | shr (c : Ctl) (d a b : RegF) (ty : Ty)
  | sar (c : Ctl) (d a b : RegF) (ty : Ty)
  | fshL (c : Ctl) (d a b x : RegF)
  | fshR (c : Ctl) (d a b x : RegF)
  | andB (c : Ctl) (d a b : RegF) (ty : Ty)
  | orB (c : Ctl) (d a b : RegF) (ty : Ty)
  | xorB (c : Ctl) (d a b : RegF) (ty : Ty)
  | notB (c : Ctl) (d a : RegF) (ty : Ty)
  | lop3 (c : Ctl) (d a b x : RegF) (lut : BitVec 8)
  | bfx (c : Ctl) (d a b : RegF) (ty : Ty)
  | bfi (c : Ctl) (d a b x : RegF)
  | popc (c : Ctl) (d a : RegF) (ty : Ty)
  | clz (c : Ctl) (d a : RegF) (ty : Ty)
  | brev (c : Ctl) (d a : RegF) (ty : Ty)
  | ffs (c : Ctl) (d a : RegF) (ty : Ty)
  | isel (c : Ctl) (d a b : RegF) (p : PredF) (ty : Ty)
  | plop (c : Ctl) (pd pa pb pc : PredF) (lut : BitVec 8)
  | mov (c : Ctl) (d a : RegF) (ty : Ty)
  | movi (c : Ctl) (d : RegF) (imm : BitVec 28)
  | movh (c : Ctl) (d a : RegF) (imm : BitVec 16)
  | ldlit32 (c : Ctl) (d : RegF) (imm : BitVec 28)
  | ldlit64 (c : Ctl) (d : RegF) (imm : BitVec 28)
  | shapeq (c : Ctl) (d a : RegF)
  | reshape (c : Ctl) (a : RegF)
  -- Class 2: control and system (R104-R116, R119, R120)
  | nop (c : Ctl)
  | bra (c : Ctl) (arm : Bool) (slot : BitVec 4) (imm : BitVec 28)
  | brx (c : Ctl) (a : RegF) (imm : BitVec 28)
  | call (c : Ctl) (imm : BitVec 28)
  | callx (c : Ctl) (a : RegF) (imm : BitVec 28)
  | ret (c : Ctl)
  | join (c : Ctl) (slot : BitVec 4)
  | yield (c : Ctl)
  | exit (c : Ctl)
  | pad (c : Ctl) (label : BitVec 16)
  | trap (c : Ctl) (code : BitVec 8)
  | bkpt (c : Ctl) (code : BitVec 8)
  | reth (c : Ctl)
  | rdsr (c : Ctl) (d : RegF) (sel : BitVec 8)
  | csrr (c : Ctl) (d : RegF) (num : BitVec 12)
  | csrw (c : Ctl) (a : RegF) (num : BitVec 12)
  | csrwFpcsr (c : Ctl) (a : RegF)
  | csrwMprog (c : Ctl) (a : RegF)
  | tlbiCtx (c : Ctl)
  | tlbiPage (c : Ctl) (a : RegF)
  | codereg (c : Ctl) (d a : RegF)
  -- Classes 3 and 4: floating point and conversion (R143-R166)
  | fadd (c : Ctl) (d a b : RegF) (ty : Ty) (rm : Rmo)
  | fsub (c : Ctl) (d a b : RegF) (ty : Ty) (rm : Rmo)
  | fmul (c : Ctl) (d a b : RegF) (ty : Ty) (rm : Rmo)
  | ffma (c : Ctl) (d a b x : RegF) (ty : Ty) (rm : Rmo)
  | fmin (c : Ctl) (d a b : RegF) (ty : Ty)
  | fmax (c : Ctl) (d a b : RegF) (ty : Ty)
  | fminn (c : Ctl) (d a b : RegF) (ty : Ty)
  | fmaxn (c : Ctl) (d a b : RegF) (ty : Ty)
  | fcmp (c : Ctl) (p : PredF) (a b : RegF) (cc : Cond) (ty : Ty)
  | fclass (c : Ctl) (d a : RegF) (ty : Ty)
  | frnd (c : Ctl) (d a : RegF) (ty : Ty) (rm : Rmo)
  | hadd2 (c : Ctl) (d a b : RegF) (ty : Ty) (rm : Rmo)
  | hmul2 (c : Ctl) (d a b : RegF) (ty : Ty) (rm : Rmo)
  | hfma2 (c : Ctl) (d a b x : RegF) (ty : Ty) (rm : Rmo)
  | dadd (c : Ctl) (d a b : RegF) (rm : Rmo)
  | dmul (c : Ctl) (d a b : RegF) (rm : Rmo)
  | dfma (c : Ctl) (d a b x : RegF) (rm : Rmo)
  | ddiv (c : Ctl) (d a b : RegF) (rm : Rmo)
  | dsqrt (c : Ctl) (d a : RegF) (rm : Rmo)
  | drcp (c : Ctl) (d a : RegF) (rm : Rmo)
  | fcvt (c : Ctl) (d a : RegF) (ty : Ty) (src : FpSrc) (rm : Rmo)
  | f2i (c : Ctl) (d a : RegF) (ty : Ty) (src : FpSrc) (rm : Rmo)
  | i2f (c : Ctl) (d a : RegF) (ty : Ty) (src : Ty) (rm : Rmo)
  | fldx (c : Ctl) (d a b : RegF) (ty : Ty) (rm : Rmo)
  | fexpo (c : Ctl) (d a : RegF) (ty : Ty)
  | fmant (c : Ctl) (d a : RegF) (ty : Ty)
  | frcp (c : Ctl) (d a : RegF)
  | frsq (c : Ctl) (d a : RegF)
  | fsqrt (c : Ctl) (d a : RegF) (rm : Rmo)
  | fdiv (c : Ctl) (d a b : RegF) (rm : Rmo)
  | fex2 (c : Ctl) (d a : RegF)
  | flg2 (c : Ctl) (d a : RegF)
  | fsinpi (c : Ctl) (d a : RegF)
  | fcospi (c : Ctl) (d a : RegF)
  | mfpack (c : Ctl) (d a b : RegF) (ty : Ty) (src : FpSrc) (sat : Bool) (rm : Rmo)
  | mfunpk (c : Ctl) (d a b : RegF) (ty : Ty) (dst : FpSrc)
  | popnz (c : Ctl) (d a : RegF) (ty : Ty) (daz : Bool)
  | spcomp (c : Ctl) (d a : RegF) (ty : Ty) (daz : Bool)
  -- Class 5: memory and atomics (R167-R185)
  | ld (c : Ctl) (d : RegF) (m : MemOp) (w : LdW) (v : LdV)
  | ldAcq (c : Ctl) (d : RegF) (m : MemOp) (w : LdW)
  | st (c : Ctl) (m : MemOp) (b : RegF) (w : StW) (v : StV)
  | stRel (c : Ctl) (m : MemOp) (b : RegF) (w : StW)
  | ldnf (c : Ctl) (d : RegF) (m : MemOp) (w64 : Bool)
  | preq (c : Ctl) (m : MemOp)
  | cas (c : Ctl) (d : RegF) (m : MemOp) (b : RegF) (w64 sc : Bool)
  | atomx (c : Ctl) (m : MemOp) (b : RegF) (f : XFmt)
  | atomAdd (c : Ctl) (d : RegF) (m : MemOp) (b : RegF) (w64 sc : Bool)
  | atomMin (c : Ctl) (d : RegF) (m : MemOp) (b : RegF) (k : MinK) (sc : Bool)
  | atomMax (c : Ctl) (d : RegF) (m : MemOp) (b : RegF) (k : MinK) (sc : Bool)
  | atomAnd (c : Ctl) (d : RegF) (m : MemOp) (b : RegF) (w64 sc : Bool)
  | atomOr (c : Ctl) (d : RegF) (m : MemOp) (b : RegF) (sc : Bool)
  | atomXor (c : Ctl) (d : RegF) (m : MemOp) (b : RegF) (sc : Bool)
  | atomExch (c : Ctl) (d : RegF) (m : MemOp) (b : RegF) (w64 sc : Bool)
  | atomAddF32 (c : Ctl) (d : RegF) (m : MemOp) (b : RegF) (sc : Bool)
  | atomAddF64 (c : Ctl) (d : RegF) (m : MemOp) (b : RegF) (sc : Bool)
  | redAdd (c : Ctl) (m : MemOp) (b : RegF) (w64 : Bool)
  | redMin (c : Ctl) (m : MemOp) (b : RegF) (k : MinK)
  | redMax (c : Ctl) (m : MemOp) (b : RegF) (k : MinK)
  | redAnd (c : Ctl) (m : MemOp) (b : RegF) (w64 : Bool)
  | redOr (c : Ctl) (m : MemOp) (b : RegF)
  | redXor (c : Ctl) (m : MemOp) (b : RegF)
  | redAddF32 (c : Ctl) (m : MemOp) (b : RegF)
  | redAddF64 (c : Ctl) (m : MemOp) (b : RegF)
  | xrnd (c : Ctl) (d : RegF) (m : MemOp) (w64 : Bool)
  | xclr (c : Ctl) (m : MemOp)
  -- Class 6: synchronisation, exchange and generator (R186-R203)
  | waitcnt (c : Ctl) (l s : BitVec 6) (e : BitVec 5) (scope : Scope)
  | bar (c : Ctl) (a : RegF) (id : BitVec 4)
  | barArv (c : Ctl) (a : RegF) (id : BitVec 4)
  | barbInit (c : Ctl) (m : MemOp) (b : RegF)
  | barbExpect (c : Ctl) (m : MemOp) (b : RegF)
  | barbArrive (c : Ctl) (d : RegF) (m : MemOp)
  | barbWait (c : Ctl) (m : MemOp) (b : RegF)
  | qxchIdx (c : Ctl) (d a b : RegF) (ty : Ty)
  | qxchX (c : Ctl) (d a : RegF) (k : BitVec 2) (ty : Ty)
  | qbcst (c : Ctl) (d a : RegF) (m : BitVec 2) (ty : Ty)
  | fshflIdx (c : Ctl) (d a b : RegF) (ty : Ty)
  | fshflUp (c : Ctl) (d a b : RegF) (ty : Ty)
  | fshflDown (c : Ctl) (d a b : RegF) (ty : Ty)
  | fshflXor (c : Ctl) (d a b : RegF) (ty : Ty)
  | fvoteAll (c : Ctl) (pd pa : PredF)
  | fvoteAny (c : Ctl) (pd pa : PredF)
  | fvoteUni (c : Ctl) (pd pa : PredF)
  | fvoteBallot (c : Ctl) (d : RegF) (pa : PredF)
  | rngLo (c : Ctl) (d a b : RegF)
  | rngHi (c : Ctl) (d a b : RegF)
  -- Class 7: matrix, engines and launch (R204-R241)
  | mmodeM (c : Ctl) (abase : BitVec 5)
  | mmodeV (c : Ctl)
  | mgang (c : Ctl) (a : RegF)
  | mzero (c : Ctl)
  | mma (c : Ctl) (ha hb : HandleF) (k : RegF) (ty : Ty)
  | mmasp (c : Ctl) (ha hb : HandleF) (k : RegF) (ty : Ty)
  | mmad (c : Ctl) (a : RegF) (hb : HandleF) (ty : Ty)
  | mstat (c : Ctl) (d : RegF)
  | mdrainSt (c : Ctl) (d a b : RegF) (hc : HandleF) (acc : Acc)
  | mdrainAddf (c : Ctl) (d a b : RegF) (hc : HandleF) (acc : Acc)
  | mdrainAddx (c : Ctl) (d a b : RegF) (hc : HandleF) (acc : Acc)
  | mcvt (c : Ctl) (d : RegF) (ty : Ty) (rm : Rmo)
  | seal (c : Ctl) (hd : HandleF) (a b : RegF)
  | hquery (c : Ctl) (d : RegF) (ha : HandleF)
  | hdrop (c : Ctl) (hd : HandleF)
  | copy (c : Ctl) (d a b : RegF) (srcS dstS : Bool)
  | gath (c : Ctl) (d a b : RegF) (hc : HandleF)
  | scat (c : Ctl) (d a b : RegF) (hc : HandleF)
  | sample (c : Ctl) (d a b : RegF) (hc : HandleF)
  | gauge (c : Ctl) (d a : RegF)
  | launch (c : Ctl) (d a : RegF) (prio : BitVec 3)
  | launchPod (c : Ctl) (d a : RegF) (prio : BitVec 3)
  | lwait (c : Ctl) (d : RegF)
  | lcancel (c : Ctl) (d a : RegF)
  | lcancelKill (c : Ctl) (d a : RegF)
  | lstat (c : Ctl) (d a : RegF)
  | qpost (c : Ctl) (d a b : RegF)
  -- Events: the weir, the return paths and the homes
  | warpForm (pkg core : Nat)
  | loadWriteback (k : Nat)
  | storePerformed (k : Nat)
  | homeWriteApply (k : Nat)
  | pushApply (k : Nat)
  | l1Rebase (pkg core : Nat)
  | timeViewLost (pkg core : Nat)
  | hostSnoop (pkg : Nat) (pa : Nat) (data : List Byte)
  -- Events: the grid
  | gridGrant (pkg core : Nat)
  | passCommit (blk : Nat)
  | drainCapture (blk : Nat)
  -- Events: the engines
  | copyGranule (cmd g : Nat)
  | gathPosition (cmd p : Nat)
  | scatPosition (cmd p : Nat)
  | drainGranule (cmd g : Nat)
  | sampleComplete (cmd : Nat)
  | gaugeComplete (cmd : Nat)
  | engineStatusWrite (cmd : Nat)
  -- Events: waits, pages, host and Runtime
  | joinHoldExpiry (blk slot : Nat)
  | pageAnswer (pkg ctx tag status : Nat)
  | invalidationDoorbell (pkg ctx : Nat) (page : Option VAddr)
  | hostTailWrite (pkg ctx queue : Nat) (record : List Dword) (tail : Word)
  | runtimeRegisterWrite (pkg : Nat) (target : RtTarget) (value : Dword)
  -- Events: dispatch
  | turnoutCycle (pkg die : Nat)
  | terraceCloseAgeing (pkg die : Nat)
  | checkgateLotRequest (pkg die : Nat)
  | blockRetire (blk : Nat)
  | gridComplete (pkg grid : Nat)
  | lwaitResume (blk : Nat)
  | podGridBroadcast (ctx : Nat)
  | podLotRequest (pkg ctx grid : Nat)
  | podOrdOffer (ctx grid : Nat)
  | progressSummary (pkg ctx grid : Nat)
  | finalSummary (pkg ctx grid : Nat)
  | podCancel (ctx grid : Nat) (kill : Bool)
  | standbyTakeover (ctx : Nat)
  -- Events: time and the link
  | timeMessage (pkg : Nat) (time : Nat)
  | gtimeUnsync (pkg : Nat)
  | flitReplay (pkg port : Nat)
  | linkPortDown (pkg port : Nat)
  | remoteRequestArrival (k : Nat)
  | remoteTimeout (k : Nat)
  -- Events: the sluice and the end of a context
  | preemptGraceful (pkg ctx : Nat)
  | gracefulDeadline (pkg ctx : Nat)
  | preemptForced (pkg ctx : Nat)
  | saveImage (blk : Nat)
  | sluiceEscalation (pkg ctx : Nat)
  | resumeRequest (pkg ctx : Nat)
  | blockRestore (img core : Nat)
  | quantumExpiry (pkg pcore : Nat)
  | contextKill (ctx : Nat)
  -- Events: Root, firmware and the system
  | contextCreate (pkg ctx part desc : Nat)
  | codeRelease (pkg ctx : Nat) (va : VAddr)
  | partitionConfigure (pkg part : Nat) (record : List Dword) (remap : List (Nat × Word)) (sluice : Dword)
  | regionDescriptorWrite (pkg idx : Nat) (record : List Dword)
  | attestRequest (pkg : Nat) (nonce : List Dword)
  | svnUpdate (pkg : Nat) (svn : Word) (signature : List Byte)
  | packageReset (pkg : Nat) (image : List Byte) (hbmOk linksOk : Bool) (disabled : List Nat)
      (ranges : List (Nat × Nat × Nat × Nat))
  | backupImage (pkg : Nat) (image : List Byte) (hbmOk linksOk : Bool) (disabled : List Nat)
      (ranges : List (Nat × Nat × Nat × Nat))
  | ucieModuleDown (pkg module : Nat)
  | ucieRetrain (pkg : Nat)
  | poolPortDown (pkg port : Nat)
  | eccError (pkg src die : Nat) (sev : Nat) (pa : Nat)
  | fatalError (pkg src die : Nat) (pa : Nat)
  | scrub (pkg : Nat)
  | powerControlTick (pkg pwr : Nat)
  | powerWordWrite (pkg pl : Nat)
  | junctionOvertemp (pkg : Nat) (hot : Bool)
  | coolantChange (pkg inlet10 flow10 : Nat)
  | cxlMemAccess (pkg pa : Nat) (data : List Byte) (len : Nat)
deriving DecidableEq, Repr, Inhabited

end Sys2Proof
end

