-- ==== Sys2Proof/Config.lean ====
section
/-! DEFINITION. What an implementation fixes and the free values: everything the spec leaves open that the machine
goes on from. A free value is an opaque constant, so that no proof can rest on what it is. -/

namespace Sys2Proof

/-- One turn of the machine: how many core cycles pass, and the event that then takes place (log entry 3). -/
structure Turn where
  elapse : Nat
  what : Instr
deriving DecidableEq, Repr, Inhabited

/-- The turn taken when the agenda is empty: which agent moves next is left open (log entry 3). -/
opaque Config.turn : Nat → Turn
/-- R57: whether a register or predicate read before its result is readable gives the new value (log entry 5).
The arguments are the model's tick and the number of the register, or 256 plus that of the predicate. -/
opaque Config.early : Nat → Nat → Bool
/-- R159: the word a special-function unit would deliver, before the bound of R160 is applied (log entry 6).
The arguments are the operation, the source word, DAZ and FTZ. -/
opaque Config.sfu : Nat → Word → Bool → Bool → Word
/-- R25: the opaque value of a handle, from the block it was sealed in and the record (log entry 7). -/
opaque Config.handleValue : Nat → List Dword → Dword
/-- R356: whether an L1 entry has been evicted before this access (log entry 8). -/
opaque Config.l1Evicted : Nat → Bool
/-- R376: whether a TLB entry has been evicted before this access (log entry 8). -/
opaque Config.tlbEvicted : Nat → Bool
/-- R355: whether the constant cache has lost a word before this access (log entry 55). The arguments are the
model's tick and the word. -/
opaque Config.constEvicted : Nat → Nat → Bool
/-- R364: whether a die takes a copy and a window on a sector that one of its cores reads (log entry 8). -/
opaque Config.windowTaken : Nat → Bool
/-- R212, R289: whether a pass reads a panel byte in the later of its two cycles (log entry 51). The arguments are the
model's tick and the byte's shared offset. -/
opaque Config.panelLate : Nat → Nat → Bool
/-- R308: what a sample draws from a row that was written while it ran (log entry 12). -/
opaque Config.freeDraw : Nat → Nat
/-- R405: whether a Root image's signature verifies under the vendor key (log entry 13). -/
opaque Config.imageVerifies : List Byte → Bool
/-- R405: the security version a Root image carries (log entry 13). -/
opaque Config.imageSvn : List Byte → Word
/-- R405: whether a command to raise the minimum version verifies under the vendor's update key (log entry 13). -/
opaque Config.updateVerifies : Word → List Byte → Bool
/-- R406: the HSS signature of an attestation report under one leaf, 3,604 bytes (log entry 13). -/
opaque Config.attestSignature : List Dword → Nat → List Byte
/-- R406: the SHA-256 of the immutable ROM, as four dwords (log entry 13). -/
opaque Config.romHash : Nat → List Dword
/-- A value of memory that the spec does not fix, from a tick and a key (log entry 12). -/
opaque Config.freeByte : Nat → Nat → Byte

/-- A package's compute dies, logical cores per die, terraces per die (R2, R3). -/
def Config.dies : Nat := 4
def Config.coresPerDie : Nat := 96
def Config.coresPerPkg : Nat := 384
def Config.terracesPerDie : Nat := 12
/-- Resident limits of a core (R2, R18, R320). -/
def Config.maxThreads : Nat := 2048
def Config.maxBlocks : Nat := 16
def Config.bankWords : Nat := 2048
def Config.sharedBytes : Nat := 262144
/-- Registered code objects of a context (R121), queues of a context (R314), page-request tags (R379). -/
def Config.maxObjects : Nat := 1024
def Config.maxQueues : Nat := 64
def Config.maxTags : Nat := 4096
/-- Entries of a die's sampling queue (R306). -/
def Config.sampleQueue : Nat := 64
/-- The first physical address above HBM (R372) and the bytes of one die's HBM range (R414). -/
def Config.hbmEnd : Nat := 0xC000000000
def Config.hbmPerDie : Nat := 0x3000000000

end Sys2Proof
end

