-- ==== Sys2Proof/Machine/State.lean ====
section
/-! DEFINITION. The state of the machine: a pod of VPK-9040 packages. Every piece of state the spec names stands
here under the spec's name; INVENTORY.md lists each with its rule and its reset value. All of it is plain data. -/

namespace Sys2Proof.Machine

/-- The state of a thread (R15). -/
inductive TState where
  | exited | ready | waiting | parked | handler
deriving DecidableEq, Repr, Inhabited

/-- What a thread waits for. WAIT and WID of R394 are computed from it. The waits named `again` in Ops re-execute
their instruction at the pc; the others complete it. -/
inductive Wait where
  /-- waitcnt and every step that waits as one (R186): the counts and the scope. -/
  | counts (l s e : Nat) (scope : Scope)
  /-- a counter at its limit (R33): 0 LCNT, 1 SCNT, 2 ECNT. -/
  | limit (which : Nat)
  /-- an older .acq load or .sc atomic holds this memory instruction (R172, R181). -/
  | held
  /-- csrr or csrw of FPCSR waits for older flag-raising instructions (R30). -/
  | flags
  /-- what the wait is for: the end of the passes, for an instruction that touches the window (R287); the thread's own older
  results to the window (R288); and the base of an mmad's A range, which is then of the window too (R215). -/
  | window (passes quiet : Bool) (a : Option Nat)
  /-- the crew has a pass or a capture outstanding (R207, R209, R216). -/
  | passes
  /-- a join slot, with the hold deadline (R111). -/
  | join (slot deadline : Nat)
  /-- counted at a block barrier (R188). -/
  | barrier (id : Nat)
  /-- arrived at an exchange (R196). -/
  | exchange
  /-- arrived at a crew instruction (R206), under the crew that MGANG named then. -/
  | crew (gang : Word)
  /-- arrived at lwait; the register its word goes to (R238). -/
  | lwait (reg : Nat)
  /-- barb.wait (R194): the shared offset and the phase bit. -/
  | barb (off : Nat) (ph : Bool)
  /-- exit waits until LCNT is 0 (R113). -/
  | exitLoads
  /-- tlbi waits for the writes of other generations (R381): the generation it made current. -/
  | shoot (gen : BitVec 8)
  /-- tlbi waits for an earlier shootdown of its context, or for a generation to come free (R381). -/
  | shootTurn
  /-- codereg waits for a page of the object (R120); the register its status goes to. -/
  | codePage (reg : Nat)
  /-- a retired yield under a graceful pre-emption (R112). -/
  | yieldHold
  /-- barb.arrive waits for its older stores to be performed at .blk (R193). -/
  | stores
  /-- the die's sampling queue is full (R306), or a seal to the handle is outstanding (R227). -/
  | queueFull
  | sealEnd (h : Nat)
deriving DecidableEq, Repr, Inhabited

/-- A shape tag (R19). -/
inductive Tag where
  | uniform (u : Word)
  | affine (b s : Word)
  | general
deriving DecidableEq, Repr, Inhabited

/-- Bytes of a private memory with their poison (R175). -/
structure Bytes where
  cells : List Host.Cell
  bad : Tab Bool
deriving DecidableEq, Repr, Inhabited

/-- A handle: its hidden validity tag, its opaque value, and what a sealed handle carries (R25, R225). -/
structure Handle where
  valid : Bool
  value : Dword
  record : List Dword
  blk : Nat
deriving DecidableEq, Repr, Inhabited

/-- FPCSR (R29); `flags` holds NV DZ OF UF NX in bits 4 to 0. -/
structure Fpcsr where
  rm : BitVec 3
  daz : Bool
  ftz : Bool
  flags : BitVec 5
deriving DecidableEq, Repr, Inhabited

/-- MSTATE (R31). -/
structure MState where
  abase : BitVec 8
  crew : BitVec 7
  res : Bool
  h : Bool
  vp : Bool
  mp : Bool
  mode : Bool
deriving DecidableEq, Repr, Inhabited

/-- MPROG (R34). -/
structure MProg where
  rsm : Bool
  depth : BitVec 13
  pass : BitVec 13
deriving DecidableEq, Repr, Inhabited

/-- A fixed-latency result (R56, R57): the register, or 256 plus the predicate, the first cycle it is readable, the
value before it, and the serial of the warp issue that made it. -/
structure Fresh where
  reg : Nat
  ready : Nat
  old : Word
  serial : Nat
deriving DecidableEq, Repr, Inhabited

/-- How control reached the pc (R61): by fall-through or by a transfer, and from which instruction, if from one. -/
structure Via where
  moved : Bool
  src : Option VAddr
deriving DecidableEq, Repr, Inhabited

/-- A thread (R13-R43). `owed` is the STALL of the rendezvous instruction it waits at (R55); `met` says that the group it
waits in has assembled, since when its age counts (R15, R249); `issued` is the cycle in which its last issue ended (R246), and `freed` that in which the
completion of a phase last released it from barb.wait (R352). -/
structure Thread where
  pc : VAddr
  st : TState
  wait : Option Wait
  ms : MState
  regs : Tab Word
  marks : Tab Bool
  preds : BitVec 7
  handles : Tab Handle
  fpcsr : Fpcsr
  lcnt : Nat
  scnt : Nat
  ecnt : Nat
  mprog : MProg
  sp : Word
  tvec : Dword
  tframe0 : Dword
  tframe1 : Dword
  tcause : Dword
  chk : Bool
  loc : Bytes
  via : Option Via
  pk : Option (Bool × Dword)
  hold : Nat
  panelStop : Option VAddr
  fresh : List Fresh
  stallUntil : Nat
  owed : Nat
  readySince : Nat
  issued : Nat
  freed : Option Nat
  met : Bool
  slot : Nat
  role : Nat
  allot : Nat
  prio : Nat
deriving DecidableEq, Repr, Inhabited

/-- MGANG (R35). -/
structure Mgang where
  v : Bool
  f0 : BitVec 5
  f1 : BitVec 5
  f2 : BitVec 5
  f3 : BitVec 5
deriving DecidableEq, Repr, Inhabited

/-- What fixed the target of a barrier's open phase (R188, KIND of R393). -/
inductive BarKind where
  | idle | whole | register
deriving DecidableEq, Repr, Inhabited

/-- One of the sixteen barriers of a block (R188): the open phase's kind, target and arrivals, and who arrived. -/
structure Barrier where
  kind : BarKind
  target : Nat
  arr : Nat
  came : List Nat
deriving DecidableEq, Repr, Inhabited

/-- The kinds of pass-running instruction (R295, KIND of R397). -/
inductive RunKind where
  | mma | mmasp | mmad
deriving DecidableEq, Repr, Inhabited

/-- A granted pass (R289): its depth, the cycle of its grant, and the shared memory as it reads it; `read` says that it has
read its panels. -/
structure Granted where
  depth : Nat
  at_ : Nat
  shm : Bytes
  read : Bool
deriving DecidableEq, Repr, Inhabited

/-- The crew's unfinished pass-running instruction: the crew record of R397, its entry in the reservation table
(R291) and its granted passes, oldest first. `again` says that it is re-issued after a restore (R296). -/
structure CrewRun where
  kind : RunKind
  pc : VAddr
  ty : Ty
  k : Nat
  mbase : Nat
  ha : Handle
  hb : Handle
  rm : BitVec 3
  daz : Bool
  ftz : Bool
  made : Nat
  lastGrant : Nat
  next : Nat
  granted : List Granted
  again : Bool
deriving DecidableEq, Repr, Inhabited

/-- The modes of mdrain (R204). -/
inductive DrainMode where
  | st | addf | addx
deriving DecidableEq, Repr, Inhabited

/-- An assembled mdrain (R218, R291). -/
structure DrainReq where
  pc : VAddr
  mode : DrainMode
  acc : Acc
  row0 : Word
  col0 : Word
  barb : Option Nat
  hc : Handle
  sreg : Nat
  rm : BitVec 3
  daz : Bool
  ftz : Bool
  made : Nat
  lastGrant : Nat
  startCap : Option Nat
deriving DecidableEq, Repr, Inhabited

/-- Why a block is saved (REASON of R393, codes 1 to 4). -/
inductive SaveReason where
  | sluice | boundary | lwait | slice
deriving DecidableEq, Repr, Inhabited

/-- Where a block stands (R329, R331, R391). -/
inductive Place where
  | retired
  | resident
  | saved (why : SaveReason)
deriving DecidableEq, Repr, Inhabited

/-- A block (R35-R37, R235, R320). `back` says that it may be placed again (R329, R332), `left` the first cycle in which
the core it left is free of it (R320), `parts` lists the parts of its assembled crew instruction that have issued (R258), and
`cwords` holds words of its .c segment as the constant cache found them, by address (R355). -/
structure Block where
  place : Place
  pkg : Nat
  core : Nat
  ctx : Nat
  grid : Nat
  cluster : Nat
  rank : Nat
  slot : Nat
  part0 : Nat
  bid : Dim3
  record : List Dword
  threads : Tab Thread
  mgang : Mgang
  hold : BitVec 16
  detcfg : BitVec 3
  tags : Tab Tag
  shm : Bytes
  bars : Tab Barrier
  joins : Tab (BitVec 1024)
  crew : Option CrewRun
  drain : Option DrainReq
  parts : List Nat
  kids : List Nat
  late : List Nat
  cwords : Tab (List (Byte × Bool))
  back : Bool
  left : Nat
deriving DecidableEq, Repr, Inhabited

/-- An L1 entry: the coherence fields of R356, the physical line (R377), the size of the page it was filled through
(R119), the words held, and those of them that an error poisoned (R408). -/
structure L1Entry where
  ctx : Nat
  vtag : Nat
  mask : BitVec 32
  pend : BitVec 32
  exp : BitVec 16
  short : Bool
  xt : Bool
  line : Nat
  page : Nat
  words : Tab Word
  marks : BitVec 32
deriving DecidableEq, Repr, Inhabited

/-- A standing warp (R247): its members with their lanes, in ascending tid, and whether its last issue, a branch of them all
to one target, presented a merge opportunity that is still to be decided (R254, R255). -/
structure Warp where
  serial : Nat
  part : Nat
  lanes : List (Nat × Nat × Nat)
  lastEnd : Nat
  merge : Bool
deriving DecidableEq, Repr, Inhabited

/-- A logical core. -/
structure Core where
  l1 : List L1Entry
  lbase : Nat
  viewLost : Bool
  oc : List Nat
  warps : List Warp
  pickBusy : Tab Nat
  pipes : Tab Nat
  lastCrew : Option Nat
  gridFree : Nat
  capUntil : Nat
  quantStart : Nat
  sliced : Bool
  sliceAt : Nat
deriving DecidableEq, Repr, Inhabited

/-- Who issued an access: a thread, an engine command, an agent of the host, or an agent of the package itself: a checkgate,
a headgate or the sluice. -/
inductive Who where
  | thread (blk tid : Nat)
  | engine (cmd : Nat)
  | host
  | agent
deriving DecidableEq, Repr, Inhabited

/-- Whether a thread issued an access. -/
def Who.isThread : Who → Bool
  | .thread _ _ => true
  | _ => false

/-- The atomic operations of R80 and cas (R180). -/
inductive AOp where
  | add | minS | minU | maxS | maxU | and | or | xor | exch | addF | cas
deriving DecidableEq, Repr, Inhabited

/-- What a waiting write does at its home (R357, R185). `posted` writes of one agent are applied in the order of their posting;
`grain` is an engine's granule of n bytes that waits there to write (R369). -/
inductive OpKind where
  | store (bytes : List Byte)
  | atom (op : AOp) (w64 : Bool) (b cmp : Dword) (ret : Bool)
  | xadd (n : Int) (status : BitVec 3)
  | xclr
  | xrnd (f64 : Bool)
  | snoop (off : Nat) (data : List Byte)
  | hostStore (data : List Byte)
  | hostLoad (n : Nat)
  | posted (data : List Byte)
  | grain (g n : Nat)
deriving DecidableEq, Repr, Inhabited

/-- A write, atomic or cell operation waiting at its home (R365), with what travels with it (R179, R363, R381);
`serial` is that of the warp issue that made it, whose members' operations are applied in ascending tid (R168). -/
structure HomeOp where
  pkg : Nat
  key : Nat
  va : Nat
  kind : OpKind
  who : Who
  ctx : Nat
  core : Nat
  gen : BitVec 8
  dst : List Nat
  sc : Bool
  clear : Bool
  rm : BitVec 3
  daz : Bool
  ftz : Bool
  oc : List Nat
  serial : Nat
deriving DecidableEq, Repr, Inhabited

/-- A die copy of a 32-byte sector, each byte with its poison, the expiry of its window (R355, R364), and the clock of the
write that each byte is of (R363). -/
structure Copy where
  pkg : Nat
  die : Nat
  sector : Nat
  bytes : List (Byte × Bool)
  window : Nat
  vcs : List (List Nat)
deriving DecidableEq, Repr, Inhabited

/-- A write on its way from its home die to a die copy (R363): its clock, the sector as it leaves it and, under `was`, as it
found it, each with the clock of every byte. -/
structure Push where
  pkg : Nat
  src : Nat
  dst : Nat
  seq : Nat
  vc : List Nat
  sector : Nat
  bytes : List (Byte × Bool)
  vcs : List (List Nat)
  was : List (Byte × Bool)
  wasVcs : List (List Nat)
  who : Who
deriving DecidableEq, Repr, Inhabited

/-- A result on its way to a thread's registers (R259): the words, whether they are poisoned, the handle a seal
makes, the count it lowers, the flags it raises, whether it clears MSTATE.RES or ends a hold, whether the hold's end
clears the L1 (R172), and the clock of its application (R363). A result of a peer package has that package and its place among
the responses (R347). -/
structure Land where
  blk : Nat
  tid : Nat
  regs : List (Nat × Word)
  marked : Bool
  handle : Option (Nat × Handle)
  sealH : Option Nat
  ecnt : Bool
  flags : BitVec 5
  flagOp : Bool
  clrRes : Bool
  unhold : Bool
  clear : Bool
  vc : List Nat
  resp : Option (Nat × Nat)
deriving DecidableEq, Repr, Inhabited

/-- An acknowledgement on its way to a thread's SCNT (R173), with the clock of the application (R363), and the peer and place of
one that comes over the link (R347). -/
structure Ack where
  blk : Nat
  tid : Nat
  vc : List Nat
  resp : Option (Nat × Nat)
deriving DecidableEq, Repr, Inhabited

/-- A translation held in a TLB (R376): `die` is 0-3 for a die TLB and 4 + b for basin b's. `region` is the
SUB of a world fault recorded with it, if any (R383). -/
structure TlbEntry where
  pkg : Nat
  die : Nat
  ctx : Nat
  base : Nat
  size : Nat
  gen : BitVec 8
  pa : Nat
  r : Bool
  w : Bool
  short : Bool
  region : Option Nat
deriving DecidableEq, Repr, Inhabited

/-- An outstanding page request (R379): the record's fields, the waiters that joined it and the preqs whose SCNT its
answer lowers. -/
structure PageReq where
  pkg : Nat
  ctx : Nat
  tag : Nat
  vpn : Nat
  kind : Nat
  eng : Bool
  waiters : List Who
  preqs : List (Nat × Nat)
deriving DecidableEq, Repr, Inhabited

/-- A remote transaction (R346, R348): the peer, the operation and the offset in the peer's space, the time from which its
10 µs count, and the issuing instruction. -/
structure Remote where
  src : Nat
  peer : Nat
  off : Nat
  op : HomeOp
  sent : Nat
  pc : VAddr
deriving DecidableEq, Repr, Inhabited

/-- Coherence and everything in flight between threads, homes and registers. `vcs` has for each byte the
package that wrote it last and the clock of that write (R363); `cells` lists the 64-byte cells that exact accumulation
has used (R185, log entry 71); `nextResp` numbers the responses over the link (R347). -/
structure Coh where
  ops : List HomeOp
  lx : Tab Nat
  seqs : Tab (List Nat)
  vcs : Tab (Nat × List Nat)
  cells : List Nat
  copies : List Copy
  pushes : List Push
  lands : List Land
  acks : List Ack
  tlb : List TlbEntry
  reqs : List PageReq
  remote : List Remote
  nextResp : Nat
deriving DecidableEq, Repr, Inhabited

/-- The kinds of engine command (KIND of R396, and scat). -/
inductive EngKind where
  | copy | gath | scat | sample | gauge | drain
deriving DecidableEq, Repr, Inhabited

/-- A granule whose bytes are written and not yet performed at .pkg (R228): its number, the bytes that it counts, and the codes
that it brings, each with an address. -/
structure Flight where
  gran : Nat
  bytes : Nat
  codes : List (Nat × Option Nat)
deriving DecidableEq, Repr, Inhabited

/-- An engine command (R228-R234, R396). `tids` are the threads that receive its status; `srcS` and `dstS` say for copy
whether its source and destination are .s; `done` lists the granules delivered; `code` is the lowest nonzero code met,
with the address where it was; `stop` says that codes 1 to 3 stopped it. `begun` granules have started (R350), `waits` lists
those of them that wait for a page, with its address and whether they write there; `shut` says that the sluice has closed over
the command, and `gone` lists the granules abandoned then. `cover` lists the positions that a scat has summed (R232), or the pages written while a gauge runs
(R234); `rows` holds the rows that a gath has fetched (R231); `dirty` says that a logit was written while a sample runs (R308),
`flown` lists the granules written and not yet performed, `oc` is the engine thread's observed clock (R363). -/
structure EngCmd where
  id : Nat
  kind : EngKind
  pkg : Nat
  ctx : Nat
  blk : Nat
  tid : Nat
  tids : List Nat
  pc : VAddr
  sreg : Nat
  barb : Option Nat
  group : List Word
  handle : Handle
  seed : Dword
  srcS : Bool
  dstS : Bool
  rm : BitVec 3
  daz : Bool
  ftz : Bool
  mode : DrainMode
  acc : Acc
  tile : Tab Dword
  tileBad : Tab Bool
  done : List Nat
  code : Nat
  badAddr : Option Nat
  stop : Bool
  begun : Nat
  waits : List (Bool × Nat × Nat)
  shut : Bool
  gone : List Nat
  cover : List Nat
  rows : Tab (List (Byte × Bool))
  dirty : Bool
  flown : List Flight
  oc : List Nat
  result : Option (Word × Nat)
deriving DecidableEq, Repr, Inhabited

/-- A registered code object with its data map (R59, R60). -/
structure CodeObj where
  base : VAddr
  nwords : Nat
  pools : List (Nat × Nat)
deriving DecidableEq, Repr, Inhabited

/-- The states of the forced save (R391). -/
inductive PreState where
  | running | pending | closing | draining | saving | saved
deriving DecidableEq, Repr, Inhabited

/-- A context on one package (R313, R41, R381, R391): `bells` lists the host's doorbells not yet begun and `rung` the
generations of those begun, `resume` says that a resumption waits for the save to end (R413), `taken` has for
each queue one more than the next entry the checkgate takes up; `num` is the package's number CTX for the context (R379). -/
structure PkgCtx where
  live : Bool
  part : Nat
  desc : Nat
  xlat : Dword
  gen : BitVec 8
  objs : List CodeObj
  clean : Tab Nat
  pre : PreState
  t0 : Nat
  tc : Nat
  nextId : Nat
  shoots : List (BitVec 8)
  bells : List (Option VAddr)
  rung : List (BitVec 8)
  resume : Bool
  taken : Tab Nat
  num : Nat
deriving DecidableEq, Repr, Inhabited

/-- A counted event of a grid (R341), as its 48-byte record. -/
structure EvRec where
  frame : Dword
  cause : Dword
  stamp : Nat
  pkg : Nat
  core : Nat
  slot : Nat
  tid : Nat
  eng : Nat
  bid : Dim3
deriving DecidableEq, Repr, Inhabited

/-- The states of a grid (R318), in the order of their codes. -/
inductive GState where
  | dealing | dealt | complete | cancelling | cancelled
deriving DecidableEq, Repr, Inhabited

/-- A grid as a checkgate keeps it (R237, R317-R319, R338-R341). `todo` holds the ranges of cluster indexes not yet
dealt to a turnout, and `last` the first cycle after its last placement (R316, R319); `queue` names the queue and entry of
a posted grid, `poster` the grid that posted it. -/
structure Grid where
  id : Nat
  ctx : Nat
  record : List Dword
  prio : Nat
  acc : Nat
  queue : Option (Nat × Nat)
  poster : Option Nat
  parent : Option Nat
  pod : Bool
  checked : Bool
  status : Nat
  todo : List (Nat × Nat)
  placed : Nat
  last : Nat
  total : Nat
  state : GState
  kill : Bool
  fin : Nat
  kld : Nat
  nst : Nat
  faults : Nat
  classes : List Nat
  first : List EvRec
  sentFin : Nat
  sentKld : Nat
  sentFaults : Nat
  sentFirst : List EvRec
  sentAt : Nat
  finalSent : Bool
  tend : Nat
deriving DecidableEq, Repr, Inhabited

/-- A lot held by a turnout (R319): the grid's acceptance number, and clusters lo to hi - 1. -/
structure Lot where
  die : Nat
  grid : Nat
  lo : Nat
  hi : Nat
deriving DecidableEq, Repr, Inhabited

/-- The name of a placement unit (R317): a cluster of a grid, or a saved block or cluster of it. -/
structure UnitId where
  grid : Nat
  index : Nat
  again : Bool
deriving DecidableEq, Repr, Inhabited

/-- A turnout (R322): the refused cycles of waiting units, the closed terrace, the back-filled blocks with the cycles of
their placement, and the cycle after its last placement. -/
structure Turnout where
  refused : List (UnitId × Nat)
  closed : Option Nat
  backfill : List (Nat × Nat)
  last : Nat
deriving DecidableEq, Repr, Inhabited

/-- A partition: the record of R382, the scheduling word of R326 and the sluice word of R390. -/
structure Partition where
  record : List Dword
  sched : Dword
  sluice : Dword
deriving DecidableEq, Repr, Inhabited

/-- A published physical range above HBM: first and last address, the pool device (0 for host memory), the port. -/
structure PhysRange where
  base : Nat
  last : Nat
  device : Nat
  port : Nat
deriving DecidableEq, Repr, Inhabited

/-- The boot word (R407), and whether the backup image has been tried. -/
structure Boot where
  ready : Bool
  bkup : Bool
  err : Nat
  stage : Nat
  tried : Bool
deriving DecidableEq, Repr, Inhabited

/-- The power word (R410). -/
structure Power where
  pl : Nat
  pwr : Nat
  gduty : Nat
  duty : Nat
  therm : Bool
deriving DecidableEq, Repr, Inhabited

/-- Something a package sent its host (R379, R381, R400, R406). -/
inductive HostMsg where
  | pageRequest (d0 d1 : Dword)
  | doorbell (ctx : Nat)
  | mailbox (status : Nat)
  | attestation (report : List Dword) (signature : List Byte)
  | snoop (data : List (Byte × Bool))
  | read (data : List (Byte × Bool))
  | aborted (ctx : Nat)
deriving DecidableEq, Repr, Inhabited

/-- A package. `gridPast` lists the values that GDUTY has had, the newest first, each with the first cycle in which it no longer
stood (R292, R411). -/
structure Pkg where
  clk0 : Nat
  goff : Int
  unsync : Bool
  lastMsg : Nat
  parts : Tab Partition
  regions : Tab (List Dword)
  remap : Tab Word
  grids : List Grid
  lots : List Lot
  turns : Tab Turnout
  nextAcc : Nat
  late : Nat
  boot : Boot
  svnMin : Word
  svn : Word
  rootHash : List Dword
  leaf : Nat
  ucieDown : BitVec 4
  poolDown : BitVec 2
  portDown : BitVec 18
  replays : Tab Nat
  ranges : List PhysRange
  errs : Tab Nat
  errRing : List (Dword × Dword × Dword)
  errBase : Dword
  lastCorr : Tab Nat
  power : Power
  plMax : Nat
  inlet10 : Nat
  flow10 : Nat
  scrubs : Nat
  ticked : Nat
  gridPast : List (Nat × Nat)
  retrain : Nat
  host : List HostMsg
deriving DecidableEq, Repr, Inhabited

/-- A pod grid as a headgate keeps it (R335-R342). -/
structure PodGrid where
  id : Nat
  seq : Nat
  record : List Dword
  prio : Nat
  src : Nat
  parent : Nat
  next : Nat
  total : Nat
  offer : Option Nat
  cancel : Bool
  kill : Bool
  fin : Nat
  kld : Nat
  nst : Nat
  faults : Nat
  rows : List (Nat × List Nat)
  first : List EvRec
  finals : List Nat
  ended : Bool
  complete : Bool
  tend : Nat
deriving DecidableEq, Repr, Inhabited

/-- What a thread asks of its context's headgate: a launch.pod, or an lcancel or lstat of a pod grid (R335, R342). -/
inductive PodAsk where
  | launch
  | cancel (grid : Nat) (kill : Bool)
  | stat (grid : Nat)
deriving DecidableEq, Repr, Inhabited

/-- A message of a thread on its way to the headgate (R335 step 1, R347): issuing package, block, thread, the register its
answer goes to, priority and record of a launch. -/
structure PodLaunch where
  src : Nat
  blk : Nat
  tid : Nat
  reg : Nat
  prio : Nat
  record : List Dword
  ask : PodAsk
deriving DecidableEq, Repr, Inhabited

/-- What a headgate holds and mirrors to its standby (R334). -/
structure HeadState where
  seq : Nat
  grids : List PodGrid
  inbox : List PodLaunch
deriving DecidableEq, Repr, Inhabited

/-- A context's headgate and standby (R334): `stopped` when the headgate no longer answers, `gone` when neither does; `pkgs`
lists the packages where the context was created. -/
structure Head where
  main : HeadState
  mirror : HeadState
  stopped : Bool
  gone : Bool
  pkgs : List Nat
deriving DecidableEq, Repr, Inhabited

/-- A saved block image (R393-R397): its place in the swap or shadow region, if it has one (R329, R391), those of its dwords that
an error has poisoned, by number, its dwords as laid out, and what it names outside them: the block's launch record and place, the handle records, and the engine commands. -/
structure Image where
  pkg : Nat
  ctx : Nat
  blk : Nat
  reason : SaveReason
  base : Option Nat
  bad : List Nat
  dwords : List Dword
  block : Block
  cmds : List EngCmd
deriving DecidableEq, Repr, Inhabited

/-- A warp that is issuing (R247): its core and partition, the serial of the issue and that of the warp's formation,
the PC, the first cycle and x of R252, the members still to execute and those that have, the register writes made (block,
tid, register), whether reshape changed a tag, whether an event of R253 arose, whether the instruction is a branch (R254),
and its place among the issues of a cycle: 0, or 1 where it writes a block register (R28), 2 where it reshapes (R117), 3 for
codereg, whose status lands behind all (R117, R118). `lanes` lists block, tid and lane. -/
structure IssueWarp where
  pkg : Nat
  core : Nat
  part : Nat
  serial : Nat
  formed : Nat
  pc : VAddr
  start : Nat
  x : Nat
  lanes : List (Nat × Nat × Nat)
  todo : List (Nat × Nat)
  done : List (Nat × Nat)
  wrote : List (Nat × Nat × Nat)
  g : Bool
  event : Bool
  branch : Bool
  last : Nat
deriving DecidableEq, Repr, Inhabited

/-- The state of the machine. -/
structure State where
  /-- core cycles since the model's reset (log entry 11) -/
  cycle : Nat
  /-- the counter of free values (log entries 3 and 5) -/
  tick : Nat
  /-- the member that executes: its block and its tid -/
  cur : Nat × Nat
  /-- the warps issuing now -/
  issue : List IssueWarp
  /-- the events of this cycle that have taken place, of those that come once in it (log entry 3) -/
  did : List Instr
  /-- whether everything whose cycle the spec fixes has taken place in this cycle (log entry 3) -/
  opened : Bool
  /-- the events of other agents to come, oldest first -/
  agenda : List Turn
  pkgs : Tab Pkg
  ctxs : Tab PkgCtx
  cores : Tab Core
  blocks : Tab Block
  mem : List Host.Cell
  bad : Tab Bool
  coh : Coh
  cmds : List EngCmd
  heads : Tab Head
  images : Tab Image
  nextBlk : Nat
  nextCmd : Nat
  nextWarp : Nat
  nextImg : Nat
deriving DecidableEq, Repr, Inhabited

/-- Why the machine stops. -/
inductive Fault where
  /-- Raised by the step's fetch: the instruction word is poisoned, and the spec says of no fault it raises
  (log entry 10). Safe: the hardware goes on and the model says nothing of it. -/
  | poisonedFetch
deriving DecidableEq, Repr, Inhabited

/-- Why an instruction has no meaning here. -/
inductive Refusal where
  /-- Raised by an arm of exec whose instruction has no meaning yet. Safe: nothing is claimed of it. -/
  | notModelled (mnemonic : String)
deriving DecidableEq, Repr, Inhabited

/-- The power word after reset (R410). -/
def Power.reset : Power := ⟨4600, 0, 63, 63, false⟩

/-- A package right after package reset, before boot has begun (R407). The scheduling and sluice words of each
partition hold their reset values (R326, R390). -/
def Pkg.reset : Pkg :=
  { (default : Pkg) with
    parts := (List.range 8).map fun p => (p, ⟨[], 0x000000C803E80080#64, 0x00000000000003E8#64⟩)
    power := Power.reset
    plMax := 4600
    inlet10 := 400
    flow10 := 40 }

/-- The machine right after reset: package 0 before boot, nothing created, nothing placed (log entry 9). -/
def State.reset : State :=
  { (default : State) with pkgs := [(0, Pkg.reset)] }

end Sys2Proof.Machine
end

