-- ==== Sys2Proof/Machine/Num.lean ====
section
/-! DEFINITION. Number formats, bit by bit (spec/05_number_formats.md): decoding, exact arithmetic, the helpers
rnd, roundTo, inDaz and defaultNaN of R137-R142, E8M0 scales and XACC cells. Exact values are dyadic rationals;
a quotient is rounded from its exact fraction. -/

namespace Sys2Proof.Machine

/-- What the top exponent code of a format means (R131 POL): every code finite, IEEE, or one NaN. -/
inductive Pol where
  | finite | ieee | nanOnly
deriving DecidableEq, Repr, Inhabited

/-- A floating-point format: exponent and mantissa widths, bias, sign bit, policy, and whether it is one of the
IEEE formats, to which alone DAZ and FTZ apply (R122, R126, R131, R142). -/
structure Fmt where
  ew : Nat
  mw : Nat
  bias : Nat
  sgn : Bool
  pol : Pol
  ieee : Bool
deriving DecidableEq, Repr, Inhabited

def Fmt.f64 : Fmt := ⟨11, 52, 1023, true, .ieee, true⟩
def Fmt.f32 : Fmt := ⟨8, 23, 127, true, .ieee, true⟩
def Fmt.f16 : Fmt := ⟨5, 10, 15, true, .ieee, true⟩
def Fmt.bf16 : Fmt := ⟨8, 7, 127, true, .ieee, true⟩
def Fmt.e5m2 : Fmt := ⟨5, 2, 15, true, .ieee, false⟩
def Fmt.e4m3 : Fmt := ⟨4, 3, 7, true, .nanOnly, false⟩
def Fmt.e3m2 : Fmt := ⟨3, 2, 3, true, .finite, false⟩
def Fmt.e2m3 : Fmt := ⟨2, 3, 1, true, .finite, false⟩
def Fmt.e2m1 : Fmt := ⟨2, 1, 1, true, .finite, false⟩

/-- The bits of an element. -/
def Fmt.width (f : Fmt) : Nat := f.sgn.toNat + f.ew + f.mw
/-- The exponent of the smallest normal value: 1 - bias (R138). -/
def Fmt.emin (f : Fmt) : Int := 1 - f.bias

/-- A decoded value: a NaN with its kind, an infinity, or (-1)^neg * m * 2^e exactly, zero when m = 0. -/
inductive FV where
  | nan (sig : Bool)
  | inf (neg : Bool)
  | fin (neg : Bool) (m : Nat) (e : Int)
deriving DecidableEq, Repr, Inhabited

/-- The rounding modes of R137. -/
inductive RM where
  | rne | rtz | rup | rdn | rna
deriving DecidableEq, Repr, Inhabited

/-- The environment of an instruction: its rounding mode and the subnormal controls (R144). -/
structure Env where
  rm : RM
  daz : Bool
  ftz : Bool
deriving DecidableEq, Repr, Inhabited

/-- The flags of FPCSR in bits 4 to 0 (R29). -/
abbrev Flags := BitVec 5
def NV : Flags := 16#5
def DZ : Flags := 8#5
def OF : Flags := 4#5
def UF : Flags := 2#5
def NX : Flags := 1#5

/-- decode of R138, by R122, R123, R126 and R131. -/
def fdecode (f : Fmt) (bits : Nat) : FV :=
  let m := bits % 2 ^ f.mw
  let e := bits / 2 ^ f.mw % 2 ^ f.ew
  let neg := f.sgn && (bits / 2 ^ (f.mw + f.ew) % 2 == 1)
  let top := 2 ^ f.ew - 1
  let num : FV := if e = 0 then .fin neg m (f.emin - f.mw) else .fin neg (2 ^ f.mw + m) ((e : Int) - f.bias - f.mw)
  match f.pol with
  | .finite => num
  | .ieee => if e = top then (if m = 0 then .inf neg else .nan (m < 2 ^ (f.mw - 1))) else num
  | .nanOnly => if e = top ∧ m = 2 ^ f.mw - 1 then .nan false else num

/-- The sign bit of an encoding. -/
def signBit (f : Fmt) (neg : Bool) : Nat := if f.sgn && neg then 2 ^ (f.mw + f.ew) else 0

/-- Whether the format has a NaN (R127: policy 01 with MW = 0 has none). -/
def Fmt.hasNaN (f : Fmt) : Bool :=
  match f.pol with
  | .finite => false
  | .ieee => f.mw ≠ 0
  | .nanOnly => true

/-- defaultNaN of R138 (R123, R126, R131). -/
def defaultNaN (f : Fmt) : Nat :=
  match f.pol with
  | .finite => 0
  | .ieee => (2 ^ f.ew - 1) * 2 ^ f.mw + 2 ^ (f.mw - 1)
  | .nanOnly => 2 ^ (f.ew + f.mw) - 1

/-- The exponent field and significand of the largest finite value. -/
def maxFiniteParts (f : Fmt) : Nat × Nat :=
  match f.pol with
  | .finite => (2 ^ f.ew - 1, 2 ^ (f.mw + 1) - 1)
  | .ieee => (2 ^ f.ew - 2, 2 ^ (f.mw + 1) - 1)
  | .nanOnly => if f.mw = 0 then (2 ^ f.ew - 2, 1) else (2 ^ f.ew - 1, 2 ^ (f.mw + 1) - 2)

/-- maxFinite of R138 with a sign, as an encoding. -/
def maxFinite (f : Fmt) (neg : Bool) : Nat :=
  let (e, s) := maxFiniteParts f
  signBit f neg + e * 2 ^ f.mw + (s - 2 ^ f.mw)

/-- The infinity of a format that has one. -/
def infinity (f : Fmt) (neg : Bool) : Nat := signBit f neg + (2 ^ f.ew - 1) * 2 ^ f.mw

/-- rnd(mode, s, q) of R137 for q = num / den. -/
def rnd (rm : RM) (neg : Bool) (num den : Nat) : Nat :=
  let q := num / den
  let r := num % den
  match rm with
  | .rtz => q
  | .rup => if neg ∨ r = 0 then q else q + 1
  | .rdn => if neg ∧ r ≠ 0 then q + 1 else q
  | .rne => if 2 * r > den ∨ (2 * r = den ∧ q % 2 = 1) then q + 1 else q
  | .rna => if 2 * r ≥ den then q + 1 else q

/-- The fraction num / den divided by 2^e. -/
def scaleDown (num den : Nat) (e : Int) : Nat × Nat :=
  if e ≥ 0 then (num, den * 2 ^ e.toNat) else (num * 2 ^ (-e).toNat, den)

/-- floor(log2(num / den)) for positive num and den. -/
def floorLog2 (num den : Nat) : Int :=
  let k : Int := (Nat.log2 num : Int) - Nat.log2 den
  let (a, b) := scaleDown num den k
  if a ≥ b then k else k - 1

/-- Whether n * 2^a > m * 2^b. -/
def gtPow (n : Nat) (a : Int) (m : Nat) (b : Int) : Bool :=
  if a ≥ b then n * 2 ^ (a - b).toNat > m else n > m * 2 ^ (b - a).toNat

/-- The result of an overflow (R140, R127). -/
def overflowTo (f : Fmt) (rm : RM) (neg sat : Bool) : Nat :=
  match f.pol with
  | .finite => maxFinite f neg
  | .nanOnly => if sat then maxFinite f neg else signBit f neg + (2 ^ (f.ew + f.mw) - 1)
  | .ieee =>
    if sat then maxFinite f neg
    else match rm, neg with
      | .rne, _ | .rna, _ => infinity f neg
      | .rtz, _ => maxFinite f neg
      | .rup, false => infinity f false
      | .rup, true => maxFinite f true
      | .rdn, false => maxFinite f false
      | .rdn, true => infinity f true

/-- roundTo of R139 on a nonzero magnitude num / den. -/
def roundMag (f : Fmt) (env : Env) (sat neg : Bool) (num den : Nat) : Nat × Flags :=
  let eu := floorLog2 num den
  let (a1, b1) := scaleDown num den (eu - f.mw)
  let n1 := rnd env.rm neg a1 b1
  let tiny : Bool := eu < f.emin && (eu < f.emin - 1 || n1 < 2 ^ (f.mw + 1))
  let e := max eu f.emin
  let (a, b) := scaleDown num den (e - f.mw)
  let n := rnd env.rm neg a b
  let inexact : Bool := a % b ≠ 0
  let (me, ms) := maxFiniteParts f
  if neg && !f.sgn && n ≠ 0 then (0, NV)
  else if gtPow n e ms ((me : Int) - f.bias) then (overflowTo f env.rm neg sat, OF ||| NX)
  else if tiny && f.ieee && env.ftz && n ≠ 0 then (signBit f neg, UF ||| NX)
  else
    (signBit f neg + (e + f.bias - 1).toNat * 2 ^ f.mw + n,
      (if inexact then NX else 0) ||| (if tiny && inexact then UF else 0))

/-- roundTo of R139, with the NaN and infinity rows of R127; an unsigned format takes no negative value (R131). -/
def roundTo (f : Fmt) (env : Env) (x : FV) (sat : Bool := false) : Nat × Flags :=
  match x with
  | .nan sig =>
    if f.hasNaN then (defaultNaN f, if sig then NV else 0) else (0, NV)
  | .inf neg =>
    if neg && !f.sgn then (0, NV)
    else match f.pol with
    | .ieee => if sat then (maxFinite f neg, 0) else (infinity f neg, 0)
    | .nanOnly => if sat then (maxFinite f neg, 0) else (signBit f neg + (2 ^ (f.ew + f.mw) - 1), NV)
    | .finite => (maxFinite f neg, NV)
  | .fin neg m e =>
    if m = 0 then (signBit f neg, 0)
    else
      let (num, den) := scaleDown m 1 (-e)
      roundMag f env sat neg num den

/-- Whether a decoded value of the format is subnormal. -/
def isSubnormal (f : Fmt) (x : FV) : Bool :=
  match x with
  | .fin _ m e => decide (m ≠ 0 ∧ m < 2 ^ f.mw ∧ e = f.emin - f.mw)
  | _ => false

/-- inDaz of R138: a subnormal of an IEEE format reads as the zero of its sign under DAZ. -/
def inDaz (f : Fmt) (daz : Bool) (x : FV) : FV :=
  if f.ieee && daz && isSubnormal f x then
    match x with
    | .fin neg _ _ => .fin neg 0 0
    | y => y
  else x

/-- A source operand read through inDaz. -/
def fread (f : Fmt) (daz : Bool) (bits : Nat) : FV := inDaz f daz (fdecode f bits)

def FV.isNaN : FV → Bool
  | .nan _ => true
  | _ => false
def FV.isSNaN : FV → Bool
  | .nan s => s
  | _ => false
def FV.isZero : FV → Bool
  | .fin _ 0 _ => true
  | _ => false
def FV.isInf : FV → Bool
  | .inf _ => true
  | _ => false
def FV.sign : FV → Bool
  | .nan _ => false
  | .inf n => n
  | .fin n _ _ => n
def FV.neg : FV → FV
  | .nan s => .nan s
  | .inf n => .inf (!n)
  | .fin n m e => .fin (!n) m e

/-- A signed integer times 2^e as a value; zero takes the given sign. -/
def ofInt (i : Int) (e : Int) (zeroNeg : Bool) : FV :=
  if i = 0 then .fin zeroNeg 0 0 else .fin (i < 0) i.natAbs e

/-- A finite value as an integer at exponent e, not above its own. -/
def atExp (neg : Bool) (m : Nat) (e e0 : Int) : Int :=
  let v : Int := (m * 2 ^ (e - e0).toNat : Nat)
  if neg then -v else v

/-- The exact sum; the caller has settled NaNs and opposite infinities. An exact zero of addends that are not
zeros of one sign is +0, or -0 under RDN (R141). -/
def FV.add (rm : RM) : FV → FV → FV
  | .inf n, _ => .inf n
  | _, .inf n => .inf n
  | .fin n1 m1 e1, .fin n2 m2 e2 =>
    if m1 = 0 ∧ m2 = 0 then .fin (if n1 = n2 then n1 else decide (rm = .rdn)) 0 0
    else
      let e0 := if m1 = 0 then e2 else if m2 = 0 then e1 else min e1 e2
      let a := if m1 = 0 then 0 else atExp n1 m1 e1 e0
      let b := if m2 = 0 then 0 else atExp n2 m2 e2 e0
      ofInt (a + b) e0 (decide (rm = .rdn))
  | x, _ => x

/-- The exact product; the caller has settled NaNs and zero times infinity. -/
def FV.mul : FV → FV → FV
  | .inf a, y => .inf (a != y.sign)
  | x, .inf b => .inf (x.sign != b)
  | .fin a m e, .fin b n f => .fin (a != b) (m * n) (e + f)
  | x, _ => x

/-- Scaling by a power of two. -/
def FV.scale (k : Int) : FV → FV
  | .fin n m e => .fin n m (e + k)
  | x => x

/-- Whether x < y for two values that are not NaNs, taking -0 below +0 when `zeros` is set (R150). -/
def FV.lt (zeros : Bool) : FV → FV → Bool
  | .inf a, .inf b => a && !b
  | .inf a, _ => a
  | _, .inf b => !b
  | .fin a m e, .fin b n f =>
    if m = 0 ∧ n = 0 then zeros && a && !b
    else
      let e0 := min e f
      let x := atExp a m e e0
      let y := atExp b n f e0
      x < y
  | _, _ => false

/-- Whether two values that are not NaNs are equal as reals. -/
def FV.eqv (x y : FV) : Bool := !x.lt false y && !y.lt false x

/-- floor of the square root, from bit b down. -/
def isqrtFrom (n : Nat) : Nat → Nat → Nat
  | 0, r => if (r + 1) * (r + 1) ≤ n then r + 1 else r
  | b + 1, r => isqrtFrom n b (if (r + 2 ^ (b + 1)) * (r + 2 ^ (b + 1)) ≤ n then r + 2 ^ (b + 1) else r)

/-- floor of the square root. -/
def isqrt (n : Nat) : Nat := isqrtFrom n (Nat.log2 n / 2 + 1) 0

/-- A value that every rounding into at most 53 significant bits treats as the square root of m * 2^e: the root
to at least 60 bits, with a last bit that says whether anything was cut off. -/
def FV.sqrtSticky (m : Nat) (e : Int) : FV :=
  let k : Int := 130 - (Nat.log2 m : Int)
  let sh : Nat := (k + (if (k + e) % 2 = 0 then 0 else 1)).toNat
  let m' := m * 2 ^ sh
  let e' := e - sh
  let adj : Nat := (e' % 2).natAbs
  let m'' := m' * 2 ^ adj
  let e'' := e' - adj
  let r := isqrt m''
  .fin false (2 * r + (if r * r = m'' then 0 else 1)) (e'' / 2 - 1)

/-- The signed value of w bits. -/
def sval (w n : Nat) : Int := if n % 2 ^ w < 2 ^ (w - 1) then ((n % 2 ^ w : Nat) : Int) else ((n % 2 ^ w : Nat) : Int) - 2 ^ w

/-- An integer modulo 2^w. -/
def wrap (w : Nat) (i : Int) : Nat := (i % (2 : Int) ^ w).toNat

/-- Rounding a value to an integer (R137, units of 1). -/
def roundInt (rm : RM) (neg : Bool) (m : Nat) (e : Int) : Nat :=
  let (a, b) := scaleDown m 1 (-e)
  rnd rm neg a b

/-- E8M0 (R129): the exponent of a code, or none for NaN. -/
def e8m0 (x : Nat) : Option Int := if x = 255 then none else some ((x : Int) - 127)

/-- An XACC cell's contents (R134): N as a signed integer and the status bits NINF PINF NAN in bits 2 to 0. -/
structure Xacc where
  n : Int
  status : BitVec 3
deriving DecidableEq, Repr, Inhabited

/-- toXacc of R135, with the NV of a signalling NaN. -/
def toXacc (f : Fmt) (daz : Bool) (bits : Nat) : Int × BitVec 3 × Flags :=
  match fread f daz bits with
  | .nan sig => (0, 1#3, if sig then NV else 0)
  | .inf false => (0, 2#3, 0)
  | .inf true => (0, 4#3, 0)
  | .fin neg m e => (atExp neg m (e + 160) 0, 0#3, 0)

/-- xaccAdd of R135: N wraps modulo 2^384 and the status bits are ORed in. -/
def xaccAdd (c : Xacc) (n : Int) (st : BitVec 3) : Xacc :=
  ⟨sval 384 (wrap 384 (c.n + n)), c.status ||| st⟩

/-- fromXacc of R136. -/
def fromXacc (f : Fmt) (env : Env) (c : Xacc) : Nat × Flags :=
  if c.status.getLsbD 0 || (c.status.getLsbD 1 && c.status.getLsbD 2) then (defaultNaN f, NV)
  else if c.status.getLsbD 1 then (infinity f false, 0)
  else if c.status.getLsbD 2 then (infinity f true, 0)
  else roundTo f env (ofInt c.n (-160) false)

/-- The rounding mode of an FPCSR.RM code (R29); codes 101 to 111 are never held. -/
def rmOfCode (c : BitVec 3) : RM :=
  match c.toNat with
  | 1 => .rtz
  | 2 => .rup
  | 3 => .rdn
  | 4 => .rna
  | _ => .rne

/-- The mode an RMO override selects (R70). -/
def rmOf (o : Rmo) (c : BitVec 3) : RM :=
  match o with
  | .none => rmOfCode c
  | .rne => .rne
  | .rtz => .rtz
  | .rup => .rup
  | .rdn => .rdn
  | .rna => .rna

/-- The format of a type code that is a floating-point format. -/
def fmtOf : Ty → Fmt
  | .f64 => .f64
  | .f16 => .f16
  | .bf16 => .bf16
  | .e4m3 => .e4m3
  | .e5m2 => .e5m2
  | .e3m2 => .e3m2
  | .e2m3 => .e2m3
  | .e2m1 => .e2m1
  | _ => .f32

/-- The format of an FP source code (R78). -/
def fmtOfSrc : FpSrc → Fmt
  | .f32 => .f32
  | .f64 => .f64
  | .f16 => .f16
  | .bf16 => .bf16

/-- The format of an atomx element (R182). -/
def fmtOfX : XFmt → Fmt
  | .f32 => .f32
  | .f16 => .f16
  | .bf16 => .bf16

end Sys2Proof.Machine
end

