-- ==== Sys2Proof/Machine/Tab.lean ====
section
/-! DEFINITION. Reading and writing a sparse table: the one canonical form of every indexed collection of the
state, memory among them (an entry stands only where it differs from the default). -/

namespace Sys2Proof.Machine

/-- The value at a key: its entry's, or the default where the table lists none. -/
def tget {α : Type} [Inhabited α] : Tab α → Nat → α
  | [], _ => default
  | (j, v) :: t, k => if j = k then v else tget t k

/-- The table without any entry at a key. -/
def terase {α : Type} : Tab α → Nat → Tab α
  | [], _ => []
  | (j, v) :: t, k => if j = k then terase t k else (j, v) :: terase t k

/-- The table with an entry put at its place among rising keys. -/
def tinsert {α : Type} : Tab α → Nat → α → Tab α
  | [], k, v => [(k, v)]
  | (j, w) :: t, k, v =>
    if k < j then (k, v) :: (j, w) :: t
    else if k = j then (k, v) :: t
    else (j, w) :: tinsert t k v

/-- The table with a value at a key; writing the default removes the entry. -/
def tset {α : Type} [Inhabited α] [DecidableEq α] (t : Tab α) (k : Nat) (v : α) : Tab α :=
  if v = default then terase t k else tinsert t k v

/-- The table with the value at a key changed by a function. -/
def tmod {α : Type} [Inhabited α] [DecidableEq α] (t : Tab α) (k : Nat) (f : α → α) : Tab α :=
  tset t k (f (tget t k))

/-- The canonical form: keys strictly rising and above `lo`, no entry equal to the default. -/
def twfFrom {α : Type} [Inhabited α] [DecidableEq α] : Nat → Tab α → Bool
  | _, [] => true
  | lo, (k, v) :: t => decide (lo ≤ k) && decide (v ≠ default) && twfFrom (k + 1) t

/-- The canonical form of a table. -/
def twf {α : Type} [Inhabited α] [DecidableEq α] (t : Tab α) : Bool := twfFrom 0 t

/-- n consecutive values from a key. -/
def tgets {α : Type} [Inhabited α] (t : Tab α) (k : Nat) : Nat → List α
  | 0 => []
  | n + 1 => tget t k :: tgets t (k + 1) n

/-- Values put at consecutive keys. -/
def tsets {α : Type} [Inhabited α] [DecidableEq α] (t : Tab α) : Nat → List α → Tab α
  | _, [] => t
  | k, v :: vs => tsets (tset t k v) (k + 1) vs

/-- A list with its k-th entry taken out. -/
def dropAt {α : Type} (l : List α) (k : Nat) : List α := l.take k ++ l.drop (k + 1)

end Sys2Proof.Machine
end

