-- ==== Sys2Proof/Machine/Phys.lean ====
section
/-! DEFINITION. Bits of words, the clocks, the launch record's fields, and physical memory: keys of bytes, home dies,
reading and writing with poison (R4, R8, R175, R235, R372, R414). -/

namespace Sys2Proof.Machine

/-- Bits [hi:lo] of a dword as a number (R8). -/
def bitsOf (d : Dword) (hi lo : Nat) : Nat := d.toNat / 2 ^ lo % 2 ^ (hi + 1 - lo)

/-- One bit of a dword. -/
def bitAt (d : Dword) (i : Nat) : Bool := d.getLsbD i

/-- The n-th dword of a record. -/
def dw (r : List Dword) (n : Nat) : Dword := r.getD n 0

/-- Bytes, lowest address first, as a little-endian number (R8). -/
def leNat : List Byte → Nat
  | [] => 0
  | b :: bs => b.toNat + 256 * leNat bs

/-- A number as n little-endian bytes (R8). -/
def leBytes : Nat → Nat → List Byte
  | 0, _ => []
  | n + 1, v => BitVec.ofNat 8 v :: leBytes n (v / 256)

/-- Nanoseconds since the model's reset: the cores run at 1.3 GHz (R2). -/
def State.ns (s : State) : Nat := s.cycle * 10 / 13

def State.pkg (s : State) (p : Nat) : Pkg := tget s.pkgs p
def State.modPkg (s : State) (p : Nat) (f : Pkg → Pkg) : State := { s with pkgs := tmod s.pkgs p f }

/-- %gtime as a package's cores see it (R4, R343), the same value on each of them (DESIGN CHOICE, log entry 57). -/
def State.gtime (s : State) (p : Nat) : Nat := ((s.ns : Int) + (s.pkg p).goff).toNat % 2 ^ 64

/-- %clock: cycles since package reset (R26). -/
def State.clock (s : State) (p : Nat) : Nat := (s.cycle - (s.pkg p).clk0) % 2 ^ 64

/-- Keys of the tables of cores and of contexts on packages. -/
def coreKey (p c : Nat) : Nat := p * 512 + c
def ctxKey (p x : Nat) : Nat := p * 65536 + x

def State.core (s : State) (p c : Nat) : Core := tget s.cores (coreKey p c)
def State.modCore (s : State) (p c : Nat) (f : Core → Core) : State :=
  { s with cores := tmod s.cores (coreKey p c) f }
def State.pctx (s : State) (p x : Nat) : PkgCtx := tget s.ctxs (ctxKey p x)
def State.modCtx (s : State) (p x : Nat) (f : PkgCtx → PkgCtx) : State :=
  { s with ctxs := tmod s.ctxs (ctxKey p x) f }
def State.blk (s : State) (b : Nat) : Block := tget s.blocks b
def State.modBlk (s : State) (b : Nat) (f : Block → Block) : State := { s with blocks := tmod s.blocks b f }
def State.thr (s : State) (b t : Nat) : Thread := tget (s.blk b).threads t
def Block.modThr (bl : Block) (t : Nat) (f : Thread → Thread) : Block := { bl with threads := tmod bl.threads t f }
def State.modThr (s : State) (b t : Nat) (f : Thread → Thread) : State := s.modBlk b fun bl => bl.modThr t f
/-- The thread that executes. -/
def State.me (s : State) : Thread := s.thr s.cur.1 s.cur.2
/-- Its block. -/
def State.myBlk (s : State) : Block := s.blk s.cur.1
def State.modMe (s : State) (f : Thread → Thread) : State := s.modThr s.cur.1 s.cur.2 f
def State.modMyBlk (s : State) (f : Block → Block) : State := s.modBlk s.cur.1 f
def State.modCoh (s : State) (f : Coh → Coh) : State := { s with coh := f s.coh }

-- The launch record (R235)
def recGrid (r : List Dword) : Dim3 := ⟨bitsOf (dw r 0) 31 0, bitsOf (dw r 0) 63 32, bitsOf (dw r 1) 31 0⟩
def recBlock (r : List Dword) : Dim3 := ⟨bitsOf (dw r 2) 10 0, bitsOf (dw r 2) 21 11, bitsOf (dw r 2) 32 22⟩
def recCluster (r : List Dword) : Dim3 := ⟨bitsOf (dw r 2) 51 48, bitsOf (dw r 2) 55 52, bitsOf (dw r 2) 59 56⟩
def recShb (r : List Dword) : Nat := bitsOf (dw r 1) 50 32
def recCode (r : List Dword) : VAddr := (dw r 3).truncate 57
def recParam (r : List Dword) : Dword := dw r 4
def recPbytes (r : List Dword) : Nat := bitsOf (dw r 5) 63 32
def recLocal (r : List Dword) : Nat := bitsOf (dw r 5) 31 0
def recOrd (r : List Dword) : Bool := bitAt (dw r 6) 15
def recDet (r : List Dword) : Bool := bitAt (dw r 6) 14
def recChk (r : List Dword) : Bool := bitAt (dw r 6) 13
def recDeti (r : List Dword) : BitVec 3 := BitVec.ofNat 3 (bitsOf (dw r 6) 12 10)
def recNrole (r : List Dword) : Nat := bitsOf (dw r 6) 9 8 + 1
def roleEntry (r : List Dword) (k : Nat) : Nat := bitsOf (dw r (8 + k)) 63 32
def rolePrio (r : List Dword) (k : Nat) : Nat := bitsOf (dw r (8 + k)) 26 24
def roleFurr (r : List Dword) (k : Nat) : Nat := bitsOf (dw r (8 + k)) 21 16
def roleRegs (r : List Dword) (k : Nat) : Nat := bitsOf (dw r (8 + k)) 15 8

/-- Members of a triple. -/
def vol (d : Dim3) : Nat := d.x * d.y * d.z
/-- Threads of a block. -/
def Block.nthr (bl : Block) : Nat := vol (recBlock bl.record)
/-- Shared bytes of a block. -/
def Block.shb (bl : Block) : Nat := recShb bl.record
/-- The home partition of a thread: (first partition + furrow) mod 4 (R6). -/
def Block.homePart (bl : Block) (t : Nat) : Nat := (bl.part0 + t / 32) % 4
/-- The home lane of a thread (R6). -/
def homeLane (t : Nat) : Nat := t % 32
/-- The thread index in the block (R6, R26). -/
def Block.tidXyz (bl : Block) (t : Nat) : Dim3 :=
  let n := recBlock bl.record
  ⟨t % n.x, t / n.x % n.y, t / (n.x * n.y)⟩

/-- The published range that holds a physical address above HBM. -/
def State.range? (s : State) (p pa : Nat) : Option PhysRange :=
  (s.pkg p).ranges.find? fun r => r.base ≤ pa && pa ≤ r.last

/-- The key of a physical byte: pool bytes are shared by every package that maps the device (R403). -/
def State.physKey (s : State) (p pa : Nat) : Nat :=
  match s.range? p pa with
  | some r => if r.device = 0 then p * 2 ^ 52 + pa else (8192 + r.device) * 2 ^ 52 + (pa - r.base)
  | none => p * 2 ^ 52 + pa

/-- Whether a physical address lies in the physical map (R372). -/
def State.inMap (s : State) (p pa : Nat) : Bool := pa < Config.hbmEnd || (s.range? p pa).isSome

/-- The home die of a physical address (R414). -/
def homeDie (pa : Nat) : Nat := if pa < Config.hbmEnd then pa / Config.hbmPerDie else pa / 4096 % 4

/-- Whether a range of physical addresses is cut off: host memory with every UCIe module down (R401), a pool range
whose port is down (R402). -/
def State.cutOff (s : State) (p pa : Nat) : Bool :=
  match s.range? p pa with
  | some r => if r.device = 0 then decide ((s.pkg p).ucieDown = 15#4) else (s.pkg p).poolDown.getLsbD r.port
  | none => false

/-- Whether the host reaches a package (R401). -/
def State.hostUp (s : State) (p : Nat) : Bool := (s.pkg p).ucieDown ≠ 15#4
/-- Something sent to a package's host: nothing crosses a link that is down (R400, R401). -/
def State.tellHost (s : State) (p : Nat) (m : HostMsg) : State :=
  if s.hostUp p then s.modPkg p fun q => { q with host := q.host ++ [m] } else s

/-- Whether Root runs and the host reaches it: past stage 2, where a package whose images have failed stays (R401, R407). -/
def State.rootUp (s : State) (p : Nat) : Bool := s.hostUp p && 2 < (s.pkg p).boot.stage

/-- A message delivered over the link between two packages: the port that carried it, which is left open (log entry 11), needs
its replays in a row from the beginning (R345). A port that is down carries nothing. -/
def State.carried (s : State) (p q : Nat) : State :=
  let clear (n : Nat) (k : Pkg) : Pkg :=
    let port := Config.freeDraw (s.tick + n) % 18
    { k with replays := if k.portDown.getLsbD port then k.replays else terase k.replays port }
  if p = q then s else (s.modPkg p (clear 0)).modPkg q (clear 1)

/-- Poisoned bytes whose value nothing fixes (R383, R401). -/
def State.freeBytes (s : State) (k n : Nat) : List (Byte × Bool) :=
  (List.range n).map fun i => (Config.freeByte s.tick (k + i), true)

/-- n bytes at a physical address with their poison; a range that is cut off reads as poisoned bytes whose value
nothing fixes (R401). -/
def State.physRead (s : State) (p pa n : Nat) : List (Byte × Bool) :=
  let k := s.physKey p pa
  if s.cutOff p pa then s.freeBytes k n
  else (tgets s.mem k n).zip (tgets s.bad k n)

/-- Bytes put at a physical address with their poison; a write to a range that is cut off is discarded (R401). -/
def State.physWrite (s : State) (p pa : Nat) (bs : List (Byte × Bool)) : State :=
  if s.cutOff p pa then s
  else
    let k := s.physKey p pa
    { s with mem := tsets s.mem k (bs.map (·.1)), bad := tsets s.bad k (bs.map (·.2)) }

/-- A dword of physical memory. -/
def State.read64 (s : State) (p pa : Nat) : Dword := BitVec.ofNat 64 (leNat ((s.physRead p pa 8).map (·.1)))

/-- Unpoisoned bytes. -/
def clean (bs : List Byte) : List (Byte × Bool) := bs.map fun b => (b, false)

/-- A dword put into physical memory. -/
def State.write64 (s : State) (p pa : Nat) (v : Dword) : State := s.physWrite p pa (clean (leBytes 8 v.toNat))

/-- Dwords put at rising addresses. -/
def State.writeDws (s : State) (p pa : Nat) : List Dword → State
  | [] => s
  | d :: ds => (s.write64 p pa d).writeDws p (pa + 8) ds

/-- n dwords of physical memory. -/
def State.readDws (s : State) (p pa : Nat) : Nat → List Dword
  | 0 => []
  | n + 1 => s.read64 p pa :: s.readDws p (pa + 8) n

/-- n bytes of a private memory with their poison. -/
def Bytes.read (m : Bytes) (a n : Nat) : List (Byte × Bool) := (tgets m.cells a n).zip (tgets m.bad a n)
/-- Bytes put into a private memory. -/
def Bytes.write (m : Bytes) (a : Nat) (bs : List (Byte × Bool)) : Bytes :=
  ⟨tsets m.cells a (bs.map (·.1)), tsets m.bad a (bs.map (·.2))⟩
/-- A little-endian number of a private memory. -/
def Bytes.num (m : Bytes) (a n : Nat) : Nat := leNat (tgets m.cells a n)

-- The context descriptor (R313), read where it stands in memory
def State.descDw (s : State) (p x n : Nat) : Dword := s.read64 p ((s.pctx p x).desc + 8 * n)

/-- Whether an RZ field of the descriptor is nonzero (R313). -/
def State.descBad (s : State) (p x : Nat) : Bool :=
  let d := s.descDw p x
  bitsOf (d 2) 63 52 ≠ 0 || bitsOf (d 2) 11 1 ≠ 0 || bitsOf (d 3) 63 57 ≠ 0 || bitsOf (d 3) 2 0 ≠ 0
    || bitsOf (d 4) 63 52 ≠ 0 || bitsOf (d 4) 10 0 ≠ 0 || bitsOf (d 5) 11 1 ≠ 0
    || (List.range 10).any fun i => d (6 + i) ≠ 0

/-- The partition record of a context's package (R382). -/
def State.partOf (s : State) (p x : Nat) : Partition := tget (s.pkg p).parts (s.pctx p x).part
/-- The world of a context: S of its partition (R41, R382). -/
def State.world (s : State) (p x : Nat) : Bool := bitAt (dw (s.partOf p x).record 4) 0
/-- The die of a logical core (R3). -/
def dieOf (c : Nat) : Nat := c / Config.coresPerDie

-- A partition's scheduling word (R326) and sluice word (R390)
def Partition.gdl (q : Partition) : Nat := bitsOf q.sched 45 32
def Partition.quant (q : Partition) : Nat := bitsOf q.sched 27 16
def Partition.age (q : Partition) : Nat := bitsOf q.sched 15 0
def Partition.shbase (q : Partition) : Nat := bitsOf q.sluice 63 33 * 2 ^ 21
def Partition.shsz (q : Partition) : Nat := bitsOf q.sluice 32 23
def Partition.sdl (q : Partition) : Nat := bitsOf q.sluice 15 0

/-- FPCSR as a word (R29). -/
def Fpcsr.toWord (f : Fpcsr) : Word :=
  BitVec.ofNat 32 (f.rm.toNat * 512 + f.daz.toNat * 256 + f.ftz.toNat * 128 + f.flags.toNat)
/-- The fields of FPCSR in a word (R29); the RZ fields are dropped. -/
def Fpcsr.ofWord (w : Word) : Fpcsr :=
  ⟨BitVec.ofNat 3 (w.toNat / 512), w.getLsbD 8, w.getLsbD 7, BitVec.ofNat 5 w.toNat⟩
/-- MSTATE as a word (R31). -/
def MState.toWord (m : MState) : Word :=
  BitVec.ofNat 32 (m.abase.toNat * 2 ^ 24 + m.crew.toNat * 2 ^ 17 + m.res.toNat * 256 + m.h.toNat * 8
    + m.vp.toNat * 4 + m.mp.toNat * 2 + m.mode.toNat)
/-- The fields of MSTATE in a word (R31). -/
def MState.ofWord (w : Word) : MState :=
  ⟨BitVec.ofNat 8 (w.toNat / 2 ^ 24), BitVec.ofNat 7 (w.toNat / 2 ^ 17), w.getLsbD 8, w.getLsbD 3, w.getLsbD 2,
    w.getLsbD 1, w.getLsbD 0⟩
/-- CNTS as a word (R33). -/
def Thread.cnts (t : Thread) : Word := BitVec.ofNat 32 (t.ecnt * 4096 + t.scnt * 64 + t.lcnt)
/-- MPROG as a word (R34). -/
def MProg.toWord (m : MProg) : Word := BitVec.ofNat 32 (m.rsm.toNat * 2 ^ 31 + m.depth.toNat * 2 ^ 16 + m.pass.toNat)
/-- The fields of MPROG in a word (R34). -/
def MProg.ofWord (w : Word) : MProg := ⟨w.getLsbD 31, BitVec.ofNat 13 (w.toNat / 2 ^ 16), BitVec.ofNat 13 w.toNat⟩
/-- MGANG as a word (R35). -/
def Mgang.toWord (m : Mgang) : Word :=
  BitVec.ofNat 32 (m.v.toNat * 2 ^ 31 + m.f3.toNat * 2 ^ 15 + m.f2.toNat * 2 ^ 10 + m.f1.toNat * 32 + m.f0.toNat)
/-- The fields of MGANG in a word (R35, R208): with bit 31 clear the whole register is 0. -/
def Mgang.ofWord (w : Word) : Mgang :=
  if w.getLsbD 31 then
    ⟨true, BitVec.ofNat 5 w.toNat, BitVec.ofNat 5 (w.toNat / 32), BitVec.ofNat 5 (w.toNat / 2 ^ 10),
      BitVec.ofNat 5 (w.toNat / 2 ^ 15)⟩
  else default
/-- The furrow in crew slot k (R35). -/
def Mgang.furrow (m : Mgang) (k : Nat) : Nat :=
  match k with
  | 0 => m.f0.toNat
  | 1 => m.f1.toNat
  | 2 => m.f2.toNat
  | _ => m.f3.toNat
/-- A frame word (R39): V, CAUSE, PC bits [56:3], HF. -/
def frameWord (cause : Nat) (pc : VAddr) (hf : Bool) : Dword :=
  BitVec.ofNat 64 (2 ^ 63 + cause * 2 ^ 55 + pc.toNat / 8 * 2 + hf.toNat)
/-- A TCAUSE word (R40). -/
def tcauseWord (sub : Nat) (addr : Option Nat) : Dword :=
  BitVec.ofNat 64 ((match addr with | some a => 2 ^ 63 + a % 2 ^ 57 | none => 0) + sub * 2 ^ 57)
/-- The pc held in a frame (R39). -/
def framePc (f : Dword) : VAddr := BitVec.ofNat 57 (bitsOf f 54 1 * 8)
/-- ENTRY * 8 of TVEC (R38, R387). -/
def tvecPc (v : Dword) : VAddr := BitVec.ofNat 57 (bitsOf v 56 3 * 8)

/-- The clock of the write that a byte of memory is of, as a package's cores know it (R363, R403). -/
def State.clockAt (s : State) (p k : Nat) : List Nat :=
  let e := tget s.coh.vcs k
  if e.1 = p then e.2 else []

end Sys2Proof.Machine
end

