-- ==== Sys2Proof/Machine/Xlat.lean ====
section
/-! DEFINITION. Address translation: the page walk, the TLBs, permission and region checks, and page requests
(spec/22_translation_security.md R372-R380, R383). -/

namespace Sys2Proof.Machine

/-- Why a translation fails: a fault with its cause and SUB (R378), or an entry with V = 0 (R375). -/
inductive XErr where
  | fault (cause sub : Nat)
  | absent
deriving DecidableEq, Repr, Inhabited

/-- A leaf as a walk finds it. -/
structure Leaf where
  base : Nat
  size : Nat
  pa : Nat
  r : Bool
  w : Bool
  short : Bool
deriving DecidableEq, Repr, Inhabited

/-- The bytes of a page whose leaf stands at a level (R374). -/
def levelSize (n : Nat) : Nat := 2 ^ (12 + 9 * n)
/-- The index of an address at a level (R374). -/
def levelIndex (n va : Nat) : Nat := va / levelSize n % 512

/-- Whether an entry breaks a rule of R375 at its level. -/
def entryBad (n : Nat) (e : Dword) : Bool :=
  let leaf := bitAt e 3
  bitsOf e 63 52 ≠ 0 || bitsOf e 11 7 ≠ 0 || bitsOf e 6 5 ≥ 2
    || (n = 0 && !leaf) || (n ≥ 3 && leaf)
    || (leaf && bitsOf e 51 12 * 4096 % levelSize n ≠ 0)

/-- Whether sixteen entries form a 64 KiB page (R375): they differ in PA [15:12] only, and those count 0 to 15. -/
def p64Good (g : List Dword) : Bool :=
  let mask : Dword := ~~~0xF000#64
  (List.range 16).all fun k =>
    (dw g k &&& mask) = (dw g 0 &&& mask) && bitsOf (dw g k) 15 12 = k

/-- The walk from a table at a level (R374, R375). -/
def State.walkFrom (s : State) (p va : Nat) : Nat → Nat → Except XErr Leaf
  | 0, table =>
    let e := s.read64 p (table + 8 * levelIndex 0 va)
    if !bitAt e 0 then .error .absent
    else if entryBad 0 e then .error (.fault 0x0C 2)
    else if bitAt e 4 then
      let i := levelIndex 0 va / 16 * 16
      if !p64Good (s.readDws p (table + 8 * i) 16) then .error (.fault 0x0C 2)
      else
        let pa := bitsOf e 51 16 * 65536
        if s.inMap p pa && s.inMap p (pa + 65535) then
          .ok ⟨va / 65536 * 65536, 65536, pa, bitAt e 1, bitAt e 2, bitsOf e 6 5 = 1⟩
        else .error (.fault 0x0C 3)
    else
      let pa := bitsOf e 51 12 * 4096
      if s.inMap p pa && s.inMap p (pa + 4095) then
        .ok ⟨va / 4096 * 4096, 4096, pa, bitAt e 1, bitAt e 2, bitsOf e 6 5 = 1⟩
      else .error (.fault 0x0C 3)
  | n + 1, table =>
    let e := s.read64 p (table + 8 * levelIndex (n + 1) va)
    if !bitAt e 0 then .error .absent
    else if entryBad (n + 1) e then .error (.fault 0x0C 2)
    else
      let pa := bitsOf e 51 12 * 4096
      if bitAt e 3 then
        let z := levelSize (n + 1)
        if s.inMap p pa && s.inMap p (pa + z - 1) then
          .ok ⟨va / z * z, z, pa, bitAt e 1, bitAt e 2, bitsOf e 6 5 = 1⟩
        else .error (.fault 0x0C 3)
      else if s.inMap p pa then s.walkFrom p va n pa
      else .error (.fault 0x0C 3)

/-- The whole walk under a context's translation word (R373). -/
def State.walk (s : State) (p x va : Nat) : Except XErr Leaf :=
  let t := (s.pctx p x).xlat
  if !bitAt t 0 then .error (.fault 0x0C 1)
  else
    let root := bitsOf t 51 12 * 4096
    if s.inMap p root then s.walkFrom p va 4 root else .error (.fault 0x0C 3)

/-- The addresses of the entries that a walk from a table reads (R374, R375). -/
def State.tableReads (s : State) (p va : Nat) : Nat → Nat → List Nat
  | 0, table => [table + 8 * levelIndex 0 va]
  | n + 1, table =>
    let a := table + 8 * levelIndex (n + 1) va
    let e := s.read64 p a
    let next := bitsOf e 51 12 * 4096
    a :: if bitAt e 0 && !entryBad (n + 1) e && !bitAt e 3 && s.inMap p next then s.tableReads p va n next else []

-- Region descriptors (R383)
def regionBase (d : List Dword) : Nat := bitsOf (dw d 0) 51 12
def regionLast (d : List Dword) : Nat := bitsOf (dw d 1) 51 12
def regionEn (d : List Dword) : Bool := bitAt (dw d 2) 10

/-- The descriptor that decides a physical page: the lowest-numbered enabled one that covers it. -/
def regionAt (rs : Tab (List Dword)) (page : Nat) : Option (Nat × List Dword) :=
  rs.find? fun r => r.1 < 64 && regionEn r.2 && regionBase r.2 ≤ page && page ≤ regionLast r.2

/-- The region check over a range of physical pages for an agent of a partition: the SUB of the world fault, if any;
4 faults writes only (R378, R383). -/
def State.regionCheck (s : State) (p x lo hi : Nat) : Option Nat :=
  let rs := (s.pkg p).regions
  match regionAt rs lo with
  | none => some 1
  | some (i, d) =>
    if regionLast d < hi
        || rs.any (fun r => r.1 < i && regionEn r.2 && regionBase r.2 ≤ hi && lo ≤ regionLast r.2) then some 1
    else if bitAt (dw d 2) 8 && !s.world p x then some 2
    else if !(bitAt (dw d 2) (s.pctx p x).part) then some 3
    else if bitAt (dw d 2) 9 then some 4
    else none

/-- The result a walk would install in a TLB (R376). -/
def State.fill (s : State) (p unit x va : Nat) : Except XErr TlbEntry :=
  match s.walk p x va with
  | .error e => .error e
  | .ok l => .ok ⟨p, unit, x, l.base, l.size, (s.pctx p x).gen, l.pa, l.r, l.w, l.short,
      s.regionCheck p x (l.pa / 4096) ((l.pa + l.size - 1) / 4096)⟩

/-- The entry of a TLB that holds an address (R376): unit 0-3 is a die TLB, 4 + b is basin b's. -/
def State.tlbFind (s : State) (p unit x va : Nat) : Option TlbEntry :=
  s.coh.tlb.find? fun e => e.pkg = p && e.die = unit && e.ctx = x && e.base ≤ va && va < e.base + e.size

/-- The TLBs that serve a core: its basin's, then its die's. -/
def coreUnits (c : Nat) : List Nat := [4 + c / 4, dieOf c]

/-- An entry put into TLBs, in place of any other of the same page there. -/
def State.tlbPut (s : State) (units : List Nat) (e : TlbEntry) : State :=
  let old (o : TlbEntry) : Bool := o.pkg = e.pkg && o.ctx = e.ctx && units.contains o.die
    && o.base < e.base + e.size && e.base < o.base + o.size
  let put := units.map fun u => { e with die := u }
  s.modCoh fun h => { h with tlb := put ++ h.tlb.filter fun o => !old o }

/-- Whether an address lies in a page of a registered code object of its context (R60, R378): `base` and `size` are
those of the page that the leaf maps. -/
def State.codePage (s : State) (p x base size : Nat) : Bool :=
  (s.pctx p x).objs.any fun o => o.base.toNat < base + size && base < o.base.toNat + 8 * o.nwords

/-- Permission, then world, for a read, a write or both (R378). -/
def State.permit (s : State) (e : TlbEntry) (rd wr : Bool) : Option XErr :=
  if rd && !e.r then some (.fault 0x0D 1)
  else if wr && !e.w then some (.fault 0x0D 2)
  else if wr && s.codePage e.pkg e.ctx e.base e.size then some (.fault 0x0D 3)
  else match e.region with
    | none => none
    | some 4 => if wr then some (.fault 0x0E 4) else none
    | some k => some (.fault 0x0E k)

/-- A translation that succeeded: the package and physical address, the generation its entry carries, whether the page
gives short leases, and its size. -/
structure Xl where
  pkg : Nat
  pa : Nat
  gen : BitVec 8
  short : Bool
  page : Nat
deriving DecidableEq, Repr, Inhabited

/-- A virtual address translated at the TLBs of a list of units, the nearest first (R376, R378). A TLB entry may have
been evicted before this access (log entry 8). -/
def State.xlateAt (s : State) (p : Nat) (units : List Nat) (x va : Nat) (rd wr : Bool) : State × Except XErr Xl :=
  let walked := s.fill p (units.getLastD 0) x va
  match (match units.findSome? fun u => s.tlbFind p u x va with
    | none => walked
    | some e => if Config.tlbEvicted s.tick then walked else Except.ok e) with
  | .error e => (s, .error e)
  | .ok e =>
    let s' := s.tlbPut units e
    match s.permit e rd wr with
    | some err => (s', .error err)
    | none => (s', .ok ⟨p, e.pa + (va - e.base), e.gen, e.short, e.size⟩)

/-- A package's number in a context (R313, R334). -/
def State.pkgNo (s : State) (p x : Nat) : Nat := bitsOf (s.descDw p x 5) 63 51
/-- The number of packages of a context. -/
def State.pkgCount (s : State) (p x : Nat) : Nat := bitsOf (s.descDw p x 5) 50 38 + 1
/-- The package that bears a number in a context, as its descriptor there says now (R313, R334). -/
def State.pkgAt (s : State) (x n : Nat) : Option Nat :=
  (tget s.heads x).pkgs.find? fun p => (s.pctx p x).live && s.pkgNo p x = n

/-- The package of a context's headgate, or of its standby once that has taken over (R313, R334). -/
def State.headPkg (s : State) (p x : Nat) : Option Nat :=
  let d := s.descDw p x 5
  s.pkgAt x (if (tget s.heads x).stopped then bitsOf d 24 12 else bitsOf d 37 25)

/-- Whether an address lies in a peer window (R372), the number of its package and its offset. -/
def isPeer (va : Nat) : Bool := va / 2 ^ 56 % 2 = 1
def peerNo (va : Nat) : Nat := va / 2 ^ 43 % 2 ^ 13
def peerOff (va : Nat) : Nat := va % 2 ^ 43

/-- The die of a peer whose TLB translates an address there: that of its home (R376). -/
def State.peerUnit (s : State) (q x va : Nat) : Nat :=
  let home (e : TlbEntry) : Nat := homeDie (e.pa + (va - e.base))
  match (List.range Config.dies).find? fun d => (s.tlbFind q d x va).any fun e => home e = d with
  | some d => d
  | none => match s.fill q 0 x va with
    | .ok e => home e
    | .error _ => 0

/-- A .g address of a thread or an engine translated: its own package's tables, or for a peer window the peer's, at
the die TLB of the peer's home die (R372, R376). -/
def State.xlate (s : State) (p : Nat) (units : List Nat) (x va : Nat) (rd wr : Bool) : State × Except XErr Xl :=
  if isPeer va then
    if peerNo va = s.pkgNo p x then (s, .error (.fault 0x0C 4))
    else match s.pkgAt x (peerNo va) with
      | none => (s, .error (.fault 0x0C 4))
      | some q => s.xlateAt q [s.peerUnit q x (peerOff va)] x (peerOff va) rd wr
  else s.xlateAt p units x va rd wr

/-- How many table entries a translation reads in memory that is cut off (R375, R401, R402): none where a TLB holds the address. -/
def State.tableCuts (s : State) (p : Nat) (units : List Nat) (x va : Nat) : Nat :=
  let cuts (q : Nat) (us : List Nat) (a : Nat) : Nat :=
    let t := (s.pctx q x).xlat
    if (us.findSome? fun u => s.tlbFind q u x a).isSome && !Config.tlbEvicted s.tick || !bitAt t 0
        || !s.inMap q (bitsOf t 51 12 * 4096) then 0
    else ((s.tableReads q a 4 (bitsOf t 51 12 * 4096)).filter (s.cutOff q)).length
  if !isPeer va then cuts p units va
  else if peerNo va = s.pkgNo p x then 0
  else match s.pkgAt x (peerNo va) with
    | some q => cuts q [s.peerUnit q x (peerOff va)] (peerOff va)
    | none => 0

/-- Where a page request for an address goes (R379): the package whose tables hold the missing entry, and the address
within its context's space. -/
def State.requestPlace (s : State) (p x va : Nat) : Nat × Nat :=
  if isPeer va then ((s.pkgAt x (peerNo va)).getD p, peerOff va) else (p, va)

/-- The two dwords of a page-request record, with the package's number for the context (R379). -/
def requestRecord (num : Nat) (q : PageReq) : Dword × Dword :=
  (BitVec.ofNat 64 (q.vpn * 4096 + q.kind * 1024 + q.eng.toNat * 512), BitVec.ofNat 64 (num * 2 ^ 48 + q.tag))

/-- Whether a need of one kind joins a request of another (R379): a read or a preq joins any, a write only a write. -/
def kindJoins (need have_ : Nat) : Bool := need ≠ 1 || have_ = 1

/-- The lowest free tag of a package, if any. -/
def State.freeTag (s : State) (p : Nat) : Option Nat :=
  (List.range Config.maxTags).find? fun t => s.coh.reqs.all fun q => !(q.pkg = p && q.tag = t)

/-- A need for a page (R379): it joins an outstanding request of sufficient kind, or a new record is sent under the
lowest free tag; with no tag free nothing is sent, nor while the host is out of reach (R400, R401). -/
def State.requestPage (s : State) (p x va kind : Nat) (eng : Bool) (who : Option Who) (preq : Option (Nat × Nat)) :
    State :=
  let (p, va) := s.requestPlace p x va
  let vpn := va / 4096
  let add (q : PageReq) : PageReq := { q with waiters := q.waiters ++ who.toList, preqs := q.preqs ++ preq.toList }
  let joins (q : PageReq) : Bool := q.pkg = p && q.ctx = x && q.vpn = vpn && kindJoins kind q.kind
  match s.coh.reqs.findIdx? joins with
  | some i => s.modCoh fun h => { h with reqs := h.reqs.modify i add }
  | none =>
    match (if s.hostUp p then s.freeTag p else none) with
    | none => s
    | some t =>
      let q : PageReq := add ⟨p, x, t, vpn, kind, eng, [], []⟩
      let s := s.modCoh fun h => { h with reqs := h.reqs ++ [q] }
      let r := requestRecord (s.pctx p x).num q
      s.tellHost p (.pageRequest r.1 r.2)

/-- The home's region check of one physical page for an agent of a context (R383): whether it refuses the access. -/
def State.homeRefuses (s : State) (p x pa : Nat) (wr : Bool) : Bool :=
  match s.regionCheck p x (pa / 4096) (pa / 4096) with
  | none => false
  | some 4 => wr
  | some _ => true

/-- Whether the regions keep the host from an access: a secure page, or a write of a read-only one. -/
def State.hostRefused (s : State) (p pa : Nat) (wr : Bool) : Bool :=
  match regionAt (s.pkg p).regions (pa / 4096) with
  | none => false
  | some (_, d) => bitAt (dw d 2) 8 || (wr && bitAt (dw d 2) 9)

end Sys2Proof.Machine
end

