-- ==== Sys2Proof/Machine/Report.lean ====
section
/-! DEFINITION. Grids and their reports: counting events, summaries of pod grids, writing a report, and the early end
of a context (spec/19_pod.md R338-R341, spec/23_faults_preemption.md R399). -/

namespace Sys2Proof.Machine

/-- Whether a grid has ended (R318). -/
def GState.ended (g : GState) : Bool := g = .complete || g = .cancelled

/-- The code lstat reads for a state (R318). -/
def GState.code : GState → Nat
  | .dealing => 0
  | .dealt => 1
  | .complete => 2
  | .cancelling => 3
  | .cancelled => 4

/-- The newest grid of a context that bears an id on a package (R237). -/
def State.findGrid (s : State) (p x id : Nat) : Option Grid :=
  ((s.pkg p).grids.filter fun g => g.ctx = x && g.id = id && g.checked).getLast?

/-- The grid with an acceptance number changed. -/
def State.modGrid (s : State) (p acc : Nat) (f : Grid → Grid) : State :=
  s.modPkg p fun q => { q with grids := q.grids.map fun g => if g.acc = acc then f g else g }

/-- The newest pod grid of a context that bears an id. -/
def State.findPod (s : State) (x id : Nat) : Option PodGrid :=
  ((tget s.heads x).main.grids.filter fun g => g.id = id).getLast?

/-- The headgate's state changed, and its mirror with it before anything acts on it (R334). -/
def State.modHead (s : State) (x : Nat) (f : HeadState → HeadState) : State :=
  { s with heads := tmod s.heads x fun h => { h with main := f h.main, mirror := f h.main } }

/-- A pod grid changed at the headgate. -/
def State.modPod (s : State) (x seq : Nat) (f : PodGrid → PodGrid) : State :=
  s.modHead x fun h => { h with grids := h.grids.map fun g => if g.seq = seq then f g else g }

/-- A saturating 32-bit count (R340). -/
def sat32 (n : Nat) : Nat := min n 0xFFFFFFFF

/-- The class of a fault cause (R341). -/
def causeClass (cause : Nat) : Nat :=
  if cause ≤ 4 then 0
  else if cause ≤ 6 then 1
  else if cause ≤ 0x0E then 2
  else if cause = 0x0F then 3
  else if cause ≤ 0x12 then 4
  else 5

/-- A verbatim record as six dwords (R341). -/
def EvRec.dwords (e : EvRec) : List Dword :=
  [e.frame, e.cause, BitVec.ofNat 64 e.stamp,
    BitVec.ofNat 64 (e.pkg % 8192 * 2 ^ 51 + e.core % 512 * 2 ^ 42 + e.tid % 1024 * 2 ^ 32 + e.eng % 256),
    BitVec.ofNat 64 (e.bid.y * 2 ^ 32 + e.bid.x), BitVec.ofNat 64 e.bid.z]

/-- Whether one record comes before another: stamp, package, core, slot (R341). -/
def EvRec.before (a b : EvRec) : Bool :=
  if a.stamp ≠ b.stamp then a.stamp < b.stamp
  else if a.pkg ≠ b.pkg then a.pkg < b.pkg
  else if a.core ≠ b.core then a.core < b.core
  else a.slot < b.slot

/-- A record put at its place, behind those it does not come before. -/
def evInsert (e : EvRec) : List EvRec → List EvRec
  | [] => [e]
  | f :: fs => if e.before f then e :: f :: fs else f :: evInsert e fs

/-- The first eight events with one more (R341). -/
def evAdd (l : List EvRec) (e : EvRec) : List EvRec := (evInsert e l).take 8

/-- The count of one class raised (R340). -/
def bump (l : List Nat) (cls n : Nat) : List Nat := (List.range 8).map fun k => l.getD k 0 + if k = cls then n else 0

/-- An event counted in its grid (R341). -/
def State.countEvent (s : State) (p x grid cls : Nat) (e : EvRec) : State :=
  match s.findGrid p x grid with
  | none => s
  | some g => s.modGrid p g.acc fun g =>
      { g with faults := g.faults + 1, classes := bump g.classes cls 1, first := evAdd g.first e }

/-- The record of an event of a thread (R341). -/
def State.threadEvent (s : State) (b t : Nat) (frame cause : Dword) (eng : Nat) : EvRec :=
  let bl := s.blk b
  ⟨frame, cause, s.gtime bl.pkg, s.pkgNo bl.pkg bl.ctx, bl.core, (s.thr b t).slot, t, eng, bl.bid⟩

-- The report word (R339)
def reportEn (w : Dword) : Bool := bitAt w 0 && bitsOf w 56 52 = 0 && bitsOf w 11 8 ≤ 12
def reportSlotBytes (np : Nat) : Nat := (448 + 32 * np + 63) / 64 * 64
/-- The physical address of a grid's report slot (R339). -/
def reportSlot (w : Dword) (np id : Nat) : Nat :=
  let l := bitsOf w 11 8
  bitsOf w 56 12 * 4096 + reportSlotBytes np * (id / 2 ^ 31 % 2 * 2 ^ l + id % 2 ^ l)

/-- Two 32-bit counts as a dword. -/
def pair32 (hi lo : Nat) : Dword := BitVec.ofNat 64 (sat32 hi * 2 ^ 32 + sat32 lo)

/-- A row of eight counts as four dwords (R340). -/
def rowDws (l : List Nat) : List Dword := (List.range 4).map fun k => pair32 (l.getD (2 * k + 1) 0) (l.getD (2 * k) 0)

/-- What a report says of a grid. -/
structure Summary where
  id : Nat
  cancelled : Bool
  kill : Bool
  faults : Nat
  fin : Nat
  kld : Nat
  nst : Nat
  first : List EvRec
  rows : List (Nat × List Nat)
deriving DecidableEq, Repr, Inhabited

/-- The dwords of a report slot (R340). -/
def Summary.dwords (m : Summary) (np tend : Nat) : List Dword :=
  let recs := (m.first.map EvRec.dwords).flatten
  [pair32 np m.id,
    BitVec.ofNat 64 (2 ^ 63 + m.cancelled.toNat * 2 ^ 62 + m.kill.toNat * 2 ^ 61 + m.first.length * 2 ^ 48
      + sat32 m.faults),
    BitVec.ofNat 64 m.fin, BitVec.ofNat 64 m.kld, BitVec.ofNat 64 m.nst, BitVec.ofNat 64 tend, 0, 0]
    ++ recs ++ List.replicate (48 - recs.length) 0
    ++ ((List.range np).map fun n => rowDws ((m.rows.find? fun r => r.1 = n).elim [] (·.2))).flatten

-- Accesses of a package's own agents (R314, R339, R357)

/-- The bytes a waiting operation covers. -/
def OpKind.size : OpKind → Nat
  | .store bs => bs.length
  | .atom _ w64 _ _ _ => if w64 then 8 else 4
  | .xadd _ _ | .xclr | .xrnd _ => 64
  | .snoop _ _ => 128
  | .hostStore d | .posted d => d.length
  | .hostLoad n => n
  | .grain _ n => n

/-- Whether an operation uses its 64 bytes as a cell of exact accumulation (R185). -/
def OpKind.onCell : OpKind → Bool
  | .xadd _ _ | .xclr | .xrnd _ => true
  | _ => false

/-- A cell noted (R185). -/
def Coh.withCell (h : Coh) (n : Nat) : Coh := if h.cells.contains n then h else { h with cells := h.cells ++ [n] }

/-- An operation sent to its home. -/
def State.enqueue (s : State) (o : HomeOp) : State :=
  s.modCoh fun h =>
    let h := { h with ops := h.ops ++ [o] }
    if o.kind.onCell then h.withCell (o.key / 64) else h

/-- A posted write of an agent of the host, or of the package under the world and partition of a context: it waits at its
home, which refuses it where the regions do (R314, R339, R357, R383). -/
def State.post (s : State) (p x pa : Nat) (who : Who) (bs : List Byte) : State :=
  if s.inMap p pa then
    s.enqueue { (default : HomeOp) with pkg := p, key := s.physKey p pa, ctx := x, who := who, kind := .posted bs }
  else s

/-- Dwords posted at rising addresses by an agent of the package. -/
def State.agentWrite (s : State) (p x pa : Nat) : List Dword → State
  | [] => s
  | d :: ds => (s.post p x pa .agent (leBytes 8 d.toNat)).agentWrite p x (pa + 8) ds

/-- Bytes laid over those that begin at a key. -/
def overlay (k : Nat) (bs : List (Byte × Bool)) (a : Nat) (ds : List Byte) : List (Byte × Bool) :=
  bs.take (a - k) ++ clean ((ds.drop (k - a)).take (bs.length - (a - k))) ++ bs.drop (a + ds.length - k)
/-- Bytes of memory as an agent of a package reads them: under its own posted writes that wait. -/
def postedOver (who : Who) (p k : Nat) (ops : List HomeOp) (bs : List (Byte × Bool)) : List (Byte × Bool) :=
  ops.foldl (fun bs o => match o.kind with
    | .posted ds => if o.who = who && o.pkg = p && o.key < k + bs.length then overlay k bs o.key ds else bs
    | _ => bs) bs

/-- Bytes that an agent of a package reads at a physical address under the world and partition of a context: poisoned where
there is no memory or the regions refuse it (R314, R383). -/
def State.agentBytes (s : State) (p x pa n : Nat) : List (Byte × Bool) :=
  let k := s.physKey p pa
  if s.inMap p pa && !s.homeRefuses p x pa false then postedOver .agent p k s.coh.ops (s.physRead p pa n)
  else s.freeBytes k n
/-- A dword that an agent of a package reads. -/
def State.agentRead (s : State) (p x pa : Nat) : Dword := BitVec.ofNat 64 (leNat ((s.agentBytes p x pa 8).map (·.1)))

/-- A report written (R339). -/
def State.writeReport (s : State) (p x : Nat) (m : Summary) : State :=
  let w := s.descDw p x 1
  let np := s.pkgCount p x
  if reportEn w then s.agentWrite p x (reportSlot w np m.id) (m.dwords np (s.gtime p)) else s

/-- What a report says of a grid of one package. -/
def Grid.summary (g : Grid) (row : Nat) : Summary :=
  ⟨g.id, g.state = .cancelling || g.state = .cancelled, g.kill, g.faults, g.fin, g.kld, g.nst, g.first,
    [(row, g.classes)]⟩

/-- What a report says of a pod grid. -/
def PodGrid.summary (g : PodGrid) : Summary :=
  ⟨g.id, g.cancel, g.kill, g.faults, g.fin, g.kld, g.nst, g.first, g.rows⟩

/-- Counts added to a package's row. -/
def rowAdd (rows : List (Nat × List Nat)) (n : Nat) (c : List Nat) : List (Nat × List Nat) :=
  rows.filter (fun r => r.1 ≠ n) ++ [(n, c)]

/-- A package's summary of a pod grid received by the headgate (R338): its blocks finished and killed and its events, with
their records, since its last summary; a final one also says that it is the last. -/
def State.sendSummary (s : State) (q x id : Nat) (final : Bool) : State :=
  match s.findGrid q x id, s.findPod x id with
  | some g, some h =>
    let n := s.pkgNo q x
    let s := s.modPod x h.seq fun h =>
      { h with
        fin := h.fin + (g.fin - g.sentFin)
        kld := h.kld + (g.kld - g.sentKld)
        faults := h.faults + (g.faults - g.sentFaults)
        rows := rowAdd h.rows n g.classes
        first := (g.sentFirst.foldl (fun l e => l.erase e) g.first).foldl evAdd h.first
        finals := if final then (if h.finals.contains n then h.finals else h.finals ++ [n]) else h.finals }
    let s := s.carried q ((s.headPkg q x).getD q)
    s.modGrid q g.acc fun g =>
      { g with sentFin := g.fin, sentKld := g.kld, sentFaults := g.faults, sentFirst := g.first
               finalSent := g.finalSent || final }
  | _, _ => s

/-- The packages of a context: those its headgate lists, and in any case one. -/
def State.ctxPkgs (s : State) (p x : Nat) : List Nat :=
  let l := (tget s.heads x).pkgs
  if l.contains p then l else p :: l

/-- A package put at its place in a list that rises in a number of theirs. -/
def insertBy (f : Nat → Nat) (p : Nat) : List Nat → List Nat
  | [] => [p]
  | q :: l => if f p < f q then p :: q :: l else q :: insertBy f p l

/-- The packages where a context of a pod lives, in the order of their numbers (R334). -/
def State.podPkgs (s : State) (x : Nat) : List Nat :=
  ((tget s.heads x).pkgs.filter fun p => (s.pctx p x).live).foldl (fun l p => insertBy (s.pkgNo · x) p l) []

/-- The blocks of a context on a package that have not retired. -/
def State.liveBlocks (s : State) (p x : Nat) : List Nat :=
  (s.blocks.filter fun b => b.2.place ≠ .retired && b.2.pkg = p && b.2.ctx = x).map (·.1)

/-- Whether a block stands on a core: resident, or sliced out of it (R327). -/
def Block.stands (bl : Block) : Bool := bl.place = .resident || bl.place = .saved .slice

/-- A block whose threads have all exited, with its crew's unfinished work discarded: the core that it leaves in this cycle is
free from the next (R320, R323). -/
def Block.kill (bl : Block) (now : Nat) : Block :=
  { bl with
    threads := bl.threads.map fun t => (t.1, { t.2 with st := TState.exited, wait := none, via := none })
    crew := none
    drain := none
    place := .retired
    left := if bl.stands then now + 1 else bl.left }

-- Queues (R314, R315)

/-- The physical address of a queue's descriptor (R313, R314). -/
def State.queuePa (s : State) (p x n : Nat) : Nat := bitsOf (s.descDw p x 2) 51 12 * 4096 + 32 * n
/-- A dword of a queue's descriptor. -/
def State.queueDw (s : State) (p x n k : Nat) : Dword := s.agentRead p x (s.queuePa p x n + 8 * k)

/-- Whether a queue acts as EN = 1 (R313, R314); with a poisoned descriptor it does not (log entry 52). -/
def State.queueOn (s : State) (p x n : Nat) : Bool :=
  let d0 := s.queueDw p x n 0
  let d2 := s.queueDw p x n 2
  bitAt (s.descDw p x 2) 0 && bitAt d2 11 && !s.descBad p x && !(s.agentBytes p x (s.queuePa p x n) 32).any (·.2)
    && bitsOf d0 11 0 = 0 && bitsOf d0 56 52 = 0 && 4 ≤ bitsOf d2 15 12 && bitsOf d2 15 12 ≤ 12

/-- The TAIL and HEAD of a queue, its entries and its priority (R314). -/
def State.queueTail (s : State) (p x n : Nat) : Nat := bitsOf (s.queueDw p x n 1) 63 32
def State.queueHead (s : State) (p x n : Nat) : Nat := bitsOf (s.queueDw p x n 1) 31 0
def State.queueSize (s : State) (p x n : Nat) : Nat := 2 ^ bitsOf (s.queueDw p x n 2) 15 12
def State.queuePrio (s : State) (p x n : Nat) : Nat := bitsOf (s.queueDw p x n 2) 10 8
/-- The physical address of an entry of a ring (R314). -/
def State.ringPa (s : State) (p x n e : Nat) : Nat := bitsOf (s.queueDw p x n 0) 56 0 + 128 * (e % s.queueSize p x n)
/-- TAIL written. -/
def State.setTail (s : State) (p x n tail : Nat) : State := s.post p x (s.queuePa p x n + 12) .agent (leBytes 4 tail)
/-- HEAD written. -/
def State.setHead (s : State) (p x n head : Nat) : State := s.post p x (s.queuePa p x n + 8) .agent (leBytes 4 head)

/-- Whether the entries of a ring from HEAD on are finished: how many in a row carry DONE = 1 (R315). -/
def State.doneRun (s : State) (p x n e : Nat) : Nat → Nat
  | 0 => 0
  | k + 1 =>
    if e ≠ s.queueTail p x n && bitAt (s.agentRead p x (s.ringPa p x n e + 56)) 63 then
      s.doneRun p x n ((e + 1) % 2 ^ 32) k + 1
    else 0

/-- The completion dword written into an entry, and HEAD moved past the finished entries (R315). -/
def State.completeEntry (s : State) (p x n e : Nat) (d : Dword) : State :=
  let s := s.agentWrite p x (s.ringPa p x n e + 56) [d]
  let h := s.queueHead p x n
  s.setHead p x n (h + s.doneRun p x n h (s.queueSize p x n))

/-- The completion dword (R315). -/
def completionDw (report cancelled : Bool) (status id : Nat) : Dword :=
  BitVec.ofNat 64 (2 ^ 63 + report.toNat * 2 ^ 62 + cancelled.toNat * 2 ^ 61 + status * 2 ^ 32 + id)

/-- Whether a grid is a post that has not started (R399 step 3, R241): nothing of it has been dealt. -/
def State.unstarted (s : State) (p : Nat) (g : Grid) : Bool :=
  !g.checked || (g.queue.isSome && g.placed = 0 && !((s.pkg p).lots.any fun l => l.grid = g.acc))

/-- Grids that end with their context (R399): posts not started are discarded, each other grid completes as if cancelled
with KILL = 1, and the entry of a posted one is finished (R315). -/
def State.killGrids (s : State) (p x : Nat) : State :=
  let live := s.liveBlocks p x
  let s := s.modPkg p fun q => { q with grids := q.grids.filter fun g => g.ctx ≠ x || g.state.ended || !s.unstarted p g }
  (s.pkg p).grids.foldl (fun s g =>
    if g.ctx = x && !g.state.ended then
      let k := g.kld + (live.filter fun b => (s.blk b).grid = g.id).length
      let g' := { g with state := GState.cancelled, kill := true, kld := k, nst := g.total - g.fin - k,
                         tend := s.gtime p, todo := [] }
      let s := s.modGrid p g.acc fun _ => g'
      if g.pod then s.sendSummary p x g.id true
      else
        let s := s.writeReport p x (g'.summary (s.pkgNo p x))
        match g.queue with
        | none => s
        | some (n, e) => s.completeEntry p x n e (completionDw (g.faults ≠ 0) true 0 g.id)
    else s) s

/-- The granules of commands that are gone no longer wait at their homes (R369). -/
def State.dropGrains (s : State) (gone : Nat → Bool) : State :=
  s.modCoh fun h => { h with ops := h.ops.filter fun o => match o.who, o.kind with
    | .engine id, .grain _ _ => !gone id
    | _, _ => true }

/-- One package's part of the end of a context (R399). -/
def State.killOn (s : State) (p x : Nat) : State :=
  let now := s.cycle
  let s := s.killGrids p x
  let s := { s with blocks := s.blocks.map fun (b : Nat × Block) =>
    if b.2.pkg = p && b.2.ctx = x && b.2.place ≠ Place.retired then (b.1, b.2.kill now) else b }
  let s := s.dropGrains fun id => s.cmds.any fun c => c.id = id && c.pkg = p && c.ctx = x
  let s := s.modCoh fun h => { h with remote := h.remote.filter fun r => !(r.src = p && r.op.ctx = x) }
  let s := { s with cmds := s.cmds.filter fun c => !(c.pkg = p && c.ctx = x)
                    images := s.images.filter fun i => !(i.2.pkg = p && i.2.ctx = x) }
  let s := s.modPkg p fun q => { q with lots := q.lots.filter fun l =>
    !(q.grids.any fun g => g.acc = l.grid && g.ctx = x) }
  s.modCtx p x fun c => { c with live := false, pre := .running }

/-- The end record of a context (R399): the reason, the thread it names, if any, and its frames. -/
def endRecord (reason x stamp pkg core tid grid : Nat) (f0 f1 tc : Dword) : List Dword :=
  [BitVec.ofNat 64 (reason * 2 ^ 56 + x), BitVec.ofNat 64 stamp,
    BitVec.ofNat 64 (pkg * 2 ^ 51 + core * 2 ^ 42 + tid * 2 ^ 32 + grid), f0, f1, tc, 0, 0]

/-- A context ends early (R399) on every package, and messages to its headgate are discarded; the record goes to the shadow
region of the partition where the end arose. -/
def State.killContext (s : State) (p x : Nat) (rec : List Dword) : State :=
  let q := s.partOf p x
  let s := if q.shsz = 0 then s else s.agentWrite p x q.shbase rec
  let head := s.headPkg p x
  let ps := s.ctxPkgs p x
  let s := ps.foldl (fun s q => s.killOn q x) s
  let pods := (tget s.heads x).main.grids
  let s := s.modHead x fun h => { h with inbox := [] }
  pods.foldl (fun s g =>
    if g.complete then s
    else
      let s := s.modPod x g.seq fun h =>
        { h with cancel := true, kill := true, ended := true, complete := true, nst := h.total - h.fin - h.kld,
                 tend := s.gtime p }
      match s.findPod x g.id with
      | some h => s.writeReport (head.getD p) x h.summary
      | none => s) s

end Sys2Proof.Machine
end

