-- ==== Sys2Proof/Machine/Ops.lean ====
section
/-! DEFINITION. The named operations on the executing thread: reading and writing registers and predicates, moving on,
waiting, parking, taking an exception and returning from one, and the checks every instruction begins with
(spec/01_machine_state.md, spec/02_instruction_word.md R53-R58, spec/23_faults_preemption.md R384-R389). -/

namespace Sys2Proof.Machine

/-- The warp that is issuing. -/
def State.iw (s : State) : IssueWarp := s.issue.headD default

/-- The issuing warp changed. -/
def State.modIw (s : State) (f : IssueWarp → IssueWarp) : State :=
  match s.issue with
  | [] => s
  | w :: r => { s with issue := f w :: r }

/-- The first cycle of the issue; outside an issue, now. -/
def State.nowCycle (s : State) : Nat := if s.issue.isEmpty then s.cycle else s.iw.start
/-- The last cycle of the issue, before any cost of a tag change (R252). -/
def State.lastCycle (s : State) : Nat := s.nowCycle + s.iw.x

/-- A dissolution event of R253. -/
def State.event (s : State) : State := s.modIw fun w => { w with event := true }
/-- The same, where a thread that is in the issuing warp is concerned. -/
def State.eventOf (s : State) (b t : Nat) : State :=
  if s.iw.lanes.any fun l => l.1 = b && l.2.1 = t then s.event else s

-- Registers

/-- The number of a register field, or none for vz (R17). -/
def one (r : RegF) : List Nat := if r = 248#8 then [] else [r.toNat]
/-- The registers of a group of n named by its first (R17, R204). -/
def many (n : Nat) (r : RegF) : List Nat := if r = 248#8 then [] else (List.range n).map fun i => r.toNat + i
/-- The number of a predicate field, or none for pt (R24). -/
def onep (p : PredF) : List Nat := if p = 7#3 then [] else [p.toNat]

/-- The value a read returns where results are still on their way (R57): the newest that Config.early lets through. -/
def earlyVal (tick r : Nat) : Word → List Fresh → Word
  | v, [] => v
  | v, f :: fs => if Config.early tick (f.reg + 512 * fs.length) then v else earlyVal tick r f.old fs

/-- The results on their way to a register (R57), the newest first. -/
def Thread.unready (th : Thread) (r now : Nat) : List Fresh := th.fresh.filter fun f => f.reg = r && now < f.ready

/-- The word that a load or another variable-latency result will write to a register, if one is on its way; nothing writes an
exited thread's registers (R16). -/
def State.landing (s : State) (b t r : Nat) : Option Word :=
  if (s.thr b t).st = .exited then none
  else s.coh.lands.findSome? fun l => if l.blk = b && l.tid = t then (l.regs.find? fun p => p.1 = r).map (·.2) else none

/-- A register of a thread as an instruction reads it (R56, R57): vz reads 0 (R17). -/
def State.rdT (s : State) (b t : Nat) (r : RegF) : Word :=
  if r = 248#8 then 0
  else
    let th := s.thr b t
    let v := earlyVal s.tick r.toNat (tget th.regs r.toNat) (th.unready r.toNat s.nowCycle)
    match s.landing b t r.toNat with
    | some w => if Config.early s.tick (1024 + r.toNat / 2) then w else v
    | none => v

/-- A register of the executing thread. -/
def State.rd (s : State) (r : RegF) : Word := s.rdT s.cur.1 s.cur.2 r

/-- The register n above a field; vz stays vz (R17). -/
def RegF.up (r : RegF) (n : Nat) : RegF := if r = 248#8 then r else r + BitVec.ofNat 8 n

/-- A pair of a thread (R17): the even register holds bits [31:0]. -/
def State.rd64T (s : State) (b t : Nat) (r : RegF) : Dword := s.rdT b t (RegF.up r 1) ++ s.rdT b t r
/-- A pair of the executing thread. -/
def State.rd64 (s : State) (r : RegF) : Dword := s.rd64T s.cur.1 s.cur.2 r

/-- A predicate of a thread: pt reads true (R24). -/
def State.rdPredT (s : State) (b t : Nat) (p : PredF) : Bool :=
  if p = 7#3 then true
  else
    let th := s.thr b t
    let v : Word := if th.preds.getLsbD p.toNat then 1 else 0
    (earlyVal s.tick (256 + p.toNat) v (th.unready (256 + p.toNat) s.nowCycle)).getLsbD 0
/-- A predicate of the executing thread. -/
def State.rdPred (s : State) (p : PredF) : Bool := s.rdPredT s.cur.1 s.cur.2 p

/-- A result noted as on its way until a cycle (R56); results readable by now are forgotten. Writes to one register land in
program order, so that an older one on its way is not readable later than this one. -/
def Thread.note (th : Thread) (r : Nat) (old : Word) (ready serial now : Nat) : Thread :=
  { th with fresh := ⟨r, ready, old, serial⟩ :: (th.fresh.filter fun f => now < f.ready).map fun f =>
      if f.reg = r then { f with ready := min f.ready ready } else f }

/-- A word put into a register with fixed latency L, and its poison mark cleared (R56, R175). -/
def Thread.put (th : Thread) (r : Nat) (v : Word) (ready serial now : Nat) : Thread :=
  let th := th.note r (tget th.regs r) ready serial now
  { th with regs := tset th.regs r v, marks := tset th.marks r false }

/-- A register of a thread written with fixed latency L; vz discards the write (R17). -/
def State.wrT (s : State) (b t : Nat) (r : RegF) (v : Word) (L : Nat) : State :=
  if r = 248#8 then s
  else
    let w := s.iw
    let s := s.modThr b t fun th => th.put r.toNat v (s.lastCycle + L) w.serial s.nowCycle
    s.modIw fun w => { w with wrote := (b, t, r.toNat) :: w.wrote }

/-- A register of the executing thread written with fixed latency L. -/
def State.wr (s : State) (r : RegF) (v : Word) (L : Nat) : State := s.wrT s.cur.1 s.cur.2 r v L
/-- A pair written with fixed latency L (R17). -/
def State.wr64T (s : State) (b t : Nat) (r : RegF) (v : Dword) (L : Nat) : State :=
  (s.wrT b t r (v.truncate 32) L).wrT b t (RegF.up r 1) ((v >>> 32).truncate 32) L
def State.wr64 (s : State) (r : RegF) (v : Dword) (L : Nat) : State := s.wr64T s.cur.1 s.cur.2 r v L

/-- The seven predicates with one replaced. -/
def predSet (ps : BitVec 7) (p : Nat) (v : Bool) : BitVec 7 :=
  if v then ps ||| (1#7 <<< p) else ps &&& ~~~(1#7 <<< p)

/-- A predicate put with fixed latency L. -/
def Thread.putPred (th : Thread) (p : Nat) (v : Bool) (ready serial now : Nat) : Thread :=
  let th := th.note (256 + p) (if th.preds.getLsbD p then 1 else 0) ready serial now
  { th with preds := predSet th.preds p v }

/-- A predicate of a thread written; a write to pt is discarded (R24). -/
def State.wrPredT (s : State) (b t : Nat) (p : PredF) (v : Bool) (L : Nat) : State :=
  if p = 7#3 then s
  else
    let w := s.iw
    s.modThr b t fun th => th.putPred p.toNat v (s.lastCycle + L) w.serial s.nowCycle
def State.wrPred (s : State) (p : PredF) (v : Bool) (L : Nat) : State := s.wrPredT s.cur.1 s.cur.2 p v L

-- Shape tags (R19-R21)

/-- The value a tag gives for a thread of the furrow; general gives none. -/
def Tag.value (g : Tag) (i : Nat) : Option Word :=
  match g with
  | .uniform u => some u
  | .affine b st => some (b + st * BitVec.ofNat 32 i)
  | .general => none

/-- The tag of 32 values (R20). -/
def shapeOf (vs : List Word) : Tag :=
  let v0 := vs.getD 0 0
  let st := vs.getD 1 0 - v0
  if vs.all (· = v0) then .uniform v0
  else if (List.range 32).all fun i => vs.getD i 0 = v0 + st * BitVec.ofNat 32 i then .affine v0 st
  else .general

/-- The key of a register's tag. -/
def tagKey (furrow r : Nat) : Nat := furrow * 256 + r

/-- One thread's write of a value against the tag of its furrow's register (R20). -/
def Block.tagWrite (bl : Block) (t r : Nat) (v : Word) : Block :=
  let k := tagKey (t / 32) r
  if (tget bl.tags k).value (t % 32) = some v then bl else { bl with tags := tset bl.tags k .general }

/-- The value a register holds now: the one before the oldest fixed-latency result on its way (R57). -/
def Thread.held (th : Thread) (r now : Nat) : Word := ((th.unready r now).getLast?.map (·.old)).getD (tget th.regs r)

/-- The fixed-latency results on their way to a register, each with the serial of its issue. -/
def Thread.coming (th : Thread) (r now : Nat) : List (Nat × Word) :=
  let fs := th.unready r now
  (fs.map (·.serial)).zip (tget th.regs r :: fs.map (·.old))

/-- The 32 stored values of a furrow's register, with every result landed. -/
def Block.values (bl : Block) (f r : Nat) : List Word :=
  (List.range 32).map fun i => tget (tget bl.threads (f * 32 + i)).regs r

/-- A tag recomputed from values (R20). -/
def Block.shaped (bl : Block) (f r : Nat) (vs : List Word) : Block :=
  { bl with tags := tset bl.tags (tagKey f r) (shapeOf vs) }

/-- A number put at its place among rising ones, once. -/
def putNat (n : Nat) : List Nat → List Nat
  | [] => [n]
  | a :: l => if n < a then n :: a :: l else if n = a then a :: l else a :: putNat n l

/-- The write of one issue to a furrow's register applied to its tag (R20): the values of the threads that write it. -/
def Block.tagWrites (bl : Block) (f r : Nat) (ws : List (Nat × Word)) : Block :=
  if (List.range 32).all fun i => ws.any fun w => w.1 = i then
    bl.shaped f r ((List.range 32).map fun i => ((ws.find? fun w => w.1 = i).map (·.2)).getD 0)
  else ws.foldl (fun bl w => bl.tagWrite (f * 32 + w.1) r w.2) bl

/-- RESHAPE (R20, R118): the tag recomputed from the values stored now; the results on their way then apply to it. -/
def Block.reshape (bl : Block) (f r now : Nat) : Block :=
  let th (i : Nat) : Thread := tget bl.threads (f * 32 + i)
  let on := (List.range 32).flatMap fun i => ((th i).coming r now).map fun w => (w.1, i, w.2)
  (on.foldl (fun l w => putNat w.1 l) []).foldl
    (fun bl n => bl.tagWrites f r ((on.filter fun w => w.1 = n).map (·.2)))
    (bl.shaped f r ((List.range 32).map fun i => (th i).held r now))

-- Moving on

/-- The state of a thread that can issue (R15). -/
def Thread.ready (th : Thread) : TState := if th.ms.h then .handler else .ready

/-- Whether a thread can issue (R245). -/
def Thread.issuable (th : Thread) : Bool := (th.st = .ready || th.st = .handler) && th.wait.isNone

/-- A thread that has executed its instruction and goes on at an address (R55). -/
def Thread.goto (th : Thread) (pc : VAddr) (moved : Bool) (stall last : Nat) : Thread :=
  { th with pc := pc, via := some ⟨moved, some th.pc⟩, stallUntil := last + 1 + stall, readySince := last, issued := last,
            st := th.ready, wait := none, pk := none }

/-- A thread goes on at the next word. -/
def State.advanceT (s : State) (b t : Nat) (c : Ctl) : State :=
  s.modThr b t fun th => th.goto (th.pc + 8) false c.stall.toNat s.lastCycle
/-- The executing thread goes on at the next word. -/
def State.advance (s : State) (c : Ctl) : State := s.advanceT s.cur.1 s.cur.2 c
/-- The executing thread's control moves to a target. -/
def State.jump (s : State) (c : Ctl) (pc : VAddr) : State :=
  (s.modMe fun th => th.goto pc true c.stall.toNat s.lastCycle).modIw fun w => { w with branch := true }

/-- The executing thread waits before executing (R15). -/
def State.waitMe (s : State) (w : Wait) : State :=
  (s.modMe fun th => { th with wait := some w, st := if th.ms.h then .handler else .waiting }).event

/-- The executing thread arrives at a rendezvous and waits there; its STALL counts from the release (R55). -/
def State.arriveMe (s : State) (c : Ctl) (w : Wait) : State :=
  (s.waitMe w).modMe fun th => { th with owed := c.stall.toNat, met := false, issued := s.lastCycle }

/-- The ready-since cycle of a thread that becomes issuable in a cycle: that cycle, or a later one in which its own last issue
ends (R246). -/
def Thread.since (th : Thread) (now : Nat) : Nat := max now th.issued

/-- A thread of a rendezvous goes on at the next word, ready from now (R15, R55). -/
def Thread.release (th : Thread) (now : Nat) : Thread :=
  { th with pc := th.pc + 8, via := some ⟨false, some th.pc⟩, readySince := th.since now,
            stallUntil := th.since now + 1 + th.owed, st := th.ready, wait := none }

/-- A thread whose wait is over executes its instruction again. -/
def Thread.wake (th : Thread) (now : Nat) : Thread := { th with st := th.ready, wait := none, readySince := th.since now }

/-- The executing thread parks on a recoverable page fault (R175), and the need is sent to the host (R379). -/
def State.parkMe (s : State) (va : Nat) (wr : Bool) : State :=
  let bl := s.myBlk
  let s := (s.modMe fun th => { th with st := .parked, pk := some (wr, BitVec.ofNat 64 va) }).event
  s.requestPage bl.pkg bl.ctx va wr.toNat false (some (.thread s.cur.1 s.cur.2)) none

-- Exceptions

/-- TAKING AN EXCEPTION (R387, R388). Outside handler mode the frame and TCAUSE are written, H is set and control
goes to TVEC; in handler mode the fault is a double fault, which kills the context. The event is counted (R341). -/
def State.faultW (s : State) (b t : Nat) (cause : Nat) (tc : Dword) (pc : VAddr) : State :=
  let bl := s.blk b
  let th := s.thr b t
  let fr := frameWord cause pc th.ms.h
  let s := s.eventOf b t
  if th.ms.h then
    let s := s.countEvent bl.pkg bl.ctx bl.grid 6 (s.threadEvent b t fr tc 0)
    let s := s.modThr b t fun th => { th with tframe1 := fr, tcause := tc }
    s.killContext bl.pkg bl.ctx (endRecord 1 (s.pctx bl.pkg bl.ctx).num (s.gtime bl.pkg) (s.pkgNo bl.pkg bl.ctx) bl.core t bl.grid
      th.tframe0 fr tc)
  else
    let s := s.countEvent bl.pkg bl.ctx bl.grid (causeClass cause) (s.threadEvent b t fr tc 0)
    s.modThr b t fun th =>
      { th with tframe0 := fr, tcause := tc, ms := { th.ms with h := true }, pc := tvecPc th.tvec,
                st := .handler, wait := none, pk := none, via := some ⟨true, none⟩, readySince := th.since s.lastCycle }

/-- A fault with its SUB and address (R40). -/
def State.faultT (s : State) (b t : Nat) (cause sub : Nat) (addr : Option Nat) (pc : VAddr) : State :=
  s.faultW b t cause (tcauseWord sub addr) pc

/-- The executing thread takes a precise fault at its instruction. -/
def State.faultMe (s : State) (cause sub : Nat) (addr : Option Nat) : State :=
  s.faultT s.cur.1 s.cur.2 cause sub addr s.me.pc

/-- Causes of R384. -/
def cOperand : Nat := 0x02
def cPad : Nat := 0x04
def cStall : Nat := 0x05
def cDet : Nat := 0x06
def cAddr : Nat := 0x07
def cLocal : Nat := 0x08
def cLit : Nat := 0x09
def cPage : Nat := 0x0A
def cPoison : Nat := 0x0F
def cMode : Nat := 0x10
def cHandle : Nat := 0x11
def cBarrier : Nat := 0x12
def cPriv : Nat := 0x13
def cTrap : Nat := 0x14
def cBkpt : Nat := 0x15

/-- RETURN FROM AN EXCEPTION (R116): outside handler mode a privilege fault; without a valid frame a fault taken in
handler mode; otherwise control resumes at the frame's PC with H and the frame's V cleared. -/
def State.rethMe (s : State) (c : Ctl) : State :=
  let th := s.me
  if !th.ms.h then s.faultMe cPriv 0 none
  else if !bitAt th.tframe0 63 then s.faultMe cMode 5 none
  else
    let s := s.modMe fun th => { th with ms := { th.ms with h := false } }
    let s := s.jump c (framePc th.tframe0)
    s.modMe fun th => { th with tframe0 := BitVec.ofNat 64 (bitsOf th.tframe0 62 0) }

/-- The shared offset of the poisoned panel byte whose fault waits for the executing thread's next instruction (R213):
in handler mode none is delivered. -/
def State.panelFault (s : State) : Option VAddr := if s.me.ms.h then none else s.me.panelStop

/-- The threads of a crew in the order of crew thread numbers (R35). -/
def Mgang.threads (g : Mgang) : List Nat := (List.range 128).map fun c => g.furrow (c / 32) * 32 + c % 32

/-- That fault taken by one thread (R213). -/
def State.panelFaultT (s : State) (b t : Nat) (a : VAddr) : State :=
  (s.modThr b t fun th => { th with panelStop := none }).faultT b t cPoison 1 (some a.toNat) (s.thr b t).pc

/-- That fault taken, before its instruction makes any check (R213): by the whole crew where the instruction is one whose
crew has assembled and parts have issued (R258). -/
def State.takePanelFault (s : State) (a : VAddr) : State :=
  match s.me.wait with
  | some (.crew w) =>
    (Mgang.ofWord w).threads.foldl (fun s t =>
      match (if (s.thr s.cur.1 t).ms.h then none else (s.thr s.cur.1 t).panelStop) with
      | some a => s.panelFaultT s.cur.1 t a
      | none => s) s
  | _ => s.panelFaultT s.cur.1 s.cur.2 a

-- The checks an instruction begins with

/-- The registers and predicates an instruction reads and writes; `others` are named and not read (R117). -/
structure Uses where
  srcs : List Nat
  dsts : List Nat
  psrcs : List Nat
  pdsts : List Nat
  others : List Nat
deriving DecidableEq, Repr, Inhabited

def Uses.regs (u : Uses) : List Nat := u.srcs ++ u.dsts ++ u.others

/-- Whether a block's thread is a member of its crew (R206). -/
def Block.inCrew (bl : Block) (t : Nat) : Bool :=
  bl.mgang.v && (List.range 4).any fun k => bl.mgang.furrow k = t / 32

/-- Whether a command's results include a register of a thread (R205). -/
def EngCmd.out (c : EngCmd) (b t r : Nat) : Bool :=
  c.blk = b && c.sreg ≠ 248
    && c.tids.contains t
    && (c.sreg = r || (c.kind = .sample && c.sreg + 1 = r))

/-- How many registers the answer of a headgate takes (R237, R239, R240). -/
def PodAsk.span : PodAsk → Nat
  | .launch => 2
  | .cancel _ _ => 1
  | .stat _ => 8

/-- Whether a load, atomic with return, ldnf or another counted result to a register is outstanding (R58, R205). -/
def State.outstanding (s : State) (b t r : Nat) : Bool :=
  let who := Who.thread b t
  (s.coh.lands.any fun l => l.blk = b && l.tid = t && l.regs.any fun p => p.1 = r)
    || (s.coh.ops.any fun o => o.who = who && o.dst.contains r)
    || (s.coh.remote.any fun o => o.op.who = who && o.op.dst.contains r)
    || (s.cmds.any fun c => c.out b t r)
    || (s.heads.any fun h => h.2.main.inbox.any fun l => l.blk = b && l.tid = t && l.reg ≠ 248 && l.reg ≤ r && r < l.reg + l.ask.span)

/-- Whether a thread has a matrix pass outstanding (R212). -/
def Block.passesOut (bl : Block) (th : Thread) : Bool := th.ms.mode && bl.crew.isSome

/-- Whether a register lies in a thread's window, or in the A range of its crew's mmad (R287). -/
def Block.inWindow (bl : Block) (th : Thread) (r : Nat) : Bool :=
  th.ms.mode && ((th.ms.abase.toNat ≤ r && r < th.ms.abase.toNat + 64)
    || match bl.crew with
       | some c => c.kind = .mmad && c.mbase ≤ r && r < c.mbase + 64
       | none => false)

/-- The stall-count fault's SUB for an instruction's operands (R58), if CHKSB.EN = 1 and one applies. -/
def State.stallSub (s : State) (u : Uses) : Option Nat :=
  let th := s.me
  let now := s.nowCycle
  if !th.chk then none
  else if u.srcs.any (fun r => !(th.unready r now).isEmpty)
      || u.psrcs.any (fun p => !(th.unready (256 + p) now).isEmpty) then some 1
  else if u.srcs.any (fun r => s.outstanding s.cur.1 s.cur.2 r) then some 2
  else if u.dsts.any (fun r => s.outstanding s.cur.1 s.cur.2 r) then some 3
  else none

/-- The fault of an instruction's operands at its issue (R385): the scoreboard's (R58), the guard first, then that of a poisoned
source (R175), both in a thread that executes it. -/
def State.operandFault (s : State) (c : Ctl) (u : Uses) : Option (Nat × Nat) :=
  if s.me.chk && !((onep c.ps).all fun p => (s.me.unready (256 + p) s.nowCycle).isEmpty) then some (cStall, 1)
  else if s.rdPred c.ps = c.pn then none
  else match s.stallSub u with
    | some k => some (cStall, k)
    | none => if u.srcs.any fun r => tget s.me.marks r then some (cPoison, 0) else none

/-- How a thread comes to an instruction that its group issues together: the allotment (R84 check 9), then the wait on the
window (R287); the operands are looked at when the group issues (R196, R258). -/
def State.named (s : State) (u : Uses) (body : State → State) : State :=
  if u.regs.any fun r => s.me.allot ≤ r then s.faultMe cOperand 4 none
  else if s.myBlk.passesOut s.me && u.regs.any fun r => s.myBlk.inWindow s.me r then s.waitMe (.window true false none)
  else body s

/-- How an instruction of the executing thread begins: the allotment (R84 check 9), the wait on the window (R287), the
guard (R53), the instruction's own waits, the scoreboard (R58) and poisoned sources (R175), in the order of R385; then
`off` where it is predicated off, or `body`. -/
def State.enterG (s : State) (c : Ctl) (u : Uses) (wait : State → Option Wait) (off body : State → State) : State :=
  let th := s.me
  let bl := s.myBlk
  if u.regs.any fun r => th.allot ≤ r then s.faultMe cOperand 4 none
  else if bl.passesOut th && u.regs.any fun r => bl.inWindow th r then s.waitMe (.window true false none)
  else if th.chk && !((onep c.ps).all fun p => (th.unready (256 + p) s.nowCycle).isEmpty) then s.faultMe cStall 1 none
  else if s.rdPred c.ps = c.pn then off s
  else match wait s with
    | some w => s.waitMe w
    | none =>
      match s.stallSub u with
      | some k => s.faultMe cStall k none
      | none => if u.srcs.any fun r => tget th.marks r then s.faultMe cPoison 0 none else body s

/-- An instruction without a wait of its own, which a predicated-off member passes. -/
def State.enter (s : State) (c : Ctl) (u : Uses) (body : State → State) : State :=
  s.enterG c u (fun _ => none) (fun s => s.advance c) body

/-- An instruction with a wait of its own. -/
def State.enterW (s : State) (c : Ctl) (u : Uses) (wait : State → Option Wait) (body : State → State) : State :=
  s.enterG c u wait (fun s => s.advance c) body

-- Counts and waits

/-- Whether every access of a thread that has left its count is performed at a scope (R187). -/
def State.performed (s : State) (b t : Nat) (sc : Scope) : Bool :=
  let who := Who.thread b t
  match sc with
  | .blk => true
  | .die => s.coh.pushes.all fun p => !(p.who = who && p.dst = dieOf (s.blk b).core)
  | _ => s.coh.pushes.all fun p => !(p.who = who)

/-- Whether the condition of a waitcnt holds (R186). -/
def State.countsHold (s : State) (b t l sn e : Nat) (sc : Scope) : Bool :=
  let th := s.thr b t
  th.lcnt ≤ l && th.scnt ≤ sn && th.ecnt ≤ e && s.performed b t sc

/-- The wait of a step that waits as a waitcnt (R186), if its condition does not hold. -/
def State.countWait (s : State) (l sn e : Nat) (sc : Scope) : Option Wait :=
  if s.countsHold s.cur.1 s.cur.2 l sn e sc then none else some (.counts l sn e sc)

/-- The wait of a younger memory instruction behind an .acq load or an .sc atomic (R172, R181). -/
def State.holdWait (s : State) : Option Wait := if s.me.hold = 0 then none else some .held

/-- Whether the executing thread's core has no time view, or its package is unsynchronised (R367). -/
def State.blind (s : State) : Bool :=
  let bl := s.myBlk
  (s.core bl.pkg bl.core).viewLost || (s.pkg bl.pkg).unsync

/-- The wait of an instruction that accesses .g or .l, beside its other waits, while its core has no time view (R344,
R367). -/
def State.viewWait (s : State) : Option Wait := if s.blind then some .held else none

/-- The preqs of a thread that await an answer (R177). -/
def State.preqsOf (s : State) (b t : Nat) : Nat :=
  (s.coh.reqs.map fun q => (q.preqs.filter fun w => w = (b, t)).length).sum

/-- The wait of an instruction that a count at its limit holds (R33): 0 LCNT, 1 SCNT, 2 ECNT. -/
def State.limitWait (s : State) (which : Nat) : Option Wait :=
  let th := s.me
  let full : Bool := match which with
    | 0 => decide (63 ≤ th.lcnt)
    | 1 => decide (63 ≤ th.scnt)
    | _ => decide (31 ≤ th.ecnt)
  if full then some (.limit which) else none

/-- The first of several waits. -/
def firstWait : List (Option Wait) → Option Wait
  | [] => none
  | some w :: _ => some w
  | none :: r => firstWait r

/-- Whether an older flag-raising instruction of variable latency is outstanding (R30, R271). -/
def State.flagsOut (s : State) (b t : Nat) : Bool :=
  let who := Who.thread b t
  let raising (o : HomeOp) : Bool := match o.kind with
    | .atom op _ _ _ ret => ret && op = .addF
    | .xrnd _ => true
    | _ => false
  (s.coh.lands.any fun l => l.blk = b && l.tid = t && l.flagOp)
    || (s.coh.ops.any fun o => o.who = who && raising o)
    || (s.coh.remote.any fun o => o.op.who = who && raising o.op)
    || (s.blk b).passesOut (s.thr b t)
    || ((s.blk b).inCrew t && (s.blk b).drain.any fun d => d.mode = .st)

/-- The L1 entries of a context cleared from a core (R172, R186, R119). -/
def State.clearL1 (s : State) (p c x : Nat) : State :=
  s.modCore p c fun k => { k with l1 := k.l1.filter fun e => e.ctx ≠ x }

/-- Step 3 of a waitcnt, and of every step that waits as one (R186): at .die or wider the core's L1 lines of the
executing thread's context go. -/
def State.cntClear (s : State) (sc : Scope) : State :=
  if sc = .blk then s else s.clearL1 s.myBlk.pkg s.myBlk.core s.myBlk.ctx

def Thread.countL (th : Thread) : Thread := { th with lcnt := th.lcnt + 1 }
def Thread.countS (th : Thread) : Thread := { th with scnt := th.scnt + 1 }
def Thread.countE (th : Thread) : Thread := { th with ecnt := th.ecnt + 1 }

/-- Flags raised in a thread's FPCSR (R30). -/
def Thread.raise (th : Thread) (f : BitVec 5) : Thread := { th with fpcsr := { th.fpcsr with flags := th.fpcsr.flags ||| f } }
/-- Flags raised in the executing thread. -/
def State.raiseMe (s : State) (f : BitVec 5) : State := s.modMe fun th => th.raise f

end Sys2Proof.Machine
end

