-- ==== Sys2Proof/WellFormed.lean ====
section
/-! DEFINITION. The operands an instruction names, and when an instruction is well formed: the checks of
spec/03_opcode_map.md R84 that its word decides (the allotment is the thread's, and the reserved bits are none). -/

namespace Sys2Proof

/-- How an operand is used: read, written, both, or named only (R117). -/
inductive Role where
  | src | dst | both | named
deriving DecidableEq, Repr, Inhabited

/-- A register operand: its field, how many registers it spans and the multiple at which it starts (R17, R204). -/
structure Operand where
  role : Role
  field : RegF
  span : Nat
  align : Nat
deriving DecidableEq, Repr, Inhabited

def rS (r : RegF) : Operand := ⟨.src, r, 1, 1⟩
def rD (r : RegF) : Operand := ⟨.dst, r, 1, 1⟩
def pS (r : RegF) : Operand := ⟨.src, r, 2, 2⟩
def pD (r : RegF) : Operand := ⟨.dst, r, 2, 2⟩

/-- Whether a type is 64 bits wide (R86). -/
def Ty.is64 : Ty → Bool
  | .i64 | .n64 | .b64 | .f64 => true
  | _ => false

/-- Registers of a type: one, or a pair. -/
def Ty.regs (t : Ty) : Nat := if t.is64 then 2 else 1
/-- A source or destination of a type. -/
def tS (t : Ty) (r : RegF) : Operand := ⟨.src, r, t.regs, t.regs⟩
def tD (t : Ty) (r : RegF) : Operand := ⟨.dst, r, t.regs, t.regs⟩
/-- A source or destination of 32 or 64 bits. -/
def bS (w : Bool) (r : RegF) : Operand := if w then pS r else rS r
def bD (w : Bool) (r : RegF) : Operand := if w then pD r else rD r

/-- The type of an FP source code (R78). -/
def FpSrc.ty : FpSrc → Ty
  | .f32 => .f32
  | .f64 => .f64
  | .f16 => .f16
  | .bf16 => .bf16

/-- Whether a space is .g. -/
def Spsc.isG : Spsc → Bool
  | .gBlk | .gDie | .gPkg | .gPod | .gSys => true
  | _ => false

/-- The scope of a space and scope code (R50). -/
def Spsc.scope : Spsc → Scope
  | .gDie => .die
  | .gPkg => .pkg
  | .gPod => .pod
  | .gSys => .sys
  | _ => .blk

/-- The address operand of form M (R49): a pair for .g, a single register otherwise. -/
def MemOp.operand (m : MemOp) : Operand := if m.sp.isG then pS m.a else rS m.a

/-- The bytes of the widths of ld and st. -/
def LdW.bytes : LdW → Nat
  | .i8 | .n8 => 1
  | .i16 | .n16 => 2
  | .b32 => 4
  | .b64 => 8
  | .b128 => 16
def StW.bytes : StW → Nat
  | .b8 => 1
  | .b16 => 2
  | .b32 => 4
  | .b64 => 8
  | .b128 => 16
/-- Registers of so many bytes. -/
def regsOf (bytes : Nat) : Nat := if bytes ≤ 4 then 1 else bytes / 4
/-- Whether an atomic minimum or maximum is 64 bits wide (R80). -/
def MinK.is64 : MinK → Bool
  | .i64 => true
  | _ => false

/-- Elements in a word of a minifloat type (R161). -/
def Ty.elems : Ty → Nat
  | .e2m1 | .mxfp4 => 8
  | _ => 4
/-- Whether a type is block-scaled (R66). -/
def Ty.mx : Ty → Bool
  | .mxfp8 | .mxfp6 | .mxfp4 => true
  | _ => false
/-- Registers of the IEEE side of mfpack and mfunpk (R161). -/
def ieeeRegs (t : Ty) (f : FpSrc) : Nat := if f = .f32 then t.elems else t.elems / 2
/-- The control register of a block-scaled type (R161). -/
def ctlOperand (t : Ty) (b : RegF) : List Operand := if t.mx then [rS b] else []
/-- Registers that mcvt writes (R216). -/
def mcvtRegs : Ty → Nat
  | .f16 | .bf16 => 32
  | _ => 16

/-- The control registers of 64 bits (R105). -/
def csr64 (n : BitVec 12) : Bool := n = 0x100#12 || n = 0x101#12 || n = 0x102#12 || n = 0x103#12
/-- The special registers of 64 bits (R26). -/
def sr64 (n : BitVec 8) : Bool := n = 0x14#8 || n = 0x16#8

/-- The register operands of an instruction. -/
def Instr.operands : Instr → List Operand
  | .iadd _ d a b ty _ | .isub _ d a b ty _ | .imul _ d a b ty | .imulh _ d a b ty | .imin _ d a b ty
  | .imax _ d a b ty | .andB _ d a b ty | .orB _ d a b ty | .xorB _ d a b ty => [tD ty d, tS ty a, tS ty b]
  | .imad _ d a b x ty _ => [tD ty d, tS ty a, tS ty b, tS ty x]
  | .imadw _ d a b x _ => [pD d, rS a, rS b, pS x]
  | .iabs _ d a ty _ | .ineg _ d a ty _ | .notB _ d a ty | .brev _ d a ty | .mov _ d a ty => [tD ty d, tS ty a]
  | .icmp _ _ a b _ ty => [tS ty a, tS ty b]
  | .lea _ d a b _ _ => [pD d, pS a, rS b]
  | .shl _ d a b ty | .shr _ d a b ty | .sar _ d a b ty => [tD ty d, tS ty a, rS b]
  | .fshL _ d a b x | .fshR _ d a b x | .lop3 _ d a b x _ | .bfi _ d a b x => [rD d, rS a, rS b, rS x]
  | .bfx _ d a b _ => [rD d, rS a, rS b]
  | .popc _ d a ty | .clz _ d a ty | .ffs _ d a ty => [rD d, tS ty a]
  | .isel _ d a b _ ty => [tD ty d, tS ty a, tS ty b]
  | .plop .. => []
  | .movi _ d _ | .ldlit32 _ d _ => [rD d]
  | .ldlit64 _ d _ => [pD d]
  | .movh _ d a _ => [rD d, rS a]
  | .shapeq _ d a => [rD d, ⟨.named, a, 1, 1⟩]
  | .reshape _ a => [rS a]
  | .nop _ | .bra .. | .call .. | .ret _ | .join .. | .yield _ | .exit _ | .pad .. | .trap .. | .bkpt .. | .reth _ => []
  | .brx _ a _ | .callx _ a _ => [rS a]
  | .rdsr _ d sel => [bD (sr64 sel) d]
  | .csrr _ d n => [bD (csr64 n) d]
  | .csrw _ a n => [bS (csr64 n) a]
  | .csrwFpcsr _ a | .csrwMprog _ a => [rS a]
  | .tlbiCtx _ => []
  | .tlbiPage _ a => [pS a]
  | .codereg _ d a => [rD d, pS a]
  | .fadd _ d a b _ _ | .fsub _ d a b _ _ | .fmul _ d a b _ _ | .fmin _ d a b _ | .fmax _ d a b _
  | .fminn _ d a b _ | .fmaxn _ d a b _ | .hadd2 _ d a b _ _ | .hmul2 _ d a b _ _ | .fdiv _ d a b _ =>
    [rD d, rS a, rS b]
  | .ffma _ d a b x _ _ | .hfma2 _ d a b x _ _ => [rD d, rS a, rS b, rS x]
  | .fcmp _ _ a b _ _ => [rS a, rS b]
  | .fclass _ d a _ | .frnd _ d a _ _ | .frcp _ d a | .frsq _ d a | .fsqrt _ d a _ | .fex2 _ d a | .flg2 _ d a
  | .fsinpi _ d a | .fcospi _ d a | .popnz _ d a _ _ => [rD d, rS a]
  | .dadd _ d a b _ | .dmul _ d a b _ | .ddiv _ d a b _ => [pD d, pS a, pS b]
  | .dfma _ d a b x _ => [pD d, pS a, pS b, pS x]
  | .dsqrt _ d a _ | .drcp _ d a _ | .spcomp _ d a _ _ => [pD d, pS a]
  | .fcvt _ d a ty src _ | .f2i _ d a ty src _ => [tD ty d, tS src.ty a]
  | .i2f _ d a ty src _ => [tD ty d, tS src a]
  | .fldx _ d a b ty _ => [tD ty d, tS ty a, rS b]
  | .fexpo _ d a ty => [rD d, tS ty a]
  | .fmant _ d a ty => [tD ty d, tS ty a]
  | .mfpack _ d a b ty src _ _ => [rD d, ⟨.src, a, ieeeRegs ty src, 4⟩] ++ ctlOperand ty b
  | .mfunpk _ d a b ty dst => [⟨.dst, d, ieeeRegs ty dst, 4⟩, rS a] ++ ctlOperand ty b
  | .ld _ d m w _ | .ldAcq _ d m w => [⟨.dst, d, regsOf w.bytes, regsOf w.bytes⟩, m.operand]
  | .st _ m b w _ | .stRel _ m b w => [m.operand, ⟨.src, b, regsOf w.bytes, regsOf w.bytes⟩]
  | .ldnf _ d m w => [bD w d, m.operand]
  | .preq _ m | .xclr _ m => [m.operand]
  | .cas _ d m b w _ => [if w then ⟨.both, d, 2, 2⟩ else ⟨.both, d, 1, 1⟩, m.operand, bS w b]
  | .atomx _ m b _ => [m.operand, rS b]
  | .atomAdd _ d m b w _ | .atomAnd _ d m b w _ | .atomExch _ d m b w _ => [bD w d, m.operand, bS w b]
  | .atomMin _ d m b k _ | .atomMax _ d m b k _ => [bD k.is64 d, m.operand, bS k.is64 b]
  | .atomOr _ d m b _ | .atomXor _ d m b _ | .atomAddF32 _ d m b _ => [rD d, m.operand, rS b]
  | .atomAddF64 _ d m b _ => [pD d, m.operand, pS b]
  | .redAdd _ m b w | .redAnd _ m b w => [m.operand, bS w b]
  | .redMin _ m b k | .redMax _ m b k => [m.operand, bS k.is64 b]
  | .redOr _ m b | .redXor _ m b | .redAddF32 _ m b => [m.operand, rS b]
  | .redAddF64 _ m b => [m.operand, pS b]
  | .xrnd _ d m w => [bD w d, m.operand]
  | .waitcnt .. => []
  | .bar _ a _ | .barArv _ a _ => [rS a]
  | .barbInit _ m b | .barbExpect _ m b | .barbWait _ m b => [m.operand, rS b]
  | .barbArrive _ d m => [rD d, m.operand]
  | .qxchIdx _ d a b ty | .fshflIdx _ d a b ty | .fshflUp _ d a b ty | .fshflDown _ d a b ty
  | .fshflXor _ d a b ty => [tD ty d, tS ty a, rS b]
  | .qxchX _ d a _ ty | .qbcst _ d a _ ty => [tD ty d, tS ty a]
  | .fvoteAll .. | .fvoteAny .. | .fvoteUni .. => []
  | .fvoteBallot _ d _ => [rD d]
  | .rngLo _ d a b | .rngHi _ d a b => [pD d, pS a, ⟨.src, b, 4, 4⟩]
  | .mmodeM _ ab => [⟨.named, BitVec.ofNat 8 (ab.toNat * 8), 64, 8⟩]
  | .mmodeV _ | .mzero _ | .hdrop .. => []
  | .mgang _ a => [rS a]
  | .mma _ _ _ k _ | .mmasp _ _ _ k _ => [rS k]
  | .mmad _ a _ _ => [⟨.src, a, 64, 8⟩]
  | .mstat _ d | .hquery _ d _ | .lwait _ d => [rD d]
  | .mdrainSt _ d a b _ _ | .mdrainAddf _ d a b _ _ | .mdrainAddx _ d a b _ _ => [rD d, pS a, rS b]
  | .mcvt _ d ty _ => [⟨.dst, d, mcvtRegs ty, 8⟩]
  | .seal _ _ a b => [pS a, rD b]
  | .copy _ d a b _ _ | .gath _ d a b _ | .scat _ d a b _ => [rD d, ⟨.src, a, 8, 8⟩, rS b]
  | .sample _ d a b _ => [pD d, ⟨.src, a, 8, 8⟩, pS b]
  | .gauge _ d a => [rD d, ⟨.src, a, 8, 8⟩]
  | .launch _ d a _ | .launchPod _ d a _ => [pD d, pS a]
  | .lcancel _ d a | .lcancelKill _ d a => [rD d, rS a]
  | .lstat _ d a => [⟨.dst, d, 8, 8⟩, rS a]
  | .qpost _ d a b => [rD d, pS a, rS b]
  | _ => []

/-- The predicates an instruction reads beside its guard, and those it writes. -/
def Instr.preds : Instr → List PredF × List PredF
  | .icmp _ p _ _ _ _ | .fcmp _ p _ _ _ _ => ([], [p])
  | .isel _ _ _ _ p _ => ([p], [])
  | .plop _ d a b x _ => ([a, b, x], [d])
  | .fvoteAll _ d a | .fvoteAny _ d a | .fvoteUni _ d a => ([a], [d])
  | .fvoteBallot _ _ a => ([a], [])
  | _ => ([], [])

/-- Check 6 of R84: no register field holds 249-255. -/
def Operand.legal (o : Operand) : Bool := o.field.toNat ≤ 248
/-- Check 8 of R84: a register that must start at a multiple does; vz may stand anywhere (R17). -/
def Operand.aligned (o : Operand) : Bool := o.field = 248#8 || o.field.toNat % o.align = 0

-- The type sets of R69
def Ty.isInt : Ty → Bool
  | .i32 | .n32 | .i64 | .n64 => true
  | _ => false
def Ty.isNar : Ty → Bool
  | .i16 | .n16 | .i8 | .n8 => true
  | _ => false
def Ty.isB : Ty → Bool
  | .b32 | .b64 => true
  | _ => false
def Ty.isH : Ty → Bool
  | .f32 | .f16 | .bf16 => true
  | _ => false
def Ty.isHalf : Ty → Bool
  | .f16 | .bf16 => true
  | _ => false
def Ty.isIeee : Ty → Bool
  | .f32 | .f64 | .f16 | .bf16 => true
  | _ => false
def Ty.isMini : Ty → Bool
  | .e4m3 | .e5m2 | .e3m2 | .e2m3 | .e2m1 | .mxfp8 | .mxfp6 | .mxfp4 => true
  | _ => false
/-- The minifloats that are not block-scaled. -/
def Ty.isOcp (t : Ty) : Bool := t.isMini && !t.mx
def Ty.isS (t : Ty) : Bool := t = .i32 || t = .i64
def Ty.is32 (t : Ty) : Bool := t = .i32 || t = .n32
def Ty.isFD (t : Ty) : Bool := t = .f32 || t = .f64
/-- The types of mma (R210), mmasp and mmad (R215). -/
def Ty.isMma (t : Ty) : Bool :=
  t = .i8 || t = .n8 || t = .b32 || t = .f64 || t.isHalf || t.isMini
def Ty.isMmasp (t : Ty) : Bool := t = .i8 || t = .n8 || t.isHalf || t = .e4m3 || t = .e5m2
def Ty.isMmad (t : Ty) : Bool := t.isHalf || t = .e4m3 || t = .e5m2
def Cond.isI : Cond → Bool
  | .un | .ord => false
  | _ => true

/-- The selectors rdsr accepts (R26). -/
def srListed (n : BitVec 8) : Bool :=
  [0x00, 0x01, 0x02, 0x04, 0x05, 0x06, 0x08, 0x09, 0x0A, 0x0C, 0x0D, 0x0E, 0x0F, 0x10, 0x11, 0x12, 0x14, 0x16].contains
    n.toNat
/-- The control register numbers (R27). -/
def csrListed (n : BitVec 12) : Bool :=
  [0x000, 0x001, 0x002, 0x003, 0x004, 0x010, 0x011, 0x012, 0x100, 0x101, 0x102, 0x103, 0x104, 0x105, 0x106].contains
    n.toNat

/-- The spaces of the atomics (R79): .g and .s. -/
def Spsc.isGS (p : Spsc) : Bool := p.isG || p = .s
/-- The spaces of loads with a serving code (R79, R172). -/
def LdV.spaceOk (v : LdV) (p : Spsc) : Bool := v = .dflt || p.isG
/-- The spaces of stores (R79, R174). -/
def StV.spaceOk (v : StV) (p : Spsc) : Bool := p ≠ .c && (v = .dflt || p.isG)

/-- Check 5 of R84 on the instruction: every code holds a value that the slot accepts. -/
def Instr.codeOk : Instr → Bool
  | .iadd _ _ _ _ ty _ | .isub _ _ _ _ ty _ | .imul _ _ _ _ ty | .imulh _ _ _ _ ty | .imad _ _ _ _ _ ty _
  | .imin _ _ _ _ ty | .imax _ _ _ _ ty => ty.isInt
  | .imadw _ _ _ _ _ ty | .lea _ _ _ _ _ ty | .bfx _ _ _ _ ty => ty.is32
  | .iabs _ _ _ ty _ | .ineg _ _ _ ty _ | .sar _ _ _ _ ty => ty.isS
  | .icmp _ _ _ _ cc ty => cc.isI && ty.isInt
  | .shl _ _ _ _ ty | .shr _ _ _ _ ty | .andB _ _ _ _ ty | .orB _ _ _ _ ty | .xorB _ _ _ _ ty | .notB _ _ _ ty
  | .popc _ _ _ ty | .clz _ _ _ ty | .brev _ _ _ ty | .ffs _ _ _ ty | .isel _ _ _ _ _ ty | .mov _ _ _ ty
  | .qxchIdx _ _ _ _ ty | .qbcst _ _ _ _ ty | .fshflIdx _ _ _ _ ty | .fshflUp _ _ _ _ ty
  | .fshflDown _ _ _ _ ty | .fshflXor _ _ _ _ ty => ty.isB
  | .qxchX _ _ _ k ty => k ≠ 0#2 && ty.isB
  | .bra _ arm slot _ => arm || slot = 0#4
  | .rdsr _ _ sel => srListed sel
  | .csrr _ _ n => csrListed n
  | .csrw _ _ n => csrListed n && n ≠ 0x000#12 && n ≠ 0x003#12
  | .fadd _ _ _ _ ty _ | .fsub _ _ _ _ ty _ | .fmul _ _ _ _ ty _ | .ffma _ _ _ _ _ ty _ | .fmin _ _ _ _ ty
  | .fmax _ _ _ _ ty | .fminn _ _ _ _ ty | .fmaxn _ _ _ _ ty | .fcmp _ _ _ _ _ ty | .fclass _ _ _ ty
  | .frnd _ _ _ ty _ => ty.isH
  | .hadd2 _ _ _ _ ty _ | .hmul2 _ _ _ _ ty _ | .hfma2 _ _ _ _ _ ty _ => ty.isHalf
  | .fcvt _ _ _ ty src _ => ty.isIeee && ty ≠ src.ty
  | .f2i _ _ _ ty _ _ => ty.isInt || ty.isNar
  | .i2f _ _ _ ty src _ => ty.isIeee && (src.isInt || src.isNar)
  | .fldx _ _ _ _ ty _ | .fexpo _ _ _ ty | .fmant _ _ _ ty => ty.isFD
  | .mfpack _ _ _ b ty src _ _ => ty.isMini && src ≠ .f64 && (ty.mx || b = 248#8)
  | .mfunpk _ _ _ b ty dst => ty.isMini && dst ≠ .f64 && (ty.mx || b = 248#8)
  | .popnz _ _ _ ty _ => ty.isH || ty.isOcp
  | .spcomp _ _ _ ty _ => ty.isHalf || ty.isOcp
  | .ld _ _ m _ v => v.spaceOk m.sp
  | .ldAcq _ _ m _ => m.sp.isGS
  | .st _ m _ _ v => v.spaceOk m.sp
  | .stRel _ m _ _ => m.sp.isGS
  | .ldnf _ _ m _ | .preq _ m | .atomx _ m _ _ | .xrnd _ _ m _ | .xclr _ m => m.sp.isG
  | .cas _ _ m _ _ _ | .atomAdd _ _ m _ _ _ | .atomMin _ _ m _ _ _ | .atomMax _ _ m _ _ _ | .atomAnd _ _ m _ _ _
  | .atomOr _ _ m _ _ | .atomXor _ _ m _ _ | .atomExch _ _ m _ _ _ | .atomAddF32 _ _ m _ _
  | .atomAddF64 _ _ m _ _ | .redAdd _ m _ _ | .redMin _ m _ _ | .redMax _ m _ _ | .redAnd _ m _ _ | .redOr _ m _
  | .redXor _ m _ | .redAddF32 _ m _ | .redAddF64 _ m _ => m.sp.isGS
  | .barbInit _ m _ | .barbExpect _ m _ | .barbArrive _ _ m | .barbWait _ m _ => m.sp = .s
  | .mmodeM _ ab => ab.toNat ≤ 23
  | .mma _ _ _ _ ty => ty.isMma
  | .mmasp _ _ _ _ ty => ty.isMmasp
  | .mmad _ _ _ ty | .mcvt _ _ ty _ => ty.isMmad
  | .mdrainAddf _ _ _ _ _ acc => acc ≠ .i32
  | .mdrainAddx _ _ _ _ _ acc => acc = .f32
  | _ => true

/-- Whether an instruction is a row of the event table, which no word encodes. -/
def Instr.isEvent : Instr → Bool
  | .warpForm .. | .loadWriteback .. | .storePerformed .. | .homeWriteApply .. | .pushApply .. | .l1Rebase ..
  | .timeViewLost .. | .hostSnoop .. | .gridGrant .. | .passCommit .. | .drainCapture .. | .copyGranule ..
  | .gathPosition .. | .scatPosition .. | .drainGranule .. | .sampleComplete .. | .gaugeComplete ..
  | .engineStatusWrite .. | .joinHoldExpiry .. | .pageAnswer .. | .invalidationDoorbell .. | .hostTailWrite ..
  | .runtimeRegisterWrite .. | .turnoutCycle .. | .terraceCloseAgeing .. | .checkgateLotRequest ..
  | .blockRetire .. | .gridComplete .. | .lwaitResume .. | .podGridBroadcast .. | .podLotRequest ..
  | .podOrdOffer .. | .progressSummary .. | .finalSummary .. | .podCancel .. | .standbyTakeover ..
  | .timeMessage .. | .gtimeUnsync .. | .flitReplay .. | .linkPortDown .. | .remoteRequestArrival ..
  | .remoteTimeout .. | .preemptGraceful .. | .gracefulDeadline .. | .preemptForced .. | .saveImage ..
  | .sluiceEscalation .. | .resumeRequest .. | .blockRestore .. | .quantumExpiry .. | .contextKill ..
  | .contextCreate .. | .codeRelease .. | .partitionConfigure .. | .regionDescriptorWrite .. | .attestRequest ..
  | .svnUpdate .. | .packageReset .. | .backupImage .. | .ucieModuleDown .. | .ucieRetrain .. | .poolPortDown ..
  | .eccError .. | .fatalError .. | .scrub .. | .powerControlTick .. | .powerWordWrite .. | .junctionOvertemp ..
  | .coolantChange .. | .cxlMemAccess .. => true
  | _ => false

/-- An instruction is well formed when some word stands for it: its codes are accepted (check 5 of R84), its
register fields are legal (check 6), and each register that must start at a multiple does (check 8). -/
def Instr.wellFormed (i : Instr) : Bool :=
  !i.isEvent && i.codeOk && i.operands.all Operand.legal && i.operands.all Operand.aligned

end Sys2Proof
end

