-- ==== Sys2Proof/Machine/Operands.lean ====
section
/-! DEFINITION. Operand forms: typed registers (R86, R87, R143), the addresses of form M and their checks (R49, R167),
groups of registers, and the shape every meaning shares. -/

namespace Sys2Proof.Machine

/-- The outcome of a step of this machine. -/
abbrev Out := Host.Outcome State Fault Refusal

/-- The registers of an operand. -/
def operandRegs (o : Operand) : List Nat := many o.span o.field

/-- The operands that have one of two roles, as register numbers. -/
def regsOfRole (l : List Operand) (p q : Role) : List Nat :=
  (l.filter fun o => o.role = p || o.role = q).flatMap operandRegs

/-- What an instruction reads, writes and names. -/
def usesOf (i : Instr) : Uses :=
  ⟨regsOfRole i.operands .src .both, regsOfRole i.operands .dst .both, i.preds.1.flatMap onep,
    i.preds.2.flatMap onep, regsOfRole i.operands .named .named⟩

/-- An instruction of the executing thread without a wait of its own. -/
def State.run (s : State) (c : Ctl) (i : Instr) (body : State → State) : Out := .next (s.enter c (usesOf i) body)
/-- An instruction whose issue dissolves the warp, whatever its members' guards give (R253). -/
def State.runE (s : State) (c : Ctl) (i : Instr) (body : State → State) : Out := .next (s.enter c (usesOf i) body).event
/-- An instruction of the executing thread with a wait of its own. -/
def State.runW (s : State) (c : Ctl) (i : Instr) (wait : State → Option Wait) (body : State → State) : Out :=
  .next (s.enterW c (usesOf i) wait body)

/-- The width of a type in bits (R86). -/
def tyWidth (t : Ty) : Nat := if t.is64 then 64 else 32
/-- Whether an integer type is signed (R69). -/
def tySigned : Ty → Bool
  | .i32 | .i64 | .i16 | .i8 => true
  | _ => false
/-- A register or pair by type, as a number (R87). -/
def State.rdN (s : State) (t : Ty) (r : RegF) : Nat := if t.is64 then (s.rd64 r).toNat else (s.rd r).toNat
/-- val of R87. -/
def State.val (s : State) (t : Ty) (r : RegF) : Int :=
  if tySigned t then sval (tyWidth t) (s.rdN t r) else (s.rdN t r : Int)
/-- lo and hi of R87, over a width. -/
def loInt (sg : Bool) (w : Nat) : Int := if sg then -(2 ^ (w - 1) : Int) else 0
def hiInt (sg : Bool) (w : Nat) : Int := if sg then 2 ^ (w - 1) - 1 else 2 ^ w - 1
/-- clampInt of R87. -/
def clampInt (sg : Bool) (w : Nat) (x : Int) : Int := min (max x (loInt sg w)) (hiInt sg w)
/-- put of R87 for a number: the register or pair takes it modulo 2^w, with a latency. -/
def State.putN (s : State) (t : Ty) (r : RegF) (n : Nat) (L : Nat) : State :=
  if t.is64 then s.wr64 r (BitVec.ofNat 64 n) L else s.wr r (BitVec.ofNat 32 n) L
/-- put of R87 for an integer. -/
def State.putI (s : State) (t : Ty) (r : RegF) (x : Int) (L : Nat) : State := s.putN t r (wrap (tyWidth t) x) L

/-- A register computed with a fixed latency, and the thread moves on. -/
def State.done (s : State) (c : Ctl) : State := s.advance c

/-- n consecutive registers written with fixed latency; a base of vz discards (R161). -/
def State.wrList (s : State) (r : RegF) (vs : List Word) (L : Nat) : State :=
  ((List.range vs.length).zip vs).foldl (fun s p => s.wr (RegF.up r p.1) p.2 L) s
/-- n consecutive registers read; a base of vz reads zeros. -/
def State.rdList (s : State) (r : RegF) (n : Nat) : List Word := (List.range n).map fun i => s.rd (RegF.up r i)

-- Form M (R49, R167)

/-- The effective address of form M (R49). -/
def State.ea (s : State) (m : MemOp) : Nat :=
  if m.sp.isG then (s.rd64 m.a + m.off.signExtend 64).toNat else (s.rd m.a + m.off.signExtend 32).toNat

/-- The first check of R167 that an address fails, if any: `aligned` is false for preq, `peer` true for atom, red
and cas at .pod or .sys. -/
def addrSub (bl : Block) (sp : Spsc) (a size : Nat) (aligned peer : Bool) : Option Nat :=
  if aligned && a % size ≠ 0 then some 1
  else match sp with
    | .s => if a + size ≤ bl.shb then none else some 3
    | .l => if a + size ≤ recLocal bl.record then none else some 4
    | .c => if a + size ≤ recPbytes bl.record then none else some 5
    | _ => if 2 ^ 57 ≤ a then some 2 else if isPeer a && !peer then some 6 else none

/-- The checks of R167 before an access of the executing thread; the access follows where they pass. -/
def State.checked (s : State) (sp : Spsc) (a size : Nat) (aligned peer : Bool) (body : State → State) : State :=
  match addrSub s.myBlk sp a size aligned peer with
  | some k => s.faultMe cAddr k (some a)
  | none => body s

/-- A read of a context of any length at the homes (R228, R369), which refuse it where the regions do (R383). -/
def State.readHome (s : State) (p x pa n : Nat) : List (Byte × Bool) :=
  if s.homeRefuses p x pa false then s.freeBytes (s.physKey p pa) n else s.physRead p pa n

/-- Whether an access of a context finds its range cut off or is refused by its home (R383, R401, R402). -/
def State.barred (s : State) (p x pa : Nat) (wr : Bool) : Bool := s.cutOff p pa || s.homeRefuses p x pa wr

/-- An access that a thread's instruction makes, cut off or refused, counted in its grid (R383, R401). -/
def State.countBarred (s : State) (b t va : Nat) : State :=
  let bl := s.blk b
  s.countEvent bl.pkg bl.ctx bl.grid 2
    (s.threadEvent b t (frameWord 0 (s.thr b t).pc false) (tcauseWord 0 (some va)) 0)

/-- A thread's access, counted in its grid where it is barred (R383, R401). -/
def State.countCut (s : State) (b t va p pa : Nat) (wr : Bool) : State :=
  if s.barred p (s.blk b).ctx pa wr then s.countBarred b t va else s

/-- n bytes that the executing thread reads at their home. -/
def State.readHere (s : State) (va : Nat) (x : Xl) (n : Nat) (body : State → List (Byte × Bool) → State) : State :=
  body (s.countCut s.cur.1 s.cur.2 va x.pkg x.pa false) (s.readHome x.pkg s.myBlk.ctx x.pa n)

/-- A translation that failed, met by an access of the executing thread: a fault, or a park (R175, R378). -/
def State.notReached (s : State) (va : Nat) (wr : Bool) : XErr → State
  | .absent => s.parkMe va wr
  | .fault cause sub => s.faultMe cause sub (some va)

/-- The reads of tables that are cut off, in a walk for the executing thread, counted in its grid (R375, R401, R402). -/
def State.countWalk (s : State) (va : Nat) : State :=
  (List.range (s.tableCuts s.myBlk.pkg (coreUnits s.myBlk.core) s.myBlk.ctx va)).foldl
    (fun s _ => s.countBarred s.cur.1 s.cur.2 va) s

/-- The translation of an address for the executing thread (R376). -/
def State.reachMe (s : State) (va : Nat) (rd wr : Bool) : State × Except XErr Xl :=
  (s.countWalk va).xlate s.myBlk.pkg (coreUnits s.myBlk.core) s.myBlk.ctx va rd wr

/-- An address of the executing thread translated, with what follows where that fails (R378). -/
def State.translatedOr (s : State) (va : Nat) (rd wr : Bool) (fail : State → XErr → State) (body : State → Xl → State) :
    State :=
  match s.reachMe va rd wr with
  | (s, .ok x) => body s x
  | (s, .error e) => fail s e

/-- The translation of a .g or .c access of the executing thread (R167, R378): a fault, a park (R175), or the
access at its physical address. -/
def State.translated (s : State) (va : Nat) (rd wr : Bool) (body : State → Xl → State) : State :=
  s.translatedOr va rd wr (fun s e => s.notReached va wr e) body

/-- The eight words of a group (R204). -/
def State.group (s : State) (r : RegF) : List Word := s.rdList r 8

/-- The barb register of an engine command: none for vz (R204). -/
def State.barbOf (s : State) (r : RegF) : Option Nat := if r = 248#8 then none else some (s.rd r).toNat

end Sys2Proof.Machine
end

