-- ==== Sys2Proof/Machine/Flags.lean ====
section
/-! DEFINITION. Floating-point results with their flags (spec/06_isa_float.md R143-R166, spec/12_fp_environment.md):
each function answers the bits of the result and the flags it raises. -/

namespace Sys2Proof.Machine

/-- A result: its encoding and the flags raised. -/
abbrev Res := Nat × Flags

/-- The environment of the executing thread under an override (R144). -/
def State.env (s : State) (o : Rmo) : Env := ⟨rmOf o s.me.fpcsr.rm, s.me.fpcsr.daz, s.me.fpcsr.ftz⟩

/-- fparith of R148: sources read through inDaz; the row's invalid and division-by-zero conditions; the exact value. -/
def fparith (f : Fmt) (env : Env) (srcs : List FV) (invalid : Bool) (dz : Option Bool) (x : FV) : Res :=
  if srcs.any FV.isSNaN then (defaultNaN f, NV)
  else if srcs.any FV.isNaN && !invalid then (defaultNaN f, 0)
  else if invalid then (defaultNaN f, NV)
  else match dz with
    | some neg => (infinity f neg, DZ)
    | none => roundTo f env x

/-- Whether a sum is invalid: infinities of opposite sign (R148). -/
def addInvalid (a b : FV) : Bool :=
  match a, b with
  | .inf x, .inf y => x ≠ y
  | _, _ => false
/-- Whether a product is invalid: zero times infinity (R148). -/
def mulInvalid (a b : FV) : Bool := (a.isZero && b.isInf) || (a.isInf && b.isZero)

/-- fadd and fsub (R148). -/
def fpAdd (f : Fmt) (env : Env) (a b : Nat) : Res :=
  let x := fread f env.daz a
  let y := fread f env.daz b
  fparith f env [x, y] (addInvalid x y) none (x.add env.rm y)
def fpSub (f : Fmt) (env : Env) (a b : Nat) : Res :=
  let x := fread f env.daz a
  let y := fread f env.daz b
  fparith f env [x, y] (addInvalid x y.neg) none (x.add env.rm y.neg)
/-- fmul (R148). -/
def fpMul (f : Fmt) (env : Env) (a b : Nat) : Res :=
  let x := fread f env.daz a
  let y := fread f env.daz b
  fparith f env [x, y] (mulInvalid x y) none (x.mul y)
/-- ffma (R148): one rounding of the exact product and sum. -/
def fpFma (f : Fmt) (env : Env) (a b c : Nat) : Res :=
  let x := fread f env.daz a
  let y := fread f env.daz b
  let z := fread f env.daz c
  let p := x.mul y
  fparith f env [x, y, z]
    (mulInvalid x y || (!x.isNaN && !y.isNaN && !mulInvalid x y && addInvalid p z)) none (p.add env.rm z)

/-- The rounded quotient of two finite nonzero values. -/
def roundQuot (f : Fmt) (env : Env) (x y : FV) : Res :=
  match x, y with
  | .fin a m e, .fin b n g =>
    if m = 0 ∨ n = 0 then (signBit f (a != b), 0)
    else
      let (num, den) := scaleDown m n (g - e)
      roundMag f env false (a != b) num den
  | _, _ => (defaultNaN f, 0)

/-- fdiv (R148). -/
def fpDiv (f : Fmt) (env : Env) (a b : Nat) : Res :=
  let x := fread f env.daz a
  let y := fread f env.daz b
  let neg := x.sign != y.sign
  if x.isSNaN || y.isSNaN then (defaultNaN f, NV)
  else if x.isNaN || y.isNaN then (defaultNaN f, 0)
  else if (x.isZero && y.isZero) || (x.isInf && y.isInf) then (defaultNaN f, NV)
  else if x.isInf then (infinity f neg, 0)
  else if y.isInf || x.isZero then (signBit f neg, 0)
  else if y.isZero then (infinity f neg, DZ)
  else roundQuot f env x y

/-- drcp (R148): 1 / a. -/
def fpRcp (f : Fmt) (env : Env) (a : Nat) : Res :=
  let x := fread f env.daz a
  if x.isSNaN then (defaultNaN f, NV)
  else if x.isNaN then (defaultNaN f, 0)
  else if x.isZero then (infinity f x.sign, DZ)
  else if x.isInf then (signBit f x.sign, 0)
  else roundQuot f env (.fin false 1 0) x

/-- fsqrt (R148): the square root of -0 is -0. -/
def fpSqrt (f : Fmt) (env : Env) (a : Nat) : Res :=
  match fread f env.daz a with
  | .nan sig => (defaultNaN f, if sig then NV else 0)
  | .inf neg => if neg then (defaultNaN f, NV) else (infinity f false, 0)
  | .fin neg m e =>
    if m = 0 then (signBit f neg, 0)
    else if neg then (defaultNaN f, NV)
    else roundTo f env (FV.sqrtSticky m e)

/-- The encoding of a source as read after inDaz (R150). -/
def dazBits (f : Fmt) (daz : Bool) (bits : Nat) : Nat :=
  let w := bits % 2 ^ f.width
  if daz && isSubnormal f (fdecode f w) then signBit f (fdecode f w).sign else w

/-- fmin, fmax, fminn and fmaxn (R150). -/
def fpMinMax (f : Fmt) (daz max num : Bool) (a b : Nat) : Res :=
  let x := fread f daz a
  let y := fread f daz b
  let fl := if x.isSNaN || y.isSNaN then NV else 0
  let a' := dazBits f daz a
  let b' := dazBits f daz b
  if x.isNaN && y.isNaN then (defaultNaN f, fl)
  else if x.isNaN then (if num then b' else defaultNaN f, fl)
  else if y.isNaN then (if num then a' else defaultNaN f, fl)
  else
    let less := x.lt true y
    (if less = max then b' else a', fl)

/-- fcmp (R71, R151). -/
def fpCmp (f : Fmt) (daz : Bool) (cc : Cond) (a b : Nat) : Bool × Flags :=
  let x := fread f daz a
  let y := fread f daz b
  let un := x.isNaN || y.isNaN
  let sig := x.isSNaN || y.isSNaN
  let lt := !un && x.lt false y
  let gt := !un && y.lt false x
  let eq := !un && !lt && !gt
  let signals := match cc with
    | .lt | .le | .gt | .ge => un
    | _ => sig
  let v := match cc with
    | .eq => eq
    | .ne => !eq
    | .lt => lt
    | .le => lt || eq
    | .gt => gt
    | .ge => gt || eq
    | .un => un
    | .ord => !un
  (v, if signals then NV else 0)

/-- fclass (R152): the bit that classifies an encoding. -/
def fpClass (f : Fmt) (a : Nat) : Nat :=
  let x := fdecode f a
  match x with
  | .nan sig => if sig then 2 ^ 8 else 2 ^ 9
  | .inf neg => if neg then 1 else 2 ^ 7
  | .fin neg m _ =>
    if m = 0 then (if neg then 2 ^ 3 else 2 ^ 4)
    else if isSubnormal f x then (if neg then 2 ^ 2 else 2 ^ 5)
    else (if neg then 2 else 2 ^ 6)

/-- frnd (R153). -/
def fpRnd (f : Fmt) (env : Env) (a : Nat) : Res :=
  match fread f env.daz a with
  | .nan sig => (defaultNaN f, if sig then NV else 0)
  | .inf neg => (infinity f neg, 0)
  | .fin neg m e =>
    if m = 0 then (signBit f neg, 0)
    else
      let n := roundInt env.rm neg m e
      let (bits, _) := roundTo f env (.fin neg n 0)
      (bits, if (FV.fin neg n 0).eqv (.fin neg m e) then 0 else NX)

/-- fcvt (R154), by its pseudocode: the result is rounded in the destination's format also where it widens, so that a .bf16 subnormal
widened to .f32 is flushed where FTZ is set (DEDUCED, log entry 64). -/
def fpCvt (dst src : Fmt) (env : Env) (a : Nat) : Res := roundTo dst env (fread src env.daz a)

/-- The width in bits of a destination of f2i or a source of i2f (R155, R156). -/
def intWidth : Ty → Nat
  | .i64 | .n64 => 64
  | .i16 | .n16 => 16
  | .i8 | .n8 => 8
  | _ => 32

/-- f2i (R155): the integer and the flags. -/
def fpToInt (t : Ty) (src : Fmt) (env : Env) (a : Nat) : Int × Flags :=
  let sg := tySigned t
  let w := intWidth t
  match fread src env.daz a with
  | .nan _ => (0, NV)
  | .inf neg => (if neg then loInt sg w else hiInt sg w, NV)
  | .fin neg m e =>
    let k := roundInt env.rm neg m e
    let n : Int := if neg then -(k : Int) else k
    if n < loInt sg w || hiInt sg w < n then (clampInt sg w n, NV)
    else (n, if (FV.fin neg k 0).eqv (.fin neg m e) then 0 else NX)

/-- i2f (R156). -/
def fpOfInt (dst : Fmt) (env : Env) (n : Int) : Res := roundTo dst env (ofInt n 0 false)

/-- fldx (R157). -/
def fpLdx (f : Fmt) (env : Env) (a : Nat) (k : Int) : Res :=
  let x := fread f env.daz a
  match x with
  | .nan sig => (defaultNaN f, if sig then NV else 0)
  | .inf neg => (infinity f neg, 0)
  | .fin neg m _ => if m = 0 then (signBit f neg, 0) else roundTo f env (x.scale k)

/-- fexpo (R158). -/
def fpExpo (f : Fmt) (daz : Bool) (a : Nat) : Word :=
  match fread f daz a with
  | .nan _ => 0x7FFFFFFF#32
  | .inf _ => 0x7FFFFFFE#32
  | .fin _ m e => if m = 0 then 0x80000000#32 else BitVec.ofInt 32 (Nat.log2 m + e)

/-- fmant (R158). -/
def fpMant (f : Fmt) (daz : Bool) (a : Nat) : Res :=
  match fread f daz a with
  | .nan sig => (defaultNaN f, if sig then NV else 0)
  | .inf neg => (infinity f neg, 0)
  | .fin neg m _ =>
    if m = 0 then (signBit f neg, 0) else ((roundTo f ⟨.rne, false, false⟩ (.fin neg m (-(Nat.log2 m : Int)))).1, 0)

-- Minifloats (R161-R163)

/-- The element format of a minifloat type under its control word (R161). -/
def miniFmt (t : Ty) (ctl : Word) : Fmt :=
  let alt := ctl.getLsbD 8
  match t with
  | .mxfp8 => if alt then .e5m2 else .e4m3
  | .mxfp6 => if alt then .e2m3 else .e3m2
  | .mxfp4 => .e2m1
  | t => fmtOf t

/-- The bits an element takes in a packed word (R128): 8, or 4 for E2M1. -/
def packBits (t : Ty) : Nat := if t.elems = 8 then 4 else 8

/-- Element i of packed registers of 16- or 32-bit elements (R161). -/
def ieeeElem (f : FpSrc) (ws : List Word) (i : Nat) : Nat :=
  if f = .f32 then (ws.getD i 0).toNat else (ws.getD (i / 2) 0).toNat / 2 ^ (16 * (i % 2)) % 65536

/-- Packed registers of IEEE elements. -/
def ieeePack (f : FpSrc) (es : List Nat) : List Word :=
  if f = .f32 then es.map (BitVec.ofNat 32)
  else (List.range (es.length / 2)).map fun i => BitVec.ofNat 32 (es.getD (2 * i) 0 + 65536 * es.getD (2 * i + 1) 0)

/-- A word of elements packed at a number of bits each, element 0 lowest. -/
def packWord (bits : Nat) : List Nat → Nat
  | [] => 0
  | e :: es => e + 2 ^ bits * packWord bits es

/-- One element of mfpack (R162). -/
def packElem (t : Ty) (src : FpSrc) (env : Env) (sat : Bool) (ctl : Word) (a : Nat) : Res :=
  let ef := miniFmt t ctl
  let x := fread (fmtOfSrc src) env.daz a
  if t.mx then
    match e8m0 (ctl.toNat % 256) with
    | none => (if ef.hasNaN then defaultNaN ef else 0, NV)
    | some e => roundTo ef env (x.scale (-e)) sat
  else roundTo ef env x sat

/-- mfpack (R162). -/
def fpPack (t : Ty) (src : FpSrc) (env : Env) (sat : Bool) (ctl : Word) (ws : List Word) : Word × Flags :=
  let rs := (List.range t.elems).map fun i => packElem t src env sat ctl (ieeeElem src ws i)
  (BitVec.ofNat 32 (packWord (packBits t) (rs.map (·.1))), rs.foldl (fun f r => f ||| r.2) 0)

/-- Element i of a packed word of a minifloat type. -/
def miniElem (t : Ty) (f : Fmt) (w : Nat) (i : Nat) : Nat := w / 2 ^ (packBits t * i) % 2 ^ f.width

/-- mfunpk (R163). -/
def fpUnpack (t : Ty) (dst : FpSrc) (ctl w : Word) : List Word :=
  let ef := miniFmt t ctl
  let df := fmtOfSrc dst
  ieeePack dst ((List.range t.elems).map fun i => (roundTo df ⟨.rne, false, false⟩ (fdecode ef (miniElem t ef w.toNat i))).1)

/-- The magnitude key of an element, 0 for what counts as zero (R164, R166). -/
def elemKey (f : Fmt) (daz : Bool) (e : Nat) : Nat :=
  let k := e % 2 ^ (f.ew + f.mw)
  if daz && k < 2 ^ f.mw then 0 else k

/-- popnz (R165). -/
def fpPopnz (t : Ty) (daz : Bool) (w : Nat) : Nat :=
  let f := fmtOf t
  let n := if t = .f32 then 1 else if t.isHalf then 2 else t.elems
  let bits := 32 / n
  ((List.range n).filter fun i => elemKey f daz (w / 2 ^ (bits * i)) ≠ 0).length

/-- The indices of the two largest keys of a group of four, a tie going to the lower, in ascending order (R166). -/
def keepTwo (ks : List Nat) : Nat × Nat :=
  let k (i : Nat) := ks.getD i 0
  let rank (i : Nat) := ((List.range 4).filter fun j => k i < k j || (k i = k j && j < i)).length
  let kept := (List.range 4).filter fun i => rank i < 2
  (kept.getD 0 0, kept.getD 1 0)

/-- spcomp (R166): the kept elements and the metadata word. -/
def fpSpcomp (t : Ty) (daz : Bool) (v : Nat) : Word × Word :=
  let f := fmtOf t
  let bits := if t.isHalf then 16 else if t = .e2m1 then 4 else 8
  let n := 64 / bits
  let e (i : Nat) := v / 2 ^ (bits * i) % 2 ^ bits
  let key (i : Nat) := elemKey f daz (e i)
  let out (i : Nat) := if daz && key i = 0 then signBit f (e i / 2 ^ (f.ew + f.mw) % 2 = 1) else e i % 2 ^ f.width
  let groups := (List.range (n / 4)).map fun g =>
    (g, keepTwo ((List.range 4).map fun j => key (4 * g + j)), ((List.range 4).filter fun j => key (4 * g + j) ≠ 0).length)
  let kept := groups.flatMap fun (g, (i, j), _) => [out (4 * g + i), out (4 * g + j)]
  let idx := (groups.map fun (g, (i, j), _) => (i + 4 * j) * 2 ^ (4 * g)).sum
  let loss := groups.any fun (_, _, k) => 2 < k
  (BitVec.ofNat 32 (packWord bits kept), BitVec.ofNat 32 (idx + if loss then 2 ^ 31 else 0))

end Sys2Proof.Machine
end

