-- ==== Sys2Proof/Decode.lean ====
section
/-! DEFINITION. The decoder and the encoder of the instruction word (spec/02_instruction_word.md R44-R52,
spec/03_opcode_map.md R68-R85, spec/08_isa_matrix_engines.md R204). The decoder makes the checks of R84 in their order
and rejects by cause and SUB. -/

namespace Sys2Proof

/-- The fields of an instruction word (R44). -/
structure Fields where
  opc : BitVec 10
  stall : BitVec 4
  rsv : BitVec 2
  pn : BitVec 1
  ps : BitVec 3
  d : BitVec 8
  a : BitVec 8
  b : BitVec 8
  c : BitVec 8
  mod : BitVec 12
deriving DecidableEq, Repr, Inhabited

/-- The word of the fields. -/
def Fields.toDword (f : Fields) : Dword :=
  f.opc ++ f.stall ++ f.rsv ++ f.pn ++ f.ps ++ f.d ++ f.a ++ f.b ++ f.c ++ f.mod

/-- The fields of a word. -/
def Fields.ofDword (w : Dword) : Fields :=
  ⟨w.extractLsb' 54 10, w.extractLsb' 50 4, w.extractLsb' 48 2, w.extractLsb' 47 1, w.extractLsb' 44 3,
    w.extractLsb' 36 8, w.extractLsb' 28 8, w.extractLsb' 20 8, w.extractLsb' 12 8, w.extractLsb' 0 12⟩

/-- IMM28 of forms I and J (R48, R51). -/
def Fields.imm (f : Fields) : BitVec 28 := f.b ++ f.c ++ f.mod
/-- OFF16 of form M (R49). -/
def Fields.off (f : Fields) : BitVec 16 := f.c.extractLsb' 0 4 ++ f.mod
/-- SPSC of form M (R49). -/
def Fields.spsc (f : Fields) : BitVec 4 := f.c.extractLsb' 4 4
/-- SUB, RMO, SAT and TY of layouts LI and LF (R72). -/
def Fields.sub (f : Fields) : BitVec 4 := f.mod.extractLsb' 8 4
def Fields.rmo (f : Fields) : BitVec 3 := f.mod.extractLsb' 5 3
def Fields.li76 (f : Fields) : BitVec 2 := f.mod.extractLsb' 6 2
def Fields.sat (f : Fields) : BitVec 1 := f.mod.extractLsb' 5 1
def Fields.tyc (f : Fields) : BitVec 5 := f.mod.extractLsb' 0 5
/-- The H bits (HD HA HB HC) and EF of form E (R52). -/
def Fields.hb (f : Fields) : BitVec 4 := f.mod.extractLsb' 8 4
def Fields.ef (f : Fields) : BitVec 8 := f.mod.extractLsb' 0 8

/-- One bit as a Bool, and back. -/
def tb (b : BitVec 1) : Bool := b = 1#1
def bt (b : Bool) : BitVec 1 := if b then 1#1 else 0#1

-- Codes
/-- R69. -/
def Ty.code : Ty → BitVec 5
  | .i32 => 0 | .n32 => 1 | .i64 => 2 | .n64 => 3 | .i16 => 4 | .n16 => 5 | .i8 => 6 | .n8 => 7
  | .b32 => 8 | .b64 => 9 | .f32 => 10 | .f64 => 11 | .f16 => 12 | .bf16 => 13
  | .e4m3 => 14 | .e5m2 => 15 | .e3m2 => 16 | .e2m3 => 17 | .e2m1 => 18
  | .mxfp8 => 19 | .mxfp6 => 20 | .mxfp4 => 21
def Ty.ofCode (n : BitVec 5) : Option Ty :=
  match n.toNat with
  | 0 => some .i32 | 1 => some .n32 | 2 => some .i64 | 3 => some .n64 | 4 => some .i16 | 5 => some .n16
  | 6 => some .i8 | 7 => some .n8 | 8 => some .b32 | 9 => some .b64 | 10 => some .f32 | 11 => some .f64
  | 12 => some .f16 | 13 => some .bf16 | 14 => some .e4m3 | 15 => some .e5m2 | 16 => some .e3m2
  | 17 => some .e2m3 | 18 => some .e2m1 | 19 => some .mxfp8 | 20 => some .mxfp6 | 21 => some .mxfp4
  | _ => none
/-- R70. -/
def Rmo.code : Rmo → BitVec 3
  | .none => 0 | .rne => 1 | .rtz => 2 | .rup => 3 | .rdn => 4 | .rna => 5
def Rmo.ofCode (n : BitVec 3) : Option Rmo :=
  match n.toNat with
  | 0 => some .none | 1 => some .rne | 2 => some .rtz | 3 => some .rup | 4 => some .rdn | 5 => some .rna
  | _ => Option.none
/-- R71. -/
def Cond.code : Cond → BitVec 4
  | .eq => 0 | .ne => 1 | .lt => 2 | .le => 3 | .gt => 4 | .ge => 5 | .un => 6 | .ord => 7
def Cond.ofCode (n : BitVec 4) : Option Cond :=
  match n.toNat with
  | 0 => some .eq | 1 => some .ne | 2 => some .lt | 3 => some .le | 4 => some .gt | 5 => some .ge | 6 => some .un
  | 7 => some .ord
  | _ => none
/-- R78. -/
def FpSrc.code : FpSrc → BitVec 2
  | .f32 => 0 | .f64 => 1 | .f16 => 2 | .bf16 => 3
def FpSrc.ofCode (n : BitVec 2) : FpSrc :=
  match n.toNat with
  | 0 => .f32 | 1 => .f64 | 2 => .f16 | _ => .bf16
/-- R82. -/
def Scope.code : Scope → BitVec 3
  | .blk => 0 | .die => 1 | .pkg => 2 | .pod => 3 | .sys => 4
def Scope.ofCode (n : BitVec 3) : Option Scope :=
  match n.toNat with
  | 0 => some .blk | 1 => some .die | 2 => some .pkg | 3 => some .pod | 4 => some .sys
  | _ => none
/-- R50. -/
def Spsc.code : Spsc → BitVec 4
  | .gBlk => 0 | .gDie => 1 | .gPkg => 2 | .gPod => 3 | .gSys => 4 | .s => 5 | .l => 6 | .c => 7
def Spsc.ofCode (n : BitVec 4) : Option Spsc :=
  match n.toNat with
  | 0 => some .gBlk | 1 => some .gDie | 2 => some .gPkg | 3 => some .gPod | 4 => some .gSys | 5 => some .s
  | 6 => some .l | 7 => some .c
  | _ => none
/-- R204. -/
def Acc.code : Acc → BitVec 2
  | .f32 => 0 | .f64 => 1 | .i32 => 2
def Acc.ofCode (n : BitVec 2) : Option Acc :=
  match n.toNat with
  | 0 => some .f32 | 1 => some .f64 | 2 => some .i32
  | _ => none

/-- What a slot makes of a word: whether its reserved bits are 0 (check 3), whether its unused and predicate fields
are as they must be (check 4), the instruction where its codes name one (check 5), and for form E the H bits it
requires (check 7). -/
structure Plan where
  rsv : Bool
  unused : Bool
  code : Option Instr
  h : Option (BitVec 4)
deriving DecidableEq, Repr, Inhabited

/-- Fields that hold 248. -/
def vzs (l : List (BitVec 8)) : Bool := l.all fun r => decide (r = 248#8)
/-- Predicate fields: bits [7:3] are 0 (R46). -/
def preds (l : List (BitVec 8)) : Bool := l.all fun r => decide (r.extractLsb' 3 5 = 0#5)
def pr (r : BitVec 8) : PredF := r.extractLsb' 0 3
def prEnc (p : PredF) : BitVec 8 := 0#5 ++ p
def hn (r : BitVec 8) : HandleF := r.extractLsb' 0 4
def hnEnc (h : HandleF) : BitVec 8 := 0#4 ++ h

/-- The control fields of a word. -/
def Fields.ctl (f : Fields) : Ctl := ⟨f.stall, tb f.pn, f.ps⟩

/-- The address of a form-M word, where SPSC is a code (R50). -/
def Fields.memOp (f : Fields) : Option MemOp := (Spsc.ofCode f.spsc).map fun sp => ⟨f.a, sp, f.off⟩

/-- An integer row of layout LI with SUB 0 and SAT reserved (R72, R89). -/
def Fields.li (f : Fields) (u : List (BitVec 8)) (mk : Ctl → Ty → Instr) : Plan :=
  ⟨f.li76 = 0#2 && f.sat = 0#1, vzs u, if f.sub = 0#4 then (Ty.ofCode f.tyc).map (mk f.ctl) else none, none⟩
/-- An integer row of layout LI with SUB 0 that accepts SAT. -/
def Fields.lis (f : Fields) (u : List (BitVec 8)) (mk : Ctl → Ty → Bool → Instr) : Plan :=
  ⟨f.li76 = 0#2, vzs u, if f.sub = 0#4 then (Ty.ofCode f.tyc).map fun t => mk f.ctl t (tb f.sat) else none, none⟩
/-- A row of layout LF with SUB 0 that rounds (R72, R77). -/
def Fields.lf (f : Fields) (u : List (BitVec 8)) (mk : Ctl → Ty → Rmo → Instr) : Plan :=
  ⟨true, vzs u,
    if f.sub = 0#4 then (Ty.ofCode f.tyc).bind fun t => (Rmo.ofCode f.rmo).map fun m => mk f.ctl t m else none, none⟩
/-- A row of layout LF with SUB 0 that does not round. -/
def Fields.lfn (f : Fields) (u : List (BitVec 8)) (mk : Ctl → Ty → Instr) : Plan :=
  ⟨true, vzs u, if f.sub = 0#4 && f.rmo = 0#3 then (Ty.ofCode f.tyc).map (mk f.ctl) else none, none⟩
/-- A row of layout LF with SUB 0 of one type. -/
def Fields.lf1 (f : Fields) (ty : Ty) (u : List (BitVec 8)) (mk : Ctl → Rmo → Instr) : Plan :=
  ⟨true, vzs u, if f.sub = 0#4 && f.tyc = ty.code then (Rmo.ofCode f.rmo).map (mk f.ctl) else none, none⟩
/-- A row of MOD 0. -/
def Fields.m0 (f : Fields) (u : List (BitVec 8)) (i : Instr) : Plan := ⟨f.mod = 0#12, vzs u, some i, none⟩
/-- A row of form M. -/
def Fields.fm (f : Fields) (u : List (BitVec 8)) (mk : MemOp → Instr) : Plan := ⟨true, vzs u, f.memOp.map mk, none⟩
/-- A row of form E with some EF bits reserved and some H bits required (R52, R204). -/
def Fields.fe (f : Fields) (mask : BitVec 8) (h : BitVec 4) (u : List (BitVec 8)) (i : Option Instr) : Plan :=
  ⟨f.ef &&& mask = 0#8, vzs u, i, some h⟩

/-- Class 0 (R73) and class 1 (R74). -/
def plan01 (f : Fields) : Option Plan :=
  let c := f.ctl
  match f.opc.toNat with
  | 0x001 => f.lis [f.c] fun c t s => .iadd c f.d f.a f.b t s
  | 0x002 => f.lis [f.c] fun c t s => .isub c f.d f.a f.b t s
  | 0x003 => f.li [f.c] fun c t => .imul c f.d f.a f.b t
  | 0x004 => f.li [f.c] fun c t => .imulh c f.d f.a f.b t
  | 0x005 => f.lis [] fun c t s => .imad c f.d f.a f.b f.c t s
  | 0x006 => f.li [] fun c t => .imadw c f.d f.a f.b f.c t
  | 0x007 => f.li [f.c] fun c t => .imin c f.d f.a f.b t
  | 0x008 => f.li [f.c] fun c t => .imax c f.d f.a f.b t
  | 0x009 => f.lis [f.b, f.c] fun c t s => .iabs c f.d f.a t s
  | 0x00A => f.lis [f.b, f.c] fun c t s => .ineg c f.d f.a t s
  | 0x00B => some ⟨f.li76 = 0#2 && f.sat = 0#1, vzs [f.c] && preds [f.d],
      (Ty.ofCode f.tyc).bind fun t => (Cond.ofCode f.sub).map fun cc => .icmp c (pr f.d) f.a f.b cc t, none⟩
  | 0x00C => some ⟨f.li76 = 0#2 && f.sat = 0#1, vzs [f.c],
      (Ty.ofCode f.tyc).map fun t => .lea c f.d f.a f.b f.sub t, none⟩
  | 0x080 => f.li [f.c] fun c t => .shl c f.d f.a f.b t
  | 0x081 => f.li [f.c] fun c t => .shr c f.d f.a f.b t
  | 0x082 => f.li [f.c] fun c t => .sar c f.d f.a f.b t
  | 0x083 => some ⟨f.li76 = 0#2 && f.sat = 0#1 && f.sub.extractLsb' 1 3 = 0#3, true,
      if f.tyc = Ty.b32.code then
        some (if f.sub.getLsbD 0 then .fshR c f.d f.a f.b f.c else .fshL c f.d f.a f.b f.c) else none, none⟩
  | 0x084 => f.li [f.c] fun c t => .andB c f.d f.a f.b t
  | 0x085 => f.li [f.c] fun c t => .orB c f.d f.a f.b t
  | 0x086 => f.li [f.c] fun c t => .xorB c f.d f.a f.b t
  | 0x087 => f.li [f.b, f.c] fun c t => .notB c f.d f.a t
  | 0x088 => some ⟨f.sub = 0#4, true, some (.lop3 c f.d f.a f.b f.c f.ef), none⟩
  | 0x089 => f.li [f.c] fun c t => .bfx c f.d f.a f.b t
  | 0x08A => some ⟨f.li76 = 0#2 && f.sat = 0#1, true,
      if f.sub = 0#4 && f.tyc = Ty.b32.code then some (.bfi c f.d f.a f.b f.c) else none, none⟩
  | 0x08B => f.li [f.b, f.c] fun c t => .popc c f.d f.a t
  | 0x08C => f.li [f.b, f.c] fun c t => .clz c f.d f.a t
  | 0x08D => f.li [f.b, f.c] fun c t => .brev c f.d f.a t
  | 0x08E => f.li [f.b, f.c] fun c t => .ffs c f.d f.a t
  | 0x08F => some ⟨f.li76 = 0#2 && f.sat = 0#1, preds [f.c],
      if f.sub = 0#4 then (Ty.ofCode f.tyc).map fun t => .isel c f.d f.a f.b (pr f.c) t else none, none⟩
  | 0x090 => some ⟨f.sub = 0#4, preds [f.d, f.a, f.b, f.c],
      some (.plop c (pr f.d) (pr f.a) (pr f.b) (pr f.c) f.ef), none⟩
  | 0x091 => f.li [f.b, f.c] fun c t => .mov c f.d f.a t
  | 0x092 => some ⟨true, vzs [f.a], some (.movi c f.d f.imm), none⟩
  | 0x093 => some ⟨f.imm.extractLsb' 16 12 = 0#12, true, some (.movh c f.d f.a (f.imm.extractLsb' 0 16)), none⟩
  | 0x094 => some ⟨true, vzs [f.a], some (.ldlit32 c f.d f.imm), none⟩
  | 0x095 => some ⟨true, vzs [f.a], some (.ldlit64 c f.d f.imm), none⟩
  | 0x096 => f.m0 [f.b, f.c] (.shapeq c f.d f.a)
  | 0x097 => f.m0 [f.d, f.b, f.c] (.reshape c f.a)
  | _ => none

/-- The control register of a csrw picks its constructor. -/
def csrwOf (c : Ctl) (a : RegF) (n : BitVec 12) : Instr :=
  if n = 0x000#12 then .csrwFpcsr c a else if n = 0x003#12 then .csrwMprog c a else .csrw c a n

/-- Class 2 (R76). -/
def plan2 (f : Fields) : Option Plan :=
  let c := f.ctl
  let all := [f.d, f.a, f.b, f.c]
  match f.opc.toNat with
  | 0x100 => f.m0 all (.nop c)
  | 0x101 => some ⟨true, vzs [f.d] && f.a.extractLsb' 4 3 = 0#3 && (f.a.getLsbD 7 || f.a.extractLsb' 0 4 = 0#4),
      some (.bra c (f.a.getLsbD 7) (f.a.extractLsb' 0 4) f.imm), none⟩
  | 0x102 => some ⟨true, vzs [f.d], some (.brx c f.a f.imm), none⟩
  | 0x103 => some ⟨true, vzs [f.d, f.a], some (.call c f.imm), none⟩
  | 0x104 => some ⟨true, vzs [f.d], some (.callx c f.a f.imm), none⟩
  | 0x105 => f.m0 all (.ret c)
  | 0x106 => some ⟨f.mod = 0#12, vzs [f.d, f.b, f.c] && f.a.extractLsb' 4 4 = 0#4,
      some (.join c (f.a.extractLsb' 0 4)), none⟩
  | 0x107 => f.m0 all (.yield c)
  | 0x108 => f.m0 all (.exit c)
  | 0x109 => some ⟨f.imm.extractLsb' 16 12 = 0#12, vzs [f.d, f.a], some (.pad c (f.imm.extractLsb' 0 16)), none⟩
  | 0x10A => some ⟨f.sub = 0#4, vzs all, some (.trap c f.ef), none⟩
  | 0x10B => some ⟨f.sub = 0#4, vzs all, some (.bkpt c f.ef), none⟩
  | 0x10C => f.m0 all (.reth c)
  | 0x10D => some ⟨f.sub = 0#4, vzs [f.a, f.b, f.c], some (.rdsr c f.d f.ef), none⟩
  | 0x10E => some ⟨true, vzs [f.a, f.b, f.c], some (.csrr c f.d f.mod), none⟩
  | 0x10F => some ⟨true, vzs [f.d, f.b, f.c],
      if csrListed f.mod then some (csrwOf c f.a f.mod) else none, none⟩
  | 0x110 => some ⟨f.mod.extractLsb' 2 10 = 0#10,
      vzs (if f.mod.extractLsb' 0 2 = 0#2 then all else [f.d, f.b, f.c]),
      if f.mod.extractLsb' 0 2 = 0#2 then some (.tlbiCtx c)
      else if f.mod.extractLsb' 0 2 = 1#2 then some (.tlbiPage c f.a) else none, none⟩
  | 0x111 => f.m0 [f.b, f.c] (.codereg c f.d f.a)
  | _ => none

/-- A row of layout LF with SUB 0 that takes .f32 and does not round. -/
def Fields.one32n (f : Fields) (u : List (BitVec 8)) (i : Instr) : Plan :=
  ⟨true, vzs u, if f.sub = 0#4 && f.rmo = 0#3 && f.tyc = Ty.f32.code then some i else none, none⟩
/-- B holds 248 for the types that take no control register (R161), and for a reserved TY too, so that another B is SUB 3 there
(DEDUCED, log entry 61). -/
def ctlUnused (f : Fields) : List (BitVec 8) := if (Ty.ofCode f.tyc).any Ty.mx then [f.c] else [f.b, f.c]

/-- Class 3 (R77) and class 4 (R78). -/
def plan34 (f : Fields) : Option Plan :=
  let c := f.ctl
  match f.opc.toNat with
  | 0x180 => f.lf [f.c] fun c t m => .fadd c f.d f.a f.b t m
  | 0x181 => f.lf [f.c] fun c t m => .fsub c f.d f.a f.b t m
  | 0x182 => f.lf [f.c] fun c t m => .fmul c f.d f.a f.b t m
  | 0x183 => f.lf [] fun c t m => .ffma c f.d f.a f.b f.c t m
  | 0x184 => f.lfn [f.c] fun c t => .fmin c f.d f.a f.b t
  | 0x185 => f.lfn [f.c] fun c t => .fmax c f.d f.a f.b t
  | 0x186 => f.lfn [f.c] fun c t => .fminn c f.d f.a f.b t
  | 0x187 => f.lfn [f.c] fun c t => .fmaxn c f.d f.a f.b t
  | 0x188 => some ⟨true, vzs [f.c] && preds [f.d],
      if f.rmo = 0#3 then
        (Ty.ofCode f.tyc).bind fun t => (Cond.ofCode f.sub).map fun cc => .fcmp c (pr f.d) f.a f.b cc t
      else none, none⟩
  | 0x189 => f.lfn [f.b, f.c] fun c t => .fclass c f.d f.a t
  | 0x18A => f.lf [f.b, f.c] fun c t m => .frnd c f.d f.a t m
  | 0x18B => f.lf [f.c] fun c t m => .hadd2 c f.d f.a f.b t m
  | 0x18C => f.lf [f.c] fun c t m => .hmul2 c f.d f.a f.b t m
  | 0x18D => f.lf [] fun c t m => .hfma2 c f.d f.a f.b f.c t m
  | 0x200 => f.lf1 .f64 [f.c] fun c m => .dadd c f.d f.a f.b m
  | 0x201 => f.lf1 .f64 [f.c] fun c m => .dmul c f.d f.a f.b m
  | 0x202 => f.lf1 .f64 [] fun c m => .dfma c f.d f.a f.b f.c m
  | 0x203 => f.lf1 .f64 [f.c] fun c m => .ddiv c f.d f.a f.b m
  | 0x204 => f.lf1 .f64 [f.b, f.c] fun c m => .dsqrt c f.d f.a m
  | 0x205 => f.lf1 .f64 [f.b, f.c] fun c m => .drcp c f.d f.a m
  | 0x206 => some ⟨f.sub.extractLsb' 2 2 = 0#2, vzs [f.b, f.c],
      (Ty.ofCode f.tyc).bind fun t => (Rmo.ofCode f.rmo).map fun m =>
        .fcvt c f.d f.a t (FpSrc.ofCode (f.sub.extractLsb' 0 2)) m, none⟩
  | 0x207 => some ⟨f.sub.extractLsb' 2 2 = 0#2, vzs [f.b, f.c],
      (Ty.ofCode f.tyc).bind fun t => (Rmo.ofCode f.rmo).map fun m =>
        .f2i c f.d f.a t (FpSrc.ofCode (f.sub.extractLsb' 0 2)) m, none⟩
  | 0x208 => some ⟨f.sub.extractLsb' 3 1 = 0#1, vzs [f.b, f.c],
      (Ty.ofCode f.tyc).bind fun t => (Rmo.ofCode f.rmo).bind fun m =>
        (Ty.ofCode (0#2 ++ f.sub.extractLsb' 0 3)).map fun st => .i2f c f.d f.a t st m, none⟩
  | 0x209 => f.lf [f.c] fun c t m => .fldx c f.d f.a f.b t m
  | 0x20A => f.lfn [f.b, f.c] fun c t => .fexpo c f.d f.a t
  | 0x20B => f.lfn [f.b, f.c] fun c t => .fmant c f.d f.a t
  | 0x20C => f.one32n [f.b, f.c] (.frcp c f.d f.a)
  | 0x20D => f.one32n [f.b, f.c] (.frsq c f.d f.a)
  | 0x20E => f.lf1 .f32 [f.b, f.c] fun c m => .fsqrt c f.d f.a m
  | 0x20F => f.lf1 .f32 [f.c] fun c m => .fdiv c f.d f.a f.b m
  | 0x210 => f.one32n [f.b, f.c] (.fex2 c f.d f.a)
  | 0x211 => f.one32n [f.b, f.c] (.flg2 c f.d f.a)
  | 0x212 => f.one32n [f.b, f.c] (.fsinpi c f.d f.a)
  | 0x213 => f.one32n [f.b, f.c] (.fcospi c f.d f.a)
  | 0x214 => some ⟨f.sub.extractLsb' 3 1 = 0#1, vzs (ctlUnused f),
      (Ty.ofCode f.tyc).bind fun t => (Rmo.ofCode f.rmo).map fun m =>
        .mfpack c f.d f.a f.b t (FpSrc.ofCode (f.sub.extractLsb' 0 2)) (f.sub.getLsbD 2) m, none⟩
  | 0x215 => some ⟨f.sub.extractLsb' 2 2 = 0#2, vzs (ctlUnused f),
      if f.rmo = 0#3 then
        (Ty.ofCode f.tyc).map fun t => .mfunpk c f.d f.a f.b t (FpSrc.ofCode (f.sub.extractLsb' 0 2)) else none, none⟩
  | 0x216 => some ⟨f.sub.extractLsb' 1 3 = 0#3, vzs [f.b, f.c],
      if f.rmo = 0#3 then (Ty.ofCode f.tyc).map fun t => .popnz c f.d f.a t (f.sub.getLsbD 0) else none, none⟩
  | 0x217 => some ⟨f.sub.extractLsb' 1 3 = 0#3, vzs [f.b, f.c],
      if f.rmo = 0#3 then (Ty.ofCode f.tyc).map fun t => .spcomp c f.d f.a t (f.sub.getLsbD 0) else none, none⟩
  | _ => none

/-- The widths and serving codes of ld and st (R79). -/
def LdW.code : LdW → Nat
  | .i8 => 0 | .n8 => 1 | .i16 => 2 | .n16 => 3 | .b32 => 4 | .b64 => 5 | .b128 => 6
def LdV.code : LdV → Nat
  | .dflt => 0 | .cg => 1 | .cs => 2
def StW.code : StW → Nat
  | .b8 => 0 | .b16 => 1 | .b32 => 2 | .b64 => 3 | .b128 => 4
def StV.code : StV → Nat
  | .dflt => 0 | .cs => 1

/-- The loads of 0x280 + 4 W + V (R79); W = 7 fails check 5, SUB 4 (R84). -/
def planLd (f : Fields) (n : Nat) : Plan :=
  let c := f.ctl
  let w : Option LdW := match n / 4 with
    | 0 => some .i8 | 1 => some .n8 | 2 => some .i16 | 3 => some .n16 | 4 => some .b32 | 5 => some .b64
    | 6 => some .b128 | _ => none
  match w with
  | none => ⟨true, vzs [f.b], none, none⟩
  | some w => f.fm [f.b] fun m => match n % 4 with
    | 0 => .ld c f.d m w .dflt | 1 => .ld c f.d m w .cg | 2 => .ld c f.d m w .cs | _ => .ldAcq c f.d m w

/-- The stores of 0x2A0 + 4 W + V (R79); V = 3 fails check 5, SUB 4 (R84). -/
def planSt (f : Fields) (n : Nat) : Plan :=
  let c := f.ctl
  let w : StW := match n / 4 with
    | 0 => .b8 | 1 => .b16 | 2 => .b32 | 3 => .b64 | _ => .b128
  match n % 4 with
  | 0 => f.fm [f.d] fun m => .st c m f.b w .dflt
  | 1 => f.fm [f.d] fun m => .st c m f.b w .cs
  | 2 => f.fm [f.d] fun m => .stRel c m f.b w
  | _ => ⟨true, vzs [f.d], none, none⟩

/-- The atomics of 0x2C0 + 2 OP + S (R80). -/
def planAtom (f : Fields) (op : Nat) (sc : Bool) : Plan :=
  let c := f.ctl
  f.fm [] fun m => match op with
    | 0 => .atomAdd c f.d m f.b false sc
    | 1 => .atomAdd c f.d m f.b true sc
    | 2 => .atomMin c f.d m f.b .i32 sc
    | 3 => .atomMin c f.d m f.b .n32 sc
    | 4 => .atomMax c f.d m f.b .i32 sc
    | 5 => .atomMax c f.d m f.b .n32 sc
    | 6 => .atomMin c f.d m f.b .i64 sc
    | 7 => .atomMax c f.d m f.b .i64 sc
    | 8 => .atomAddF64 c f.d m f.b sc
    | 9 => .atomAnd c f.d m f.b false sc
    | 10 => .atomOr c f.d m f.b sc
    | 11 => .atomAnd c f.d m f.b true sc
    | 12 => .atomXor c f.d m f.b sc
    | 13 => .atomExch c f.d m f.b false sc
    | 14 => .atomExch c f.d m f.b true sc
    | _ => .atomAddF32 c f.d m f.b sc

/-- What a reserved slot of R79 makes of a word: it fails check 3 (R84), SUB 2. -/
def planReserved : Plan := ⟨false, true, none, none⟩

/-- The reductions of 0x2E0 + OP (R80, R178); OP = 13 and 14 are reserved slots, which fail check 3, SUB 2. -/
def planRed (f : Fields) (op : Nat) : Plan :=
  let c := f.ctl
  match op with
  | 0 => f.fm [f.d] fun m => .redAdd c m f.b false
  | 1 => f.fm [f.d] fun m => .redAdd c m f.b true
  | 2 => f.fm [f.d] fun m => .redMin c m f.b .i32
  | 3 => f.fm [f.d] fun m => .redMin c m f.b .n32
  | 4 => f.fm [f.d] fun m => .redMax c m f.b .i32
  | 5 => f.fm [f.d] fun m => .redMax c m f.b .n32
  | 6 => f.fm [f.d] fun m => .redMin c m f.b .i64
  | 7 => f.fm [f.d] fun m => .redMax c m f.b .i64
  | 8 => f.fm [f.d] fun m => .redAddF64 c m f.b
  | 9 => f.fm [f.d] fun m => .redAnd c m f.b false
  | 10 => f.fm [f.d] fun m => .redOr c m f.b
  | 11 => f.fm [f.d] fun m => .redAnd c m f.b true
  | 12 => f.fm [f.d] fun m => .redXor c m f.b
  | 15 => f.fm [f.d] fun m => .redAddF32 c m f.b
  | _ => planReserved

/-- Class 5 (R79). The slots that R79 lists as reserved (0x2B7, 0x2BF, 0x2F3 to 0x2FF) fail check 3, SUB 2 (DEDUCED, log entry 60). -/
def plan5 (f : Fields) : Plan :=
  let c := f.ctl
  let n := f.opc.toNat
  if n < 0x2A0 then planLd f (n - 0x280)
  else if n < 0x2B4 then planSt f (n - 0x2A0)
  else if n < 0x2C0 then
    match n with
    | 0x2B4 => f.fm [f.b] fun m => .ldnf c f.d m false
    | 0x2B5 => f.fm [f.b] fun m => .ldnf c f.d m true
    | 0x2B6 => f.fm [f.d, f.b] fun m => .preq c m
    | 0x2B8 => f.fm [] fun m => .cas c f.d m f.b false false
    | 0x2B9 => f.fm [] fun m => .cas c f.d m f.b true false
    | 0x2BA => f.fm [] fun m => .cas c f.d m f.b false true
    | 0x2BB => f.fm [] fun m => .cas c f.d m f.b true true
    | 0x2BC => f.fm [f.d] fun m => .atomx c m f.b .f32
    | 0x2BD => f.fm [f.d] fun m => .atomx c m f.b .f16
    | 0x2BE => f.fm [f.d] fun m => .atomx c m f.b .bf16
    | _ => planReserved
  else if n < 0x2E0 then planAtom f ((n - 0x2C0) / 2) (n % 2 = 1)
  else if n < 0x2F0 then planRed f (n - 0x2E0)
  else
    match n with
    | 0x2F0 => f.fm [f.b] fun m => .xrnd c f.d m false
    | 0x2F1 => f.fm [f.b] fun m => .xrnd c f.d m true
    | 0x2F2 => f.fm [f.d, f.b] fun m => .xclr c m
    | _ => planReserved

/-- Class 6 (R81, R82). Under a reserved SUB 4 to 15 of qxch B is unused, so that one other than 248 is SUB 3, and under one
of fvote D is no predicate field, so that SUB 4 results whatever D holds (both DEDUCED, log entry 61). -/
def plan6 (f : Fields) : Option Plan :=
  let c := f.ctl
  let liOk := decide (f.li76 = 0#2 ∧ f.sat = 0#1)
  match f.opc.toNat with
  | 0x300 => some ⟨f.imm.extractLsb' 0 8 = 0#8, vzs [f.d, f.a],
      (Scope.ofCode (f.imm.extractLsb' 8 3)).map fun sc =>
        .waitcnt c (f.imm.extractLsb' 22 6) (f.imm.extractLsb' 16 6) (f.imm.extractLsb' 11 5) sc, none⟩
  | 0x301 => some ⟨f.mod.extractLsb' 5 7 = 0#7, vzs [f.d, f.b, f.c],
      some (if f.mod.getLsbD 4 then .barArv c f.a (f.mod.extractLsb' 0 4) else .bar c f.a (f.mod.extractLsb' 0 4)),
      none⟩
  | 0x302 => f.fm [f.d] fun m => .barbInit c m f.b
  | 0x303 => f.fm [f.d] fun m => .barbExpect c m f.b
  | 0x304 => f.fm [f.b] fun m => .barbArrive c f.d m
  | 0x305 => f.fm [f.d] fun m => .barbWait c m f.b
  | 0x306 => some ⟨liOk, vzs (if f.sub = 0#4 then [f.c] else [f.b, f.c]),
      if f.sub.extractLsb' 2 2 = 0#2 then
        (Ty.ofCode f.tyc).map fun t =>
          if f.sub = 0#4 then .qxchIdx c f.d f.a f.b t else .qxchX c f.d f.a (f.sub.extractLsb' 0 2) t
      else none, none⟩
  | 0x307 => some ⟨liOk && f.sub.extractLsb' 2 2 = 0#2, vzs [f.b, f.c],
      (Ty.ofCode f.tyc).map fun t => .qbcst c f.d f.a (f.sub.extractLsb' 0 2) t, none⟩
  | 0x308 => some ⟨liOk, vzs [f.c],
      (Ty.ofCode f.tyc).bind fun t => match f.sub.toNat with
        | 0 => some (.fshflIdx c f.d f.a f.b t)
        | 1 => some (.fshflUp c f.d f.a f.b t)
        | 2 => some (.fshflDown c f.d f.a f.b t)
        | 3 => some (.fshflXor c f.d f.a f.b t)
        | _ => none, none⟩
  | 0x309 => some ⟨f.ef = 0#8, vzs [f.b, f.c] && preds [f.a] && (decide (3 ≤ f.sub.toNat) || preds [f.d]),
      match f.sub.toNat with
        | 0 => some (.fvoteAll c (pr f.d) (pr f.a))
        | 1 => some (.fvoteAny c (pr f.d) (pr f.a))
        | 2 => some (.fvoteUni c (pr f.d) (pr f.a))
        | 3 => some (.fvoteBallot c f.d (pr f.a))
        | _ => none, none⟩
  | 0x30A => some ⟨f.mod.extractLsb' 1 11 = 0#11, vzs [f.c],
      some (if f.mod.getLsbD 0 then .rngHi c f.d f.a f.b else .rngLo c f.d f.a f.b), none⟩
  | _ => none

/-- Class 7 (R83, R204). -/
def plan7 (f : Fields) : Option Plan :=
  let c := f.ctl
  let all := [f.d, f.a, f.b, f.c]
  let e := f.ef
  let ty := Ty.ofCode f.tyc
  match f.opc.toNat with
  | 0x380 => f.fe 0xC0#8 0#4 all
      (if e.getLsbD 0 then some (.mmodeM c (e.extractLsb' 1 5))
       else if e.extractLsb' 1 5 = 0#5 then some (.mmodeV c) else none)
  | 0x381 => f.fe 0xFF#8 0#4 [f.d, f.b, f.c] (some (.mgang c f.a))
  | 0x382 => f.fe 0xFF#8 0#4 all (some (.mzero c))
  | 0x383 => f.fe 0xE0#8 6#4 [f.d] (ty.map fun t => .mma c (hn f.a) (hn f.b) f.c t)
  | 0x384 => f.fe 0xE0#8 6#4 [f.d] (ty.map fun t => .mmasp c (hn f.a) (hn f.b) f.c t)
  | 0x385 => f.fe 0xE0#8 2#4 [f.d, f.c] (ty.map fun t => .mmad c f.a (hn f.b) t)
  | 0x386 => f.fe 0xFF#8 0#4 [f.a, f.b, f.c] (some (.mstat c f.d))
  | 0x387 => f.fe 0xF0#8 1#4 []
      ((Acc.ofCode (e.extractLsb' 2 2)).bind fun acc => match (e.extractLsb' 0 2).toNat with
        | 0 => some (.mdrainSt c f.d f.a f.b (hn f.c) acc)
        | 1 => some (.mdrainAddf c f.d f.a f.b (hn f.c) acc)
        | 2 => some (.mdrainAddx c f.d f.a f.b (hn f.c) acc)
        | _ => none)
  | 0x388 => f.fe 0#8 0#4 [f.a, f.b, f.c]
      (ty.bind fun t => (Rmo.ofCode f.rmo).map fun m => .mcvt c f.d t m)
  | 0x390 => f.fe 0xFF#8 8#4 [f.c] (some (.seal c (hn f.d) f.a f.b))
  | 0x391 => f.fe 0xFF#8 4#4 [f.b, f.c] (some (.hquery c f.d (hn f.a)))
  | 0x392 => f.fe 0xFF#8 8#4 [f.a, f.b, f.c] (some (.hdrop c (hn f.d)))
  | 0x398 => f.fe 0xF0#8 0#4 [f.c]
      (if e.extractLsb' 3 1 = 0#1 && e.extractLsb' 1 1 = 0#1 then
        some (.copy c f.d f.a f.b (e.getLsbD 2) (e.getLsbD 0)) else none)
  | 0x399 => f.fe 0xFF#8 1#4 [] (some (.gath c f.d f.a f.b (hn f.c)))
  | 0x39A => f.fe 0xFF#8 1#4 [] (some (.scat c f.d f.a f.b (hn f.c)))
  | 0x39B => f.fe 0xFF#8 1#4 [] (some (.sample c f.d f.a f.b (hn f.c)))
  | 0x39C => f.fe 0xFF#8 0#4 [f.b, f.c] (some (.gauge c f.d f.a))
  | 0x3A0 => f.fe 0xF0#8 0#4 [f.b, f.c]
      (some (if e.getLsbD 0 then .launchPod c f.d f.a (e.extractLsb' 1 3) else .launch c f.d f.a (e.extractLsb' 1 3)))
  | 0x3A1 => f.fe 0xFF#8 0#4 [f.a, f.b, f.c] (some (.lwait c f.d))
  | 0x3A2 => f.fe 0xFE#8 0#4 [f.b, f.c]
      (some (if e.getLsbD 0 then .lcancelKill c f.d f.a else .lcancel c f.d f.a))
  | 0x3A3 => f.fe 0xFF#8 0#4 [f.b, f.c] (some (.lstat c f.d f.a))
  | 0x3A4 => f.fe 0xFF#8 0#4 [f.c] (some (.qpost c f.d f.a f.b))
  | _ => none

/-- The plan of a word, by the class of its opcode (R68); none where the slot is unassigned. -/
def planOf (f : Fields) : Option Plan :=
  match f.opc.toNat / 128 with
  | 0 | 1 => plan01 f
  | 2 => plan2 f
  | 3 | 4 => plan34 f
  | 5 => some (plan5 f)
  | 6 => plan6 f
  | _ => plan7 f

/-- Check 6 of R84 on a form-E word: the fields whose H bit is clear name registers (R52). -/
def Fields.eRegs (f : Fields) : Bool :=
  (f.hb.getLsbD 3 || f.d.toNat ≤ 248) && (f.hb.getLsbD 2 || f.a.toNat ≤ 248)
    && (f.hb.getLsbD 1 || f.b.toNat ≤ 248) && (f.hb.getLsbD 0 || f.c.toNat ≤ 248)

/-- Check 7 of R84: the H bits are those required, and a handle field holds 0 in bits [7:4] (R52). -/
def Fields.eHandles (f : Fields) (h : BitVec 4) : Bool :=
  f.hb = h && (!h.getLsbD 3 || f.d.extractLsb' 4 4 = 0#4) && (!h.getLsbD 2 || f.a.extractLsb' 4 4 = 0#4)
    && (!h.getLsbD 1 || f.b.extractLsb' 4 4 = 0#4) && (!h.getLsbD 0 || f.c.extractLsb' 4 4 = 0#4)

/-- Checks 2 to 8 of R84 in their order: the instruction, or the cause and SUB of the first that fails. -/
def decodeFields (f : Fields) : Except (Nat × Nat) Instr :=
  match planOf f with
  | none => .error (1, 1)
  | some p =>
    if f.rsv ≠ 0#2 || !p.rsv then .error (1, 2)
    else if !p.unused then .error (1, 3)
    else match p.code with
      | none => .error (1, 4)
      | some i =>
        if !i.codeOk then .error (1, 4)
        else if !(match p.h with | some _ => f.eRegs | none => i.operands.all Operand.legal) then .error (2, 1)
        else if !(match p.h with | some h => f.eHandles h | none => true) then .error (2, 2)
        else if !i.operands.all Operand.aligned then .error (2, 3)
        else .ok i

/-- The instruction a word encodes, or the cause and SUB of its decoding fault (R84). -/
def decode (w : Dword) : Except (Nat × Nat) Instr := decodeFields (Fields.ofDword w)

-- The encoder

/-- MOD of layout LI and of layout LF (R72). -/
def modLI (sub : BitVec 4) (sat : Bool) (ty : Ty) : BitVec 12 := sub ++ 0#2 ++ bt sat ++ ty.code
def modLF (sub : BitVec 4) (rm : Rmo) (ty : Ty) : BitVec 12 := sub ++ rm.code ++ ty.code
/-- MOD of form E (R52). -/
def modE (h : BitVec 4) (ef : BitVec 8) : BitVec 12 := h ++ ef

/-- Fields of form G. -/
def fG (c : Ctl) (opc : BitVec 10) (d a b x : BitVec 8) (m : BitVec 12) : Fields :=
  ⟨opc, c.stall, 0#2, bt c.pn, c.ps, d, a, b, x, m⟩
/-- Fields of forms I and J (R48, R51). -/
def fI (c : Ctl) (opc : BitVec 10) (d a : BitVec 8) (imm : BitVec 28) : Fields :=
  ⟨opc, c.stall, 0#2, bt c.pn, c.ps, d, a, imm.extractLsb' 20 8, imm.extractLsb' 12 8, imm.extractLsb' 0 12⟩
/-- Fields of form M (R49). -/
def fM (c : Ctl) (opc : BitVec 10) (d : BitVec 8) (m : MemOp) (b : BitVec 8) : Fields :=
  ⟨opc, c.stall, 0#2, bt c.pn, c.ps, d, m.a, b, m.sp.code ++ m.off.extractLsb' 12 4, m.off.extractLsb' 0 12⟩

/-- An unused field. -/
def zz : BitVec 8 := 248#8

/-- OP of an atomic minimum or maximum (R80). -/
def minOp : MinK → Nat
  | .i32 => 2 | .n32 => 3 | .i64 => 6
def maxOp : MinK → Nat
  | .i32 => 4 | .n32 => 5 | .i64 => 7
/-- The slot of atom and of red (R79). -/
def atomOpc (op : Nat) (sc : Bool) : BitVec 10 := BitVec.ofNat 10 (0x2C0 + 2 * op + sc.toNat)
def redOpc (op : Nat) : BitVec 10 := BitVec.ofNat 10 (0x2E0 + op)

/-- The fields of an instruction's word; an event has none. -/
def encodeFields : Instr → Option Fields
  | .iadd c d a b ty s => some (fG c 0x001#10 d a b zz (modLI 0 s ty))
  | .isub c d a b ty s => some (fG c 0x002#10 d a b zz (modLI 0 s ty))
  | .imul c d a b ty => some (fG c 0x003#10 d a b zz (modLI 0 false ty))
  | .imulh c d a b ty => some (fG c 0x004#10 d a b zz (modLI 0 false ty))
  | .imad c d a b x ty s => some (fG c 0x005#10 d a b x (modLI 0 s ty))
  | .imadw c d a b x ty => some (fG c 0x006#10 d a b x (modLI 0 false ty))
  | .imin c d a b ty => some (fG c 0x007#10 d a b zz (modLI 0 false ty))
  | .imax c d a b ty => some (fG c 0x008#10 d a b zz (modLI 0 false ty))
  | .iabs c d a ty s => some (fG c 0x009#10 d a zz zz (modLI 0 s ty))
  | .ineg c d a ty s => some (fG c 0x00A#10 d a zz zz (modLI 0 s ty))
  | .icmp c p a b cc ty => some (fG c 0x00B#10 (prEnc p) a b zz (modLI cc.code false ty))
  | .lea c d a b sh ty => some (fG c 0x00C#10 d a b zz (modLI sh false ty))
  | .shl c d a b ty => some (fG c 0x080#10 d a b zz (modLI 0 false ty))
  | .shr c d a b ty => some (fG c 0x081#10 d a b zz (modLI 0 false ty))
  | .sar c d a b ty => some (fG c 0x082#10 d a b zz (modLI 0 false ty))
  | .fshL c d a b x => some (fG c 0x083#10 d a b x (modLI 0 false .b32))
  | .fshR c d a b x => some (fG c 0x083#10 d a b x (modLI 1 false .b32))
  | .andB c d a b ty => some (fG c 0x084#10 d a b zz (modLI 0 false ty))
  | .orB c d a b ty => some (fG c 0x085#10 d a b zz (modLI 0 false ty))
  | .xorB c d a b ty => some (fG c 0x086#10 d a b zz (modLI 0 false ty))
  | .notB c d a ty => some (fG c 0x087#10 d a zz zz (modLI 0 false ty))
  | .lop3 c d a b x lut => some (fG c 0x088#10 d a b x (0#4 ++ lut))
  | .bfx c d a b ty => some (fG c 0x089#10 d a b zz (modLI 0 false ty))
  | .bfi c d a b x => some (fG c 0x08A#10 d a b x (modLI 0 false .b32))
  | .popc c d a ty => some (fG c 0x08B#10 d a zz zz (modLI 0 false ty))
  | .clz c d a ty => some (fG c 0x08C#10 d a zz zz (modLI 0 false ty))
  | .brev c d a ty => some (fG c 0x08D#10 d a zz zz (modLI 0 false ty))
  | .ffs c d a ty => some (fG c 0x08E#10 d a zz zz (modLI 0 false ty))
  | .isel c d a b p ty => some (fG c 0x08F#10 d a b (prEnc p) (modLI 0 false ty))
  | .plop c pd pa pb px lut => some (fG c 0x090#10 (prEnc pd) (prEnc pa) (prEnc pb) (prEnc px) (0#4 ++ lut))
  | .mov c d a ty => some (fG c 0x091#10 d a zz zz (modLI 0 false ty))
  | .movi c d imm => some (fI c 0x092#10 d zz imm)
  | .movh c d a imm => some (fI c 0x093#10 d a (0#12 ++ imm))
  | .ldlit32 c d imm => some (fI c 0x094#10 d zz imm)
  | .ldlit64 c d imm => some (fI c 0x095#10 d zz imm)
  | .shapeq c d a => some (fG c 0x096#10 d a zz zz 0)
  | .reshape c a => some (fG c 0x097#10 zz a zz zz 0)
  | .nop c => some (fG c 0x100#10 zz zz zz zz 0)
  | .bra c arm slot imm => some (fI c 0x101#10 zz (bt arm ++ 0#3 ++ slot) imm)
  | .brx c a imm => some (fI c 0x102#10 zz a imm)
  | .call c imm => some (fI c 0x103#10 zz zz imm)
  | .callx c a imm => some (fI c 0x104#10 zz a imm)
  | .ret c => some (fG c 0x105#10 zz zz zz zz 0)
  | .join c slot => some (fG c 0x106#10 zz (0#4 ++ slot) zz zz 0)
  | .yield c => some (fG c 0x107#10 zz zz zz zz 0)
  | .exit c => some (fG c 0x108#10 zz zz zz zz 0)
  | .pad c label => some (fI c 0x109#10 zz zz (0#12 ++ label))
  | .trap c code => some (fG c 0x10A#10 zz zz zz zz (0#4 ++ code))
  | .bkpt c code => some (fG c 0x10B#10 zz zz zz zz (0#4 ++ code))
  | .reth c => some (fG c 0x10C#10 zz zz zz zz 0)
  | .rdsr c d sel => some (fG c 0x10D#10 d zz zz zz (0#4 ++ sel))
  | .csrr c d n => some (fG c 0x10E#10 d zz zz zz n)
  | .csrw c a n => some (fG c 0x10F#10 zz a zz zz n)
  | .csrwFpcsr c a => some (fG c 0x10F#10 zz a zz zz 0x000#12)
  | .csrwMprog c a => some (fG c 0x10F#10 zz a zz zz 0x003#12)
  | .tlbiCtx c => some (fG c 0x110#10 zz zz zz zz 0)
  | .tlbiPage c a => some (fG c 0x110#10 zz a zz zz 1)
  | .codereg c d a => some (fG c 0x111#10 d a zz zz 0)
  | .fadd c d a b ty m => some (fG c 0x180#10 d a b zz (modLF 0 m ty))
  | .fsub c d a b ty m => some (fG c 0x181#10 d a b zz (modLF 0 m ty))
  | .fmul c d a b ty m => some (fG c 0x182#10 d a b zz (modLF 0 m ty))
  | .ffma c d a b x ty m => some (fG c 0x183#10 d a b x (modLF 0 m ty))
  | .fmin c d a b ty => some (fG c 0x184#10 d a b zz (modLF 0 .none ty))
  | .fmax c d a b ty => some (fG c 0x185#10 d a b zz (modLF 0 .none ty))
  | .fminn c d a b ty => some (fG c 0x186#10 d a b zz (modLF 0 .none ty))
  | .fmaxn c d a b ty => some (fG c 0x187#10 d a b zz (modLF 0 .none ty))
  | .fcmp c p a b cc ty => some (fG c 0x188#10 (prEnc p) a b zz (modLF cc.code .none ty))
  | .fclass c d a ty => some (fG c 0x189#10 d a zz zz (modLF 0 .none ty))
  | .frnd c d a ty m => some (fG c 0x18A#10 d a zz zz (modLF 0 m ty))
  | .hadd2 c d a b ty m => some (fG c 0x18B#10 d a b zz (modLF 0 m ty))
  | .hmul2 c d a b ty m => some (fG c 0x18C#10 d a b zz (modLF 0 m ty))
  | .hfma2 c d a b x ty m => some (fG c 0x18D#10 d a b x (modLF 0 m ty))
  | .dadd c d a b m => some (fG c 0x200#10 d a b zz (modLF 0 m .f64))
  | .dmul c d a b m => some (fG c 0x201#10 d a b zz (modLF 0 m .f64))
  | .dfma c d a b x m => some (fG c 0x202#10 d a b x (modLF 0 m .f64))
  | .ddiv c d a b m => some (fG c 0x203#10 d a b zz (modLF 0 m .f64))
  | .dsqrt c d a m => some (fG c 0x204#10 d a zz zz (modLF 0 m .f64))
  | .drcp c d a m => some (fG c 0x205#10 d a zz zz (modLF 0 m .f64))
  | .fcvt c d a ty src m => some (fG c 0x206#10 d a zz zz (modLF (0#2 ++ src.code) m ty))
  | .f2i c d a ty src m => some (fG c 0x207#10 d a zz zz (modLF (0#2 ++ src.code) m ty))
  | .i2f c d a ty src m => some (fG c 0x208#10 d a zz zz (modLF (src.code.extractLsb' 0 4) m ty))
  | .fldx c d a b ty m => some (fG c 0x209#10 d a b zz (modLF 0 m ty))
  | .fexpo c d a ty => some (fG c 0x20A#10 d a zz zz (modLF 0 .none ty))
  | .fmant c d a ty => some (fG c 0x20B#10 d a zz zz (modLF 0 .none ty))
  | .frcp c d a => some (fG c 0x20C#10 d a zz zz (modLF 0 .none .f32))
  | .frsq c d a => some (fG c 0x20D#10 d a zz zz (modLF 0 .none .f32))
  | .fsqrt c d a m => some (fG c 0x20E#10 d a zz zz (modLF 0 m .f32))
  | .fdiv c d a b m => some (fG c 0x20F#10 d a b zz (modLF 0 m .f32))
  | .fex2 c d a => some (fG c 0x210#10 d a zz zz (modLF 0 .none .f32))
  | .flg2 c d a => some (fG c 0x211#10 d a zz zz (modLF 0 .none .f32))
  | .fsinpi c d a => some (fG c 0x212#10 d a zz zz (modLF 0 .none .f32))
  | .fcospi c d a => some (fG c 0x213#10 d a zz zz (modLF 0 .none .f32))
  | .mfpack c d a b ty src s m => some (fG c 0x214#10 d a b zz (modLF (0#1 ++ bt s ++ src.code) m ty))
  | .mfunpk c d a b ty dst => some (fG c 0x215#10 d a b zz (modLF (0#2 ++ dst.code) .none ty))
  | .popnz c d a ty z => some (fG c 0x216#10 d a zz zz (modLF (0#3 ++ bt z) .none ty))
  | .spcomp c d a ty z => some (fG c 0x217#10 d a zz zz (modLF (0#3 ++ bt z) .none ty))
  | .ld c d m w v => some (fM c (BitVec.ofNat 10 (0x280 + 4 * w.code + v.code)) d m zz)
  | .ldAcq c d m w => some (fM c (BitVec.ofNat 10 (0x280 + 4 * w.code + 3)) d m zz)
  | .st c m b w v => some (fM c (BitVec.ofNat 10 (0x2A0 + 4 * w.code + v.code)) zz m b)
  | .stRel c m b w => some (fM c (BitVec.ofNat 10 (0x2A0 + 4 * w.code + 2)) zz m b)
  | .ldnf c d m w => some (fM c (if w then 0x2B5#10 else 0x2B4#10) d m zz)
  | .preq c m => some (fM c 0x2B6#10 zz m zz)
  | .cas c d m b w sc => some (fM c (BitVec.ofNat 10 (0x2B8 + w.toNat + 2 * sc.toNat)) d m b)
  | .atomx c m b f => some (fM c (match f with | .f32 => 0x2BC#10 | .f16 => 0x2BD#10 | .bf16 => 0x2BE#10) zz m b)
  | .atomAdd c d m b w sc => some (fM c (atomOpc w.toNat sc) d m b)
  | .atomMin c d m b k sc => some (fM c (atomOpc (minOp k) sc) d m b)
  | .atomMax c d m b k sc => some (fM c (atomOpc (maxOp k) sc) d m b)
  | .atomAnd c d m b w sc => some (fM c (atomOpc (9 + 2 * w.toNat) sc) d m b)
  | .atomOr c d m b sc => some (fM c (atomOpc 10 sc) d m b)
  | .atomXor c d m b sc => some (fM c (atomOpc 12 sc) d m b)
  | .atomExch c d m b w sc => some (fM c (atomOpc (13 + w.toNat) sc) d m b)
  | .atomAddF32 c d m b sc => some (fM c (atomOpc 15 sc) d m b)
  | .atomAddF64 c d m b sc => some (fM c (atomOpc 8 sc) d m b)
  | .redAdd c m b w => some (fM c (redOpc w.toNat) zz m b)
  | .redMin c m b k => some (fM c (redOpc (minOp k)) zz m b)
  | .redMax c m b k => some (fM c (redOpc (maxOp k)) zz m b)
  | .redAnd c m b w => some (fM c (redOpc (9 + 2 * w.toNat)) zz m b)
  | .redOr c m b => some (fM c (redOpc 10) zz m b)
  | .redXor c m b => some (fM c (redOpc 12) zz m b)
  | .redAddF32 c m b => some (fM c (redOpc 15) zz m b)
  | .redAddF64 c m b => some (fM c (redOpc 8) zz m b)
  | .xrnd c d m w => some (fM c (if w then 0x2F1#10 else 0x2F0#10) d m zz)
  | .xclr c m => some (fM c 0x2F2#10 zz m zz)
  | .waitcnt c l s e sc => some (fI c 0x300#10 zz zz (l ++ s ++ e ++ sc.code ++ 0#8))
  | .bar c a id => some (fG c 0x301#10 zz a zz zz (0#8 ++ id))
  | .barArv c a id => some (fG c 0x301#10 zz a zz zz (1#8 ++ id))
  | .barbInit c m b => some (fM c 0x302#10 zz m b)
  | .barbExpect c m b => some (fM c 0x303#10 zz m b)
  | .barbArrive c d m => some (fM c 0x304#10 d m zz)
  | .barbWait c m b => some (fM c 0x305#10 zz m b)
  | .qxchIdx c d a b ty => some (fG c 0x306#10 d a b zz (modLI 0 false ty))
  | .qxchX c d a k ty => some (fG c 0x306#10 d a zz zz (modLI (0#2 ++ k) false ty))
  | .qbcst c d a m ty => some (fG c 0x307#10 d a zz zz (modLI (0#2 ++ m) false ty))
  | .fshflIdx c d a b ty => some (fG c 0x308#10 d a b zz (modLI 0 false ty))
  | .fshflUp c d a b ty => some (fG c 0x308#10 d a b zz (modLI 1 false ty))
  | .fshflDown c d a b ty => some (fG c 0x308#10 d a b zz (modLI 2 false ty))
  | .fshflXor c d a b ty => some (fG c 0x308#10 d a b zz (modLI 3 false ty))
  | .fvoteAll c pd pa => some (fG c 0x309#10 (prEnc pd) (prEnc pa) zz zz (0#4 ++ 0#8))
  | .fvoteAny c pd pa => some (fG c 0x309#10 (prEnc pd) (prEnc pa) zz zz (1#4 ++ 0#8))
  | .fvoteUni c pd pa => some (fG c 0x309#10 (prEnc pd) (prEnc pa) zz zz (2#4 ++ 0#8))
  | .fvoteBallot c d pa => some (fG c 0x309#10 d (prEnc pa) zz zz (3#4 ++ 0#8))
  | .rngLo c d a b => some (fG c 0x30A#10 d a b zz 0)
  | .rngHi c d a b => some (fG c 0x30A#10 d a b zz 1)
  | .mmodeM c ab => some (fG c 0x380#10 zz zz zz zz (modE 0 (0#2 ++ ab ++ 1#1)))
  | .mmodeV c => some (fG c 0x380#10 zz zz zz zz (modE 0 0))
  | .mgang c a => some (fG c 0x381#10 zz a zz zz (modE 0 0))
  | .mzero c => some (fG c 0x382#10 zz zz zz zz (modE 0 0))
  | .mma c ha hb k ty => some (fG c 0x383#10 zz (hnEnc ha) (hnEnc hb) k (modE 6 (0#3 ++ ty.code)))
  | .mmasp c ha hb k ty => some (fG c 0x384#10 zz (hnEnc ha) (hnEnc hb) k (modE 6 (0#3 ++ ty.code)))
  | .mmad c a hb ty => some (fG c 0x385#10 zz a (hnEnc hb) zz (modE 2 (0#3 ++ ty.code)))
  | .mstat c d => some (fG c 0x386#10 d zz zz zz (modE 0 0))
  | .mdrainSt c d a b hc acc => some (fG c 0x387#10 d a b (hnEnc hc) (modE 1 (0#4 ++ acc.code ++ 0#2)))
  | .mdrainAddf c d a b hc acc => some (fG c 0x387#10 d a b (hnEnc hc) (modE 1 (0#4 ++ acc.code ++ 1#2)))
  | .mdrainAddx c d a b hc acc => some (fG c 0x387#10 d a b (hnEnc hc) (modE 1 (0#4 ++ acc.code ++ 2#2)))
  | .mcvt c d ty m => some (fG c 0x388#10 d zz zz zz (modE 0 (m.code ++ ty.code)))
  | .seal c hd a b => some (fG c 0x390#10 (hnEnc hd) a b zz (modE 8 0))
  | .hquery c d ha => some (fG c 0x391#10 d (hnEnc ha) zz zz (modE 4 0))
  | .hdrop c hd => some (fG c 0x392#10 (hnEnc hd) zz zz zz (modE 8 0))
  | .copy c d a b srcS dstS => some (fG c 0x398#10 d a b zz (modE 0 (0#5 ++ bt srcS ++ 0#1 ++ bt dstS)))
  | .gath c d a b hc => some (fG c 0x399#10 d a b (hnEnc hc) (modE 1 0))
  | .scat c d a b hc => some (fG c 0x39A#10 d a b (hnEnc hc) (modE 1 0))
  | .sample c d a b hc => some (fG c 0x39B#10 d a b (hnEnc hc) (modE 1 0))
  | .gauge c d a => some (fG c 0x39C#10 d a zz zz (modE 0 0))
  | .launch c d a prio => some (fG c 0x3A0#10 d a zz zz (modE 0 (0#4 ++ prio ++ 0#1)))
  | .launchPod c d a prio => some (fG c 0x3A0#10 d a zz zz (modE 0 (0#4 ++ prio ++ 1#1)))
  | .lwait c d => some (fG c 0x3A1#10 d zz zz zz (modE 0 0))
  | .lcancel c d a => some (fG c 0x3A2#10 d a zz zz (modE 0 0))
  | .lcancelKill c d a => some (fG c 0x3A2#10 d a zz zz (modE 0 1))
  | .lstat c d a => some (fG c 0x3A3#10 d a zz zz (modE 0 0))
  | .qpost c d a b => some (fG c 0x3A4#10 d a b zz (modE 0 0))
  | _ => none

/-- The word of a well-formed instruction; an event gives 0, which is no instruction (R45). -/
def encode (i : Instr) : Dword :=
  match encodeFields i with
  | some f => f.toDword
  | none => 0

/-- The instruction this decoder reads from a word of the opcode table's numbering: words are stored little-endian
(R44), so bit 0 of the table is bit 0 of the word; bits above `nbits` are 0, and a longer word is no instruction. -/
def decodeTableWord (nbits w : Nat) : Option Instr :=
  if nbits ≤ 64 then
    match decode (BitVec.ofNat 64 (w % 2 ^ nbits)) with
    | .ok i => some i
    | .error _ => none
  else none

end Sys2Proof
end

