-- ==== Sys2Proof/Machine/Fetch.lean ====
section
/-! DEFINITION. Code objects and the fetch of an instruction word (spec/02_instruction_word.md R59-R61,
spec/22_translation_security.md R375). -/

namespace Sys2Proof.Machine

/-- Whether an object covers an address (R61). -/
def CodeObj.covers (o : CodeObj) (a : Nat) : Bool := o.base.toNat ≤ a && a < o.base.toNat + 8 * o.nwords

/-- Whether an address lies in a data-marked slot of an object: a header slot or a slot of a pool (R60). -/
def CodeObj.isData (o : CodeObj) (a : Nat) : Bool :=
  let slot := (a - o.base.toNat) / 8
  slot < 2 + o.pools.length || o.pools.any fun p => p.1 ≤ slot && slot < p.1 + p.2

/-- The registered object of a context that covers an address. -/
def State.objAt (s : State) (p x a : Nat) : Option CodeObj := (s.pctx p x).objs.find? fun o => o.covers a

/-- Whether the data map marks an address as data (R63); an address no object covers is not marked. -/
def State.dataMarked (s : State) (p x a : Nat) : Bool := (s.objAt p x a).any fun o => o.isData a

/-- What a fetch finds. -/
inductive Fetched where
  | word (w : Dword)
  | fault (cause sub : Nat) (addr : Option Nat)
  | absent
  | poisoned
deriving DecidableEq, Repr, Inhabited

/-- The address TCAUSE names for a data-execute fault (R61). -/
def Thread.cameFrom (th : Thread) : Option Nat := (th.via.bind fun v => v.src).map (·.toNat)

/-- A fetch of the executing thread's instruction (R61, R375): the data map first, then the translation, then the read at the
home, which refuses it where the regions do (R383). -/
def State.fetch (s : State) : State × Fetched :=
  let bl := s.myBlk
  let th := s.me
  let pc := th.pc.toNat
  match s.objAt bl.pkg bl.ctx pc with
  | none => (s, .fault 0x03 3 th.cameFrom)
  | some o =>
    if o.isData pc then (s, .fault 0x03 (if (th.via.map (·.moved)).getD false then 2 else 1) th.cameFrom)
    else
      match s.reachMe pc true false with
      | (s, .error .absent) => (s, .absent)
      | (s, .error (.fault c k)) => (s, .fault c k (some pc))
      | (s, .ok x) =>
        let bs := s.readHome x.pkg bl.ctx x.pa 8
        if bs.any (·.2) then (s.countCut s.cur.1 s.cur.2 pc x.pkg x.pa false, .poisoned) else (s, .word (BitVec.ofNat 64 (leNat (bs.map (·.1)))))

/-- The word at an address of a context, if it can be read now; nothing changes (R63's table walk and the pipes of
R147 look at words without executing them). -/
def State.peek (s : State) (p x a : Nat) : Option Dword :=
  match s.fill p (dieOf 0) x a with
  | .error _ => none
  | .ok e => if e.r then some (s.read64 p (e.pa + (a - e.base))) else none

end Sys2Proof.Machine
end

