-- ==== Sys2Proof/Machine/Rendezvous.lean ====
section
/-! DEFINITION. What threads of a block do to one another: results that land in registers, join slots, block
barriers, the lwait rendezvous, and what an exit completes (spec/04_isa_integer_control.md R111, R113,
spec/07_isa_memory_sync.md R188, R189, spec/08_isa_matrix_engines.md R206, R238). -/

namespace Sys2Proof.Machine

/-- Whether a context may start anything on a package: it lives and no save of it has begun (R391). -/
def State.ctxRuns (s : State) (p x : Nat) : Bool :=
  let c := s.pctx p x
  c.live && (c.pre = .running || c.pre = .pending)

/-- Whether a block's threads may go on: its context runs, and its logical core has not halted at a quantum's end (R327). -/
def State.blockRuns (s : State) (bl : Block) : Bool := s.ctxRuns bl.pkg bl.ctx && !(s.core bl.pkg bl.core).sliced

-- Landing (R57, R175, R259)

/-- The `old` of the oldest result still on its way to a register replaced (the list is newest first). -/
def landUnder (r now : Nat) (w : Word) : List Fresh → List Fresh
  | [] => []
  | f :: fs =>
    if f.reg = r && now < f.ready && !(fs.any fun g => g.reg = r && now < g.ready) then { f with old := w } :: fs
    else f :: landUnder r now w fs

/-- A word lands in a register: a fixed-latency result that is not yet readable lands after it (R57). -/
def Thread.land (th : Thread) (r : Nat) (w : Word) (marked : Bool) (now : Nat) : Thread :=
  if (th.unready r now).isEmpty then { th with regs := tset th.regs r w, marks := tset th.marks r marked }
  else { th with fresh := landUnder r now w th.fresh }

/-- A word lands in a block's thread, with its effect on the furrow's tag (R20, R21). An exited thread's registers are not
written (R16), but by the commands that it left: `late` (R307, log entry 67). -/
def Block.land (bl : Block) (t r : Nat) (w : Word) (marked late : Bool) (now : Nat) : Block :=
  if (tget bl.threads t).st = .exited && !late then bl else (bl.modThr t fun th => th.land r w marked now).tagWrite t r w

/-- Words land in a thread: `late` says that they are a command's, counted in ECNT. -/
def State.landWords (s : State) (b t : Nat) (ws : List (Nat × Word)) (marked late : Bool) : State :=
  s.modBlk b fun bl => ws.foldl (fun bl p => bl.land t p.1 p.2 marked late s.cycle) bl

/-- Words at consecutive registers of a field; vz takes none. -/
def dstWords (r : RegF) (ws : List Word) : List (Nat × Word) := (many ws.length r).zip ws

/-- The two words of a dword. -/
def halves (d : Dword) : List Word := [d.truncate 32, (d >>> 32).truncate 32]

-- Joins (R111)

/-- The threads of a block that wait at a join slot. -/
def Block.joinWaiters (bl : Block) (n : Nat) : List Nat :=
  (bl.threads.filter fun t => match t.2.wait with
    | some (.join k _) => k = n
    | _ => false).map (·.1)

/-- A bit of a join mask set or cleared. -/
def maskSet (m : BitVec 1024) (t : Nat) (v : Bool) : BitVec 1024 := 
  if v then m ||| (1#1024 <<< t) else m &&& ~~~(1#1024 <<< t)

def Block.setJoin (bl : Block) (n t : Nat) (v : Bool) : Block :=
  { bl with joins := tmod bl.joins n fun m => maskSet m t v }

/-- All waiters of a slot released together; they clear their bits (R111). -/
def Block.joinRelease (bl : Block) (n now : Nat) : Block :=
  (bl.joinWaiters n).foldl (fun bl t => (bl.setJoin n t false).modThr t fun th => th.release now) bl

/-- Whether every thread whose bit is set in a slot waits there or has exited (R111). -/
def Block.joinComplete (bl : Block) (n : Nat) : Bool :=
  let m := tget bl.joins n
  (List.range bl.nthr).all fun t =>
    !m.getLsbD t || (tget bl.threads t).st = .exited || (bl.joinWaiters n).contains t

/-- The slot's waiters released if its third row holds. -/
def Block.joinSettle (bl : Block) (n now : Nat) : Block :=
  if !(bl.joinWaiters n).isEmpty && bl.joinComplete n then bl.joinRelease n now else bl

-- Barriers (R188)

/-- The threads of a block that have not exited. -/
def Block.live (bl : Block) : List Nat :=
  (List.range bl.nthr).filter fun t => (tget bl.threads t).st ≠ .exited

/-- Whether the open phase of a barrier is complete. -/
def Block.barComplete (bl : Block) (id : Nat) : Bool :=
  let k := tget bl.bars id
  match k.kind with
  | .idle => false
  | .whole => bl.live.all fun t => k.came.contains t
  | .register => k.arr = k.target

/-- A complete phase releases its waiters together, and the count restarts. -/
def Block.barSettle (bl : Block) (id now : Nat) : Block :=
  if bl.barComplete id then
    { bl with
      bars := tset bl.bars id default
      threads := bl.threads.map fun t =>
        match t.2.wait with
        | some (.barrier k) => if k = id then (t.1, t.2.release now) else t
        | _ => t }
  else bl

-- The lwait rendezvous (R238)

/-- The mark that a child is a pod grid, in a block's list of children. -/
def podMark : Nat := 2 ^ 40

/-- A child grid as lwait sees it: whether it has ended, whether its report is not empty, whether it was cancelled. -/
def State.kidState (s : State) (p x k : Nat) : Bool × Bool × Bool :=
  if podMark ≤ k then
    match (tget s.heads x).main.grids.find? fun g => g.seq = k - podMark with
    | some g => (g.complete, g.faults ≠ 0, g.cancel)
    | none => (true, false, false)
  else
    match (s.pkg p).grids.find? fun g => g.acc = k with
    | some g => (g.state.ended, g.faults ≠ 0, g.state = .cancelled || g.state = .cancelling)
    | none => (true, false, false)

/-- Whether every child that an lwait counts has ended. -/
def State.kidsOver (s : State) (b : Nat) : Bool :=
  let bl := s.blk b
  bl.kids.all fun k => (s.kidState bl.pkg bl.ctx k).1

/-- The word an lwait gives each thread (R238). -/
def State.lwaitWord (s : State) (b : Nat) : Word :=
  let bl := s.blk b
  let ks := bl.kids.map fun k => s.kidState bl.pkg bl.ctx k
  BitVec.ofNat 32 ((ks.any (·.2.1)).toNat * 2 ^ 31 + (ks.any (·.2.2)).toNat * 2 ^ 30 + min ks.length 32)

/-- Whether every live thread of a block has arrived at lwait. -/
def Block.lwaitAll (bl : Block) : Bool :=
  !bl.live.isEmpty && bl.live.all fun t => match (tget bl.threads t).wait with
    | some (.lwait _) => true
    | _ => false

/-- The lwait of a block completes: each thread receives the word and goes on; the children counted are no longer
outstanding (R238). -/
def State.lwaitDeliver (s : State) (b : Nat) : State :=
  let w := s.lwaitWord b
  let s := s.modBlk b fun bl =>
    bl.live.foldl (fun bl t => match (tget bl.threads t).wait with
      | some (.lwait r) =>
        ((if r = 248 then bl else bl.land t r w false false s.cycle).modThr t fun th =>
          { th.release s.lastCycle with ecnt := th.ecnt - 1 })
      | _ => bl) bl
  s.modBlk b fun bl => { bl with kids := bl.late, late := [] }

/-- The rendezvous settled: with no child outstanding it completes at once; otherwise the block waits for its save
or for its children (R238, R329). -/
def State.lwaitSettle (s : State) (b : Nat) : State :=
  if (s.blk b).lwaitAll && s.kidsOver b then s.lwaitDeliver b else s

-- Exit (R113, R111, R189, R206)

/-- Crew threads waiting at a crew rendezvous whose crew holds an exiting thread take an illegal-mode fault (R206). -/
def State.crewExit (s : State) (b t : Nat) : State :=
  let bl := s.blk b
  let hit := bl.threads.filter fun o => match o.2.wait with
    | some (.crew g) => (Mgang.ofWord g).v && (List.range 4).any fun k => (Mgang.ofWord g).furrow k = t / 32
    | _ => false
  hit.foldl (fun s o =>
    let s := s.modThr b o.1 fun th => { th with ms := { th.ms with mp := false } }
    s.faultT b o.1 cMode 3 none o.2.pc) s

/-- A thread enters the exited state, and whatever its leaving completes is settled. -/
def State.exitT (s : State) (b t : Nat) : State :=
  let now := s.lastCycle
  let s := (s.modThr b t fun th => { th with st := .exited, wait := none, via := none }).eventOf b t
  let s := s.modBlk b fun bl =>
    let bl := (List.range 16).foldl (fun bl n => (bl.setJoin n t false).joinSettle n now) bl
    (List.range 16).foldl (fun bl n => bl.barSettle n now) bl
  (s.crewExit b t).lwaitSettle b

end Sys2Proof.Machine
end

