-- ==== Sys2Proof/Machine/Coherence.lean ====
section
/-! DEFINITION. What every access to global memory shares: sectors, homes and clocks, leases and L1 entries, die copies
and their windows, a thread's own outstanding stores, and what an atomic computes (spec/21_memory_model.md R355-R371,
R414; spec/07_isa_memory_sync.md R168, R169, R178-R180). -/

namespace Sys2Proof.Machine

-- Sectors, homes and clocks

/-- The 32-byte sectors of n bytes at a key (R355). -/
def sectorsOf (key n : Nat) : List Nat := (List.range ((key + n - 1) / 32 + 1 - key / 32)).map fun i => key / 32 + i

/-- Whether a waiting operation is a write of R357. -/
def OpKind.writes : OpKind → Bool
  | .xrnd _ | .hostLoad _ => false
  | _ => true

/-- The sectors a waiting operation covers. -/
def HomeOp.sectors (o : HomeOp) : List Nat := sectorsOf o.key o.kind.size

/-- Whether a waiting operation covers one of n bytes at a key. -/
def HomeOp.meets (o : HomeOp) (key n : Nat) : Bool := o.key < key + n && key < o.key + o.kind.size

/-- Whether a write waits at its home on one of some sectors (R365). -/
def State.writeWaits (s : State) (ss : List Nat) : Bool :=
  s.coh.ops.any fun o => o.kind.writes && o.sectors.any fun c => ss.contains c

/-- The physical address of a key on a package. -/
def State.paOf (s : State) (p key : Nat) : Nat :=
  if key / 2 ^ 52 = p then key % 2 ^ 52
  else match (s.pkg p).ranges.find? fun r => r.device ≠ 0 && r.device + 8192 = key / 2 ^ 52 with
    | some r => r.base + key % 2 ^ 52
    | none => key % 2 ^ 52

/-- The home die of a key (R414). -/
def State.homeOf (s : State) (p key : Nat) : Nat := homeDie (s.paOf p key)

/-- Whether a physical address is of host or pool memory (XT of R356, R370). -/
def isXt (pa : Nat) : Bool := Config.hbmEnd ≤ pa

/-- Clocks merged entry by entry (R363). -/
def vcMax (a b : List Nat) : List Nat := (List.range 4).map fun d => max (a.getD d 0) (b.getD d 0)

/-- A core's observed clock merged with that of a write it read or was acknowledged (R363). -/
def State.sawClock (s : State) (p c : Nat) (vc : List Nat) : State :=
  if vc.isEmpty then s else s.modCore p c fun k => { k with oc := vcMax k.oc vc }

/-- Clocks merged; none is none. -/
def clocks (l : List (List Nat)) : List Nat := l.foldl (fun v c => if c.isEmpty then v else vcMax v c) []
/-- The clock that a read of n bytes merges (R363). -/
def State.clockOf (s : State) (p key n : Nat) : List Nat := clocks ((List.range n).map fun i => s.clockAt p (key + i))

/-- The length of a lease in ns (R364). -/
def leaseNs (short : Bool) : Nat := if short then 256 else 4000

-- L1 entries (R356, R366)

/-- The words of a 128-byte line that n bytes at an address touch (R262). -/
def lineWords (va n : Nat) : List Nat :=
  (List.range ((va % 128 + n - 1) / 4 + 1 - va % 128 / 4)).map fun i => va % 128 / 4 + i
/-- Words of a line as a mask. -/
def wordMask (ws : List Nat) : BitVec 32 := ws.foldl (fun m w => m ||| (1#32 <<< w)) 0

/-- Whether an entry holds valid words: some, and unexpired by the core's view (R356, R366). -/
def L1Entry.live (e : L1Entry) (lbase gt : Nat) : Bool := e.mask ≠ 0#32 && gt < lbase + 32 * e.exp.toNat
/-- Whether an entry serves a load of some words (R356). -/
def L1Entry.serves (e : L1Entry) (lbase gt : Nat) (ws : List Nat) : Bool :=
  e.live lbase gt && ws.all fun w => e.mask.getLsbD w && !e.pend.getLsbD w

/-- n bytes of an entry. -/
def L1Entry.bytes (e : L1Entry) (va n : Nat) : List (Byte × Bool) :=
  (List.range n).map fun i =>
    (((tget e.words ((va + i) % 128 / 4)) >>> (8 * ((va + i) % 4))).truncate 8, e.marks.getLsbD ((va + i) % 128 / 4))

/-- An entry's expiry field (R366). -/
def expField (lbase e : Nat) : BitVec 16 := BitVec.ofNat 16 (min ((e - lbase) / 32) 0xFFFF)

/-- Words granted to an entry (R356): merged with those of a live one, in place of an expired one's. -/
def L1Entry.grant (e : L1Entry) (lbase gt expiry line page : Nat) (short xt : Bool) (ws : List (Nat × Word)) : L1Entry :=
  let m := wordMask (ws.map (·.1))
  let x := expField lbase expiry
  let put := ws.foldl (fun t w => tset t w.1 w.2)
  if e.live lbase gt then
    let y := if x.toNat < e.exp.toNat then x else e.exp
    { e with mask := e.mask ||| m, exp := y, page := max e.page page, words := put e.words, marks := e.marks &&& ~~~m }
  else { e with mask := m, exp := x, short := short, xt := xt, line := line, page := page, words := put [], marks := 0 }

/-- A grant put into a core's L1. -/
def Core.grant (k : Core) (x va gt expiry line page : Nat) (short xt : Bool) (ws : List (Nat × Word)) : Core :=
  let is (e : L1Entry) : Bool := e.ctx = x && e.vtag = va / 128
  let old := (k.l1.find? is).getD { (default : L1Entry) with ctx := x, vtag := va / 128, line := line }
  { k with l1 := old.grant k.lbase gt expiry line page short xt ws :: k.l1.filter fun e => !is e }

/-- The L1s of a core's basin changed. -/
def State.modBasin (s : State) (p c : Nat) (f : L1Entry → Option L1Entry) : State :=
  (List.range 4).foldl (fun s i => s.modCore p (c / 4 * 4 + i) fun k => { k with l1 := k.l1.filterMap f }) s

/-- A fill of a line: synonyms in the basin go first (R377). -/
def State.l1Fill (s : State) (p c x va gt expiry line page : Nat) (short xt : Bool) (ws : List (Nat × Word)) : State :=
  let s := s.modBasin p c fun e => if e.line = line && e.vtag ≠ va / 128 then none else some e
  s.modCore p c fun k => k.grant x va gt expiry line page short xt ws

/-- PEND set on the words of a store, matched by physical line across the basin (R356, R377). -/
def State.l1Pend (s : State) (p c line : Nat) (m : BitVec 32) : State :=
  s.modBasin p c fun e => if e.line = line then some { e with pend := e.pend ||| m } else some e

/-- Words of a line made invalid in a core's L1 (R178). -/
def State.l1Drop (s : State) (p c line : Nat) (m : BitVec 32) : State :=
  s.modCore p c fun k =>
    { k with l1 := k.l1.map fun e => if e.line = line then { e with mask := e.mask &&& ~~~m } else e }

-- Reads of global memory

/-- What a read below the L1 finds: the bytes, and the expiry of the lease granted, if one is. -/
structure Below where
  bytes : List (Byte × Bool)
  expiry : Option Nat
deriving DecidableEq, Repr, Inhabited

/-- The copy of a sector at a die whose window is open (R364). -/
def State.openCopy (s : State) (p d sec : Nat) : Option Copy :=
  s.coh.copies.find? fun k => k.pkg = p && k.die = d && k.sector = sec && s.gtime p < k.window

/-- The copy at a core's die that serves a read below its L1, at a scope that lets it (R364). -/
def State.copyFor (s : State) (p c pa : Nat) (near : Bool) : Option Copy :=
  if near && dieOf c ≠ homeDie pa then s.openCopy p (dieOf c) (s.physKey p pa / 32) else none

/-- The latest granted expiry of a sector raised (R364). -/
def State.raiseLx (s : State) (sec e : Nat) : State := s.modCoh fun h => { h with lx := tmod h.lx sec fun o => max o e }

/-- A die copy and its window taken on a sector, unless a push to it is still on its way (R364, R365). -/
def State.takeWindow (s : State) (p d pa sec e : Nat) : State :=
  if s.coh.pushes.any fun u => u.pkg = p && u.dst = d && u.sector = sec then s
  else
    let k : Copy := ⟨p, d, sec, s.physRead p (pa / 32 * 32) 32, e, (List.range 32).map fun i => s.clockAt p (sec * 32 + i)⟩
    s.modCoh fun h =>
      { h with copies := k :: h.copies.filter fun o => !(o.pkg = p && o.die = d && o.sector = sec) }

/-- A read of at most 16 bytes in one sector below the L1 of a core (R172, R364, R365): `near` lets the die's copy
serve it; `lease` asks for a lease. -/
def State.readBelow (s : State) (p c pa n : Nat) (short near lease : Bool) : State × Below :=
  let sec := s.physKey p pa / 32
  let d := dieOf c
  let gt := s.gtime p
  let atHome := d = homeDie pa
  match s.copyFor p c pa near with
  | some k => (s.sawClock p c (clocks ((k.vcs.drop (pa % 32)).take n)), ⟨(k.bytes.drop (pa % 32)).take n, some (min (gt + leaseNs short) k.window)⟩)
  | none =>
    let bs := s.physRead p pa n
    let s := s.sawClock p c (s.clockOf p (s.physKey p pa) n)
    if s.writeWaits [sec] || !near then (s, ⟨bs, none⟩)
    else
      let e := gt + leaseNs short
      if !atHome && Config.windowTaken s.tick then ((s.raiseLx sec e).takeWindow p d pa sec e, ⟨bs, some e⟩)
      else if lease then (s.raiseLx sec e, ⟨bs, some e⟩)
      else (s, ⟨bs, none⟩)

/-- A thread's latest outstanding store to a byte (R169). -/
def ownByte (who : Who) (a : Nat) : List HomeOp → Option Byte → Option Byte
  | [], b => b
  | o :: os, b =>
    ownByte who a os <| match o.kind with
      | .store bs => if o.who = who && o.key ≤ a && a < o.key + bs.length then some (bs.getD (a - o.key) 0) else b
      | _ => b

/-- A thread's own outstanding stores laid over bytes read from memory (R169). -/
def State.overlay (s : State) (who : Who) (key : Nat) (bs : List (Byte × Bool)) : List (Byte × Bool) :=
  ((List.range bs.length).zip bs).map fun p =>
    match ownByte who (key + p.1) s.coh.ops none with
    | some b => (b, false)
    | none => p.2

/-- Whether an atomic or cell operation of a thread on one of n bytes is outstanding: a younger access to them waits
for it (R169). -/
def State.ownPending (s : State) (who : Who) (key n : Nat) : Bool :=
  s.coh.ops.any fun o => o.who = who && o.meets key n && match o.kind with
    | .store _ => false
    | _ => true

/-- Four bytes as a word. -/
def wordOf (bs : List Byte) : Word := BitVec.ofNat 32 (leNat bs)

/-- The words of a line that a grant carries. -/
def grantWords (va : Nat) (bs : List (Byte × Bool)) : List (Nat × Word) :=
  (List.range (bs.length / 4)).map fun i => (va % 128 / 4 + i, wordOf (((bs.drop (4 * i)).take 4).map (·.1)))

/-- The L1 entry that serves a load of n bytes at a virtual address, if one does (R356): `near` is scope .blk, `cg` serves
below the L1. Such a load needs no translation. -/
def State.l1Hit (s : State) (p c x va n : Nat) (near cg : Bool) : Option L1Entry :=
  let k := s.core p c
  let hit := (k.l1.find? fun e => e.ctx = x && e.vtag = va / 128).filter fun e =>
    near && !cg && e.serves k.lbase (s.gtime p) (lineWords va n)
  hit.filter fun _ => !Config.l1Evicted s.tick

/-- The key of an address in the physical line of an L1 entry. -/
def L1Entry.keyOf (e : L1Entry) (va : Nat) : Nat := e.line * 128 + va % 128

/-- A load of at most 16 bytes of global memory by a thread of a core, below its L1 (R171, R172, R356): `near` is scope
.blk, `cg` serves below the L1 without allocating. A poisoned word is not allocated; the home refuses a read that the regions forbid (R383). -/
def State.loadG (s : State) (who : Who) (p c x va : Nat) (xl : Xl) (n : Nat) (near cg : Bool) :
    State × List (Byte × Bool) :=
  let key := s.physKey p xl.pa
  let gt := s.gtime p
  let pre := va % 4
  let m := 4 * (lineWords va n).length
  let (s, r) := if s.homeRefuses p x xl.pa false then (s, ⟨s.freeBytes (key - pre) m, none⟩)
    else s.readBelow p c (xl.pa - pre) m xl.short near (!cg)
  let s := match r.expiry with
    | some e =>
      if near && !cg && !(r.bytes.any (·.2)) then
        s.l1Fill p c x va gt e (key / 128) xl.page xl.short (isXt xl.pa) (grantWords (va - pre) r.bytes)
      else s
    | none => s
  (s, s.overlay who key ((r.bytes.drop pre).take n))

/-- The clocks of n bytes merged into a core's observed clock. -/
def State.sawRange (s : State) (p c key n : Nat) : State := s.sawClock p c (s.clockOf p key n)

-- Writes of global memory

/-- The operation of the executing thread at a translated address (R178, R179, R363, R381). -/
def State.myOp (s : State) (xl : Xl) (va : Nat) (k : OpKind) (dst : List Nat) (sc clear : Bool) : HomeOp :=
  let bl := s.myBlk
  let f := s.me.fpcsr
  ⟨xl.pkg, s.physKey xl.pkg xl.pa, va, k, .thread s.cur.1 s.cur.2, bl.ctx, bl.core, xl.gen, dst, sc, clear, f.rm,
    f.daz, f.ftz, (s.core bl.pkg bl.core).oc, s.iw.serial⟩

/-- The page mark of a context's page set by a write (R234): the page is no longer clear. -/
def State.markPage (s : State) (p x va : Nat) : State :=
  s.modCtx p x fun c => { c with clean := tset c.clean (va / 65536) 0 }

-- What an atomic computes (R178-R180)

/-- The new value at an atomic's location and the flags of a floating-point add. -/
def atomNew (op : AOp) (w64 : Bool) (env : Env) (old b cmp : Nat) : Res :=
  let w := if w64 then 64 else 32
  match op with
  | .add => ((old + b) % 2 ^ w, 0)
  | .minS => (if sval w b < sval w old then b else old, 0)
  | .minU => (min old b, 0)
  | .maxS => (if sval w old < sval w b then b else old, 0)
  | .maxU => (max old b, 0)
  | .and => (old &&& b, 0)
  | .or => (old ||| b, 0)
  | .xor => (old ^^^ b, 0)
  | .exch => (b, 0)
  | .addF => fpAdd (if w64 then .f64 else .f32) env old b
  | .cas => (if old = cmp then b else old, 0)

/-- A value of 4 or 8 bytes as register words, the low word first. -/
def valueWords (w64 : Bool) (v : Nat) : List Word :=
  if w64 then halves (BitVec.ofNat 64 v) else [BitVec.ofNat 32 v]

end Sys2Proof.Machine
end

