-- ==== Sys2Proof/Machine/Memory.lean ====
section
/-! DEFINITION. Class 5, loads, stores, probes and page requests (spec/07_isa_memory_sync.md R167-R177;
spec/21_memory_model.md R356, R364-R367). -/

namespace Sys2Proof.Machine

-- What holds a memory instruction

/-- The wait of a memory instruction: an older .acq load or .sc atomic (R172, R181), a core without its time view
(R367), a count at its limit (R33). -/
def State.memWait (s : State) (sp : Spsc) (count : Option Nat) : Option Wait :=
  let near : Bool := sp.isG || sp = .l
  firstWait [if s.me.hold ≠ 0 || (near && s.blind) then some .held else none, count.bind s.limitWait]

-- Results of loads

/-- A result sent on its way to registers. -/
def State.sendLand (s : State) (l : Land) : State := s.modCoh fun h => { h with lands := h.lands ++ [l] }
/-- A result of the executing thread, counted in LCNT: the registers, and whether its data was poisoned. -/
def State.myLand (s : State) (regs : List (Nat × Word)) (marked : Bool) : Land :=
  { (default : Land) with blk := s.cur.1, tid := s.cur.2, regs := regs, marked := marked }

/-- The registers' words of a loaded value (R171). -/
def ldWords (w : LdW) (bs : List Byte) : List Word :=
  let n := leNat bs
  match w with
  | .i8 => [BitVec.ofInt 32 (sval 8 n)]
  | .i16 => [BitVec.ofInt 32 (sval 16 n)]
  | .n8 | .n16 | .b32 => [BitVec.ofNat 32 n]
  | .b64 => halves (BitVec.ofNat 64 n)
  | .b128 => (List.range 4).map fun i => wordOf ((bs.drop (4 * i)).take 4)

/-- A load's data captured: it goes to the registers as a word list, LCNT rises, and the thread moves on; an .acq load
holds the thread's younger memory instructions (R171, R172). -/
def State.loaded_ (s : State) (c : Ctl) (d : RegF) (ws : List Word) (marked acq clear : Bool) : State :=
  let l := { s.myLand (dstWords d ws) marked with unhold := acq, clear := clear }
  let s := (s.sendLand l).modMe fun th => { th.countL with hold := th.hold + acq.toNat }
  s.advance c

/-- What the constant cache of the executing thread's block holds of an aligned word, by the word's number (R355, log entry 55):
nothing where the cache has lost it. -/
def State.constWord (s : State) (k : Nat) : List (Byte × Bool) :=
  match tget s.myBlk.cwords k with
  | [] => []
  | w => if Config.constEvicted s.tick k then [] else w

/-- Bytes of the executing thread's .c segment as the constant cache of its block finds them (R355, log entry 55): each word as
it was first found, unless the cache has lost it since, or else as memory holds it. -/
def State.constWords (s : State) (va : Nat) (bs : List (Byte × Bool)) : State × List (Byte × Bool) :=
  let out := ((List.range bs.length).zip bs).map fun b => ((s.constWord ((va + b.1) / 4))[(va + b.1) % 4]?).getD b.2
  let new := (List.range (bs.length / 4)).foldl (fun c i => tset c (va / 4 + i) ((out.drop (4 * i)).take 4)) s.myBlk.cwords
  (if va % 4 = 0 then s.modMyBlk fun bl => { bl with cwords := new } else s, out)

/-- n bytes of the .c segment in one page read at their home, counted where that is barred: bytes that the constant cache holds
are not read there (R355, R401). -/
def State.constRead (s : State) (va : Nat) (x : Xl) (n : Nat) (body : State → List (Byte × Bool) → State) : State :=
  if (List.range n).all fun i => s.constWord ((va + i) / 4) ≠ [] then body s (s.readHome x.pkg s.myBlk.ctx x.pa n)
  else s.readHere va x n body

/-- The bytes of a .c access: each page it touches is translated as a .g load is (R167). PARAM plus the offset, modulo 2^57, that
lies in a peer window is an address fault with SUB 6 at that address (R348, R372; DESIGN CHOICE, log entry 80). -/
def State.constBytes (s : State) (a n : Nat) (body : State → List (Byte × Bool) → State) : State :=
  let va := ((recParam s.myBlk.record).toNat + a) % 2 ^ 57
  let k := min n (4096 - va % 4096)
  let cached (s : State) (bs : List (Byte × Bool)) : State := body (s.constWords va bs).1 (s.constWords va bs).2
  if isPeer va || isPeer (va + n - 1) then s.faultMe cAddr 6 (some va)
  else s.translated va true false fun s x => s.constRead va x k fun s one =>
    if k = n then cached s one
    else s.translated (va + k) true false fun s y => s.constRead (va + k) y (n - k) fun s two => cached s (one ++ two)

/-- A load of the executing thread that is barred counted in its grid: one that a copy at its die serves does not reach a range
that is cut off (R364, R383, R401). -/
def State.countRead (s : State) (p c x va : Nat) (xl : Xl) (near : Bool) : State :=
  if (s.copyFor p c xl.pa near).isSome && !s.homeRefuses xl.pkg x xl.pa false then s
  else s.countCut s.cur.1 s.cur.2 va xl.pkg xl.pa false

/-- What a load of global memory of the executing thread comes to. -/
inductive Loaded where
  | bytes (s : State) (bs : List (Byte × Bool))
  | held
  | fails (s : State) (e : XErr)
deriving DecidableEq, Repr, Inhabited

/-- n bytes at a virtual address for the executing thread: from the core's L1, untranslated, or below it (R356, R378);
held while an atomic of the thread on them is outstanding (R169). -/
def State.globalMe (s : State) (a n : Nat) (near cg : Bool) : Loaded :=
  let bl := s.myBlk
  let who := Who.thread s.cur.1 s.cur.2
  match s.l1Hit bl.pkg bl.core bl.ctx a n near cg with
  | some e =>
    if s.ownPending who (e.keyOf a) n then .held else .bytes s (s.overlay who (e.keyOf a) (e.bytes a n))
  | none =>
    match s.reachMe a true false with
    | (s, .error e) => .fails s e
    | (s, .ok x) =>
      if s.ownPending who (s.physKey x.pkg x.pa) n then .held
      else
        let r := (s.countRead bl.pkg bl.core bl.ctx a x near).loadG who bl.pkg bl.core bl.ctx a x n near cg
        .bytes r.1 r.2

/-- A load of the executing thread in any space (R171). -/
def State.loadMe (s : State) (c : Ctl) (d : RegF) (m : MemOp) (w : LdW) (cg acq : Bool) : State :=
  let a := s.ea m
  let n := w.bytes
  let done (s : State) (bs : List (Byte × Bool)) : State :=
    s.loaded_ c d (ldWords w (bs.map (·.1))) (bs.any (·.2)) acq (acq && m.sp.isG && m.sp.scope ≠ .blk)
  s.checked m.sp a n true false fun s =>
    match m.sp with
    | .s => done s (s.myBlk.shm.read a n)
    | .l => done s (s.me.loc.read a n)
    | .c => s.constBytes a n done
    | _ => match s.globalMe a n (m.sp.scope = .blk) cg with
      | .bytes s bs => done s bs
      | .held => s.waitMe .held
      | .fails s e => s.notReached a false e

/-- ld (R171, R172). -/
def execLd (c : Ctl) (d : RegF) (m : MemOp) (w : LdW) (v : LdV) (s : State) : Out :=
  s.runW c (.ld c d m w v) (fun s => s.memWait m.sp (some 0)) fun s => s.loadMe c d m w (v = .cg) false
/-- ld.acq (R172). -/
def execLdAcq (c : Ctl) (d : RegF) (m : MemOp) (w : LdW) (s : State) : Out :=
  s.runW c (.ldAcq c d m w) (fun s => s.memWait m.sp (some 0)) fun s => s.loadMe c d m w false true

-- Stores

/-- The number a store writes (R173). -/
def State.storeVal (s : State) (w : StW) (b : RegF) : Nat :=
  match w with
  | .b8 | .b16 | .b32 => (s.rd b).toNat
  | .b64 => (s.rd64 b).toNat
  | .b128 => leNat ((s.rdList b 4).flatMap fun x => leBytes 4 x.toNat)

/-- A store performed in the core: its acknowledgement is on its way (R173). -/
def State.ackMe (s : State) : State :=
  (s.modCoh fun h => { h with acks := h.acks ++ [⟨s.cur.1, s.cur.2, [], none⟩] }).modMe Thread.countS

/-- A write of the executing thread sent to its home, counted in SCNT: the L1s hold its words pending (R174, R356). -/
def State.storeG (s : State) (xl : Xl) (va : Nat) (bs : List Byte) : State :=
  let bl := s.myBlk
  let o := s.myOp xl va (.store bs) [] false false
  let s := s.enqueue o
  (s.l1Pend bl.pkg bl.core (o.key / 128) (wordMask (lineWords va bs.length))).modMe Thread.countS

/-- A store of the executing thread in .g, .s or .l (R173). -/
def State.storeMe (s : State) (c : Ctl) (m : MemOp) (b : RegF) (w : StW) : State :=
  let a := s.ea m
  let n := w.bytes
  let bs := leBytes n (s.storeVal w b)
  s.checked m.sp a n true false fun s =>
    match m.sp with
    | .s => ((s.modMyBlk fun bl => { bl with shm := bl.shm.write a (clean bs) }).ackMe).advance c
    | .l => ((s.modMe fun th => { th with loc := th.loc.write a (clean bs) }).ackMe).advance c
    | _ => s.translated a false true fun s x => (s.storeG x a bs).advance c

/-- st (R173, R174). -/
def execSt (c : Ctl) (m : MemOp) (b : RegF) (w : StW) (v : StV) (s : State) : Out :=
  s.runW c (.st c m b w v) (fun s => s.memWait m.sp (some 1)) fun s => s.storeMe c m b w
/-- st.rel (R174): it first waits as `waitcnt l=0, s=0` at its scope. -/
def execStRel (c : Ctl) (m : MemOp) (b : RegF) (w : StW) (s : State) : Out :=
  s.runW c (.stRel c m b w)
    (fun s => firstWait [s.memWait m.sp none, s.countWait 0 0 31 m.sp.scope])
    fun s => (s.cntClear m.sp.scope).storeMe c m b w

-- Probes and page requests

/-- The result of a failed probe: zeros, unmarked, and MSTATE.RES cleared when they land (R176). -/
def State.probeFailed (s : State) (c : Ctl) (d : RegF) (w64 : Bool) : State :=
  let l := { s.myLand (dstWords d (valueWords w64 0)) false with clrRes := true }
  ((s.sendLand l).modMe Thread.countL).advance c

/-- ldnf (R176). -/
def execLdnf (c : Ctl) (d : RegF) (m : MemOp) (w64 : Bool) (s : State) : Out :=
  s.runW c (.ldnf c d m w64) (fun s => s.memWait m.sp (some 0)) fun s =>
    let a := s.ea m
    let n := if w64 then 8 else 4
    s.checked m.sp a n true false fun s =>
      match s.globalMe a n (m.sp.scope = .blk) false with
      | .fails s _ => s.probeFailed c d w64
      | .held => s.waitMe .held
      | .bytes s bs =>
        if bs.any (·.2) then s.probeFailed c d w64
        else s.loaded_ c d (valueWords w64 (leNat (bs.map (·.1)))) false false false

/-- preq (R177): with no tag free nothing is sent, and the count falls at once (log entry 26). -/
def execPreq (c : Ctl) (m : MemOp) (s : State) : Out :=
  s.runW c (.preq c m) (fun s => s.memWait m.sp (some 1)) fun s =>
    let a := s.ea m
    let bl := s.myBlk
    s.checked m.sp a 1 false false fun s =>
      match s.fill bl.pkg (dieOf bl.core) bl.ctx a with
      | .error .absent =>
        let r := s.requestPage bl.pkg bl.ctx a 2 false none (some s.cur)
        (if r.coh.reqs ≠ s.coh.reqs then r.modMe Thread.countS else r).advance c
      | _ => s.advance c

end Sys2Proof.Machine
end

