-- ==== Sys2Proof/Machine/Atomics.lean ====
section
/-! DEFINITION. Class 5, atomics, reductions, compare and swap, and exact accumulation
(spec/07_isa_memory_sync.md R178-R185; spec/19_pod.md R348). -/

namespace Sys2Proof.Machine

/-- Whether a scope reaches a peer window (R167 check 6). -/
def reachesPeer (sc : Scope) : Bool := sc = .pod || sc = .sys

/-- The wait of an atomic (R33, R172, R181): with .sc it first waits as `waitcnt l=0, s=0` at its scope. -/
def State.atomWait (s : State) (m : MemOp) (count : Nat) (sc : Bool) : Option Wait :=
  firstWait [s.memWait m.sp (some count), if sc then s.countWait 0 0 31 m.sp.scope else none]

/-- What an .sc atomic's wait ends with (R181, R186). -/
def State.atomClear (s : State) (m : MemOp) (sc : Bool) : State := if sc then s.cntClear m.sp.scope else s

/-- An operation sent to a home of its own package, or to a peer's (R348). -/
def State.sendOp (s : State) (o : HomeOp) : State :=
  let p := s.myBlk.pkg
  if isPeer o.va then
    s.modCoh fun h => { h with remote := h.remote ++ [⟨p, peerNo o.va, peerOff o.va, o, s.ns, s.me.pc⟩] }
  else s.enqueue o

/-- The bytes an atomic leaves: a poisoned location stays poisoned (R175). -/
def atomBytes (w64 : Bool) (v : Nat) (bad : Bool) : List (Byte × Bool) :=
  (leBytes (if w64 then 8 else 4) v).map fun b => (b, bad)

/-- An atomic of the executing thread in the core's shared memory (R178): `d` is none for red. -/
def State.atomShared (s : State) (c : Ctl) (d : Option RegF) (a : Nat) (op : AOp) (w64 : Bool) (b cmp : Nat)
    (sc : Bool) : State :=
  let old := s.myBlk.shm.read a (if w64 then 8 else 4)
  let bad := old.any (·.2)
  let v := leNat (old.map (·.1))
  let r := atomNew op w64 (s.env .none) v b cmp
  let s := s.modMyBlk fun bl => { bl with shm := bl.shm.write a (atomBytes w64 r.1 bad) }
  match d with
  | none => s.ackMe.advance c
  | some d =>
    let l := { s.myLand (dstWords d (valueWords w64 v)) bad with
                flags := r.2, flagOp := op = .addF, unhold := sc }
    ((s.sendLand l).modMe fun th => { th.countL with hold := th.hold + sc.toNat }).advance c

/-- An atomic of the executing thread at its home (R178, R179, R181). -/
def State.atomHome (s : State) (c : Ctl) (d : Option RegF) (m : MemOp) (a : Nat) (op : AOp) (w64 : Bool) (b cmp : Nat)
    (sc : Bool) : State :=
  s.translated a d.isSome true fun s x =>
    let bl := s.myBlk
    let n := if w64 then 2 else 1
    let k : OpKind := .atom op w64 (BitVec.ofNat 64 b) (BitVec.ofNat 64 cmp) d.isSome
    let o := s.myOp x a k (d.elim [] (many n)) sc (sc && m.sp.scope ≠ .blk)
    let s := s.sendOp o
    let s := s.l1Drop bl.pkg bl.core (o.key / 128) (wordMask (lineWords a (4 * n)))
    match d with
    | none => (s.modMe Thread.countS).advance c
    | some _ => (s.modMe fun th => { th.countL with hold := th.hold + sc.toNat }).advance c

/-- An atomic or reduction of the executing thread (R178-R180): the determinism guard first (R37, R385), then the
checks of the address (R167). -/
def State.atomMe (s : State) (c : Ctl) (d : Option RegF) (m : MemOp) (op : AOp) (w64 : Bool) (b cmp : Nat)
    (sc : Bool) : State :=
  if op = .addF && s.myBlk.detcfg.getLsbD 0 then s.faultMe cDet 0 none
  else
    let a := s.ea m
    s.checked m.sp a (if w64 then 8 else 4) true (reachesPeer m.sp.scope) fun s =>
      match m.sp with
      | .s => s.atomShared c d a op w64 b cmp sc
      | _ => s.atomHome c d m a op w64 b cmp sc

/-- A source of an atomic by its width. -/
def State.atomSrc (s : State) (w64 : Bool) (b : RegF) : Nat := if w64 then (s.rd64 b).toNat else (s.rd b).toNat
/-- An atom (R178). -/
def State.runAtom (s : State) (i : Instr) (c : Ctl) (d : RegF) (m : MemOp) (b : RegF) (op : AOp) (w64 sc : Bool) : Out :=
  s.runW c i (fun s => s.atomWait m 0 sc) fun s =>
    (s.atomClear m sc).atomMe c (some d) m op w64 (s.atomSrc w64 b) 0 sc
/-- A red (R178). -/
def State.runRed (s : State) (i : Instr) (c : Ctl) (m : MemOp) (b : RegF) (op : AOp) (w64 : Bool) : Out :=
  s.runW c i (fun s => s.atomWait m 1 false) fun s => s.atomMe c none m op w64 (s.atomSrc w64 b) 0 false

/-- The minimum and maximum of a kind (R80). -/
def minOp (k : MinK) : AOp := if k = .n32 then .minU else .minS
def maxOp (k : MinK) : AOp := if k = .n32 then .maxU else .maxS

/-- atom.add (R178). -/
def execAtomAdd (c : Ctl) (d : RegF) (m : MemOp) (b : RegF) (w64 sc : Bool) (s : State) : Out :=
  s.runAtom (.atomAdd c d m b w64 sc) c d m b .add w64 sc
/-- atom.min (R178). -/
def execAtomMin (c : Ctl) (d : RegF) (m : MemOp) (b : RegF) (k : MinK) (sc : Bool) (s : State) : Out :=
  s.runAtom (.atomMin c d m b k sc) c d m b (minOp k) k.is64 sc
/-- atom.max (R178). -/
def execAtomMax (c : Ctl) (d : RegF) (m : MemOp) (b : RegF) (k : MinK) (sc : Bool) (s : State) : Out :=
  s.runAtom (.atomMax c d m b k sc) c d m b (maxOp k) k.is64 sc
/-- atom.and (R178). -/
def execAtomAnd (c : Ctl) (d : RegF) (m : MemOp) (b : RegF) (w64 sc : Bool) (s : State) : Out :=
  s.runAtom (.atomAnd c d m b w64 sc) c d m b .and w64 sc
/-- atom.or (R178). -/
def execAtomOr (c : Ctl) (d : RegF) (m : MemOp) (b : RegF) (sc : Bool) (s : State) : Out :=
  s.runAtom (.atomOr c d m b sc) c d m b .or false sc
/-- atom.xor (R178). -/
def execAtomXor (c : Ctl) (d : RegF) (m : MemOp) (b : RegF) (sc : Bool) (s : State) : Out :=
  s.runAtom (.atomXor c d m b sc) c d m b .xor false sc
/-- atom.exch (R178). -/
def execAtomExch (c : Ctl) (d : RegF) (m : MemOp) (b : RegF) (w64 sc : Bool) (s : State) : Out :=
  s.runAtom (.atomExch c d m b w64 sc) c d m b .exch w64 sc
/-- atom.add.f32 (R179). -/
def execAtomAddF32 (c : Ctl) (d : RegF) (m : MemOp) (b : RegF) (sc : Bool) (s : State) : Out :=
  s.runAtom (.atomAddF32 c d m b sc) c d m b .addF false sc
/-- atom.add.f64 (R179). -/
def execAtomAddF64 (c : Ctl) (d : RegF) (m : MemOp) (b : RegF) (sc : Bool) (s : State) : Out :=
  s.runAtom (.atomAddF64 c d m b sc) c d m b .addF true sc
/-- red.add (R178). -/
def execRedAdd (c : Ctl) (m : MemOp) (b : RegF) (w64 : Bool) (s : State) : Out :=
  s.runRed (.redAdd c m b w64) c m b .add w64
/-- red.min (R178). -/
def execRedMin (c : Ctl) (m : MemOp) (b : RegF) (k : MinK) (s : State) : Out :=
  s.runRed (.redMin c m b k) c m b (minOp k) k.is64
/-- red.max (R178). -/
def execRedMax (c : Ctl) (m : MemOp) (b : RegF) (k : MinK) (s : State) : Out :=
  s.runRed (.redMax c m b k) c m b (maxOp k) k.is64
/-- red.and (R178). -/
def execRedAnd (c : Ctl) (m : MemOp) (b : RegF) (w64 : Bool) (s : State) : Out :=
  s.runRed (.redAnd c m b w64) c m b .and w64
/-- red.or (R178). -/
def execRedOr (c : Ctl) (m : MemOp) (b : RegF) (s : State) : Out := s.runRed (.redOr c m b) c m b .or false
/-- red.xor (R178). -/
def execRedXor (c : Ctl) (m : MemOp) (b : RegF) (s : State) : Out := s.runRed (.redXor c m b) c m b .xor false
/-- red.add.f32 (R179). -/
def execRedAddF32 (c : Ctl) (m : MemOp) (b : RegF) (s : State) : Out := s.runRed (.redAddF32 c m b) c m b .addF false
/-- red.add.f64 (R179). -/
def execRedAddF64 (c : Ctl) (m : MemOp) (b : RegF) (s : State) : Out := s.runRed (.redAddF64 c m b) c m b .addF true

/-- cas (R180): D holds the compare value and receives the old one. -/
def execCas (c : Ctl) (d : RegF) (m : MemOp) (b : RegF) (w64 sc : Bool) (s : State) : Out :=
  s.runW c (.cas c d m b w64 sc) (fun s => s.atomWait m 0 sc) fun s =>
    (s.atomClear m sc).atomMe c (some d) m .cas w64 (s.atomSrc w64 b) (s.atomSrc w64 d) sc

/-- A cell operation of the executing thread sent to its home (R182-R184). -/
def State.cellMe (s : State) (c : Ctl) (m : MemOp) (k : OpKind) (dst : List Nat) (rd wr load : Bool) : State :=
  let a := s.ea m
  s.checked m.sp a 64 true false fun s =>
    s.translated a rd wr fun s x =>
      let o := s.myOp x a k dst false false
      let s := s.enqueue o
      (s.modMe fun th => if load then th.countL else th.countS).advance c

/-- atomx (R182): the NV of a signalling NaN is raised at retirement. -/
def execAtomx (c : Ctl) (m : MemOp) (b : RegF) (f : XFmt) (s : State) : Out :=
  s.runW c (.atomx c m b f) (fun s => s.memWait m.sp (some 1)) fun s =>
    let fm := fmtOfX f
    let x := toXacc fm s.me.fpcsr.daz ((s.rd b).toNat % 2 ^ fm.width)
    let a := s.ea m
    s.checked m.sp a 64 true false fun s =>
      s.translated a false true fun s t =>
        let o := s.myOp t a (.xadd x.1 x.2.1) [] false false
        (((s.enqueue o).modMe Thread.countS).raiseMe x.2.2).advance c
/-- xrnd (R183). -/
def execXrnd (c : Ctl) (d : RegF) (m : MemOp) (w64 : Bool) (s : State) : Out :=
  s.runW c (.xrnd c d m w64) (fun s => s.memWait m.sp (some 0)) fun s =>
    s.cellMe c m (.xrnd w64) (many (if w64 then 2 else 1) d) true false true
/-- xclr (R184). -/
def execXclr (c : Ctl) (m : MemOp) (s : State) : Out :=
  s.runW c (.xclr c m) (fun s => s.memWait m.sp (some 1)) fun s => s.cellMe c m .xclr [] false true false

end Sys2Proof.Machine
end

