-- ==== Sys2Proof/Machine/Control.lean ====
section
/-! DEFINITION. Class 2: control flow, traps, special and control registers, shootdown and code registration
(spec/04_isa_integer_control.md R104-R116, R119, R120; spec/22_translation_security.md R381). -/

namespace Sys2Proof.Machine

/-- nop (R110). -/
def execNop (c : Ctl) (s : State) : Out := s.run c (.nop c) fun s => s.advance c
/-- pad (R110): executes as nop. -/
def execPad (c : Ctl) (label : BitVec 16) (s : State) : Out := s.run c (.pad c label) fun s => s.advance c

/-- The target of form J (R51). -/
def branchTarget (pc : VAddr) (imm : BitVec 28) : VAddr := pc + imm.signExtend 57 * 8

/-- The executing member's bit set in a join slot (R107). -/
def State.armMe (s : State) (arm : Bool) (slot : BitVec 4) : State :=
  if arm then s.modMyBlk fun bl => bl.setJoin slot.toNat s.cur.2 true else s
/-- bra (R107): a predicated-off member arms and falls through. -/
def execBra (c : Ctl) (arm : Bool) (slot : BitVec 4) (imm : BitVec 28) (s : State) : Out :=
  .next (s.enterG c (usesOf (.bra c arm slot imm)) (fun _ => none)
    (fun s => (s.armMe arm slot).advance c)
    (fun s => (s.armMe arm slot).jump c (branchTarget s.me.pc imm)))

/-- The table walk of R63; the target follows, or a landing-pad fault; `fail` follows where a translation fails. Header,
entry and target word are taken as they stand, poisoned or not, and a word with pad's opcode that fails a decoding check is no
pad (log entry 53). -/
def State.tableWalk (s : State) (t : VAddr) (a : RegF) (fail : State → Nat → XErr → State) (body : State → VAddr → State) :
    State :=
  let p := s.myBlk.pkg
  let x := s.myBlk.ctx
  let ta := t.toNat
  let bad2 (s : State) : State := s.faultMe cPad 2 (some ta)
  if !s.dataMarked p x ta then bad2 s
  else s.translatedOr ta true false (fun s e => fail s ta e) fun s xl => s.readHere ta xl 8 fun s hs =>
    let h := BitVec.ofNat 64 (leNat (hs.map (·.1)))
    let n := bitsOf h 31 0
    if bitsOf h 47 32 ≠ 0 || n = 0 || 2 ^ 20 < n then bad2 s
    else
      let i := if n ≤ (s.rd a).toNat then 0 else (s.rd a).toNat
      let ea := ((t + 8) + BitVec.ofNat 57 (4 * i)).toNat
      if !s.dataMarked p x ea then bad2 s
      else s.translatedOr ea true false (fun s e => fail s ea e) fun s xe => s.readHere ea xe 4 fun s es =>
        let ent := BitVec.ofNat 32 (leNat (es.map (·.1)))
        let tgt := t + ent.signExtend 57 * 8
        if s.dataMarked p x tgt.toNat then s.faultMe cPad 1 (some tgt.toNat)
        else s.translatedOr tgt.toNat true false (fun s e => fail s tgt.toNat e) fun s xt => s.readHere tgt.toNat xt 8 fun s ws =>
          match decode (BitVec.ofNat 64 (leNat (ws.map (·.1)))) with
          | .ok (.pad _ label) =>
            if label.toNat = bitsOf h 63 48 then body s tgt else s.faultMe cPad 1 (some tgt.toNat)
          | _ => s.faultMe cPad 1 (some tgt.toNat)

/-- A member of brx or callx that is predicated off (R54): it takes a landing-pad fault as the others do, and passes where its
table is out of reach (log entry 22). -/
def State.padOff (s : State) (c : Ctl) (t : VAddr) (a : RegF) : State :=
  s.tableWalk t a (fun s _ _ => s.advance c) fun s _ => s.advance c

/-- brx (R108). -/
def execBrx (c : Ctl) (a : RegF) (imm : BitVec 28) (s : State) : Out :=
  .next (s.enterG c (usesOf (.brx c a imm)) (fun _ => none) (fun s => s.padOff c (branchTarget s.me.pc imm) a) fun s =>
    s.tableWalk (branchTarget s.me.pc imm) a (fun s va e => s.notReached va false e) fun s t => s.jump c t)

/-- The SUB of the fault that the push of a return address takes (R14, R109): 1 below offset 0; a slot above the allocation
is 2 (DESIGN CHOICE, log entry 54: the spec names that SUB for a pop only). -/
def State.pushSub (s : State) : Option Nat :=
  let sp := s.me.sp.toNat
  if sp < 8 then some 1 else if recLocal s.myBlk.record < sp then some 2 else none

/-- The push of a return address (R14, R109). -/
def State.pushMe (s : State) (body : State → State) : State :=
  match s.pushSub with
  | some k => s.faultMe cLocal k none
  | none =>
    let th := s.me
    let sp := th.sp.toNat
    let ra : Dword := (th.pc + 8).zeroExtend 64
    body (s.modMe fun th =>
      { th with sp := th.sp - 8, loc := th.loc.write (sp - 8) (clean (leBytes 8 ra.toNat)) })

/-- call (R109). -/
def execCall (c : Ctl) (imm : BitVec 28) (s : State) : Out :=
  s.runW c (.call c imm) State.viewWait fun s =>
    let t := branchTarget s.me.pc imm
    s.pushMe fun s => (s.jump c t).modIw fun w => { w with branch := false }
/-- callx (R108). -/
def execCallx (c : Ctl) (a : RegF) (imm : BitVec 28) (s : State) : Out :=
  .next (s.enterG c (usesOf (.callx c a imm)) State.viewWait (fun s => s.padOff c (branchTarget s.me.pc imm) a) fun s =>
    let t := branchTarget s.me.pc imm
    let fail (s : State) (va : Nat) (e : XErr) : State :=
      match s.pushSub with
      | some k => s.faultMe cLocal k none
      | none => s.notReached va false e
    s.tableWalk t a fail fun s t => s.pushMe fun s => s.jump c t)
/-- ret (R109). -/
def execRet (c : Ctl) (s : State) : Out :=
  s.runW c (.ret c) State.viewWait fun s =>
    let th := s.me
    let sp := th.sp.toNat
    if recLocal s.myBlk.record < sp + 8 then s.faultMe cLocal 2 none
    else
      let d := BitVec.ofNat 64 (th.loc.num sp 8)
      if bitsOf d 63 57 ≠ 0 || bitsOf d 2 0 ≠ 0 then s.faultMe cLocal 3 none
      else (s.modMe fun th => { th with sp := th.sp + 8 }).jump c (d.truncate 57)

/-- join (R111). -/
def execJoin (c : Ctl) (slot : BitVec 4) (s : State) : Out :=
  s.runE c (.join c slot) fun s =>
    let bl := s.myBlk
    let n := slot.toNat
    if bl.hold = 0#16 || !(tget bl.joins n).getLsbD s.cur.2 then
      (s.modMyBlk fun bl => (bl.setJoin n s.cur.2 false).joinSettle n s.lastCycle).advance c
    else
      let s := s.arriveMe c (.join n (s.cycle + 16 * bl.hold.toNat))
      s.modMyBlk fun bl => bl.joinSettle n s.lastCycle

/-- yield (R112): under a pending graceful pre-emption the thread that retired it waits. -/
def execYield (c : Ctl) (s : State) : Out :=
  s.runE c (.yield c) fun s =>
    let s := s.advance c
    if (s.pctx s.myBlk.pkg s.myBlk.ctx).pre = .pending then s.waitMe .yieldHold else s

/-- exit (R113). -/
def execExit (c : Ctl) (s : State) : Out :=
  s.run c (.exit c) fun s =>
    if s.me.ms.mode then s.faultMe cMode 1 none
    else if s.me.lcnt ≠ 0 then s.waitMe .exitLoads
    else s.exitT s.cur.1 s.cur.2

/-- trap (R115): retired, so the frame names the next instruction, and its STALL bounds the handler's first (R55); TCAUSE
holds the code with AV = 0. -/
def execTrap (c : Ctl) (code : BitVec 8) (s : State) : Out :=
  s.run c (.trap c code) fun s =>
    (s.modMe fun th => { th with stallUntil := s.lastCycle + 1 + c.stall.toNat }).faultW s.cur.1 s.cur.2 cTrap
      (code.zeroExtend 64) (s.me.pc + 8)
/-- bkpt (R115). -/
def execBkpt (c : Ctl) (code : BitVec 8) (s : State) : Out :=
  s.run c (.bkpt c code) fun s => s.faultW s.cur.1 s.cur.2 cBkpt (code.zeroExtend 64) s.me.pc
/-- reth (R116). -/
def execReth (c : Ctl) (s : State) : Out := s.run c (.reth c) fun s => s.rethMe c

-- Special registers (R26, R104)

/-- The lane the executing thread occupies (R250). -/
def State.myLane (s : State) : Nat :=
  match s.iw.lanes.find? fun l => l.1 = s.cur.1 && l.2.1 = s.cur.2 with
  | some l => l.2.2
  | none => homeLane s.cur.2

/-- The value of a special register (R26). -/
def State.special (s : State) (sel : BitVec 8) : Dword :=
  let bl := s.myBlk
  let t := bl.tidXyz s.cur.2
  let g := recGrid bl.record
  BitVec.ofNat 64 <| match sel.toNat with
    | 0x00 => t.x
    | 0x01 => t.y
    | 0x02 => t.z
    | 0x04 => bl.bid.x
    | 0x05 => bl.bid.y
    | 0x06 => bl.bid.z
    | 0x08 => g.x
    | 0x09 => g.y
    | 0x0A => g.z
    | 0x0C => s.cur.2 / 4
    | 0x0D => s.cur.2 / 32
    | 0x0E => s.myLane
    | 0x0F => s.iw.part
    | 0x10 => bl.core
    | 0x11 => s.me.sp.toNat
    | 0x12 => (s.world bl.pkg bl.ctx).toNat
    | 0x14 => s.clock bl.pkg
    | 0x16 => s.gtime bl.pkg
    | _ => 0

/-- Selectors that TIMEG guards (R37, R104). -/
def srTimed (sel : BitVec 8) : Bool := sel = 0x14#8 || sel = 0x16#8 || sel = 0x0E#8 || sel = 0x0F#8
/-- rdsr (R104). -/
def execRdsr (c : Ctl) (d : RegF) (sel : BitVec 8) (s : State) : Out :=
  s.run c (.rdsr c d sel) fun s =>
    if s.myBlk.detcfg.getLsbD 2 && srTimed sel then s.faultMe cDet 0 none
    else
      let v := s.special sel
      (if sr64 sel then s.wr64 d v 8 else s.wr d (v.truncate 32) 8).advance c

-- Control registers (R27, R105)

/-- The value of a control register (R27-R42). -/
def State.control (s : State) (n : BitVec 12) : Dword :=
  let th := s.me
  let bl := s.myBlk
  match n.toNat with
  | 0x000 => th.fpcsr.toWord.zeroExtend 64
  | 0x001 => th.ms.toWord.zeroExtend 64
  | 0x002 => th.cnts.zeroExtend 64
  | 0x003 => th.mprog.toWord.zeroExtend 64
  | 0x004 => th.sp.zeroExtend 64
  | 0x010 => bl.mgang.toWord.zeroExtend 64
  | 0x011 => bl.hold.zeroExtend 64
  | 0x012 => bl.detcfg.zeroExtend 64
  | 0x100 => th.tvec
  | 0x101 => th.tframe0
  | 0x102 => th.tframe1
  | 0x103 => th.tcause
  | 0x104 => BitVec.ofNat 64 (s.pctx bl.pkg bl.ctx).num
  | 0x105 => BitVec.ofNat 64 (s.world bl.pkg bl.ctx).toNat
  | 0x106 => BitVec.ofNat 64 th.chk.toNat
  | _ => 0

/-- The wait of csrr and csrw of FPCSR (R30). -/
def State.flagWait (s : State) : Option Wait := if s.flagsOut s.cur.1 s.cur.2 then some .flags else none

/-- csrr (R105). -/
def execCsrr (c : Ctl) (d : RegF) (num : BitVec 12) (s : State) : Out :=
  s.runW c (.csrr c d num) (fun s => if num = 0x000#12 then s.flagWait else none) fun s =>
    let v := s.control num
    (if csr64 num then s.wr64 d v 8 else s.wr d (v.truncate 32) 8).advance c

/-- csrw of the registers other than FPCSR and MPROG (R27, R105): RW fields only; a register marked never, or
outside handler mode one marked handler mode only, is a privilege fault. -/
def execCsrw (c : Ctl) (a : RegF) (num : BitVec 12) (s : State) : Out :=
  s.run c (.csrw c a num) fun s =>
    let w := s.rd a
    let h := s.me.ms.h
    match num.toNat with
    | 0x001 => (s.modMe fun th => { th with ms := { th.ms with res := w.getLsbD 8 } }).advance c
    | 0x004 => (s.modMe fun th => { th with sp := w &&& ~~~7#32 }).advance c
    | 0x011 => (s.modMyBlk fun bl => { bl with hold := w.truncate 16 }).advance c
    | 0x012 => (s.modMyBlk fun bl => { bl with detcfg := w.truncate 3 }).advance c
    | 0x100 =>
      if h then (s.modMe fun th => { th with tvec := BitVec.ofNat 64 (bitsOf (s.rd64 a) 56 3 * 8) }).advance c
      else s.faultMe cPriv 0 none
    | 0x101 =>
      if h then (s.modMe fun th => { th with tframe0 := s.rd64 a }).advance c else s.faultMe cPriv 0 none
    | 0x106 =>
      if h then (s.modMe fun th => { th with chk := w.getLsbD 0 }).advance c else s.faultMe cPriv 0 none
    | _ => s.faultMe cPriv 0 none

/-- csrw of FPCSR (R29, R30): a reserved RM is an illegal operand with SUB 6. -/
def execCsrwFpcsr (c : Ctl) (a : RegF) (s : State) : Out :=
  s.runW c (.csrwFpcsr c a) State.flagWait fun s =>
    let f := Fpcsr.ofWord (s.rd a)
    if 5 ≤ f.rm.toNat then s.faultMe cOperand 6 none else (s.modMe fun th => { th with fpcsr := f }).advance c

/-- MPROG cleared in every crew thread of a block (R34). -/
def Block.clearMprog (bl : Block) : Block :=
  { bl with threads := bl.threads.map fun t =>
      if bl.inCrew t.1 then (t.1, { t.2 with mprog := default }) else t }

/-- csrw of MPROG (R34, R105): a 1 to RSM clears MPROG, in M mode in all crew threads once no pass is outstanding. One whose
bit 31 is 0 waits in M mode in the same way before it moves on (DESIGN CHOICE, log entry 58). -/
def execCsrwMprog (c : Ctl) (a : RegF) (s : State) : Out :=
  s.runW c (.csrwMprog c a) (fun s => if s.myBlk.passesOut s.me then some .passes else none) fun s =>
    if !(s.rd a).getLsbD 31 then s.advance c
    else if s.me.ms.mode then (s.modMyBlk Block.clearMprog).advance c
    else (s.modMe fun th => { th with mprog := default }).advance c

-- Shootdown (R119, R381)

/-- Whether a write of a context tagged with a generation that a test accepts is outstanding before its home. -/
def State.genOut (s : State) (p x : Nat) (test : BitVec 8 → Bool) : Bool :=
  (s.coh.ops.any fun o => o.pkg = p && o.ctx = x && test o.gen)
    || s.coh.remote.any fun r => r.op.ctx = x && r.op.pkg = p && r.op.who.isThread && test r.op.gen

/-- Translations and L1 lines of a context invalidated on a package: all, or those of the page that holds an
address (R119): the L1 lines of that page are those filled through it. -/
def State.invalidate (s : State) (p x : Nat) (page : Option Nat) : State :=
  let hitT (e : TlbEntry) : Bool := e.pkg = p && e.ctx = x && match page with
    | none => true
    | some a => e.base ≤ a && a < e.base + e.size
  let hitL (e : L1Entry) : Bool := e.ctx = x && match page with
    | none => true
    | some a => e.vtag * 128 / e.page = a / e.page
  let s := s.modCoh fun h => { h with tlb := h.tlb.filter fun e => !hitT e }
  { s with cores := s.cores.map fun k =>
      if k.1 / 512 = p then (k.1, { k.2 with l1 := k.2.l1.filter fun e => !hitL e }) else k }

/-- The first steps of a shootdown: a new generation, the invalidation, and for the whole context the translation
word as it stands (R373, R381). -/
def State.shootStart (s : State) (p x : Nat) (page : Option Nat) : State :=
  let g := (s.pctx p x).gen + 1
  let w := s.descDw p x 0
  let s := s.modCtx p x fun c =>
    { c with gen := g, shoots := c.shoots ++ [g], xlat := if page.isNone then w else c.xlat }
  s.invalidate p x page

/-- Whether a shootdown can start: none of its context is under way, and no write bears the next generation (R381). -/
def State.shootFree (s : State) (p x : Nat) : Bool :=
  let c := s.pctx p x
  c.shoots.isEmpty && !s.genOut p x fun g => g = c.gen + 1

/-- Whether a shootdown can end: no write of another generation is outstanding (R381). -/
def State.shootOver (s : State) (p x : Nat) (g : BitVec 8) : Bool := !s.genOut p x fun k => k ≠ g

/-- tlbi of the executing thread (R119, R381). -/
def State.tlbiMe (s : State) (c : Ctl) (page : Option Nat) : State :=
  let p := s.myBlk.pkg
  let x := s.myBlk.ctx
  if !s.me.ms.h then s.faultMe cPriv 0 none
  else if !s.shootFree p x then s.waitMe .shootTurn
  else
    let s := s.shootStart p x page
    let g := (s.pctx p x).gen
    if s.shootOver p x g then (s.modCtx p x fun k => { k with shoots := k.shoots.filter (· ≠ g) }).advance c
    else s.arriveMe c (.shoot g)
/-- tlbi.ctx (R119). -/
def execTlbiCtx (c : Ctl) (s : State) : Out := s.run c (.tlbiCtx c) fun s => s.tlbiMe c none
/-- tlbi.page (R119). -/
def execTlbiPage (c : Ctl) (a : RegF) (s : State) : Out :=
  s.run c (.tlbiPage c a) fun s => s.tlbiMe c (some ((s.rd64 a).toNat % 2 ^ 57))

-- Code registration (R59, R60, R120, R121)

/-- What reading an object through the page tables gives. -/
inductive ObjRead (α : Type) where
  | ok (v : α)
  | bad
  | absent (va : Nat)
deriving DecidableEq, Repr, Inhabited

/-- A byte of memory without the newest writes to it that other agents than `who` made and that some die copy still lacks: the
pushes of the package, the newest first, with the byte and the clock of its write (R120, R187). -/
def unpushed (who : Who) (k : Nat) : List Push → (Byte × Bool) × List Nat → Byte × Bool
  | [], v => v.1
  | u :: us, v =>
    unpushed who k us <|
      if u.sector = k / 32 && u.who ≠ who && u.vc = v.2 then (u.was.getD (k % 32) default, u.wasVcs.getD (k % 32) []) else v

/-- n bytes of memory as they stand performed at .sys, but for the writes of `who`, which it sees as they stand (R120). -/
def State.settledRead (s : State) (who : Who) (p pa n : Nat) : List (Byte × Bool) :=
  let k := s.physKey p pa
  let us := (s.coh.pushes.filter fun u => u.pkg = p).reverse
  ((List.range n).zip (s.physRead p pa n)).map fun b => unpushed who (k + b.1) us (b.2, s.clockAt p (k + b.1))

/-- The bytes at an address of a context as Root reads them for the executing thread (R120). -/
def State.objBytes (s : State) (p x va n : Nat) : ObjRead (List Byte) :=
  if 2 ^ 56 < va + n then .bad
  else match s.fill p 0 x va with
    | .error .absent => .absent va
    | .error (.fault _ _) => .bad
    | .ok e =>
      if !e.r || e.region.any (· ≠ 4) then .bad
      else
        let bs := s.settledRead (.thread s.cur.1 s.cur.2) p (e.pa + (va - e.base)) n
        if bs.any (·.2) then .bad else .ok (bs.map (·.1))

/-- n dwords of an object. -/
def State.objDws (s : State) (p x : Nat) : Nat → Nat → ObjRead (List Dword)
  | _, 0 => .ok []
  | va, n + 1 =>
    match s.objBytes p x va 8 with
    | .bad => .bad
    | .absent a => .absent a
    | .ok bs =>
      match s.objDws p x (va + 8) n with
      | .ok r => .ok (BitVec.ofNat 64 (leNat bs) :: r)
      | e => e

/-- Whether every 4 KiB page that a range touches is mapped readable. -/
def State.objPages (s : State) (p x : Nat) : Nat → Nat → ObjRead Unit
  | _, 0 => .ok ()
  | va, n + 1 =>
    match s.objBytes p x va 0 with
    | .bad => .bad
    | .absent a => .absent a
    | .ok _ => s.objPages p x (va + 4096) n

/-- Whether extents ascend without overlap (R60). -/
def extentsOk : List (Nat × Nat) → Bool
  | (a, l) :: (b, m) :: r => a + l ≤ b && extentsOk ((b, m) :: r)
  | _ => true

/-- Registration of the object at an address: its status and data map, or the page it waits for (R60, R120). An extent
with LEN = 0, which R59 excludes and no check of R60 names, gives status 3 (DESIGN CHOICE, log entry 59). -/
def State.register (s : State) (p x va : Nat) : ObjRead (Nat × CodeObj) :=
  let objs := (s.pctx p x).objs
  let no (k : Nat) : ObjRead (Nat × CodeObj) := .ok (k, default)
  if va % 8 ≠ 0 then no 6
  else if Config.maxObjects ≤ objs.length then no 7
  else match s.objDws p x va 2 with
    | .bad => no 2
    | .absent a => .absent a
    | .ok h =>
      let np := bitsOf (dw h 1) 63 48
      let nw := bitsOf (dw h 1) 31 0
      if bitsOf (dw h 0) 31 0 ≠ 0x4F474C55 || bitsOf (dw h 0) 47 32 ≠ 1 || bitsOf (dw h 0) 63 48 ≠ 0
          || bitsOf (dw h 1) 47 32 ≠ 0 then no 1
      else if nw < 2 + np then no 2
      else match s.objPages p x (va / 4096 * 4096) ((va + 8 * nw + 4095) / 4096 - va / 4096) with
        | .bad => no 2
        | .absent a => .absent a
        | .ok _ =>
          match s.objDws p x (va + 16) np with
          | .bad => no 2
          | .absent a => .absent a
          | .ok es =>
            let pools := es.map fun d => (bitsOf d 31 0, bitsOf d 63 32)
            let poisoned := pools.any fun q => q.1 + q.2 ≤ nw && match s.objDws p x (va + 8 * q.1) q.2 with
              | .ok _ => false
              | _ => true
            if poisoned then no 2
            else if pools.any fun q => q.2 = 0 || q.1 < 2 + np || nw < q.1 + q.2 then no 3
            else if !extentsOk pools then no 4
            else if objs.any fun o => o.base.toNat < va + 8 * nw && va < o.base.toNat + 8 * o.nwords then no 5
            else .ok (0, ⟨BitVec.ofNat 57 va, nw, pools⟩)

/-- codereg (R120): in handler mode, once SCNT is 0; a page that is not resident is requested and waited for. -/
def execCodereg (c : Ctl) (d a : RegF) (s : State) : Out :=
  s.run c (.codereg c d a) fun s =>
    let p := s.myBlk.pkg
    let x := s.myBlk.ctx
    if !s.me.ms.h then s.faultMe cPriv 0 none
    else if s.me.scnt ≠ 0 then s.waitMe (.counts 63 0 31 .blk)
    else match s.register p x (s.rd64 a).toNat with
      | .bad => (s.landWords s.cur.1 s.cur.2 (dstWords d [2]) false false).advance c
      | .absent va => (s.arriveMe c (.codePage d.toNat)).requestPage p x va 0 false (some (.thread s.cur.1 s.cur.2)) none
      | .ok (k, o) =>
        let s := if k = 0 then s.modCtx p x fun q => { q with objs := q.objs ++ [o] } else s
        (s.landWords s.cur.1 s.cur.2 (dstWords d [BitVec.ofNat 32 k]) false false).advance c

end Sys2Proof.Machine
end

