-- ==== Sys2Proof/Machine/Integer.lean ====
section
/-! DEFINITION. Classes 0 and 1: integer arithmetic, shifts, logic, bit fields, compares, selects, moves and shape
tags (spec/04_isa_integer_control.md R86-R103, R117, R118). -/

namespace Sys2Proof.Machine

/-- The common row of R89: an exact value, clamped under .sat, put with a latency. -/
def State.intPut (s : State) (c : Ctl) (ty : Ty) (d : RegF) (sat : Bool) (x : Int) (L : Nat) : State :=
  let x := if sat then clampInt (tySigned ty) (tyWidth ty) x else x
  (s.putI ty d x L).advance c

/-- iadd (R89). -/
def execIadd (c : Ctl) (d a b : RegF) (ty : Ty) (sat : Bool) (s : State) : Out :=
  s.run c (.iadd c d a b ty sat) fun s => s.intPut c ty d sat (s.val ty a + s.val ty b) 4
/-- isub (R89). -/
def execIsub (c : Ctl) (d a b : RegF) (ty : Ty) (sat : Bool) (s : State) : Out :=
  s.run c (.isub c d a b ty sat) fun s => s.intPut c ty d sat (s.val ty a - s.val ty b) 4
/-- imul (R89). -/
def execImul (c : Ctl) (d a b : RegF) (ty : Ty) (s : State) : Out :=
  s.run c (.imul c d a b ty) fun s => s.intPut c ty d false (s.val ty a * s.val ty b) 6
/-- imulh (R89): the high half of the product. -/
def execImulh (c : Ctl) (d a b : RegF) (ty : Ty) (s : State) : Out :=
  s.run c (.imulh c d a b ty) fun s => s.intPut c ty d false (s.val ty a * s.val ty b / 2 ^ tyWidth ty) 6
/-- imad (R89). -/
def execImad (c : Ctl) (d a b x : RegF) (ty : Ty) (sat : Bool) (s : State) : Out :=
  s.run c (.imad c d a b x ty sat) fun s =>
    s.intPut c ty d sat (s.val ty a * s.val ty b + s.val ty x) 6
/-- imadw (R90). -/
def execImadw (c : Ctl) (d a b x : RegF) (ty : Ty) (s : State) : Out :=
  s.run c (.imadw c d a b x ty) fun s =>
    (s.wr64 d (BitVec.ofInt 64 (s.val ty a * s.val ty b + (s.rd64 x).toNat)) 6).advance c
/-- imin (R89). -/
def execImin (c : Ctl) (d a b : RegF) (ty : Ty) (s : State) : Out :=
  s.run c (.imin c d a b ty) fun s => s.intPut c ty d false (min (s.val ty a) (s.val ty b)) 4
/-- imax (R89). -/
def execImax (c : Ctl) (d a b : RegF) (ty : Ty) (s : State) : Out :=
  s.run c (.imax c d a b ty) fun s => s.intPut c ty d false (max (s.val ty a) (s.val ty b)) 4
/-- iabs (R89). -/
def execIabs (c : Ctl) (d a : RegF) (ty : Ty) (sat : Bool) (s : State) : Out :=
  s.run c (.iabs c d a ty sat) fun s => s.intPut c ty d sat ((s.val ty a).natAbs : Int) 4
/-- ineg (R89). -/
def execIneg (c : Ctl) (d a : RegF) (ty : Ty) (sat : Bool) (s : State) : Out :=
  s.run c (.ineg c d a ty sat) fun s => s.intPut c ty d sat (-(s.val ty a)) 4

/-- The relation of a condition code on integers (R71). -/
def intCmp (cc : Cond) (a b : Int) : Bool :=
  match cc with
  | .eq => a = b
  | .ne => a ≠ b
  | .lt => a < b
  | .le => a ≤ b
  | .gt => a > b
  | .ge => a ≥ b
  | .un => false
  | .ord => true

/-- icmp (R97). -/
def execIcmp (c : Ctl) (p : PredF) (a b : RegF) (cc : Cond) (ty : Ty) (s : State) : Out :=
  s.run c (.icmp c p a b cc ty) fun s => (s.wrPred p (intCmp cc (s.val ty a) (s.val ty b)) 4).advance c
/-- lea (R103). -/
def execLea (c : Ctl) (d a b : RegF) (sh : BitVec 4) (ty : Ty) (s : State) : Out :=
  s.run c (.lea c d a b sh ty) fun s =>
    (s.wr64 d (BitVec.ofInt 64 ((s.rd64 a).toNat + s.val ty b * 2 ^ sh.toNat)) 4).advance c

/-- shl (R91). -/
def execShl (c : Ctl) (d a b : RegF) (ty : Ty) (s : State) : Out :=
  s.run c (.shl c d a b ty) fun s =>
    let n := (s.rd b).toNat
    (s.putN ty d (if n < tyWidth ty then s.rdN ty a * 2 ^ n else 0) 4).advance c
/-- shr (R91). -/
def execShr (c : Ctl) (d a b : RegF) (ty : Ty) (s : State) : Out :=
  s.run c (.shr c d a b ty) fun s =>
    let n := (s.rd b).toNat
    (s.putN ty d (if n < tyWidth ty then s.rdN ty a / 2 ^ n else 0) 4).advance c
/-- sar (R91). -/
def execSar (c : Ctl) (d a b : RegF) (ty : Ty) (s : State) : Out :=
  s.run c (.sar c d a b ty) fun s =>
    let n := (s.rd b).toNat
    let v := s.val ty a
    (s.putI ty d (if n < tyWidth ty then v / 2 ^ n else if v < 0 then -1 else 0) 4).advance c

/-- The funnel of R92: the two words as 64 bits and the count. -/
def State.funnel (s : State) (a b x : RegF) : Nat × Nat :=
  ((s.rd a).toNat * 2 ^ 32 + (s.rd b).toNat, min (s.rd x).toNat 32)
/-- fsh.l (R92). -/
def execFshL (c : Ctl) (d a b x : RegF) (s : State) : Out :=
  s.run c (.fshL c d a b x) fun s =>
    let (v, n) := s.funnel a b x
    (s.wr d (BitVec.ofNat 32 (v * 2 ^ n / 2 ^ 32)) 6).advance c
/-- fsh.r (R92). -/
def execFshR (c : Ctl) (d a b x : RegF) (s : State) : Out :=
  s.run c (.fshR c d a b x) fun s =>
    let (v, n) := s.funnel a b x
    (s.wr d (BitVec.ofNat 32 (v / 2 ^ n)) 6).advance c

/-- A bitwise row over 64 bits of which a 32-bit form keeps the low half (R93). -/
def State.logic (s : State) (c : Ctl) (d a b : RegF) (ty : Ty) (f : Nat → Nat → Nat) : State :=
  (s.putN ty d (f (s.rdN ty a) (s.rdN ty b)) 4).advance c
/-- and (R93). -/
def execAnd (c : Ctl) (d a b : RegF) (ty : Ty) (s : State) : Out :=
  s.run c (.andB c d a b ty) fun s => s.logic c d a b ty (· &&& ·)
/-- or (R93). -/
def execOr (c : Ctl) (d a b : RegF) (ty : Ty) (s : State) : Out :=
  s.run c (.orB c d a b ty) fun s => s.logic c d a b ty (· ||| ·)
/-- xor (R93). -/
def execXor (c : Ctl) (d a b : RegF) (ty : Ty) (s : State) : Out :=
  s.run c (.xorB c d a b ty) fun s => s.logic c d a b ty (· ^^^ ·)
/-- not (R93). -/
def execNot (c : Ctl) (d a : RegF) (ty : Ty) (s : State) : Out :=
  s.run c (.notB c d a ty) fun s => (s.putN ty d (2 ^ tyWidth ty - 1 - s.rdN ty a) 4).advance c

/-- One bit as a number. -/
def bitNat (n i : Nat) : Nat := n / 2 ^ i % 2
/-- lop3 on words (R94): A is the least significant bit of the index. -/
def lop3Word (lut : BitVec 8) (a b x : Word) : Word :=
  let pick (k i : Nat) (w : Word) : Word := if bitNat k i = 1 then w else ~~~w
  (List.range 8).foldl (fun r k =>
    if lut.getLsbD k then r ||| (pick k 0 a &&& pick k 1 b &&& pick k 2 x) else r) 0
/-- lop3 (R94). -/
def execLop3 (c : Ctl) (d a b x : RegF) (lut : BitVec 8) (s : State) : Out :=
  s.run c (.lop3 c d a b x lut) fun s => (s.wr d (lop3Word lut (s.rd a) (s.rd b) (s.rd x)) 4).advance c

/-- pos and len of a field control word (R95). -/
def fieldCtl (w : Word) : Nat × Nat :=
  let pos := min (w.toNat % 256) 32
  (pos, min (w.toNat / 256 % 256) (32 - pos))
/-- bfx (R95). -/
def execBfx (c : Ctl) (d a b : RegF) (ty : Ty) (s : State) : Out :=
  s.run c (.bfx c d a b ty) fun s =>
    let (pos, len) := fieldCtl (s.rd b)
    let v := (s.rd a).toNat / 2 ^ pos % 2 ^ len
    let r : Int := if len = 0 then 0 else if ty = .i32 then sval len v else (v : Int)
    (s.wr d (BitVec.ofInt 32 r) 6).advance c
/-- bfi on numbers (R95). -/
def bfiWord (a b pos len : Nat) : Nat :=
  let m := 2 ^ pos
  let top := 2 ^ (pos + len)
  b / top * top + a % 2 ^ len * m + b % m
/-- bfi (R95). -/
def execBfi (c : Ctl) (d a b x : RegF) (s : State) : Out :=
  s.run c (.bfi c d a b x) fun s =>
    let (pos, len) := fieldCtl (s.rd x)
    (s.wr d (BitVec.ofNat 32 (bfiWord (s.rd a).toNat (s.rd b).toNat pos len)) 6).advance c

/-- The number of one bits. -/
def popcount (w n : Nat) : Nat := ((List.range w).map fun i => bitNat n i).sum
/-- popc (R96). -/
def execPopc (c : Ctl) (d a : RegF) (ty : Ty) (s : State) : Out :=
  s.run c (.popc c d a ty) fun s => (s.wr d (BitVec.ofNat 32 (popcount (tyWidth ty) (s.rdN ty a))) 6).advance c
/-- clz (R96). -/
def execClz (c : Ctl) (d a : RegF) (ty : Ty) (s : State) : Out :=
  s.run c (.clz c d a ty) fun s =>
    let v := s.rdN ty a
    (s.wr d (BitVec.ofNat 32 (if v = 0 then tyWidth ty else tyWidth ty - 1 - Nat.log2 v)) 6).advance c
/-- The bits in reverse (R96). -/
def bitrev (w n : Nat) : Nat := ((List.range w).map fun i => bitNat n i * 2 ^ (w - 1 - i)).sum
/-- brev (R96). -/
def execBrev (c : Ctl) (d a : RegF) (ty : Ty) (s : State) : Out :=
  s.run c (.brev c d a ty) fun s => (s.putN ty d (bitrev (tyWidth ty) (s.rdN ty a)) 6).advance c
/-- The index of the lowest one bit, all ones where there is none (R96). -/
def ffsWord (w n : Nat) : Word :=
  match (List.range w).find? fun i => bitNat n i = 1 with
  | some i => BitVec.ofNat 32 i
  | none => 0xFFFFFFFF#32
/-- ffs (R96). -/
def execFfs (c : Ctl) (d a : RegF) (ty : Ty) (s : State) : Out :=
  s.run c (.ffs c d a ty) fun s => (s.wr d (ffsWord (tyWidth ty) (s.rdN ty a)) 6).advance c

/-- isel (R98). -/
def execIsel (c : Ctl) (d a b : RegF) (p : PredF) (ty : Ty) (s : State) : Out :=
  s.run c (.isel c d a b p ty) fun s => (s.putN ty d (if s.rdPred p then s.rdN ty a else s.rdN ty b) 4).advance c
/-- plop (R99). -/
def execPlop (c : Ctl) (pd pa pb px : PredF) (lut : BitVec 8) (s : State) : Out :=
  s.run c (.plop c pd pa pb px lut) fun s =>
    let i := (s.rdPred pa).toNat + 2 * (s.rdPred pb).toNat + 4 * (s.rdPred px).toNat
    (s.wrPred pd (lut.getLsbD i) 4).advance c
/-- mov (R100). -/
def execMov (c : Ctl) (d a : RegF) (ty : Ty) (s : State) : Out :=
  s.run c (.mov c d a ty) fun s => (s.putN ty d (s.rdN ty a) 4).advance c
/-- movi (R101). -/
def execMovi (c : Ctl) (d : RegF) (imm : BitVec 28) (s : State) : Out :=
  s.run c (.movi c d imm) fun s => (s.wr d (imm.signExtend 32) 4).advance c
/-- movh (R101). -/
def execMovh (c : Ctl) (d a : RegF) (imm : BitVec 16) (s : State) : Out :=
  s.run c (.movh c d a imm) fun s => (s.wr d (imm ++ (s.rd a).truncate 16) 4).advance c

/-- The literal's address (R102). -/
def literalAddr (pc : VAddr) (imm : BitVec 28) : VAddr := pc + imm.signExtend 57 * 4
/-- ldlit of n bytes (R102): the pool check, the alignment, and the bytes of the registered object, whose poison no rule
looks at (log entry 53). -/
def State.literal (s : State) (imm : BitVec 28) (n : Nat) (body : State → Nat → State) : State :=
  let bl := s.myBlk
  let la := (literalAddr s.me.pc imm).toNat
  let inPool := (s.objAt bl.pkg bl.ctx s.me.pc.toNat).any fun o =>
    (List.range n).all fun i => o.covers (la + i) && o.isData (la + i)
  if !inPool then s.faultMe cLit 1 (some la)
  else if la % n ≠ 0 then s.faultMe cLit 2 (some la)
  else s.translated la true false fun s x =>
    s.readHere la x n fun s bs => body s (leNat (bs.map (·.1)))
/-- ldlit.b32 (R102). -/
def execLdlit32 (c : Ctl) (d : RegF) (imm : BitVec 28) (s : State) : Out :=
  s.run c (.ldlit32 c d imm) fun s => s.literal imm 4 fun s v => (s.wr d (BitVec.ofNat 32 v) 8).advance c
/-- ldlit.b64 (R102). -/
def execLdlit64 (c : Ctl) (d : RegF) (imm : BitVec 28) (s : State) : Out :=
  s.run c (.ldlit64 c d imm) fun s => s.literal imm 8 fun s v => (s.wr64 d (BitVec.ofNat 64 v) 8).advance c

/-- The code of a tag (R19). -/
def Tag.code : Tag → Word
  | .uniform _ => 0
  | .affine _ _ => 1
  | .general => 2
/-- The tag of a register in the executing thread's furrow; vz reads as 0 (R117). -/
def State.myTag (s : State) (a : RegF) : Word :=
  if a = 248#8 then 0 else (tget s.myBlk.tags (tagKey (s.cur.2 / 32) a.toNat)).code
/-- shapeq (R117): a determinism fault under TIMEG (R37). -/
def execShapeq (c : Ctl) (d a : RegF) (s : State) : Out :=
  s.run c (.shapeq c d a) fun s =>
    if s.myBlk.detcfg.getLsbD 2 then s.faultMe cDet 0 none else (s.wr d (s.myTag a) 4).advance c
/-- A furrow's register reshaped; a tag change costs two issue cycles (R118). -/
def State.reshapeMine (s : State) (a : RegF) : State :=
  let k := tagKey (s.cur.2 / 32) a.toNat
  let old := tget s.myBlk.tags k
  let s := s.modMyBlk fun bl => bl.reshape (s.cur.2 / 32) a.toNat s.nowCycle
  if tget s.myBlk.tags k = old then s else s.modIw fun w => { w with g := true }
/-- reshape (R118); of vz it has no effect. -/
def execReshape (c : Ctl) (a : RegF) (s : State) : Out :=
  s.run c (.reshape c a) fun s => (if a = 248#8 then s else s.reshapeMine a).advance c

end Sys2Proof.Machine
end

