-- ==== Sys2Proof/Machine/Sync.lean ====
section
/-! DEFINITION. Class 6: waiting on counts, block barriers, byte-counting barriers, quad and furrow exchanges, and the
counter generator (spec/07_isa_memory_sync.md R186-R203; spec/10_regrouping.md R257). -/

namespace Sys2Proof.Machine

/-- waitcnt (R186). -/
def execWaitcnt (c : Ctl) (l st : BitVec 6) (e : BitVec 5) (scope : Scope) (s : State) : Out :=
  s.runW c (.waitcnt c l st e scope) (fun s => s.countWait l.toNat st.toNat e.toNat scope) fun s =>
    (s.cntClear scope).advance c

-- Block barriers (R188)

/-- A barrier after an arrival, or the SUB of the barrier fault that the arrival takes. -/
def Barrier.arrive (k : Barrier) (whole : Bool) (target nthr t : Nat) : Except Nat Barrier :=
  if !whole && (target = 0 || nthr < target) then .error 1
  else match k.kind with
    | .idle => .ok ⟨if whole then .whole else .register, if whole then 0 else target, 1, [t]⟩
    | .whole => if whole then .ok { k with arr := k.arr + 1, came := t :: k.came } else .error 2
    | .register =>
      if !whole && target = k.target then .ok { k with arr := k.arr + 1, came := t :: k.came } else .error 2

/-- The wait of bar (R188 step 1), and that of a held memory instruction (R172). -/
def State.barWait (s : State) : Option Wait := firstWait [s.holdWait, s.countWait 0 0 31 .blk]

/-- An arrival of the executing thread at a block barrier (R188). -/
def State.barMe (s : State) (c : Ctl) (a : RegF) (id : BitVec 4) (arv : Bool) : State :=
  let bl := s.myBlk
  match (tget bl.bars id.toNat).arrive (a = 248#8) (s.rd a).toNat bl.nthr s.cur.2 with
  | .error k => s.faultMe cBarrier k none
  | .ok k =>
    let s := s.modMyBlk fun bl => { bl with bars := tset bl.bars id.toNat k }
    let s := if arv then s.advance c else s.arriveMe c (.barrier id.toNat)
    s.modMyBlk fun bl => bl.barSettle id.toNat s.lastCycle

/-- bar (R188). -/
def execBar (c : Ctl) (a : RegF) (id : BitVec 4) (s : State) : Out :=
  s.runW c (.bar c a id) State.barWait fun s => s.barMe c a id false
/-- bar.arv (R188). -/
def execBarArv (c : Ctl) (a : RegF) (id : BitVec 4) (s : State) : Out :=
  s.runW c (.barArv c a id) State.barWait fun s => s.barMe c a id true

-- Byte-counting barriers (R190-R195)

/-- The fields of a barb dword (R190). -/
structure Barb where
  init : Nat
  arr : Nat
  err : Bool
  ph : Bool
  pend : Int
deriving DecidableEq, Repr, Inhabited

def Barb.ofDword (d : Dword) : Barb :=
  ⟨bitsOf d 52 42, bitsOf d 41 31, bitAt d 25, bitAt d 24, sval 24 (bitsOf d 23 0)⟩
def Barb.toDword (k : Barb) : Dword :=
  BitVec.ofNat 64 (k.init * 2 ^ 42 + k.arr * 2 ^ 31 + k.err.toNat * 2 ^ 25 + k.ph.toNat * 2 ^ 24 + wrap 24 k.pend)

/-- The barb at a shared offset. -/
def Block.barbAt (bl : Block) (off : Nat) : Barb := .ofDword (BitVec.ofNat 64 (bl.shm.num off 8))

/-- A barb after an update: a phase completes when ARR and PEND are both 0 (R190). -/
def Barb.phase (k : Barb) : Barb := if k.arr = 0 && k.pend = 0 then { k with ph := !k.ph, arr := k.init } else k

/-- Whether a byte of the dword at a shared offset is poisoned. -/
def Block.barbPoison (bl : Block) (off : Nat) : Bool := (bl.shm.read off 8).any (·.2)

/-- An update of a barb in shared memory, `bad` if its dword is then poisoned (R175). When it completes a phase, the
threads that wait for it go on, or take the barrier fault of a barb in error (R194); once their block has halted they stay
waiting, and look at the phase again after its restore (R352). -/
def State.barbPut (s : State) (b off : Nat) (k : Barb) (bad : Bool) : State :=
  let old := (s.blk b).barbAt off
  let bytes := (leBytes 8 k.toDword.toNat).map fun x => (x, bad)
  let s := s.modBlk b fun bl => { bl with shm := bl.shm.write off bytes }
  if old.ph = k.ph || !s.blockRuns (s.blk b) then s
  else
    let woken := (s.blk b).live.filter fun t => match (s.thr b t).wait with
      | some (.barb o ph) => o = off && ph ≠ k.ph
      | _ => false
    woken.foldl (fun s t =>
      if k.err then s.faultT b t cBarrier 6 none (s.thr b t).pc
      else s.modThr b t fun th => { th.release s.lastCycle with freed := some s.cycle }) s

/-- Bytes that had been subtracted from PEND, and are to be delivered again, put back (R350; log entry 83). -/
def State.barbBack (s : State) (b off n : Nat) : State :=
  s.modBlk b fun bl =>
    let k := bl.barbAt off
    let d := Barb.toDword { k with pend := k.pend + n }
    { bl with shm := bl.shm.write off ((leBytes 8 d.toNat).map fun x => (x, bl.barbPoison off)) }

/-- Bytes subtracted from PEND by an engine (R195). -/
def State.barbSub (s : State) (b off n : Nat) : State :=
  let k := (s.blk b).barbAt off
  let p := k.pend - n
  s.barbPut b off (if p < -(2 ^ 23) then { k with pend := 0, err := true } else { k with pend := p }).phase
    ((s.blk b).barbPoison off)

/-- barb.init (R191). -/
def execBarbInit (c : Ctl) (m : MemOp) (b : RegF) (s : State) : Out :=
  s.runW c (.barbInit c m b) (fun s => s.memWait m.sp (some 1)) fun s =>
    let a := s.ea m
    let v := (s.rd b).toNat
    s.checked m.sp a 8 true false fun s =>
      if v = 0 || 1024 < v then s.faultMe cBarrier 3 none
      else ((s.barbPut s.cur.1 a ⟨v, v, false, false, 0⟩ false).ackMe).advance c
/-- barb.expect (R192). -/
def execBarbExpect (c : Ctl) (m : MemOp) (b : RegF) (s : State) : Out :=
  s.runW c (.barbExpect c m b) (fun s => s.memWait m.sp (some 1)) fun s =>
    let a := s.ea m
    let v := (s.rd b).toNat
    s.checked m.sp a 8 true false fun s =>
      let k := s.myBlk.barbAt a
      if 2 ^ 23 - 1 < k.pend + v then s.faultMe cBarrier 4 none
      else
        let s := if v = 0 then s else s.barbPut s.cur.1 a { k with pend := k.pend + v }.phase (s.myBlk.barbPoison a)
        s.ackMe.advance c
/-- Whether a store of a thread is not yet performed at .blk (R187): one of .s is at once, one of .g at its home. -/
def State.storesOut (s : State) (b t : Nat) : Bool :=
  let out (o : HomeOp) : Bool := o.who = .thread b t && match o.kind with
    | .store _ => true
    | _ => false
  s.coh.ops.any out || s.coh.remote.any fun r => out r.op

/-- The wait of barb.arrive (R193): until the older .s and .g stores are performed at .blk. -/
def State.storeWait (s : State) : Option Wait := if s.storesOut s.cur.1 s.cur.2 then some .stores else none

/-- barb.arrive (R193). A dword that is poisoned, which R175 does not list, keeps its poison, and D is marked (DESIGN CHOICE,
log entry 74). -/
def execBarbArrive (c : Ctl) (d : RegF) (m : MemOp) (s : State) : Out :=
  s.runW c (.barbArrive c d m) (fun s => firstWait [s.memWait m.sp (some 0), s.storeWait]) fun s =>
    let a := s.ea m
    s.checked m.sp a 8 true false fun s =>
      let k := s.myBlk.barbAt a
      if k.arr = 0 then s.faultMe cBarrier 5 none
      else
        let bad := s.myBlk.barbPoison a
        let s := s.barbPut s.cur.1 a { k with arr := k.arr - 1 }.phase bad
        s.loaded_ c d [if k.ph then 1 else 0] bad false false
/-- barb.wait (R194). -/
def execBarbWait (c : Ctl) (m : MemOp) (b : RegF) (s : State) : Out :=
  s.runW c (.barbWait c m b) (fun s => s.memWait m.sp none) fun s =>
    let a := s.ea m
    let want := (s.rd b).getLsbD 0
    s.checked m.sp a 8 true false fun s =>
      let k := s.myBlk.barbAt a
      if k.err then s.faultMe cBarrier 6 none
      else if k.ph ≠ want then s.advance c
      else s.arriveMe c (.barb a want)

-- Exchanges (R196-R200)

/-- The quad and the furrow of a thread. -/
def quadOf (t : Nat) : List Nat := (List.range 4).map fun i => t / 4 * 4 + i
def furrowOf (t : Nat) : List Nat := (List.range 32).map fun i => t / 32 * 32 + i

/-- Whether the group of an exchange has assembled at a PC, with nothing on its way to the registers, predicates and
guard it uses (R196). -/
def State.exReady (s : State) (b : Nat) (group : List Nat) (pc : VAddr) (c : Ctl) (u : Uses) : Bool :=
  let bl := s.blk b
  group.all fun t =>
    let th := tget bl.threads t
    (th.st = .exited || (th.wait = some .exchange && th.pc = pc && u.regs.all fun r => !s.outstanding b t r))
      && u.regs.all (fun r => (th.unready r s.nowCycle).isEmpty)
      && ((u.psrcs ++ onep c.ps).all fun p => (th.unready (256 + p) s.nowCycle).isEmpty)

/-- What an exchange gives an executing member. -/
inductive ExRes where
  | regs (d : RegF) (ws : List Word)
  | pred (p : PredF) (v : Bool)
  | poison
deriving DecidableEq, Repr, Inhabited

/-- One member of an assembled exchange goes on: `o` is the state as the group assembled. -/
def State.exMember (s : State) (c : Ctl) (o : State) (b t : Nat) (r : ExRes) : State :=
  if o.rdPredT b t c.ps = c.pn then s.advanceT b t c
  else match r with
    | .regs d ws => (((List.range ws.length).zip ws).foldl (fun s p => s.wrT b t (RegF.up d p.1) p.2 6) s).advanceT b t c
    | .pred p v => (s.wrPredT b t p v 6).advanceT b t c
    | .poison => s.faultT b t cPoison 0 none (s.thr b t).pc

/-- An exchange as the executing thread meets it (R196, R257): it arrives and waits; when its group has assembled the
exchange takes effect once for every member, each source read as it stood at the assembly. -/
def State.exchangeMe (s : State) (c : Ctl) (i : Instr) (group : List Nat) (f : State → Nat → ExRes) : State :=
  let u := usesOf i
  let b := s.cur.1
  let th := s.me
  let bl := s.myBlk
  if th.wait = some .exchange then
    if s.exReady b group th.pc c u then
      let live := group.filter fun t => (tget bl.threads t).st ≠ .exited
      let r := live.foldl (fun r t => r.exMember c s b t (f s t)) s
      (r.modIw fun w => { w with todo := [], done := live.map fun t => (b, t) }).event
    else s
  else s.named u fun s => s.arriveMe c .exchange

/-- Whether any of a member's registers is marked poisoned. -/
def State.marked (s : State) (b t : Nat) (rs : List Nat) : Bool := rs.any fun r => tget (s.thr b t).marks r

/-- A register exchange: each member reads A of the thread that `src` names, from its own register B where it is used. -/
def State.shuffle (s : State) (c : Ctl) (i : Instr) (group : List Nat) (d a : RegF) (b : Option RegF) (ty : Ty)
    (src : Nat → Nat → Nat) : State :=
  let blk := s.cur.1
  s.exchangeMe c i group fun o t =>
    let v := match b with
      | some r => (o.rdT blk t r).toNat
      | none => 0
    let p := src t v
    if o.marked blk t (b.elim [] one) || o.marked blk p (many ty.regs a) then .poison
    else .regs d (if ty.is64 then halves (o.rd64T blk p a) else [o.rdT blk p a])

/-- qxch.idx (R197). -/
def execQxchIdx (c : Ctl) (d a b : RegF) (ty : Ty) (s : State) : Out :=
  .next (s.shuffle c (.qxchIdx c d a b ty) (quadOf s.cur.2) d a (some b) ty fun t v => t / 4 * 4 + v % 4)
/-- qxch.xk (R197). -/
def execQxchX (c : Ctl) (d a : RegF) (k : BitVec 2) (ty : Ty) (s : State) : Out :=
  .next (s.shuffle c (.qxchX c d a k ty) (quadOf s.cur.2) d a none ty fun t _ => t / 4 * 4 + (t % 4 ^^^ k.toNat))
/-- qbcst (R198). -/
def execQbcst (c : Ctl) (d a : RegF) (m : BitVec 2) (ty : Ty) (s : State) : Out :=
  .next (s.shuffle c (.qbcst c d a m ty) (quadOf s.cur.2) d a none ty fun t _ => t / 4 * 4 + m.toNat)
/-- fshfl.idx (R199). -/
def execFshflIdx (c : Ctl) (d a b : RegF) (ty : Ty) (s : State) : Out :=
  .next (s.shuffle c (.fshflIdx c d a b ty) (furrowOf s.cur.2) d a (some b) ty fun t v => t / 32 * 32 + v % 32)
/-- fshfl.up (R199). -/
def execFshflUp (c : Ctl) (d a b : RegF) (ty : Ty) (s : State) : Out :=
  .next (s.shuffle c (.fshflUp c d a b ty) (furrowOf s.cur.2) d a (some b) ty fun t v =>
    if v ≤ t % 32 then t - v else t)
/-- fshfl.down (R199). -/
def execFshflDown (c : Ctl) (d a b : RegF) (ty : Ty) (s : State) : Out :=
  .next (s.shuffle c (.fshflDown c d a b ty) (furrowOf s.cur.2) d a (some b) ty fun t v =>
    if t % 32 + v ≤ 31 then t + v else t)
/-- fshfl.xor (R199). -/
def execFshflXor (c : Ctl) (d a b : RegF) (ty : Ty) (s : State) : Out :=
  .next (s.shuffle c (.fshflXor c d a b ty) (furrowOf s.cur.2) d a (some b) ty fun t v =>
    t / 32 * 32 + (t % 32 ^^^ v % 32))

/-- The active members of a vote with their predicates (R200). -/
def State.voters (o : State) (c : Ctl) (b t : Nat) (pa : PredF) : List (Nat × Bool) :=
  ((furrowOf t).filter fun k => (o.thr b k).st ≠ .exited && o.rdPredT b k c.ps ≠ c.pn).map fun k =>
    (k, o.rdPredT b k pa)

/-- fvote.all (R200). -/
def execFvoteAll (c : Ctl) (pd pa : PredF) (s : State) : Out :=
  .next (s.exchangeMe c (.fvoteAll c pd pa) (furrowOf s.cur.2) fun o t =>
    .pred pd ((o.voters c s.cur.1 t pa).all (·.2)))
/-- fvote.any (R200). -/
def execFvoteAny (c : Ctl) (pd pa : PredF) (s : State) : Out :=
  .next (s.exchangeMe c (.fvoteAny c pd pa) (furrowOf s.cur.2) fun o t =>
    .pred pd ((o.voters c s.cur.1 t pa).any (·.2)))
/-- fvote.uni (R200). -/
def execFvoteUni (c : Ctl) (pd pa : PredF) (s : State) : Out :=
  .next (s.exchangeMe c (.fvoteUni c pd pa) (furrowOf s.cur.2) fun o t =>
    let v := o.voters c s.cur.1 t pa
    .pred pd (v.all (·.2) || v.all fun p => !p.2))
/-- fvote.ballot (R200). -/
def execFvoteBallot (c : Ctl) (d : RegF) (pa : PredF) (s : State) : Out :=
  .next (s.exchangeMe c (.fvoteBallot c d pa) (furrowOf s.cur.2) fun o t =>
    .regs d [(o.voters c s.cur.1 t pa).foldl (fun (w : Word) p => if p.2 then w ||| (1#32 <<< (p.1 % 32)) else w) 0])

-- The counter generator (R201-R203)

/-- The rotations of a round. -/
def ugenRot : List (Nat × Nat) :=
  [(16, 8), (8, 24), (24, 12), (12, 28), (4, 20), (20, 4), (28, 16), (16, 24), (8, 12), (12, 20)]

/-- One round of ugen on (x0, x1, x2, x3). -/
def ugenRound (k0 k1 : Word) (r : Nat) (rot : Nat × Nat) (x : Word × Word × Word × Word) : Word × Word × Word × Word :=
  let (x0, x1, x2, x3) := x
  let x0 := x0 + k0 + BitVec.ofNat 32 r * 0x9E3779B9#32
  let x2 := x2 + k1 + BitVec.ofNat 32 r * 0xBB67AE85#32
  let x0 := x0 + x1
  let x1 := x1.rotateLeft rot.1 ^^^ x0
  let x2 := x2 + x3
  let x3 := x3.rotateLeft rot.2 ^^^ x2
  (x0, x3, x2, x1)

/-- ugen of R201: the four words, the lowest first. -/
def ugen (key : Dword) (c0 c1 c2 c3 : Word) : List Word :=
  let k0 : Word := key.truncate 32
  let k1 : Word := (key >>> 32).truncate 32
  let x := ((List.range 10).zip ugenRot).foldl (fun x p => ugenRound k0 k1 p.1 p.2 x) (c0, c1, c2, c3)
  [x.1, x.2.1, x.2.2.1 + k0, x.2.2.2 + k1]

/-- ugen of the key and counter in registers (R202). -/
def State.ugenOf (s : State) (a b : RegF) : List Word :=
  match s.rdList b 4 with
  | [c0, c1, c2, c3] => ugen (s.rd64 a) c0 c1 c2 c3
  | _ => []
/-- rng.lo (R202). -/
def execRngLo (c : Ctl) (d a b : RegF) (s : State) : Out :=
  s.run c (.rngLo c d a b) fun s => (s.wrList d ((s.ugenOf a b).take 2) 10).advance c
/-- rng.hi (R202). -/
def execRngHi (c : Ctl) (d a b : RegF) (s : State) : Out :=
  s.run c (.rngHi c d a b) fun s => (s.wrList d ((s.ugenOf a b).drop 2) 10).advance c

end Sys2Proof.Machine
end

