-- ==== Sys2Proof/Machine/Matrix.lean ====
section
/-! DEFINITION. Class 7, matrix instructions: modes, crews, the starts of passes and of drains, mcvt and mstat
(spec/08_isa_matrix_engines.md R204-R218; spec/14_matrix_mode.md R283-R298). -/

namespace Sys2Proof.Machine

-- Crews (R32, R35, R206)

/-- The registers of a thread's window (R31). -/
def MState.window (m : MState) : List Nat := (List.range 64).map fun i => m.abase.toNat + i

/-- The registers of an mmad's A range (R215). -/
def rangeA (a : Option Nat) : List Nat := a.elim [] fun r => (List.range 64).map fun i => r + i

/-- Whether no older result of a thread is on its way to its window, or to the A range of the mmad it meets (R288, R215). -/
def State.windowQuiet (s : State) (b t : Nat) (a : Option Nat) : Bool :=
  let th := s.thr b t
  (th.ms.window ++ rangeA a).all fun r => !s.outstanding b t r && (th.unready r s.nowCycle).isEmpty

/-- The wait on the window of mzero, which touches it (R209, R287, R288), and of arriving at a pass-running instruction, whose
passes are waited for at the rendezvous (R288, R289). -/
def State.windowWait (passes : Bool) (a : Option Nat) (s : State) : Option Wait :=
  let th := s.me
  if th.ms.mode && ((passes && s.myBlk.passesOut th) || !s.windowQuiet s.cur.1 s.cur.2 a) then some (.window passes true a)
  else none

/-- Whether a crew has all arrived at a PC (R206): a thread waits under the crew it arrived under (R208). -/
def Block.crewAll (bl : Block) (g : Mgang) (pc : VAddr) : Bool :=
  g.threads.all fun t =>
    let th := tget bl.threads t
    th.pc = pc && match th.wait with
      | some (.crew w) => w = g.toWord
      | _ => false

/-- Whether a pass or a capture of a block's crew is outstanding (R284). -/
def Block.busy (bl : Block) : Bool := bl.crew.isSome || bl.drain.isSome

/-- A fault in a thread of a crew, which then waits at no mmode.m (R206, R284). -/
def State.crewFault (s : State) (b t cause sub : Nat) : State :=
  let s := s.modThr b t fun th => { th with ms := { th.ms with mp := false } }
  s.faultT b t cause sub none (s.thr b t).pc

/-- A fault in every thread of a crew (R206). -/
def State.faultAll (s : State) (b : Nat) (ts : List Nat) (cause sub : Nat) : State :=
  ts.foldl (fun s t => s.crewFault b t cause sub) s

/-- Threads of a crew go on at the next word (R206), no longer waiting at an mmode.m (R31). -/
def State.advanceAll (s : State) (b : Nat) (ts : List Nat) (c : Ctl) : State :=
  ts.foldl (fun s t => (s.modThr b t fun th => { th with ms := { th.ms with mp := false } }).advanceT b t c) s

/-- The instruction as a crew meets it: what arriving requires and what the assembled crew does. -/
structure CrewRule where
  /-- MSTATE.MODE that the instruction needs -/
  inM : Bool
  /-- whether it is mmode.m -/
  enters : Bool
  /-- whether it waits for the crew's passes and captures to assemble (R289) -/
  runs : Bool
  handles : List HandleF
deriving DecidableEq, Repr, Inhabited

/-- Whether an assembled crew can issue (R206, R289): behind a re-issued pass-running instruction only once its passes have
committed (R296). -/
def Block.crewReady (bl : Block) (g : Mgang) (pc : VAddr) (runs : Bool) : Bool :=
  bl.crewAll g pc && bl.drain.isNone && bl.crew.all fun r => !runs && !r.again

/-- A thread arrives at a crew instruction, after its own checks (R206, R207). A predicated-off thread makes none of them
(R84): outside the crew it goes on (R53), log entry 20. Where a thread of the crew has exited it faults at once, as one
that waited then would (R206, R297). -/
def State.crewArrive (s : State) (c : Ctl) (k : CrewRule) (on : Bool) : State :=
  let bl := s.myBlk
  let th := s.me
  if !bl.inCrew s.cur.2 then if on then s.faultMe cMode 3 none else s.advance c
  else if on && (th.ms.mode ≠ k.inM || (k.enters && th.ms.h)) then s.faultMe cMode 1 none
  else if bl.mgang.threads.any fun t => (tget bl.threads t).st = .exited then s.faultMe cMode 3 none
  else
    let s := s.arriveMe c (.crew bl.mgang.toWord)
    if k.enters then s.modMe fun th => { th with ms := { th.ms with mp := true } } else s

/-- A thread comes to a crew instruction: its operands are looked at when the crew issues it (R58, R258). -/
def State.crewCome (s : State) (c : Ctl) (u : Uses) (k : CrewRule) (wait : State → Option Wait) : State :=
  s.named u fun s =>
    if s.rdPred c.ps = c.pn then s.crewArrive c k false
    else match wait s with
      | some w => s.waitMe w
      | none => s.crewArrive c k true

/-- The fault of a crew thread's operands as the assembled crew issues (R58, R175). -/
def State.crewOperands (s : State) (c : Ctl) (u : Uses) (b t : Nat) : Option (Nat × Nat) :=
  State.operandFault { s with cur := (b, t) } c u

/-- Those faults taken, each by its own thread; the others wait at the rendezvous again (DESIGN CHOICE, log entry 75). -/
def State.crewStall (s : State) (c : Ctl) (u : Uses) (b : Nat) (ts : List Nat) : State :=
  ts.foldl (fun r t => match s.crewOperands c u b t with
    | some (cause, sub) => r.crewFault b t cause sub
    | none => r.modThr b t fun th => { th with met := false }) s

/-- The environment a crew computes in (R206). -/
def Thread.crewEnv (th : Thread) : BitVec 3 × Bool × Bool := (th.fpcsr.rm, th.fpcsr.daz, th.fpcsr.ftz)

/-- A crew instruction as the executing thread meets it (R206): it arrives and waits; when the crew has assembled, its
operands and guards are read (R58, R258), the checks are made in order and then the instruction takes effect once for the
whole crew. `operands` are the values of
a thread that must agree, `rule` the limit and kind rules over crew thread 0. -/
def State.crewMe (s : State) (c : Ctl) (i : Instr) (k : CrewRule) (wait : State → Option Wait)
    (operands : State → Nat → List Nat) (rule : State → Option (Nat × Nat)) (effect : State → List Nat → State) : State :=
  let b := s.cur.1
  let bl := s.myBlk
  let th := s.me
  match th.wait with
  | some (.crew w) =>
    let g := Mgang.ofWord w
    if !bl.crewReady g th.pc k.runs then s
    else
      let ts := g.threads
      let t0 := ts.headD 0
      let o := { s with cur := (b, t0) }
      let same {α : Type} [DecidableEq α] (f : Nat → α) : Bool := ts.all fun t => f t = f t0
      let off (t : Nat) : Bool := s.rdPredT b t c.ps = c.pn
      let r :=
        if ts.any fun t => (s.crewOperands c (usesOf i) b t).isSome then s.crewStall c (usesOf i) b ts
        else if ts.all off then s.advanceAll b ts c
        else if ts.any off then s.faultAll b ts cMode 4
        else if !same (fun t => (s.thr b t).crewEnv) then s.faultAll b ts cMode 2
        else if !same (fun t => operands s t) || !same (fun t => k.handles.map fun h => (tget (s.thr b t).handles h.toNat).value)
        then s.faultAll b ts cOperand 5
        else if k.handles.any fun h => !(tget o.me.handles h.toNat).valid then s.faultAll b ts cHandle 0
        else match rule o with
          | some (cause, sub) => s.faultAll b ts cause sub
          | none => effect s ts
      (r.modIw fun w => { w with todo := [], done := ts.map fun t => (b, t) }).event
  | _ => s.crewCome c (usesOf i) k wait

-- Modes (R207-R209)

/-- MSTATE of a crew thread that enters M mode (R207). -/
def MState.enterM (m : MState) (c ab : Nat) : MState :=
  { m with mode := true, mp := false, crew := BitVec.ofNat 7 c, abase := BitVec.ofNat 8 (8 * ab) }
/-- MSTATE of a thread that leaves M mode (R207). -/
def MState.leaveM (m : MState) : MState := { m with mode := false, vp := false, crew := 0, abase := 0 }

/-- mmode.m (R207): the window is checked against each thread's allotment before it arrives. Its issue dissolves the warp
(R253). -/
def execMmodeM (c : Ctl) (ab : BitVec 5) (s : State) : Out :=
  .next (s.event.crewMe c (.mmodeM c ab) ⟨false, true, false, []⟩ (fun _ => none)
    (fun s t => [(s.thr s.cur.1 t).mprog.toWord.toNat]) (fun _ => none)
    fun s ts =>
      let b := s.cur.1
      ((List.range 128).zip ts).foldl (fun s p =>
        (s.modThr b p.2 fun th => { th with ms := th.ms.enterM p.1 ab.toNat }).advanceT b p.2 c) s)
/-- mmode.v (R207). -/
def execMmodeV (c : Ctl) (s : State) : Out :=
  s.runE c (.mmodeV c) fun s =>
    let th := s.me
    if th.ms.h then s.faultMe cMode 1 none
    else if !th.ms.mode then s.advance c
    else if s.myBlk.busy then (s.modMe fun th => { th with ms := { th.ms with vp := true } }).waitMe .passes
    else (s.modMe fun th => { th with ms := th.ms.leaveM }).advance c

/-- Whether a value of MGANG names a crew the block has (R208). -/
def Block.gangOk (bl : Block) (v : Word) : Bool :=
  let g := Mgang.ofWord v
  let fs := (List.range 4).map g.furrow
  ((List.range 4).all fun k => g.furrow k * 32 < bl.nthr && bl.homePart (g.furrow k * 32) = k)
    && fs.Nodup
/-- mgang (R208): nonzero reserved bits are refused whatever bit 31 is (log entry 33). -/
def execMgang (c : Ctl) (a : RegF) (s : State) : Out :=
  s.run c (.mgang c a) fun s =>
    let v := s.rd a
    let bl := s.myBlk
    if (bl.threads.any fun t => t.2.ms.mode) || (v >>> 20) &&& 0x7FF#32 ≠ 0#32 || (v.getLsbD 31 && !bl.gangOk v) then
      s.faultMe cOperand 6 none
    else (s.modMyBlk fun bl => { bl with mgang := Mgang.ofWord v }).advance c

/-- mzero (R209). -/
def execMzero (c : Ctl) (s : State) : Out :=
  s.runW c (.mzero c) (State.windowWait true none) fun s =>
    if !s.me.ms.mode then s.faultMe cMode 1 none
    else (s.me.ms.window.foldl (fun s r => s.wr (BitVec.ofNat 8 r) 0 0) s).advance c

-- Panels (R221-R223)

def recKind (r : List Dword) : Nat := bitsOf (dw r 0) 7 0
def recFcode (r : List Dword) : Nat := bitsOf (dw r 0) 15 8
def recAlt (r : List Dword) : Bool := bitAt (dw r 0) 16
def recSide (r : List Dword) : Bool := bitAt (dw r 0) 18
def recSp (r : List Dword) : Bool := bitAt (dw r 0) 19
def recCustom (r : List Dword) : Nat := bitsOf (dw r 0) 63 32
def recSoff (r : List Dword) : Nat := bitsOf (dw r 1) 31 0
def recLd (r : List Dword) : Nat := bitsOf (dw r 1) 63 32
def recXld (r : List Dword) : Nat := bitsOf (dw r 2) 15 0
def recMld (r : List Dword) : Nat := bitsOf (dw r 2) 31 16
def recXoff (r : List Dword) : Nat := bitsOf (dw r 2) 63 32
def recBoff (r : List Dword) : Nat := bitsOf (dw r 3) 31 0
def recMoff (r : List Dword) : Nat := bitsOf (dw r 3) 63 32
-- Shapes (R224)
def recBase (r : List Dword) : Nat := bitsOf (dw r 1) 56 0
def recNrow (r : List Dword) : Nat := bitsOf (dw r 2) 31 0
def recNcol (r : List Dword) : Nat := bitsOf (dw r 2) 63 32
def recRstr (r : List Dword) : Nat := bitsOf (dw r 3) 39 0

/-- The custom format of a word (R131). -/
def customFmt (w : Nat) : Fmt :=
  let pol : Pol := match w / 256 % 4 with
    | 0 => .finite
    | 1 => .ieee
    | _ => .nanOnly
  ⟨w / 16 % 8, w % 8, w / 2 ^ 16 % 256, w / 128 % 2 = 1, pol, false⟩

/-- An element format: floating point, or an integer of so many bits, signed or not (R221, R133). -/
inductive Elem where
  | fp (f : Fmt)
  | int (bits : Nat) (sg : Bool)
deriving DecidableEq, Repr, Inhabited

/-- The element format of a panel record (R221). -/
def recElem (r : List Dword) : Elem :=
  match recFcode r with
  | 0x06 => .int 8 true
  | 0x07 => .int 8 false
  | 0x0A => .fp .f32
  | 0x0B => .fp .f64
  | 0x0C => .fp .f16
  | 0x0D => .fp .bf16
  | 0x0E => .fp .e4m3
  | 0x0F => .fp .e5m2
  | 0x10 => .fp .e3m2
  | 0x11 => .fp .e2m3
  | 0x12 => .fp .e2m1
  | 0x13 => .fp (if recAlt r then .e5m2 else .e4m3)
  | 0x14 => .fp (if recAlt r then .e2m3 else .e3m2)
  | 0x15 => .fp .e2m1
  | 0x41 => .int 4 true
  | _ => .fp (customFmt (recCustom r))

/-- The bits of an element. -/
def Elem.bits : Elem → Nat
  | .fp f => f.width
  | .int n _ => n

/-- The FCODEs that TY accepts for A and for B (R210). -/
def tyCodes (ty : Ty) : List Nat × List Nat :=
  match ty with
  | .f16 => ([0x0C], [0x0C])
  | .bf16 => ([0x0D], [0x0D])
  | .e4m3 => ([0x0E], [0x0E, 0x0F])
  | .e5m2 => ([0x0F], [0x0E, 0x0F])
  | .e3m2 => ([0x10], [0x10, 0x11])
  | .e2m3 => ([0x11], [0x10, 0x11])
  | .e2m1 => ([0x12], [0x12])
  | .mxfp8 => ([0x13], [0x13])
  | .mxfp6 => ([0x14], [0x14])
  | .mxfp4 => ([0x15], [0x15])
  | .i8 => ([0x06], [0x06, 0x07])
  | .n8 => ([0x07], [0x06, 0x07])
  | .b32 => ([0x40, 0x41], [0x40, 0x41])
  | .f64 => ([0x0B], [0x0B])
  | _ => ([], [])

/-- Whether two panels' formats match TY (R210). -/
def tyFits (ty : Ty) (a b : List Dword) : Bool :=
  (tyCodes ty).1.contains (recFcode a) && (tyCodes ty).2.contains (recFcode b)
    && (ty ≠ .b32 || (recFcode a = recFcode b && recCustom a = recCustom b))

/-- The depth d of a pass (R210, R293). -/
def passDepth (ty : Ty) (k : RunKind) : Nat :=
  let d := match ty with
    | .f16 | .bf16 => 4
    | .e2m1 | .mxfp4 => 32
    | .f64 => 1
    | _ => 8
  if k = .mmasp then 2 * d else d

/-- The bytes that n elements of a row take. -/
def rowBytes (r : List Dword) (n : Nat) : Nat := ((recElem r).bits * n + 7) / 8

/-- Whether k-block kb of a sparse panel is kept (R223). -/
def Block.kept (bl : Block) (a : List Dword) (kb : Nat) : Bool :=
  recBoff a = 0xFFFFFFFF || bl.shm.num (recBoff a + kb / 8) 1 / 2 ^ (kb % 8) % 2 = 1

/-- The kept k-blocks below one (R223). -/
def Block.keptBelow (bl : Block) (a : List Dword) (kb : Nat) : Nat := ((List.range kb).filter (bl.kept a)).length

/-- The next depth at which a pass runs: past a run of skipped blocks (R294). -/
def Block.skipFrom (bl : Block) (a : List Dword) (k : Nat) : Nat → Nat → Nat
  | 0, k0 => k0
  | fuel + 1, k0 => if k0 < k && k0 % 32 = 0 && !bl.kept a (k0 / 32) then bl.skipFrom a k fuel (k0 + 32) else k0

/-- The check 5 of R206 for mma, mmasp and mmad (R212, R214, R215). -/
def Block.panelRule (bl : Block) (kind : RunKind) (ty : Ty) (ha hb : List Dword) (k : Nat) : Option (Nat × Nat) :=
  let d := passDepth ty kind
  let mm : Bool := kind = .mmad
  let okA : Bool := mm || (recKind ha = 1 && !recSide ha && recSp ha == decide (kind = .mmasp))
  let okB : Bool := recKind hb = 1 && recSide hb
  let fits : Bool := if mm then (tyCodes ty).2.contains (recFcode hb) else tyFits ty ha hb
  let depthBad : Bool := match kind with
    | .mma => k < d || 4096 < k || k % d ≠ 0
    | .mmasp => k < d || 4096 < k || k % 32 ≠ 0
    | .mmad => false
  let nA := if kind = .mmasp then 16 * bl.keptBelow ha (k / 32) else k
  if !okA || !okB || !fits then some (cOperand, 5)
  else if depthBad || (ty.mx && k % 32 ≠ 0) || (!mm && recLd ha < rowBytes ha nA) || recLd hb < rowBytes hb k
      || (ty.mx && (recXld ha < k / 32 || recXld hb < k / 32)) then some (cOperand, 6)
  else none

-- Pass-running instructions (R212-R215)

/-- MPROG of the crew threads changed. -/
def State.modMprog (s : State) (b : Nat) (ts : List Nat) (f : MProg → MProg) : State :=
  ts.foldl (fun s t => s.modThr b t fun th => { th with mprog := f th.mprog }) s

/-- A pass-running instruction taken up by a crew that has assembled, or re-issued: it starts at MPROG.DEPTH under RSM,
and has nothing to run where that reaches K (R212, R213, R294). -/
def State.startRun (s : State) (b : Nat) (ts : List Nat) (r : CrewRun) : State :=
  let bl := s.blk b
  let m := (s.thr b (ts.headD 0)).mprog
  let from_ := if m.rsm then m.depth.toNat else 0
  let k0 := if r.kind = .mmasp then bl.skipFrom r.ha.record r.k 128 from_ else from_
  if r.k ≤ k0 then s.modMprog b ts fun _ => default
  else
    let s := if k0 = from_ then s else s.modMprog b ts fun m => { m with depth := BitVec.ofNat 13 k0 }
    s.modBlk b fun bl => { bl with crew := some { r with next := k0 } }

/-- The handle a field of the executing thread names. -/
def State.handleOf (s : State) (h : HandleF) : Handle := tget s.me.handles h.toNat

/-- mma, mmasp or mmad of the executing thread's crew. -/
def State.panelMe (s : State) (c : Ctl) (i : Instr) (kind : RunKind) (ty : Ty) (hs : List HandleF) (k : Option RegF)
    (base : Nat) : State :=
  let rule (o : State) : Handle × Handle × Nat :=
    let hb := o.handleOf (hs.getLastD 0)
    (if kind = .mmad then default else o.handleOf (hs.headD 0), hb, k.elim 64 fun r => (o.rd r).toNat)
  s.crewMe c i ⟨true, false, true, hs⟩ (fun s => firstWait [s.holdWait, s.windowWait false (if kind = .mmad then some base else none)])
    (fun s t => [k.elim 64 fun r => (s.rdT s.cur.1 t r).toNat, (s.thr s.cur.1 t).mprog.toWord.toNat])
    (fun o =>
      let (ha, hb, n) := rule o
      o.myBlk.panelRule kind ty ha.record hb.record n)
    fun s ts =>
      let b := s.cur.1
      let o := { s with cur := (b, ts.headD 0) }
      let (ha, hb, n) := rule o
      let f := o.me.fpcsr
      let r : CrewRun := ⟨kind, o.me.pc, ty, n, base, ha, hb, f.rm, f.daz, f.ftz, s.cycle, 0, 0, [], false⟩
      (s.startRun b ts r).advanceAll b ts c

/-- mma (R212). -/
def execMma (c : Ctl) (ha hb : HandleF) (k : RegF) (ty : Ty) (s : State) : Out :=
  .next (s.panelMe c (.mma c ha hb k ty) .mma ty [ha, hb] (some k) 0)
/-- mmasp (R214). -/
def execMmasp (c : Ctl) (ha hb : HandleF) (k : RegF) (ty : Ty) (s : State) : Out :=
  .next (s.panelMe c (.mmasp c ha hb k ty) .mmasp ty [ha, hb] (some k) 0)
/-- mmad (R215). -/
def execMmad (c : Ctl) (a : RegF) (hb : HandleF) (ty : Ty) (s : State) : Out :=
  .next (s.panelMe c (.mmad c a hb ty) .mmad ty [hb] none a.toNat)

/-- mstat (R217): it does not wait, and counts in LCNT. -/
def execMstat (c : Ctl) (d : RegF) (s : State) : Out :=
  s.runW c (.mstat c d) (fun s => s.limitWait 0) fun s =>
    let th := s.me
    let busy : Bool := th.ms.mode && s.myBlk.busy
    let w := BitVec.ofNat 32 (busy.toNat * 2 ^ 31 + th.mprog.rsm.toNat * 2 ^ 30 + th.mprog.depth.toNat * 2 ^ 16
      + th.mprog.pass.toNat)
    s.loaded_ c d [w] false false false

-- mcvt (R216)

/-- The 64 accumulators converted and packed, with the flags. They are read as they stand, also under DAZ: R216 names roundTo
only (DESIGN CHOICE, log entry 85). -/
def mcvtWords (ty : Ty) (env : Env) (acc : List Nat) : List Word × Flags :=
  let f := fmtOf ty
  let rs := acc.map fun x => roundTo f env (fdecode .f32 x)
  let per := 32 / f.width
  ((List.range (64 / per)).map fun i => BitVec.ofNat 32 (packWord f.width (((rs.drop (per * i)).take per).map (·.1))),
    rs.foldl (fun g r => g ||| r.2) 0)

/-- mcvt (R216). -/
def execMcvt (c : Ctl) (d : RegF) (ty : Ty) (rm : Rmo) (s : State) : Out :=
  s.runW c (.mcvt c d ty rm)
    (fun s => firstWait [s.limitWait 0, if s.myBlk.passesOut s.me then some .passes else none]) fun s =>
    let th := s.me
    if !th.ms.mode then s.faultMe cMode 1 none
    else if s.marked s.cur.1 s.cur.2 th.ms.window then s.faultMe cPoison 0 none
    else
      let acc := th.ms.window.map fun r => (s.rd (BitVec.ofNat 8 r)).toNat
      let (ws, fl) := mcvtWords ty (s.env rm) acc
      let l := { s.myLand (dstWords d ws) false with flags := fl, flagOp := true }
      ((s.sendLand l).modMe Thread.countL).advance c

-- mdrain (R218)

/-- Whether an accumulator, a mode and a shape's format go together (R218). -/
def drainFits (acc : Acc) (mode : DrainMode) (fc : Nat) : Bool :=
  match acc, mode with
  | .f32, .st => [0x0A, 0x0C, 0x0D, 0x0E, 0x0F].contains fc
  | .f32, .addf => fc = 0x0A
  | .f32, .addx => fc = 0x42
  | .f64, .st | .f64, .addf => fc = 0x0B
  | .i32, .st => fc = 0x00
  | _, _ => false

/-- The bytes of an element of a shape (R221). -/
def shapeBytes (r : List Dword) : Nat :=
  match recFcode r with
  | 0x00 => 4
  | 0x42 => 64
  | _ => (recElem r).bits / 8

/-- The last byte of a shape (R225). -/
def shapeLast (r : List Dword) : Nat :=
  recBase r + (recNrow r - 1) * recRstr r + recNcol r * shapeBytes r - 1

/-- Whether a range of addresses has a byte in a peer window (R228, R372). -/
def meetsPeer (lo hi : Nat) : Bool := isPeer lo || isPeer hi || lo / 2 ^ 56 ≠ hi / 2 ^ 56

/-- Whether a barb offset is refused (R228). -/
def Block.barbBad (bl : Block) (o : Option Nat) : Bool := o.any fun a => a % 8 ≠ 0 || bl.shb < a + 8

/-- An mdrain of the executing thread's crew (R218, R228): at assembly it waits for its capture. -/
def State.drainMe (s : State) (c : Ctl) (i : Instr) (mode : DrainMode) (d a b : RegF) (hc : HandleF) (acc : Acc) :
    State :=
  s.crewMe c i ⟨true, false, false, [hc]⟩
    (fun s => firstWait [s.holdWait, s.limitWait 2, s.countWait 0 0 31 .pkg])
    (fun s t => [(s.rd64T s.cur.1 t a).toNat, (s.rdT s.cur.1 t b).toNat, (s.thr s.cur.1 t).mprog.toWord.toNat])
    (fun o =>
      let r := (o.handleOf hc).record
      if recKind r ≠ 2 || !drainFits acc mode (recFcode r) then some (cOperand, 5)
      else if o.myBlk.barbBad (o.barbOf b) || meetsPeer (recBase r) (shapeLast r) then some (cOperand, 6)
      else if mode = .addf && o.myBlk.detcfg.getLsbD 1 then some (cDet, 0)
      else none)
    fun s ts =>
      let o := { s with cur := (s.cur.1, ts.headD 0) }
      let f := o.me.fpcsr
      let q : DrainReq := ⟨o.me.pc, mode, acc, o.rd a, o.rd (RegF.up a 1), o.barbOf b, o.handleOf hc, d.toNat, f.rm,
        f.daz, f.ftz, s.cycle, 0, none⟩
      ((s.cntClear .pkg).modMyBlk fun bl => { bl with drain := some q })

/-- mdrain.st (R218). -/
def execMdrainSt (c : Ctl) (d a b : RegF) (hc : HandleF) (acc : Acc) (s : State) : Out :=
  .next (s.drainMe c (.mdrainSt c d a b hc acc) .st d a b hc acc)
/-- mdrain.addf (R218). -/
def execMdrainAddf (c : Ctl) (d a b : RegF) (hc : HandleF) (acc : Acc) (s : State) : Out :=
  .next (s.drainMe c (.mdrainAddf c d a b hc acc) .addf d a b hc acc)
/-- mdrain.addx (R218). -/
def execMdrainAddx (c : Ctl) (d a b : RegF) (hc : HandleF) (acc : Acc) (s : State) : Out :=
  .next (s.drainMe c (.mdrainAddx c d a b hc acc) .addx d a b hc acc)

end Sys2Proof.Machine
end

