-- ==== Sys2Proof/Machine/Handles.lean ====
section
/-! DEFINITION. Class 7, handles: the checks of a sealed record, seal, hquery and hdrop
(spec/08_isa_matrix_engines.md R220-R227; spec/05_number_formats.md R131, R132). -/

namespace Sys2Proof.Machine

-- The checks of a record (R132, R225)

/-- Whether m * 2^e is at most n * 2^f. -/
def lePow (m : Nat) (e : Int) (n : Nat) (f : Int) : Bool := !gtPow m e n f

/-- The first check of R132 that a custom word fails. -/
def customBad (w : Nat) : Option Nat :=
  let f := customFmt w
  let pol := w / 256 % 4
  let big := maxFiniteParts f
  let e : Int := (big.1 : Int) - f.bias - f.mw
  if w / 2 ^ 24 ≠ 0 || w / 2 ^ 10 % 64 ≠ 0 || w / 8 % 2 ≠ 0 then some 1
  else if pol = 3 then some 2
  else if f.ew = 0 || f.width < 2 || 8 < f.width then some 3
  else if pol = 1 && f.ew < 2 then some 4
  else if pol = 2 && f.ew + f.mw < 2 then some 5
  else if !(lePow 1 0 big.2 e && lePow big.2 e 1 127 && lePow 1 (-149) 1 (f.emin - f.mw)) then some 6
  else none

/-- Whether a format code is accepted in panels, and in shapes (R221). -/
def fcodeOk (kind fc : Nat) : Bool :=
  if kind = 1 then [0x06, 0x07, 0x0B, 0x0C, 0x0D, 0x0E, 0x0F, 0x10, 0x11, 0x12, 0x13, 0x14, 0x15, 0x40, 0x41].contains fc
  else [0x00, 0x06, 0x07, 0x0A, 0x0B, 0x0C, 0x0D, 0x0E, 0x0F, 0x42].contains fc

/-- Whether a panel's format is an MX type (R221). -/
def recMx (r : List Dword) : Bool := [0x13, 0x14, 0x15].contains (recFcode r)

/-- Whether a field that the record marks 0 is nonzero (R225 status 9). -/
def recNonzero (r : List Dword) : Bool :=
  if recKind r = 2 then bitsOf (dw r 0) 63 16 ≠ 0 || bitsOf (dw r 1) 63 57 ≠ 0 || bitsOf (dw r 3) 63 40 ≠ 0
  else
    bitsOf (dw r 0) 31 20 ≠ 0 || bitAt (dw r 0) 17 || (recFcode r ≠ 0x40 && recCustom r ≠ 0)
      || (!recMx r && (recAlt r || recXoff r ≠ 0 || recXld r ≠ 0))
      || (!recSp r && (recMld r ≠ 0 || recMoff r ≠ 0 || recBoff r ≠ 0))

/-- The rows of a panel (R222). -/
def recRows (r : List Dword) : Nat := if recSide r then 64 else 128

/-- Whether a panel's alignment rules and its SP combination hold (R222, R223). -/
def panelOk (r : List Dword) : Bool :=
  recLd r % 16 = 0 && recSoff r % 16 = 0 && recMld r % 4 = 0 && recMoff r % 4 = 0
    && (!recSp r || (!recSide r && [0x06, 0x07, 0x0C, 0x0D, 0x0E, 0x0F].contains (recFcode r)))

/-- Whether a panel lies within the shared bytes of a block (R225 status 11). -/
def panelFits (r : List Dword) (shb : Nat) : Bool :=
  let n := recRows r
  recSoff r + n * recLd r ≤ shb && (!recMx r || recXoff r + n * recXld r ≤ shb)
    && (!recSp r || (recMoff r + n * recMld r ≤ shb && (recBoff r = 0xFFFFFFFF || recBoff r + 16 ≤ shb)))

/-- Whether a shape keeps its rules (R224, R225 status 12). -/
def shapeOk (r : List Dword) : Bool :=
  let w := shapeBytes r
  recNrow r ≠ 0 && recNcol r ≠ 0 && recBase r % w = 0 && recRstr r % w = 0
    && (recNrow r = 1 || recNcol r * w ≤ recRstr r) && shapeLast r < 2 ^ 57

/-- The status of a record (R225). -/
def sealStatus (r : List Dword) (shb : Nat) : Nat :=
  if recKind r ≠ 1 && recKind r ≠ 2 then 7
  else if !fcodeOk (recKind r) (recFcode r) then 8
  else match (if recFcode r = 0x40 then customBad (recCustom r) else none) with
    | some k => k
    | none =>
      if recNonzero r then 9
      else if recKind r = 1 then (if !panelOk r then 10 else if !panelFits r shb then 11 else 0)
      else if !shapeOk r then 12 else 0

/-- The handle of a sealed record: a panel's value depends on the block it was sealed in (R225, log entry 7). -/
def sealed (r : List Dword) (b : Nat) : Handle :=
  let own := if recKind r = 1 then b + 1 else 0
  ⟨true, Config.handleValue own r, r, own⟩

-- The instructions

/-- Bytes as dwords. -/
def bytesDws (bs : List (Byte × Bool)) : List Dword :=
  (List.range (bs.length / 8)).map fun i => BitVec.ofNat 64 (leNat (((bs.drop (8 * i)).take 8).map (·.1)))

/-- A record of the executing thread read as one load of n bytes at scope .blk (R220, R237): its address checks, its
translation, the thread's own outstanding stores over the bytes at the home; the bytes and their poison go on. -/
def State.recordAt (s : State) (a n : Nat) (body : State → List (Byte × Bool) → State) : State :=
  let bl := s.myBlk
  let who := Who.thread s.cur.1 s.cur.2
  s.checked .gBlk a n true false fun s =>
    s.translated a true false fun s x =>
      let key := s.physKey x.pkg x.pa
      if s.ownPending who key n then s.waitMe .held
      else
        let s := (s.countCut s.cur.1 s.cur.2 a x.pkg x.pa false).sawRange bl.pkg bl.core key n
        body s (s.overlay who key (s.readHome x.pkg bl.ctx x.pa n))

/-- A handle register of the executing thread changed. -/
def State.modHandle (s : State) (h : HandleF) (f : Handle → Handle) : State :=
  s.modMe fun th => { th with handles := tmod th.handles h.toNat f }

/-- seal (R220): the tag falls at issue; the status, and with status 0 the handle, land together. -/
def execSeal (c : Ctl) (hd : HandleF) (a b : RegF) (s : State) : Out :=
  s.runW c (.seal c hd a b) (fun s => s.memWait .gBlk (some 0)) fun s =>
    s.recordAt (s.rd64 a).toNat 32 fun s bs =>
      let r := bytesDws bs
      let k := if bs.any (·.2) then 13 else sealStatus r s.myBlk.shb
      let h := if k = 0 then some (hd.toNat, sealed r s.cur.1) else none
      let l := { s.myLand (dstWords b [BitVec.ofNat 32 k]) false with handle := h, sealH := some hd.toNat }
      (((s.modHandle hd fun h => { h with valid := false }).sendLand l).modMe Thread.countL).advance c

/-- The word hquery reads of a handle (R226). -/
def queryWord (h : Handle) : Word :=
  if !h.valid then 0
  else BitVec.ofNat 32 (2 ^ 31 + (if recKind h.record = 1 then bitsOf (dw h.record 0) 19 16 % 2 * 2 ^ 16
    + bitsOf (dw h.record 0) 19 18 * 2 ^ 18 else 0) + bitsOf (dw h.record 0) 15 0)

/-- hquery (R226). -/
def execHquery (c : Ctl) (d : RegF) (ha : HandleF) (s : State) : Out :=
  s.runW c (.hquery c d ha) (fun s => s.limitWait 0) fun s =>
    s.loaded_ c d [queryWord (s.handleOf ha)] false false false

/-- Whether a seal of the executing thread to a handle is outstanding (R227). -/
def State.sealing (s : State) (h : HandleF) : Bool :=
  s.coh.lands.any fun l => l.blk = s.cur.1 && l.tid = s.cur.2 && l.sealH = some h.toNat

/-- hdrop (R227). -/
def execHdrop (c : Ctl) (hd : HandleF) (s : State) : Out :=
  s.runW c (.hdrop c hd) (fun s => if s.sealing hd then some (.sealEnd hd.toNat) else none) fun s =>
    (s.modHandle hd fun h => { h with valid := false }).advance c

end Sys2Proof.Machine
end

