-- ==== Sys2Proof/Machine/Engines.lean ====
section
/-! DEFINITION. Class 7, engine commands at issue: copy, gath, scat, sample and gauge
(spec/08_isa_matrix_engines.md R228-R234; spec/16_sampling_unit.md R306). -/

namespace Sys2Proof.Machine

/-- Words of a command's group as numbers. -/
def grp (g : List Word) (n : Nat) : Nat := (g.getD n 0).toNat
/-- A pair of words of a group as one number. -/
def grp64 (g : List Word) (n : Nat) : Nat := grp g (n + 1) * 2 ^ 32 + grp g n

/-- How an engine command begins to execute (R228 step 1): behind a held memory instruction (R172), behind ECNT at its
limit (R33), and as a waitcnt at a scope. -/
def State.engWait (s : State) (sc : Scope) : Option Wait :=
  firstWait [s.holdWait, s.limitWait 2, s.countWait 0 0 31 sc]

/-- A command of the executing thread, with nothing delivered (R228, R205). -/
def State.newCmd (s : State) (kind : EngKind) (d : RegF) (group : List Word) : EngCmd :=
  let bl := s.myBlk
  let f := s.me.fpcsr
  { (default : EngCmd) with
    id := s.nextCmd, kind := kind, pkg := bl.pkg, ctx := bl.ctx, blk := s.cur.1, tid := s.cur.2, tids := [s.cur.2]
    pc := s.me.pc, sreg := d.toNat, group := group, rm := f.rm, daz := f.daz, ftz := f.ftz
    oc := (s.core bl.pkg bl.core).oc }

/-- An engine thread forked (R228 step 3): ECNT rises, and the thread goes on. -/
def State.fork (s : State) (c : Ctl) (sc : Scope) (k : EngCmd) : State :=
  let s := s.cntClear sc
  let s := { s with cmds := s.cmds ++ [k], nextCmd := s.nextCmd + 1 }
  (s.modMe Thread.countE).advance c

-- copy (R230)

/-- The strides of a copy, which one row ignores. -/
def copyStride (g : List Word) (n : Nat) : Nat := if grp g 5 = 1 then 0 else grp g n
/-- One past the last byte of a copy's range at an address. -/
def copyEnd (g : List Word) (a n : Nat) : Nat := a + (grp g 5 - 1) * copyStride g n + grp g 4
/-- Whether a copy's range in a space is refused (R230). -/
def Block.rangeBad (bl : Block) (inS : Bool) (a last : Nat) : Bool :=
  a % 16 ≠ 0 || if inS then 2 ^ 32 ≤ a || bl.shb < last else 2 ^ 57 < last
/-- Whether a copy is refused (R228, R230). -/
def Block.copyBad (bl : Block) (g : List Word) (srcS dstS : Bool) (barb : Option Nat) : Bool :=
  grp g 4 * grp g 5 = 0 || 4194304 < grp g 4 * grp g 5 || grp g 4 % 16 ≠ 0
    || copyStride g 6 % 16 ≠ 0 || copyStride g 7 % 16 ≠ 0
    || bl.rangeBad srcS (grp64 g 2) (copyEnd g (grp64 g 2) 6) || bl.rangeBad dstS (grp64 g 0) (copyEnd g (grp64 g 0) 7)
    || bl.barbBad barb
/-- The scope of a copy's wait (R228 step 1). -/
def copyScope (g : List Word) (srcS dstS : Bool) : Scope :=
  if (!srcS && meetsPeer (grp64 g 2) (copyEnd g (grp64 g 2) 6 - 1))
      || (!dstS && meetsPeer (grp64 g 0) (copyEnd g (grp64 g 0) 7 - 1)) then .pod else .pkg

/-- copy (R230). -/
def execCopy (c : Ctl) (d a b : RegF) (srcS dstS : Bool) (s : State) : Out :=
  s.runW c (.copy c d a b srcS dstS) (fun s => s.engWait (copyScope (s.group a) srcS dstS)) fun s =>
    let g := s.group a
    if s.myBlk.copyBad g srcS dstS (s.barbOf b) then s.faultMe cOperand 6 none
    else s.fork c (copyScope g srcS dstS)
      { s.newCmd .copy d g with barb := s.barbOf b, srcS := srcS, dstS := dstS }

-- Commands over a shape (R231-R233)

/-- The checks of a command over a shape handle (R228 step 2, R385): the tag, the KIND and FCODE, then the values. -/
def State.shapeMe (s : State) (hc : HandleF) (fcs : Option (List Nat)) (bad : List Dword → Bool)
    (body : Handle → State) : State :=
  let h := s.handleOf hc
  let r := h.record
  if !h.valid then s.faultMe cHandle 0 none
  else if recKind r ≠ 2 || fcs.any (fun l => !l.contains (recFcode r)) then s.faultMe cOperand 5 none
  else if bad r || meetsPeer (recBase r) (shapeLast r) then s.faultMe cOperand 6 none
  else body h

/-- The bytes of a row that gath delivers, and of one that scat reads (R231, R232). -/
def gathRow (r : List Dword) : Nat := recNcol r * shapeBytes r
def scatRow (r : List Dword) : Nat := recNcol r * 4

/-- Whether the group of a gath or scat is refused: rows of rb bytes in shared memory (R231, R232; log entry 15). -/
def Block.rowsBad (bl : Block) (g : List Word) (rb : Nat) (barb : Option Nat) : Bool :=
  rb = 0 || rb % 16 ≠ 0 || 4096 < rb || grp g 0 % 16 ≠ 0 || grp g 1 % 4 ≠ 0 || grp g 2 = 0 || 4096 < grp g 2
    || (List.range 5).any (fun k => grp g (3 + k) ≠ 0)
    || bl.shb < grp g 0 + grp g 2 * rb || bl.shb < grp g 1 + 4 * grp g 2 || bl.barbBad barb

/-- gath (R231). -/
def execGath (c : Ctl) (d a b : RegF) (hc : HandleF) (s : State) : Out :=
  s.runW c (.gath c d a b hc) (fun s => s.engWait .pkg) fun s =>
    let g := s.group a
    s.shapeMe hc none (fun r => s.myBlk.rowsBad g (gathRow r) (s.barbOf b)) fun h =>
      s.fork c .pkg { s.newCmd .gath d g with barb := s.barbOf b, handle := h }

/-- scat (R232): into FP32 the guard FPAG refuses it. -/
def execScat (c : Ctl) (d a b : RegF) (hc : HandleF) (s : State) : Out :=
  s.runW c (.scat c d a b hc) (fun s => s.engWait .pkg) fun s =>
    let g := s.group a
    s.shapeMe hc (some [0x0A, 0x42]) (fun r => s.myBlk.rowsBad g (scatRow r) (s.barbOf b)) fun h =>
      if recFcode h.record = 0x0A && s.myBlk.detcfg.getLsbD 0 then s.faultMe cDet 0 none
      else s.fork c .pkg { s.newCmd .scat d g with barb := s.barbOf b, handle := h }

/-- Whether an inverse temperature is refused (R233): a NaN, an infinity or a negative number; -0 is not negative. -/
def invTBad (w : Word) : Bool :=
  match fdecode .f32 w.toNat with
  | .fin neg m _ => neg && m ≠ 0
  | _ => true

/-- Whether a sample's operands are refused (R233). -/
def sampleBad (g : List Word) (r : List Dword) : Bool :=
  recNrow r ≤ grp g 0 || grp g 1 = 0 || recNcol r < grp g 1 || 2 ^ 22 < grp g 1 || invTBad (g.getD 2 0)
    || grp g 1 < grp g 3 || grp g 7 ≠ 0

/-- The commands of a die's sampling units, oldest first: the first two run and the others are in its queue (R306). -/
def State.samplesOn (s : State) (p die : Nat) : List EngCmd :=
  s.cmds.filter fun k => k.kind = .sample && !k.shut && k.pkg = p && dieOf (s.blk k.blk).core = die

/-- Whether the queue of the executing thread's die is full (R306). -/
def State.sampleFull (s : State) : Bool :=
  Config.sampleQueue + 2 ≤ (s.samplesOn s.myBlk.pkg (dieOf s.myBlk.core)).length

/-- sample (R233, R306). -/
def execSample (c : Ctl) (d a b : RegF) (hc : HandleF) (s : State) : Out :=
  s.runW c (.sample c d a b hc) (fun s => s.engWait .pkg) fun s =>
    let g := s.group a
    s.shapeMe hc (some [0x0A, 0x0D]) (sampleBad g) fun h =>
      if s.sampleFull then s.waitMe .queueFull
      else s.fork c .pkg { s.newCmd .sample d g with handle := h, seed := s.rd64 b }

/-- Whether a gauge's operands are refused (R228, R234). -/
def gaugeBad (g : List Word) : Bool :=
  let n := grp g 2
  let hi := grp64 g 0 + 65536 * n
  let top := grp64 g 4 + 64 * n
  grp64 g 0 % 65536 ≠ 0 || n = 0 || 2 ^ 20 < n || 1 < grp g 3 || grp64 g 4 % 32 ≠ 0 || grp g 6 ≠ 0 || grp g 7 ≠ 0
    || 2 ^ 57 < hi || 2 ^ 57 < top || meetsPeer (grp64 g 0) (hi - 1) || meetsPeer (grp64 g 4) (top - 1)

/-- gauge (R234). -/
def execGauge (c : Ctl) (d a : RegF) (s : State) : Out :=
  s.runW c (.gauge c d a) (fun s => s.engWait .pkg) fun s =>
    let g := s.group a
    if gaugeBad g then s.faultMe cOperand 6 none else s.fork c .pkg (s.newCmd .gauge d g)

end Sys2Proof.Machine
end

