-- ==== Sys2Proof/Machine/Placement.lean ====
section
/-! DEFINITION. The cores of a partition, whether blocks and clusters fit them, and the checks of a launch record
(spec/18_scheduling.md R319-R325; spec/01_machine_state.md R18; spec/08_isa_matrix_engines.md R235, R236;
spec/22_translation_security.md R382). -/

namespace Sys2Proof.Machine

-- Cores and terraces (R325, R382)

/-- Whether a partition names a basin, and whether it is enabled (R382). -/
def Partition.basin (q : Partition) (b : Nat) : Bool :=
  if b < 64 then bitAt (dw q.record 0) b else bitAt (dw q.record 1) (b - 64)
def Partition.enabled (q : Partition) : Bool := bitAt (dw q.record 4) 1

-- A remap entry (R325)
def remapEn (w : Word) : Bool := w.getLsbD 31
def remapGrp (w : Word) : Nat := w.toNat / 2 ^ 20 % 16
def remapSeq (w : Word) : Nat := w.toNat / 2 ^ 16 % 16
def remapPcore (w : Word) : Nat := w.toNat % 512
/-- The remap entry of a logical core. -/
def State.remapOf (s : State) (p c : Nat) : Word := tget (s.pkg p).remap c

/-- Whether a logical core serves a partition: its basin is named, its entry has EN = 1 (R382). -/
def State.coreOn (s : State) (p : Nat) (q : Partition) (c : Nat) : Bool :=
  q.enabled && q.basin (c / 4) && remapEn (s.remapOf p c)

/-- The cores of a terrace. -/
def terraceCores (t : Nat) : List Nat := (List.range 8).map fun i => 8 * t + i
/-- Whether a partition holds a terrace. -/
def Partition.terrace (q : Partition) (t : Nat) : Bool := q.enabled && (q.basin (2 * t) || q.basin (2 * t + 1))
/-- The terraces of a partition on a die, and on the package. -/
def Partition.terraces (q : Partition) (die : Nat) : List Nat :=
  ((List.range Config.terracesPerDie).map fun i => Config.terracesPerDie * die + i).filter q.terrace
def Partition.allTerraces (q : Partition) : List Nat := (List.range Config.dies).flatMap q.terraces

-- What a core holds (R18, R320)

/-- The role of each furrow of a block (R235). -/
def furrowRoles (r : List Dword) : List Nat :=
  (List.range (recNrole r)).flatMap fun k => List.replicate (roleFurr r k) k

/-- What the blocks of a core hold: blocks, threads, shared bytes, and for each partition the words of a lane bank and
the threads homed there. -/
structure Load where
  blocks : Nat
  threads : Nat
  shared : Nat
  words : List Nat
  homed : List Nat
deriving DecidableEq, Repr, Inhabited

/-- The furrows of a block homed on a partition, as their roles. -/
def rolesOn (r : List Dword) (p0 q : Nat) : List Nat :=
  let fs := furrowRoles r
  (((List.range fs.length).zip fs).filter fun f => (p0 + f.1) % 4 = q).map (·.2)

/-- A block added to what a core holds. -/
def Load.add (l : Load) (r : List Dword) (p0 : Nat) : Load :=
  ⟨l.blocks + 1, l.threads + vol (recBlock r), l.shared + recShb r,
    (List.range 4).map fun q => l.words.getD q 0 + ((rolesOn r p0 q).map (roleRegs r)).sum,
    (List.range 4).map fun q => l.homed.getD q 0 + 32 * (rolesOn r p0 q).length⟩

/-- Whether a core can hold it (R18, R320). -/
def Load.ok (l : Load) : Bool :=
  l.blocks ≤ Config.maxBlocks && l.threads ≤ Config.maxThreads && l.shared ≤ Config.sharedBytes
    && l.words.all (· ≤ Config.bankWords)

/-- The partition among some with the fewest threads homed on it, the lower first. -/
def fewest (homed : List Nat) : List Nat → Option Nat
  | [] => none
  | q :: qs =>
    match fewest homed qs with
    | none => some q
    | some b => if homed.getD q 0 ≤ homed.getD b 0 then some q else some b

/-- The first partition that a block takes on a core that fits it (R320). -/
def Load.fit (l : Load) (r : List Dword) : Option Nat :=
  let ps := if (furrowRoles r).length % 4 = 0 then [0] else [0, 1, 2, 3]
  fewest l.homed (ps.filter fun p0 => (l.add r p0).ok)

/-- The blocks that stand on a core. -/
def State.blocksOn (s : State) (p c : Nat) : List Block :=
  (s.blocks.filter fun b => b.2.stands && b.2.pkg = p && b.2.core = c).map (·.2)

/-- What a core holds. -/
def State.loadOf (s : State) (p c : Nat) : Load :=
  (s.blocksOn p c).foldl (fun l bl => l.add bl.record bl.part0) default

/-- The cores and first partitions that the ranks of a cluster take on a terrace (R321): `have_` gives what each core
holds, none where it serves no block. -/
def clusterFit (have_ : Nat → Option Load) (r : List Dword) (n t : Nat) : Option (List (Nat × Nat)) :=
  let one (c : Nat) : Option (Nat × Nat) := (have_ c).bind fun l => (l.fit r).map fun q => (c, q)
  if n ≤ 8 then
    let fits := (terraceCores t).filterMap one
    if n ≤ fits.length then some (fits.take n) else none
  else
    let firsts := (terraceCores t).filterMap one
    let seconds := (firsts.take (n - 8)).filterMap fun f =>
      (have_ f.1).bind fun l => ((l.add r f.2).fit r).map fun q => (f.1, q)
    if firsts.length = 8 && seconds.length = n - 8 then some (firsts ++ seconds) else none

/-- What a core of a partition holds now, if it serves blocks. -/
def State.coreLoad (s : State) (p : Nat) (q : Partition) (c : Nat) : Option Load :=
  if s.coreOn p q c then some (s.loadOf p c) else none
/-- The same with nothing resident. -/
def State.coreEmpty (s : State) (p : Nat) (q : Partition) (c : Nat) : Option Load :=
  if s.coreOn p q c then some default else none

-- The checks of a launch record (R236)

/-- Whether an RZ field of a record, or a role dword it does not use, is nonzero (R235). -/
def recRz (r : List Dword) : Bool :=
  bitsOf (dw r 1) 63 51 ≠ 0 || bitsOf (dw r 2) 63 60 ≠ 0 || bitsOf (dw r 2) 47 33 ≠ 0 || bitsOf (dw r 3) 63 57 ≠ 0
    || bitsOf (dw r 4) 63 57 ≠ 0 || bitsOf (dw r 6) 63 16 ≠ 0 || bitsOf (dw r 6) 7 0 ≠ 0 || dw r 7 ≠ 0
    || ((List.range 4).any fun k =>
      bitsOf (dw r (8 + k)) 31 27 ≠ 0 || bitsOf (dw r (8 + k)) 23 22 ≠ 0 || bitsOf (dw r (8 + k)) 7 0 ≠ 0)
    || ((List.range 4).any fun k => recNrole r ≤ k && dw r (8 + k) ≠ 0)
    || ((List.range 4).any fun k => dw r (12 + k) ≠ 0)

/-- The blocks of a cluster, and the clusters of a grid (R319). -/
def recClusterSize (r : List Dword) : Nat := vol (recCluster r)
def recClusters (r : List Dword) : Nat := vol (recGrid r) / recClusterSize r

/-- Whether a dimension is out of range. -/
def dimBad (n : Nat) : Bool := n = 0 || 2 ^ 31 < n

/-- Whether a role breaks check 5 of R236. -/
def roleBad (o : CodeObj) (r : List Dword) (k : Nat) : Bool :=
  let a := o.base.toNat + 8 * roleEntry r k
  roleRegs r k < 8 || 248 < roleRegs r k || roleRegs r k % 8 ≠ 0 || roleFurr r k = 0
    || o.nwords ≤ roleEntry r k || o.isData a

/-- The status of a record on a package of a context, by checks 1 to 8 of R236. -/
def State.recordStatus (s : State) (p x : Nat) (r : List Dword) : Nat :=
  let g := recGrid r
  let b := recBlock r
  let c := recCluster r
  let q := s.partOf p x
  let roles := List.range (recNrole r)
  if recRz r then 1
  else if dimBad g.x || dimBad g.y || dimBad g.z || 2 ^ 62 < vol g then 2
  else if vol b = 0 || vol b ≠ 32 * (roles.map (roleFurr r)).sum || 1024 < vol b then 3
  else match (s.pctx p x).objs.find? fun o => o.base = recCode r with
    | none => 4
    | some o =>
      if roles.any (roleBad o r) then 5
      else if Config.sharedBytes < recShb r || 65536 < recPbytes r || recLocal r % 8 ≠ 0 || 262144 < recLocal r then 6
      else if vol c = 0 || 12 < vol c || g.x % c.x ≠ 0 || g.y % c.y ≠ 0 || g.z % c.z ≠ 0 then 7
      else if q.allTerraces.any fun t => (clusterFit (s.coreEmpty p q) r (vol c) t).isSome then 0 else 8

end Sys2Proof.Machine
end

