-- ==== Sys2Proof/Machine/Launch.lean ====
section
/-! DEFINITION. Class 7, launch and queues: launch, launch.pod, lwait, lcancel, lstat and qpost, with the acceptance
and the cancelling of grids (spec/08_isa_matrix_engines.md R235-R241; spec/18_scheduling.md R313-R318;
spec/19_pod.md R335, R342). -/

namespace Sys2Proof.Machine

-- Grid ids (R237)

/-- The next id from a counter modulo 2^31, past 0 and the ids still held. -/
def nextGridId (held : List Nat) : Nat → Nat → Nat
  | 0, n => (n + 1) % 2 ^ 31
  | fuel + 1, n =>
    let k := (n + 1) % 2 ^ 31
    if k = 0 || held.contains k then nextGridId held fuel k else k

/-- The ids of a context's grids of one package, whichever it is, that have not ended. -/
def State.heldIds (s : State) (x : Nat) : List Nat :=
  s.pkgs.flatMap fun (q : Nat × Pkg) => (q.2.grids.filter fun g => g.ctx = x && !g.pod && !g.state.ended).map (·.id)

/-- A grid taken up by a package's checkgate, the newest in acceptance order (R317, R318). -/
def State.addGrid (s : State) (p : Nat) (g : Grid) : State :=
  s.modPkg p fun q =>
    { q with grids := q.grids ++ [{ g with acc := q.nextAcc + 1 }], nextAcc := q.nextAcc + 1 }

/-- A grid of one package accepted: its id from the context's counter (R237). -/
def State.acceptGrid (s : State) (p x : Nat) (r : List Dword) (prio : Nat) (queue : Option (Nat × Nat))
    (poster parent : Option Nat) (checked : Bool) : State × Nat :=
  let held := s.heldIds x
  let id := nextGridId held (held.length + 1) (s.pctx p x).nextId
  let s := s.modCtx p x fun c => { c with nextId := id }
  let g : Grid :=
    { (default : Grid) with
      id := id, ctx := x, record := r, prio := prio, queue := queue, poster := poster, parent := parent
      checked := checked, todo := [(0, recClusters r)], total := vol (recGrid r), state := .dealing }
  (s.addGrid p g, id)

/-- Words on their way to consecutive registers of the executing thread, counted in ECNT (R205). -/
def State.answer (s : State) (c : Ctl) (d : RegF) (ws : List Word) : State :=
  let l := { s.myLand (dstWords d ws) false with ecnt := true }
  ((s.sendLand l).modMe Thread.countE).advance c

/-- The children of a block that have not ended (R236 status 9). A launch.pod that is on its way to the headgate is no child until
its grid is accepted there (R237; DESIGN CHOICE, log entry 81). -/
def State.kidsLive (s : State) (b : Nat) : Nat :=
  let bl := s.blk b
  ((bl.kids ++ bl.late).filter fun k => !(s.kidState bl.pkg bl.ctx k).1).length

/-- Whether a context's headgate or its standby answers, over a pod (R236 status 10, R313). -/
def State.podAnswers (s : State) (p x : Nat) : Bool :=
  !s.descBad p x && bitAt (s.descDw p x 5) 0 && !(tget s.heads x).gone

/-- Whether an older message of a package is on its way to a headgate: a younger one comes after it (R347). -/
def State.podBehind (s : State) (p x : Nat) : Bool := (tget s.heads x).main.inbox.any fun l => l.src = p

/-- A message of the executing thread on its way to its context's headgate, counted in ECNT (R335, R342). -/
def State.podAskMe (s : State) (c : Ctl) (d prio : Nat) (r : List Dword) (ask : PodAsk) : State :=
  let bl := s.myBlk
  let s := s.modHead bl.ctx fun h => { h with inbox := h.inbox ++ [⟨bl.pkg, s.cur.1, s.cur.2, d, prio, r, ask⟩] }
  (s.modMe Thread.countE).advance c

/-- launch (R237): the record is checked and the grid submitted; its id and status land later. -/
def execLaunch (c : Ctl) (d a : RegF) (prio : BitVec 3) (s : State) : Out :=
  s.runW c (.launch c d a prio) (fun s => firstWait [s.viewWait, s.engWait .pkg]) fun s =>
    s.recordAt (s.rd64 a).toNat 128 fun s bs =>
      let s := s.cntClear .pkg
      let bl := s.myBlk
      let r := bytesDws bs
      let k := if bs.any (·.2) then 11 else s.recordStatus bl.pkg bl.ctx r
      let k := if k = 0 && 32 ≤ s.kidsLive s.cur.1 then 9 else k
      if k ≠ 0 then s.answer c d [0, BitVec.ofNat 32 k]
      else
        let (s, id) := s.acceptGrid bl.pkg bl.ctx r prio.toNat none none (some s.cur.1) true
        let acc := (s.pkg bl.pkg).nextAcc
        (s.modMyBlk fun bl => { bl with kids := bl.kids ++ [acc] }).answer c d [BitVec.ofNat 32 id, 0]

/-- launch.pod (R237, R335): after this package's checks the record goes to the headgate, which answers later. -/
def execLaunchPod (c : Ctl) (d a : RegF) (prio : BitVec 3) (s : State) : Out :=
  s.runW c (.launchPod c d a prio) (fun s => firstWait [s.viewWait, s.engWait .pod]) fun s =>
    s.recordAt (s.rd64 a).toNat 128 fun s bs =>
      let s := s.cntClear .pod
      let bl := s.myBlk
      let r := bytesDws bs
      let k := if bs.any (·.2) then 11 else s.recordStatus bl.pkg bl.ctx r
      let k := if k = 0 && 32 ≤ s.kidsLive s.cur.1 then 9 else k
      let k := if k = 0 && !s.podAnswers bl.pkg bl.ctx then 10 else k
      if k ≠ 0 then s.answer c d [0, BitVec.ofNat 32 k]
      else s.podAskMe c d.toNat prio.toNat r .launch

/-- lwait (R238): the thread arrives, and the block's rendezvous is settled. -/
def execLwait (c : Ctl) (d : RegF) (s : State) : Out :=
  s.runW c (.lwait c d) (fun s => firstWait [s.holdWait, s.limitWait 2]) fun s =>
    if s.me.ms.mode then s.faultMe cMode 1 none
    else ((s.modMe Thread.countE).arriveMe c (.lwait d.toNat)).lwaitSettle s.cur.1

-- Cancelling (R239, R318, R342)

/-- The threads of a block stopped by a cancel with KILL = 1: what they have issued completes, and nothing more is
issued (R239); a rendezvous at lwait counts no more. -/
def Block.halt (bl : Block) : Block :=
  let due (th : Thread) : Nat := match th.wait with
    | some (.lwait _) => 1
    | _ => 0
  { bl with
    threads := bl.threads.map fun t =>
      (t.1, { t.2 with st := TState.exited, wait := none, via := none, ecnt := t.2.ecnt - due t.2 })
    crew := none
    drain := none }

/-- The resident blocks of a grid stopped, and its saved ones discarded and counted as killed (R239, R318). -/
def State.killBlocks (s : State) (p : Nat) (g : Grid) : State :=
  let mine (bl : Block) : Bool := bl.pkg = p && bl.ctx = g.ctx && bl.grid = g.id
  let gone := s.blocks.filter fun b => mine b.2 && b.2.place ≠ .resident && b.2.place ≠ .retired
  let s := { s with
    blocks := s.blocks.map fun (b : Nat × Block) =>
      if !mine b.2 then b
      else if b.2.place = Place.resident then (b.1, b.2.halt)
      else if b.2.place = Place.retired then b
      else (b.1, b.2.kill s.cycle)
    images := s.images.filter fun i => !(gone.any fun b => b.1 = i.2.blk) }
  s.modGrid p g.acc fun g => { g with kld := g.kld + gone.length }

/-- A cancel that reaches a package's checkgate (R318): the dealing goes on to the end of this cycle. -/
def State.cancelGrid (s : State) (p : Nat) (g : Grid) (kill : Bool) : State :=
  let s := s.modGrid p g.acc fun g => { g with state := .cancelling, kill := kill }
  if kill then s.killBlocks p g else s

/-- The end of the dealing of cancelled grids, with the cycle (R318). -/
def Pkg.dealingEnds (q : Pkg) : Pkg :=
  { q with
    grids := q.grids.map fun g => if g.state = .cancelling then { g with todo := [] } else g
    lots := q.lots.filter fun l => !(q.grids.any fun g => g.acc = l.grid && g.state = .cancelling) }
def State.dealingEnds (s : State) : State :=
  { s with pkgs := s.pkgs.map fun (q : Nat × Pkg) => (q.1, q.2.dealingEnds) }

/-- Whether clusters of a grid may still be dealt: it is dealing, or was cancelled in this cycle (R318). -/
def State.dealsNow (s : State) (p : Nat) (g : Grid) : Bool :=
  g.state = .dealing
    || (g.state = .cancelling && (!g.todo.isEmpty || (s.pkg p).lots.any fun l => l.grid = g.acc))

/-- A cancel that reaches the headgate, and its status (R342). -/
def State.cancelPod (s : State) (x id : Nat) (kill : Bool) : State × Nat :=
  match s.findPod x id with
  | none => (s, 1)
  | some g =>
    if g.complete then (s, 2)
    else if g.cancel then (s, 3)
    else (s.modPod x g.seq fun g => { g with cancel := true, kill := kill, ended := true, offer := none }, 0)

/-- lcancel in either form (R239). A grid of one package is looked for at the checkgate of the thread's own package alone
(DESIGN CHOICE, log entry 82), by lstat too. -/
def State.lcancelMe (s : State) (c : Ctl) (d a : RegF) (kill : Bool) : State :=
  let bl := s.myBlk
  let id := (s.rd a).toNat
  if 2 ^ 31 ≤ id && s.podBehind bl.pkg bl.ctx then s.podAskMe c d.toNat 0 [] (.cancel id kill)
  else
  let (s, k) :=
    if 2 ^ 31 ≤ id then s.cancelPod bl.ctx id kill
    else match s.findGrid bl.pkg bl.ctx id with
      | none => (s, 1)
      | some g =>
        if g.state.ended then (s, 2)
        else if g.state = .cancelling then (s, 3)
        else (s.cancelGrid bl.pkg g kill, 0)
  if s.me.st = .exited then
    (s.sendLand { s.myLand (dstWords d [BitVec.ofNat 32 k]) false with ecnt := true }).modMe Thread.countE
  else s.answer c d [BitVec.ofNat 32 k]

/-- lcancel (R239). -/
def execLcancel (c : Ctl) (d a : RegF) (s : State) : Out :=
  s.runW c (.lcancel c d a) (fun s => firstWait [s.holdWait, s.limitWait 2]) fun s => s.lcancelMe c d a false
/-- lcancel.kill (R239). -/
def execLcancelKill (c : Ctl) (d a : RegF) (s : State) : Out :=
  s.runW c (.lcancelKill c d a) (fun s => firstWait [s.holdWait, s.limitWait 2]) fun s => s.lcancelMe c d a true

/-- The eight words of lstat (R240). -/
def statWords (code faults fin kld nst : Nat) : List Word :=
  let two (n : Nat) : List Word := halves (BitVec.ofNat 64 n)
  [BitVec.ofNat 32 (code * 2 ^ 28 + min faults 0xFFFF), 0] ++ two fin ++ two kld ++ two nst

/-- The blocks of a grid that have not started: those never placed (R240). -/
def Grid.notStarted (g : Grid) : Nat := if g.state.ended then g.nst else g.total - g.placed

/-- The state of a pod grid at the headgate (R240, R338; log entry 16). -/
def PodGrid.code (g : PodGrid) : Nat :=
  if g.complete then (if g.cancel then 4 else 2) else if g.cancel then 3 else if g.ended then 1 else 0
/-- The blocks of a pod grid that the headgate has not dealt (R240, R338; log entry 16). -/
def PodGrid.notStarted (g : PodGrid) : Nat :=
  if g.complete then g.nst else vol (recGrid g.record) - g.next * recClusterSize g.record

/-- The words of lstat for a pod grid (R240). -/
def State.podStat (s : State) (x id : Nat) : List Word :=
  match s.findPod x id with
  | some g => statWords g.code g.faults g.fin g.kld g.notStarted
  | none => statWords 5 0 0 0 0

/-- lstat (R240). -/
def execLstat (c : Ctl) (d a : RegF) (s : State) : Out :=
  s.runW c (.lstat c d a) (fun s => firstWait [s.holdWait, s.limitWait 2]) fun s =>
    let bl := s.myBlk
    let id := (s.rd a).toNat
    if 2 ^ 31 ≤ id && s.podBehind bl.pkg bl.ctx then s.podAskMe c d.toNat 0 [] (.stat id)
    else
    let ws :=
      if 2 ^ 31 ≤ id then s.podStat bl.ctx id
      else match s.findGrid bl.pkg bl.ctx id with
        | some g => statWords g.state.code g.faults g.fin g.kld g.notStarted
        | none => statWords 5 0 0 0 0
    s.answer c d ws

-- Posting (R241, R315)

/-- The next entry of a queue that the checkgate takes up: at first the queue's HEAD. -/
def State.nextEntry (s : State) (p x n : Nat) : Nat :=
  match tget (s.pctx p x).taken n with
  | 0 => s.queueHead p x n
  | k + 1 => k

/-- Entries that the host posted taken up, each a grid not yet checked (R315). -/
def State.takeEntries (s : State) (p x n : Nat) : Nat → State
  | 0 => s
  | k + 1 =>
    let e := s.nextEntry p x n
    if !s.queueOn p x n || e = s.queueTail p x n then s
    else
      let g : Grid := { (default : Grid) with ctx := x, queue := some (n, e) }
      let s := s.addGrid p g
      (s.modCtx p x fun c => { c with taken := tset c.taken n ((e + 1) % 2 ^ 32 + 1) }).takeEntries p x n k

/-- Whether a queue can take one more entry (R314). -/
def State.queueRoom (s : State) (p x n : Nat) : Bool :=
  s.queueOn p x n && (s.queueTail p x n + 2 ^ 32 - s.queueHead p x n) % 2 ^ 32 < s.queueSize p x n

/-- qpost (R241, R315), behind the entries that the host posted. -/
def execQpost (c : Ctl) (d a b : RegF) (s : State) : Out :=
  s.runW c (.qpost c d a b) (fun s => firstWait [s.viewWait, s.holdWait, s.limitWait 2]) fun s =>
    let n := (s.rd b).toNat
    if 63 < n then s.faultMe cOperand 6 none
    else
      s.recordAt (s.rd64 a).toNat 128 fun s bs =>
        let bl := s.myBlk
        let r := bytesDws bs
        let k := if bs.any (·.2) then 11 else s.recordStatus bl.pkg bl.ctx r
        let k := if k = 0 && !s.queueRoom bl.pkg bl.ctx n then 9 else k
        if k ≠ 0 then s.answer c d [BitVec.ofNat 32 k]
        else
          let tail := s.queueTail bl.pkg bl.ctx n
          let mine := (s.findGrid bl.pkg bl.ctx bl.grid).map (·.acc)
          let s := s.agentWrite bl.pkg bl.ctx (s.ringPa bl.pkg bl.ctx n tail) r
          let s := s.takeEntries bl.pkg bl.ctx n (s.queueSize bl.pkg bl.ctx n)
          let s := s.setTail bl.pkg bl.ctx n (tail + 1)
          let s := s.modCtx bl.pkg bl.ctx fun q => { q with taken := tset q.taken n ((tail + 1) % 2 ^ 32 + 1) }
          let (s, _) := s.acceptGrid bl.pkg bl.ctx r 0 (some (n, tail)) mine none true
          s.answer c d [0]

end Sys2Proof.Machine
end

