-- ==== Sys2Proof/Machine/Homes.lean ====
section
/-! DEFINITION. Events of the homes and of the return paths: the application of a waiting write, pushes to die copies,
results and acknowledgements that land, and the L1's rebasing and loss of its time view
(spec/21_memory_model.md R355-R371; spec/07_isa_memory_sync.md R173-R185; spec/10_regrouping.md R259). -/

namespace Sys2Proof.Machine

-- Writes that reach memory

/-- Whether a byte of a context's virtual range lies among n keys (R230, R308). -/
def State.reaches (s : State) (p x va len lo n : Nat) : Bool :=
  (List.range ((va + len + 4095) / 4096 - va / 4096)).any fun i =>
    let a := max va ((va / 4096 + i) * 4096)
    let b := min (va + len) ((va / 4096 + i + 1) * 4096)
    match s.fill p 0 x a with
    | .error _ => false
    | .ok e =>
      let k := s.physKey p (e.pa + (a - e.base))
      k < lo + n && lo < k + (b - a)

/-- What a running sample or gauge notes of a write to n keys (R234, R308). -/
def State.noted (s : State) (lo n : Nat) (k : EngCmd) : EngCmd :=
  match k.kind with
  | .sample =>
    let r := k.handle.record
    let row := recBase r + grp k.group 0 * recRstr r
    if s.reaches k.pkg k.ctx row (grp k.group 1 * shapeBytes r) lo n then { k with dirty := true } else k
  | .gauge =>
    let hit := (List.range (grp k.group 2)).filter fun p =>
      s.reaches k.pkg k.ctx (grp64 k.group 0 + 65536 * p) 65536 lo n
    { k with cover := k.cover ++ hit }
  | _ => k

/-- Where the leaves of a 64 KiB page lead, if anywhere (R234). -/
def State.leaves64 (s : State) (p x va : Nat) : List (Option Nat) :=
  (List.range 16).map fun i => match s.walk p x (va + 4096 * i) with
    | .ok l => some (l.pa + (va + 4096 * i - l.base))
    | .error _ => none

/-- The clear page marks set again of the pages whose translation has changed since a state: a leaf's V has risen, or its PA
has changed (R234). -/
def State.remark (s o : State) : State :=
  { s with ctxs := s.ctxs.map fun (c : Nat × PkgCtx) =>
      let p := c.1 / 65536
      let x := c.1 % 65536
      (c.1, { c.2 with clean := c.2.clean.filter fun e =>
        ((s.leaves64 p x (e.1 * 65536)).zip (o.leaves64 p x (e.1 * 65536))).all fun l => l.1.isNone || l.1 = l.2 }) }

/-- Bytes written to physical memory in the coherence order of their home (R357), seen by the commands that watch and by the
page marks of the contexts whose tables they are. -/
def State.applied (s : State) (p pa : Nat) (bs : List (Byte × Bool)) : State :=
  let o := s
  let s := (s.physWrite p pa bs).remark o
  let see := s.noted (s.physKey p pa) bs.length
  { s with
    cmds := s.cmds.map see
    images := s.images.map fun (i : Nat × Image) => (i.1, { i.2 with cmds := i.2.cmds.map see }) }

/-- Whether a key is of a pool, whose bytes several packages may share (R403). -/
def pooled (key : Nat) : Bool := 8192 ≤ key / 2 ^ 52

/-- Whether the leases on some sectors have passed (R365), by the time of every package that may have been granted one. -/
def State.leasesPast (s : State) (p : Nat) (ss : List Nat) : Bool :=
  ss.all fun c =>
    let e := tget s.coh.lx c
    e = 0 || ((if pooled (c * 32) then s.pkgs.map (·.1) else [p]).all fun q => e + 32 ≤ s.gtime q)

/-- The sectors in whose order an access of n bytes takes its place: those it covers, and the whole of a cell (R185, R357). -/
def State.orderOf (s : State) (key n : Nat) : List Nat :=
  (sectorsOf key n).flatMap fun c => if s.coh.cells.contains (c / 2) then [c / 2 * 2, c / 2 * 2 + 1] else [c]

/-- The package whose thread sent an operation. -/
def State.sender (s : State) (o : HomeOp) : Nat := match o.who with
  | .thread b _ => (s.blk b).pkg
  | _ => o.pkg

/-- Whether an operation arrives at its home behind another that was sent before it: where both are of one agent (R169), of one
instruction (R168) or come over one link (R347); and a posted write behind its agent's to any address (R315). The order in which
operations of different agents arrive is free (R275, R365; log entry 77). -/
def State.behind (s : State) (o e : HomeOp) : Bool :=
  let posted (k : OpKind) : Bool := match k with
    | .posted _ => true
    | _ => false
  let link : Bool := s.sender o ≠ o.pkg && s.sender o = s.sender e
  let cs := s.orderOf o.key o.kind.size
  let meet : Bool := e.sectors.any fun c => cs.contains c
  (posted o.kind && posted e.kind && o.who = e.who && o.pkg = e.pkg)
    || (meet && (o.who = e.who || (o.serial = e.serial && o.who.isThread && e.who.isThread) || link))

/-- Whether an engine's access of n bytes comes behind no operation that waits before it (R185, R357). -/
def State.first (s : State) (ops : List HomeOp) (key n : Nat) : Bool :=
  let cs := s.orderOf key n
  ops.all fun e => e.sectors.all fun c => !cs.contains c

/-- Whether the k-th waiting operation can be applied (R365, R185): no earlier one that it comes behind waits, and a write
finds no lease. A host's load is answered with the current value; an engine's granule is written by its engine. -/
def State.canApply (s : State) (k : Nat) (o : HomeOp) : Bool :=
  match o.kind with
  | .hostLoad _ => true
  | .grain _ _ => false
  | _ => !(s.coh.ops.take k).any (s.behind o) && (!o.kind.writes || s.leasesPast o.pkg o.sectors)

/-- An XACC cell in 64 bytes (R134). -/
def xaccOf (bs : List Byte) : Xacc := ⟨sval 384 (leNat (bs.take 48)), BitVec.ofNat 3 (leNat ((bs.drop 48).take 4))⟩
/-- The bytes of a cell as an addition leaves it, its reserved bits 0 whatever they were (DESIGN CHOICE, log entry 63). -/
def xaccBytes (c : Xacc) : List Byte := leBytes 48 (wrap 384 c.n) ++ leBytes 16 c.status.toNat

/-- The environment that travels with an operation (R179). -/
def HomeOp.env (o : HomeOp) : Env := ⟨rmOfCode o.rm, o.daz, o.ftz⟩

/-- What an operation makes of the bytes at its home: the bytes after it and the result it returns, as register words
and flags (R178-R185). -/
structure Effect where
  bytes : List (Byte × Bool)
  words : List Word
  flags : BitVec 5
  bad : Bool
deriving DecidableEq, Repr, Inhabited

def HomeOp.effect (o : HomeOp) (old : List (Byte × Bool)) : Effect :=
  let bad := old.any (·.2)
  let raw := old.map (·.1)
  match o.kind with
  | .store bs | .hostStore bs => ⟨clean bs, [], 0, false⟩
  | .atom op w64 b cmp _ =>
    let v := leNat raw
    let r := atomNew op w64 o.env v b.toNat cmp.toNat
    ⟨atomBytes w64 r.1 bad, valueWords w64 v, r.2, bad⟩
  | .xadd n st => ⟨(xaccBytes (xaccAdd (xaccOf raw) n st)).map fun b => (b, bad), [], 0, bad⟩
  | .xclr => ⟨clean (List.replicate 64 0), [], 0, false⟩
  | .xrnd f64 =>
    let r := fromXacc (if f64 then .f64 else .f32) o.env (xaccOf raw)
    ⟨[], valueWords f64 r.1, r.2, bad⟩
  | .snoop off data => ⟨((List.range old.length).zip old).map fun b =>
      if off ≤ b.1 && b.1 < off + data.length then (data.getD (b.1 - off) 0, false) else b.2, [], 0, bad⟩
  | .posted bs => ⟨clean bs, [], 0, false⟩
  | .hostLoad _ | .grain _ _ => ⟨[], [], 0, bad⟩

/-- Whether an operation returns a result that raises flags at its writeback (R30). -/
def OpKind.flagged : OpKind → Bool
  | .atom op _ _ _ ret => ret && op = .addF
  | .xrnd _ => true
  | _ => false

/-- The result of an operation on its way back to its member, its acknowledgement (R173, R178), or the host's answer. -/
def State.opAnswer (s : State) (o : HomeOp) (old : List (Byte × Bool)) (e : Effect) (vc : List Nat) : State :=
  match o.who with
  | .engine _ | .agent => s
  | .host =>
    match o.kind with
    | .snoop _ _ => s.modPkg o.pkg fun q => { q with host := q.host ++ [.snoop old] }
    | .hostLoad _ => s.tellHost o.pkg (.read old)
    | _ => s
  | .thread b t =>
    let own : Bool := (s.blk b).pkg = o.pkg
    let vc := if own then vc else []
    let resp := if own then none else some (o.pkg, s.coh.nextResp)
    let s := if own then s else s.modCoh fun h => { h with nextResp := h.nextResp + 1 }
    let counts : Bool := match o.kind with
      | .atom _ _ _ _ ret => ret
      | .xrnd _ => true
      | _ => false
    if counts then
      let l : Land :=
        { (default : Land) with
          blk := b, tid := t, regs := o.dst.zip e.words, marked := e.bad, flags := e.flags, flagOp := o.kind.flagged
          unhold := o.sc, clear := o.clear, vc := vc, resp := resp }
      s.sendLand l
    else s.modCoh fun h => { h with acks := h.acks ++ [⟨b, t, vc, resp⟩] }

/-- The clock of a write applied at its home die (R363). -/
def writeClock (oc : List Nat) (h seq : Nat) : List Nat := (List.range 4).map fun d => if d = h then seq else oc.getD d 0

/-- The pushes of a write's sector to every die that holds a copy (R363); `o` is the state before the write. -/
def State.pushesFor (s o : State) (p : Nat) (who : Who) (h seq : Nat) (vc : List Nat) (sec : Nat) : List Push :=
  let k := sec * 32
  let bytes (s : State) : List (Byte × Bool) := (tgets s.mem k 32).zip (tgets s.bad k 32)
  let vcs (s : State) : List (List Nat) := (List.range 32).map fun i => s.clockAt p (k + i)
  (s.coh.copies.filter fun c => c.pkg = p && c.sector = sec && c.die ≠ h).map fun c =>
    ⟨p, h, c.die, seq, vc, sec, bytes s, vcs s, bytes o, vcs o, who⟩

/-- A write at its home (R357, R363): the bytes, the home's next sequence, the write's clock, and its pushes, unless it
invalidates the copies. Copies of a pool line on other packages are invalidated (R370, R403). -/
def State.homeWrite (s : State) (p pa : Nat) (who : Who) (oc : List Nat) (bs : List (Byte × Bool)) (drop : Bool) :
    State × List Nat :=
  let key := s.physKey p pa
  let ss := sectorsOf key bs.length
  let h := s.homeOf p key
  let seq := (tget s.coh.seqs p).getD h 0 + 1
  let vc := writeClock oc h seq
  let o := s
  let s := s.applied p pa bs
  let s := s.modCoh fun c =>
    { c with
      seqs := tmod c.seqs p fun l => (List.range 4).map fun d => if d = h then seq else l.getD d 0
      vcs := (List.range bs.length).foldl (fun t i => tset t (key + i) (p, vc)) c.vcs
      copies := c.copies.filter fun d => !((drop || d.pkg ≠ p) && ss.contains d.sector) }
  let pushes := ss.flatMap (s.pushesFor o p who h seq vc)
  (s.modCoh fun c => { c with pushes := c.pushes ++ pushes }, vc)

/-- A store's words leave PEND in the L1s of its basin, unless another outstanding store there covers them; they stay
invalid until leased again (R356). -/
def State.l1Applied (s : State) (o : HomeOp) : State :=
  let words (q : HomeOp) : BitVec 32 := match q.kind, q.who with
    | .store bs, .thread _ _ => wordMask (lineWords q.key bs.length)
    | _, _ => 0
  let rest := s.coh.ops.foldl (fun m q =>
    if q.pkg = o.pkg && q.core / 4 = o.core / 4 && q.key / 128 = o.key / 128 then m ||| words q else m) 0
  let m := words o &&& ~~~rest
  if m = 0#32 then s
  else s.modBasin o.pkg o.core fun e =>
    if e.line = o.key / 128 then some { e with pend := e.pend &&& ~~~m, mask := e.mask &&& ~~~m } else some e

/-- Shootdowns that the host's doorbell began and that can now end (R381): the completion goes to the host. -/
def State.bellsOver (s : State) (p x : Nat) : State :=
  let ended := (s.pctx p x).rung.filter fun g => s.shootOver p x g
  if ended.isEmpty then s
  else
    let s := s.modCtx p x fun c =>
      { c with shoots := c.shoots.filter fun g => !ended.contains g, rung := c.rung.filter fun g => !ended.contains g }
    ended.foldl (fun s _ => s.tellHost p (.doorbell (s.pctx p x).num)) s

/-- The host's doorbells served in order, each once no shootdown of its context is under way (R381). -/
def State.ringFrom (s : State) (p x : Nat) : List (Option VAddr) → State
  | [] => s
  | b :: bs =>
    let s := s.bellsOver p x
    if !s.shootFree p x then s
    else
      let s := (s.modCtx p x fun c => { c with bells := bs }).shootStart p x (b.map (·.toNat))
      (s.modCtx p x fun c => { c with rung := c.rung ++ [c.gen] }).ringFrom p x bs

/-- The doorbells of a context served as far as they can be now. -/
def State.ringBells (s : State) (p x : Nat) : State := (s.ringFrom p x (s.pctx p x).bells).bellsOver p x

/-- Whether the home refuses an operation, or its range is cut off (R383, R400, R401). -/
def State.opBarred (s : State) (o : HomeOp) : Bool :=
  let pa := s.paOf o.pkg o.key
  s.cutOff o.pkg pa || match o.who with
    | .host => (match o.kind with
      | .snoop _ _ => false
      | _ => s.hostRefused o.pkg pa o.kind.writes)
    | _ => s.homeRefuses o.pkg o.ctx pa o.kind.writes

/-- Whether a thread's operation would write a page of a registered code object (R60, R120). -/
def State.codeWrite (s : State) (o : HomeOp) : Bool :=
  o.kind.writes && (s.pctx o.pkg o.ctx).objs ≠ [] && match o.who with
    | .thread _ _ =>
      let va := if isPeer o.va then peerOff o.va else o.va
      (match s.fill o.pkg 0 o.ctx va with
      | .ok e => s.codePage o.pkg o.ctx e.base e.size
      | .error _ => s.codePage o.pkg o.ctx (va / 4096 * 4096) 4096)
    | _ => false

/-- A standing warp of which a thread is a member dissolves (R253). -/
def State.unstand (s : State) (b t : Nat) : State :=
  s.modCore (s.blk b).pkg (s.blk b).core fun k =>
    { k with warps := k.warps.filter fun w => !w.lanes.any fun l => l.1 = b && l.2.1 = t }

/-- A store whose home write comes after the registration of its page faults (R120): its thread takes the permission fault at
the instruction it has come to (log entry 56). -/
def State.codeFault (s : State) (o : HomeOp) : State :=
  match o.who with
  | .thread b t => if (s.thr b t).st = .exited then s else (s.unstand b t).faultT b t 0x0D 3 (some o.va) (s.thr b t).pc
  | _ => s

/-- Whether an operation's thread is of a crew some of whose parts have issued: until the rest have, it does nothing else
(R258), so that its operation is applied after them. -/
def State.inParts (s : State) (o : HomeOp) : Bool :=
  match o.who with
  | .thread b t => !(s.blk b).parts.isEmpty && match (s.thr b t).wait with
    | some (.crew _) => true
    | _ => false
  | _ => false

/-- The k-th waiting operation applied at its home (R357, R365); one that is barred is discarded, and counted in its thread's
grid (R383, R401). -/
def State.applyOp (s : State) (k : Nat) (o : HomeOp) : State :=
  let p := o.pkg
  let pa := s.paOf p o.key
  let barred := s.opBarred o
  let old := if barred then s.freeBytes o.key o.kind.size else s.physRead p pa o.kind.size
  let e := o.effect old
  let s := s.modCoh fun h => { h with ops := dropAt h.ops k }
  let s := match o.who with
    | .thread b t => if barred then s.countCut b t o.va p pa o.kind.writes else s
    | _ => s
  let read := s.clockOf p o.key o.kind.size
  let s :=
    if !o.kind.writes then s.opAnswer o old e read
    else if barred then (s.l1Applied o).opAnswer o old e []
    else if s.codeWrite o then ((s.l1Applied o).opAnswer o old e []).codeFault o
    else
      let drop : Bool := match o.kind with
        | .snoop _ _ => true
        | _ => o.who = .host && isXt pa
      let (s, vc) := s.homeWrite p pa o.who o.oc e.bytes drop
      let s := match o.who with
        | .thread _ _ => (s.markPage p o.ctx (if isPeer o.va then peerOff o.va else o.va)).l1Applied o
        | _ => s
      let vc : List Nat := match o.kind with
        | .atom _ _ _ _ true => clocks [read, vc]
        | _ => vc
      s.opAnswer o old e vc
  s.ringBells p o.ctx

/-- HOME_WRITE_APPLY (R365): the home applies a waiting write once the latest lease plus 32 ns has passed. -/
def execHomeWriteApply (k : Nat) (s : State) : Out :=
  match s.coh.ops[k]? with
  | none => .next s
  | some o => .next (if s.canApply k o && !s.inParts o then s.applyOp k o else s)

/-- A command in progress. -/
def State.cmd? (s : State) (id : Nat) : Option EngCmd := s.cmds.find? fun k => k.id = id
/-- A command changed. -/
def State.modCmd (s : State) (id : Nat) (f : EngCmd → EngCmd) : State :=
  { s with cmds := s.cmds.map fun k => if k.id = id then f k else k }

/-- A code met: the lowest nonzero one stands, with its address (R229). -/
def EngCmd.met (k : EngCmd) (code : Nat) (addr : Option Nat) : EngCmd :=
  if k.code = 0 || code < k.code then { k with code := code, badAddr := addr } else k
/-- A granule performed (R195, R229): counted among those done and into the barb, with its codes. -/
def State.deliver (s : State) (id : Nat) (f : Flight) : State :=
  let s := s.modCmd id fun k => f.codes.foldl (fun k c => k.met c.1 c.2) { k with done := k.done ++ [f.gran] }
  match s.cmd? id with
  | some k => (match k.barb with
    | some off => s.barbSub k.blk off f.bytes
    | none => s)
  | none => s

/-- Whether a write of an engine command is on its way to a die copy. -/
def State.engPushes (s : State) (id : Nat) : Bool := s.coh.pushes.any fun u => u.who = .engine id

/-- The granules performed whose commands have no write on its way any more (R187, R228). -/
def State.landed (s : State) : State :=
  s.cmds.foldl (fun s k =>
    if k.flown = [] || s.engPushes k.id then s
    else k.flown.foldl (fun s f => s.deliver k.id f) (s.modCmd k.id fun k => { k with flown := [] })) s

/-- Whether the k-th push can be applied at its die (R363): it is the oldest from its home to that die, and every write
that precedes it causally has been applied there. -/
def State.canPush (s : State) (k : Nat) (u : Push) : Bool :=
  ((s.coh.pushes.take k).all fun v => !(v.pkg = u.pkg && v.src = u.src && v.dst = u.dst))
    && s.coh.pushes.all fun v => !(v.pkg = u.pkg && v.dst = u.dst && v.src ≠ u.src && v.seq ≤ u.vc.getD v.src 0)

/-- PUSH_APPLY (R363). -/
def execPushApply (k : Nat) (s : State) : Out :=
  match s.coh.pushes[k]? with
  | none => .next s
  | some u =>
    if !s.canPush k u then .next s
    else .next (s.modCoh fun h =>
      { h with
        pushes := dropAt h.pushes k
        copies := h.copies.map fun c =>
          if c.pkg = u.pkg && c.die = u.dst && c.sector = u.sector then { c with bytes := u.bytes, vcs := u.vcs } else c }).landed

-- Results and acknowledgements

/-- The effects of a result's landing on its thread beside its registers (R30, R172, R176, R205, R220). -/
def Land.onThread (l : Land) (th : Thread) : Thread :=
  let th := if l.ecnt then { th with ecnt := th.ecnt - 1 } else { th with lcnt := th.lcnt - 1 }
  let th := { th with hold := th.hold - l.unhold.toNat }
  if th.st = .exited then th
  else
    let th := th.raise l.flags
    let th := if l.clrRes then { th with ms := { th.ms with res := false } } else th
    match l.handle with
    | some (n, h) => { th with handles := tset th.handles n h }
    | none => th

/-- Whether a response of a peer is the oldest of its pair of packages on its way (R347). -/
def State.mayLand (s : State) (b : Nat) (resp : Option (Nat × Nat)) : Bool :=
  match resp with
  | none => true
  | some (q, n) =>
    let older (c : Nat) (r : Option (Nat × Nat)) : Bool :=
      r.any fun m => m.1 = q && m.2 < n && (s.blk c).pkg = (s.blk b).pkg
    !(s.coh.lands.any fun l => older l.blk l.resp) && !(s.coh.acks.any fun a => older a.blk a.resp)

/-- A response that came over the link, if it did (R347). -/
def State.answered (s : State) (b : Nat) (resp : Option (Nat × Nat)) : State :=
  match resp with
  | some (q, _) => s.carried (s.blk b).pkg q
  | none => s

/-- LOAD_WRITEBACK (R259): the k-th result lands. -/
def execLoadWriteback (k : Nat) (s : State) : Out :=
  match s.coh.lands[k]? with
  | none => .next s
  | some l =>
    let bl := s.blk l.blk
    if !s.mayLand l.blk l.resp then .next s
    else
    let s := s.modCoh fun h => { h with lands := dropAt h.lands k }
    let s := (s.landWords l.blk l.tid l.regs l.marked l.ecnt).modThr l.blk l.tid l.onThread
    let s := if l.clear then s.clearL1 bl.pkg bl.core bl.ctx else s
    .next ((s.sawClock bl.pkg bl.core l.vc).answered l.blk l.resp)

/-- STORE_PERFORMED (R173): the k-th acknowledgement lands. -/
def execStorePerformed (k : Nat) (s : State) : Out :=
  match s.coh.acks[k]? with
  | none => .next s
  | some a =>
    let bl := s.blk a.blk
    if !s.mayLand a.blk a.resp then .next s
    else
    let s := s.modCoh fun h => { h with acks := dropAt h.acks k }
    let s := s.modThr a.blk a.tid fun th => { th with scnt := th.scnt - 1 }
    .next ((s.sawClock bl.pkg bl.core a.vc).answered a.blk a.resp)

-- The L1 and time (R366, R367)

/-- What a rebase leaves of an entry, and n rebases on end, where the view has passed so many bases (R366). -/
def L1Entry.rebased (n : Nat) (e : L1Entry) : Option L1Entry :=
  if 32768 * n ≤ e.exp.toNat then some { e with exp := e.exp - BitVec.ofNat 16 (32768 * n) } else none
/-- How many rebases an L1 owes. -/
def State.rebases (s : State) (p c : Nat) : Nat := (s.gtime p - (s.core p c).lbase) / 1048576

/-- L1_REBASE (R366). -/
def execL1Rebase (pkg core : Nat) (s : State) : Out :=
  let n := s.rebases pkg core
  if n = 0 then .next s
  else .next (s.modCore pkg core fun k => { k with lbase := k.lbase + 1048576 * n, l1 := k.l1.filterMap (L1Entry.rebased n) })

/-- TIME_VIEW_LOST (R367). -/
def execTimeViewLost (pkg core : Nat) (s : State) : Out :=
  .next (s.modCore pkg core fun k => { k with l1 := [], viewLost := true })

/-- HOST_SNOOP (R370): a snoop of the host or of a pool device waits at the home of its line as a write; `data` is
what the device writes there, if it does. -/
def execHostSnoop (pkg pa : Nat) (data : List Byte) (s : State) : Out :=
  if !isXt pa || !s.inMap pkg pa || s.cutOff pkg pa then .next s
  else .next (s.enqueue
    { (default : HomeOp) with
      pkg := pkg, key := s.physKey pkg pa / 128 * 128, who := .host
      kind := .snoop (s.physKey pkg pa % 128) (data.take (128 - s.physKey pkg pa % 128)) })

end Sys2Proof.Machine
end

