-- ==== Sys2Proof/Machine/Grid.lean ====
section
/-! DEFINITION. The outer-product grid: the arbiter's ranks, the commit of a pass and the capture of a tile
(spec/08_isa_matrix_engines.md R210-R218; spec/14_matrix_mode.md R283-R298; spec/24_package_system.md R411). -/

namespace Sys2Proof.Machine

-- Duty (R410, R411; log entry 17)

/-- Whether a cycle is allowed under a duty of d + 1 in 64. -/
def dutyOk (d cycle : Nat) : Bool := cycle % 64 ≤ d
/-- The allowed cycles below a cycle, and from one up to another. -/
def dutyBelow (d n : Nat) : Nat := n / 64 * (d + 1) + min (n % 64) (d + 1)
def dutyCycles (d a b : Nat) : Nat := dutyBelow d b - dutyBelow d a
/-- The allowed cycles from one up to another under a duty of d, and before it under those of a list, each with the first cycle in
which it no longer stood, the newest first. -/
def pastCycles (d : Nat) : List (Nat × Nat) → Nat → Nat → Nat
  | [], a, b => dutyCycles d a b
  | (n, e) :: r, a, b => dutyCycles d (max a n) b + pastCycles e r a (min b n)

-- The arbiter (R291, R292)

/-- Whether a block's crew has an entry in the reservation table (R291). -/
def Block.gridEntry (bl : Block) : Bool :=
  match bl.crew with
  | some r => r.next < r.k
  | none => match bl.drain with
    | some d => d.startCap.isNone
    | none => false

/-- When an entry was assembled, and from when its wait for a grant counts (R289, R292). -/
def Block.gridMade (bl : Block) : Nat := (bl.crew.elim ((bl.drain.map (·.made)).getD 0) (·.made))
def Block.gridSince (bl : Block) : Nat :=
  max bl.gridMade (bl.crew.elim ((bl.drain.map (·.lastGrant)).getD 0) (·.lastGrant))

/-- The crew priority: the highest PRIO among the roles of its furrows (R291). -/
def Block.crewPrio (bl : Block) : Nat :=
  (List.range 4).foldl (fun m k => max m (tget bl.threads (bl.mgang.furrow k * 32)).prio) 0

/-- The grid cycles of a package from one cycle up to another: each was allowed under the GDUTY of its time (R292, R411). -/
def Pkg.gridCycles (q : Pkg) (a b : Nat) : Nat := pastCycles q.power.gduty q.gridPast a b

/-- The key that ranks an entry (R292), smaller first: escalated with the longest wait, priority, age, slot; among equal
waits the later ranks decide. -/
def Block.gridKey (bl : Block) (q : Pkg) (now : Nat) : List Nat :=
  if 2048 ≤ q.gridCycles bl.gridSince now then [0, bl.gridSince, 7 - bl.crewPrio, bl.gridMade, bl.slot]
  else [1, 0, 7 - bl.crewPrio, bl.gridMade, bl.slot]

/-- Whether one key comes before another. -/
def keyLt : List Nat → List Nat → Bool
  | a :: as, b :: bs => a < b || (a = b && keyLt as bs)
  | _, _ => false

/-- The first of some candidates by a key. -/
def leastBy {α : Type} (f : α → List Nat) : List α → Option α
  | [] => none
  | a :: as => match leastBy f as with
    | none => some a
    | some b => if keyLt (f b) (f a) then some b else some a

/-- Whether the grid of a core may pass to another crew (R292): the crew granted last has committed every pass, or has left
the core. -/
def State.gridEmpty (s : State) (p c : Nat) : Bool :=
  let k := s.core p c
  match k.lastCrew with
  | none => true
  | some b =>
    let bl := s.blk b
    k.capUntil ≤ s.cycle && (bl.place ≠ .resident || bl.pkg ≠ p || bl.core ≠ c || bl.crew.all fun r => r.granted.isEmpty)

/-- The grid cycles that a pass occupies, and from its grant to the first cycle after its commit (R289). -/
def passBusy (ty : Ty) : Nat := if ty = .f64 then 2 else 1
def passTime (ty : Ty) : Nat := if ty = .f64 then 10 else 8

/-- A pass granted (R212, R289, R294): its panels as they stand now are what it reads first, and the next one follows past
skipped blocks. -/
def Block.grantPass (bl : Block) (r : CrewRun) (now : Nat) : Block :=
  let k1 := r.next + passDepth r.ty r.kind
  let k1 := if r.kind = .mmasp then bl.skipFrom r.ha.record r.k 128 k1 else k1
  { bl with crew := some { r with granted := r.granted ++ [⟨r.next, now, bl.shm, false⟩], next := k1, lastGrant := now } }

-- What a pass reads (R210, R214, R215, R222, R223, R293)

/-- w bits at a bit of the string that starts at a byte of shared memory (R128). -/
def Block.bitsAt (bl : Block) (off bit w : Nat) : Nat :=
  bl.shm.num (off + bit / 8) ((bit % 8 + w + 7) / 8) / 2 ^ (bit % 8) % 2 ^ w

/-- The first poisoned of n bytes of shared memory. -/
def Block.badAt (bl : Block) (off n : Nat) : Option Nat :=
  ((List.range n).find? fun i => tget bl.shm.bad (off + i)).map (off + ·)

/-- An element as an exact value, read through inDaz where it is IEEE (R211, R290). -/
def Elem.value (e : Elem) (daz : Bool) (bits : Nat) : FV :=
  match e with
  | .fp f => fread f daz bits
  | .int n sg =>
    let v : Int := if sg then sval n bits else bits
    .fin (decide (v < 0)) v.natAbs 0

/-- The values of a row for one pass with their logical depths, and the poisoned bytes it meets. -/
structure RowIn where
  vals : List (Nat × FV)
  scale : Option (Option Int)
  bad : List Nat
deriving DecidableEq, Repr, Inhabited

/-- The scale of a row's block (R129, R223): none where the type has no scales. -/
def Block.rowScale (bl : Block) (r : List Dword) (i k0 : Nat) : Option (Option Int) :=
  if recMx r then some (e8m0 (bl.shm.num (recXoff r + i * recXld r + k0 / 32) 1)) else none

/-- A row of a dense panel over d depths. -/
def Block.denseRow (bl : Block) (r : List Dword) (daz : Bool) (i k0 d : Nat) : RowIn :=
  let e := recElem r
  let w := e.bits
  let base := recSoff r + i * recLd r
  let lo := base + k0 * w / 8
  let hi := base + ((k0 + d) * w + 7) / 8
  ⟨(List.range d).map fun q => (k0 + q, e.value daz (bl.bitsAt base ((k0 + q) * w) w)), bl.rowScale r i k0,
    (bl.badAt lo (hi - lo)).toList
      ++ (if recMx r then (bl.badAt (recXoff r + i * recXld r + k0 / 32) 1).toList else [])⟩

/-- A row of a sparse panel over the depths of a pass (R293). -/
def Block.sparseRow (bl : Block) (r : List Dword) (daz : Bool) (i k0 d : Nat) : RowIn :=
  let e := recElem r
  let w := e.bits
  let kb := k0 / 32
  let t := bl.keptBelow r kb
  let base := recSoff r + i * recLd r
  let meta_ := recMoff r + i * recMld r + 4 * t
  let idx := bl.shm.num meta_ 4
  let s0 := k0 % 32 / 2
  let n := 16 * t + s0
  let lo := base + n * w / 8
  let hi := base + ((n + d / 2) * w + 7) / 8
  ⟨(List.range (d / 2)).map fun q =>
      let s := s0 + q
      (32 * kb + 4 * (s / 2) + idx / 2 ^ (4 * (s / 2) + 2 * (s % 2)) % 4, e.value daz (bl.bitsAt base ((n + q) * w) w)),
    none,
    (bl.badAt lo (hi - lo)).toList ++ (bl.badAt meta_ 4).toList
      ++ (if recBoff r = 0xFFFFFFFF then [] else (bl.badAt (recBoff r) (kb / 8 + 1)).toList)⟩

/-- The register of a thread as the grid reads it. -/
def Block.reg (bl : Block) (t r : Nat) : Nat := (tget (tget bl.threads t).regs r).toNat

/-- A row of A held in the crew's registers (R215). -/
def Block.regRow (bl : Block) (run : CrewRun) (i k0 d : Nat) : RowIn :=
  let f := fmtOf run.ty
  let per := 32 / f.width
  let ts := bl.mgang.threads
  ⟨(List.range d).map fun q =>
      let k := k0 + q
      let t := ts.getD (16 * (k / 8) + i / 8) 0
      let n := 8 * (i % 8) + k % 8
      (k, fread f run.daz (bl.reg t (run.mbase + n / per) / 2 ^ (f.width * (n % per)) % 2 ^ f.width)),
    none, []⟩

-- What a pass computes (R211)

/-- accumulate of R211 over a floating-point accumulator: the terms as pairs of elements, and the pass's scales. -/
def accumulate (f : Fmt) (env : Env) (acc : Nat) (ts : List (FV × FV)) (sc : Option (Option Int)) : Nat × Flags :=
  let a := fread f env.daz acc
  let ps := ts.map fun p => p.1.mul p.2
  let scaled := sc ≠ some none
  let infs := a :: (if scaled then (ts.filter fun p => !p.1.isNaN && !p.2.isNaN).map fun p => p.1.mul p.2 else [])
  let zeroInf := ts.any fun p => mulInvalid p.1 p.2
  let meet := infs.any (fun v => v = .inf false) && infs.any fun v => v = .inf true
  let sig := a.isSNaN || ts.any fun p => p.1.isSNaN || p.2.isSNaN
  let nan := a.isNaN || !scaled || ts.any fun p => p.1.isNaN || p.2.isNaN
  if nan || zeroInf || meet then (defaultNaN f, if sig || zeroInf || meet then NV else 0)
  else
    let e : Int := (sc.bind id).getD 0
    roundTo f env ((ps.map (FV.scale e)).foldl (FV.add env.rm) a)

/-- A finite value of exponent 0 as an integer. -/
def fvInt : FV → Int
  | .fin n m e => atExp n m e 0
  | _ => 0

/-- INT32 accumulation (R211). -/
def accumulateInt (acc : Nat) (ts : List (FV × FV)) : Nat :=
  wrap 32 ((acc : Int) + (ts.map fun p => fvInt (p.1.mul p.2)).sum)

/-- The scale of a term: the sum of the two rows' exponents, none for a NaN scale (R130, R211). -/
def bothScales (a b : Option (Option Int)) : Option (Option Int) :=
  match a, b with
  | some x, some y => some (x.bind fun i => y.map fun j => i + j)
  | _, _ => none

/-- The terms of an element: each value of A with the value of B at its depth. -/
def termsOf (k0 : Nat) (a b : RowIn) : List (FV × FV) :=
  a.vals.map fun p => (p.2, (b.vals.getD (p.1 - k0) default).2)

/-- Whether a pass accumulates integers (R210). -/
def CrewRun.ints (r : CrewRun) : Bool :=
  r.ty = .i8 || r.ty = .n8 || (r.ty = .b32 && recFcode r.hb.record = 0x41)

/-- The rows of A and B for a pass, over the shared memory that it read. -/
def Block.passRows (bl : Block) (r : CrewRun) (k0 : Nat) (shm : Bytes) : List RowIn × List RowIn :=
  let bl := { bl with shm := shm }
  let d := passDepth r.ty r.kind
  let na := if r.ty = .f64 then 64 else 128
  ((List.range na).map fun i => match r.kind with
      | .mma => bl.denseRow r.ha.record r.daz i k0 d
      | .mmasp => bl.sparseRow r.ha.record r.daz i k0 d
      | .mmad => bl.regRow r i k0 d,
    (List.range 64).map fun j => bl.denseRow r.hb.record r.daz j k0 d)

/-- The environment of a run. -/
def CrewRun.env (r : CrewRun) : Env := ⟨rmOfCode r.rm, r.daz, r.ftz⟩

/-- The elements that crew thread c owns (R210), in the order of their registers. -/
def ownElems (f64 : Bool) (c : Nat) : List (Nat × Nat) :=
  if f64 then (List.range 32).map fun n => (4 * (c % 16) + n / 8, 8 * (c / 16) + n % 8)
  else (List.range 64).map fun n => (8 * (c % 16) + n / 8, 8 * (c / 16) + n % 8)

/-- An accumulator of a thread: its n-th element (R210). -/
def Block.accAt (bl : Block) (f64 : Bool) (t n : Nat) : Nat :=
  let ab := (tget bl.threads t).ms.abase.toNat
  if f64 then bl.reg t (ab + 2 * n) + 2 ^ 32 * bl.reg t (ab + 2 * n + 1) else bl.reg t (ab + n)

/-- Whether that element is of a poisoned register. -/
def Block.accBad (bl : Block) (f64 : Bool) (t n : Nat) : Bool :=
  let th := tget bl.threads t
  let ab := th.ms.abase.toNat
  if f64 then tget th.marks (ab + 2 * n) || tget th.marks (ab + 2 * n + 1) else tget th.marks (ab + n)

/-- The window words and flags of crew thread c after a pass. -/
def Block.passThread (bl : Block) (r : CrewRun) (k0 : Nat) (ra rb : List RowIn) (c t : Nat) : List Word × Flags :=
  let f64 : Bool := r.ty = .f64
  let own := ownElems f64 c
  let rs := ((List.range own.length).zip own).map fun p =>
    let a := ra.getD p.2.1 default
    let b := rb.getD p.2.2 default
    let acc := bl.accAt f64 t p.1
    if r.ints then (accumulateInt acc (termsOf k0 a b), (0 : Flags))
    else accumulate (if f64 then .f64 else .f32) r.env acc (termsOf k0 a b) (bothScales a.scale b.scale)
  (rs.flatMap fun v => valueWords f64 v.1, rs.foldl (fun g v => g ||| v.2) 0)

/-- A thread's window words put by a pass, and its flags raised (R211). A pass computes from a register marked poisoned as it
stands, clears the mark and raises no fault (DESIGN CHOICE, log entry 76). -/
def Thread.putWindow (th : Thread) (ws : List Word) (fl : Flags) : Thread :=
  let ab := th.ms.abase.toNat
  (((List.range ws.length).zip ws).foldl (fun th p =>
    { th with regs := tset th.regs (ab + p.1) p.2, marks := tset th.marks (ab + p.1) false }) th).raise fl

/-- A pass committed in the window of crew thread c; its registers' tags become general (R20). -/
def Block.commitThread (bl : Block) (t : Nat) (w : List Word × Flags) : Block :=
  let ab := (tget bl.threads t).ms.abase.toNat
  let bl := bl.modThr t fun th => th.putWindow w.1 w.2
  { bl with tags := (List.range 64).foldl (fun g n => tset g (tagKey (t / 32) (ab + n)) Tag.general) bl.tags }

/-- The crew's threads with MPROG changed. -/
def Block.modMprogs (bl : Block) (f : MProg → MProg) : Block :=
  bl.mgang.threads.foldl (fun bl t => bl.modThr t fun th => { th with mprog := f th.mprog }) bl

/-- Shared memory as a pass reads it in two cycles (R212, R289): each byte as it stood in the first or in the second, which is
free (log entry 51). -/
def readTwice (tick : Nat) (a b : Bytes) : Bytes :=
  if a = b then a
  else
    let late (k : Nat) : Bool := Config.panelLate tick k
    ((a.cells.map (·.1) ++ b.cells.map (·.1) ++ a.bad.map (·.1) ++ b.bad.map (·.1)).eraseDups.filter late).foldl
      (fun m k => m.write k (b.read k 1)) a

/-- The panels of the passes granted two cycles ago or more read to the end (R289). -/
def CrewRun.reads (r : CrewRun) (tick now : Nat) (shm : Bytes) : CrewRun :=
  { r with granted := r.granted.map fun g =>
      if g.read || now < g.at_ + 2 then g else { g with shm := readTwice tick g.shm shm, read := true } }

/-- The commit of a crew's oldest granted pass (R212): the accumulators, DEPTH and PASS; after the last, MPROG is 0 and a
waiting drain counts its wait from now (R291). -/
def Block.commitPass (bl : Block) (r : CrewRun) (k0 : Nat) (shm : Bytes) (rest : List Granted) (now : Nat) :
    Block :=
  let rows := bl.passRows r k0 shm
  let ts := bl.mgang.threads
  let outs := ((List.range 128).zip ts).map fun p => (p.2, bl.passThread r k0 rows.1 rows.2 p.1 p.2)
  let bl := outs.foldl (fun bl o => bl.commitThread o.1 o.2) bl
  let depth := match rest with
    | g :: _ => g.depth
    | [] => r.next
  if rest.isEmpty && r.k ≤ r.next then
    { (bl.modMprogs fun _ => default) with
      crew := none, drain := bl.drain.map fun d => { d with lastGrant := now } }
  else
    { (bl.modMprogs fun m => { m with depth := BitVec.ofNat 13 depth, pass := m.pass + 1 }) with
      crew := some { r with granted := rest } }

/-- Whether a thread waits at an instruction of its group that has not taken effect (R196, R206). -/
def Thread.atGroup (th : Thread) : Bool := match th.wait with
  | some .exchange => true
  | some (.crew _) => true
  | _ => false

/-- The fault of a poisoned pass left for a thread's next instruction (R213): for one that has arrived at an instruction
of its group, that instruction, which it meets again (log entry 19). -/
def Thread.stopPanel (th : Thread) (a now : Nat) (free : Bool) : Thread :=
  if th.st = .exited then th
  else
    let th := { th with panelStop := some (BitVec.ofNat 57 a) }
    if free && th.atGroup && !th.ms.h then th.wake now else th

/-- A pass that meets poison (R213): it does not commit, RSM is set, and each crew thread takes the fault at its next
instruction; an mdrain that had assembled has taken no effect. Where parts of the crew's next instruction have issued, the
others issue first (R258): the fault then takes its place. -/
def Block.poisonStop (bl : Block) (a now : Nat) : Block :=
  let ts := bl.mgang.threads
  let stop := bl.drain.isSome && ts.any fun t => (tget bl.threads t).atGroup && !(tget bl.threads t).ms.h
  let bl := { (bl.modMprogs fun m => { m with rsm := true }) with
    crew := none, drain := if stop then none else bl.drain }
  ts.foldl (fun bl t => bl.modThr t fun th => th.stopPanel a now bl.parts.isEmpty) bl

/-- The lowest poisoned byte that a pass reads. -/
def lowestBad (rows : List RowIn × List RowIn) : Option Nat :=
  let l := (rows.1 ++ rows.2).flatMap (·.bad)
  match l with
  | [] => none
  | a :: as => some (as.foldl min a)

/-- PASS_COMMIT (R211, R212): the passes of a block's crew read their panels to the end, and the oldest commits, or stops on
poison. It commits at the end of the cycle before (R289). -/
def execPassCommit (blk : Nat) (s : State) : Out :=
  let bl := s.blk blk
  match bl.crew with
  | none => .next s
  | some r0 =>
    let r := r0.reads s.tick s.cycle bl.shm
    match r.granted with
    | [] => .next s
    | g :: rest =>
      if s.cycle < g.at_ + passTime r.ty then .next (s.modBlk blk fun bl => { bl with crew := some r })
      else match lowestBad (bl.passRows r g.depth g.shm) with
        | some a => .next (s.modBlk blk fun bl => bl.poisonStop a (s.cycle - 1))
        | none => .next (s.modBlk blk fun bl => bl.commitPass r g.depth g.shm rest (s.cycle - 1))

-- The capture (R218)

/-- A captured element: its value as delivered, and the flags of its conversion. The accumulator is read as it stands, also
under DAZ: R218 names roundTo only (DESIGN CHOICE, log entry 85). -/
def DrainReq.capture (d : DrainReq) (acc : Nat) : Nat × Flags :=
  let env : Env := ⟨rmOfCode d.rm, d.daz, d.ftz⟩
  match d.mode, d.acc with
  | .st, .f32 => match recElem d.hc.record with
    | .fp f => roundTo f env (fdecode .f32 acc)
    | _ => (acc, 0)
  | .st, .f64 => roundTo .f64 env (fdecode .f64 acc)
  | _, _ => (acc, 0)

/-- The acc and mode bits of an engine record (R204, R396). -/
def drainCode (m : DrainMode) (a : Acc) : Nat :=
  (match a with | .f32 => 0 | .f64 => 4 | .i32 => 8) + (match m with | .st => 0 | .addf => 1 | .addx => 2)

/-- The engine command of a captured tile (R218, R219): one forked under the sluice starts no granule (R392). -/
def drainCmd (s : State) (b : Nat) (d : DrainReq) (tile : Tab Dword) (bad : Tab Bool) : EngCmd :=
  let bl := s.blk b
  { (default : EngCmd) with
    id := s.nextCmd, kind := .drain, pkg := bl.pkg, ctx := bl.ctx, blk := b, tid := bl.mgang.threads.headD 0
    tids := bl.mgang.threads, pc := d.pc, sreg := d.sreg, barb := d.barb
    group := [d.row0, d.col0, BitVec.ofNat 32 (drainCode d.mode d.acc), 0, 0, 0, 0, 0]
    handle := d.hc, rm := d.rm, daz := d.daz, ftz := d.ftz, mode := d.mode, acc := d.acc, tile := tile
    tileBad := bad, oc := (s.core bl.pkg bl.core).oc, shut := !s.blockRuns bl }

/-- DRAIN_CAPTURE (R218): a granted capture ends after 16 grid cycles; the mdrain retires in all 128 threads, and its
command is forked. An element of a poisoned register goes with its poison (R229). -/
def execDrainCapture (blk : Nat) (s : State) : Out :=
  let bl := s.blk blk
  match bl.drain with
  | none => .next s
  | some d =>
    if !(d.startCap.any fun t => t + 16 ≤ s.cycle) then .next s
    else
      let f64 : Bool := d.acc = .f64
      let elems := ((List.range 128).zip bl.mgang.threads).map fun p =>
        let own := ownElems f64 p.1
        (p.2, ((List.range own.length).zip own).map fun n => (n.2, d.capture (bl.accAt f64 p.2 n.1)))
      let tile := elems.foldl (fun t e => e.2.foldl (fun t v =>
        tset t (v.1.1 * 64 + v.1.2) (BitVec.ofNat 64 v.2.1)) t) ([] : Tab Dword)
      let bad := ((List.range 128).zip bl.mgang.threads).foldl (fun m p =>
        let own := ownElems f64 p.1
        ((List.range own.length).zip own).foldl (fun m n => tset m (n.2.1 * 64 + n.2.2) (bl.accBad f64 p.2 n.1)) m)
        ([] : Tab Bool)
      let cmd := drainCmd s blk d tile bad
      let s := { s with cmds := s.cmds ++ [cmd], nextCmd := s.nextCmd + 1 }
      .next (s.modBlk blk fun bl =>
        elems.foldl (fun bl e => bl.modThr e.1 fun th =>
          ((th.raise (e.2.foldl (fun g v => g ||| v.2.2) 0)).countE).release (s.cycle - 1)) { bl with drain := none })

end Sys2Proof.Machine
end

