-- ==== Sys2Proof/Machine/Sampling.lean ====
section
/-! DEFINITION. What the sampling unit draws and what gauge hashes: functions of values alone
(spec/16_sampling_unit.md R302-R304; spec/08_isa_matrix_engines.md R234, SHA-256). -/

namespace Sys2Proof.Machine

-- Weights (R303)

/-- The greatest n below r + 2^(b + 1) whose e-th power is at most m, from bit b down. -/
def rootFrom (m e : Nat) : Nat → Nat → Nat
  | 0, r => if (r + 1) ^ e ≤ m then r + 1 else r
  | b + 1, r => rootFrom m e b (if (r + 2 ^ (b + 1)) ^ e ≤ m then r + 2 ^ (b + 1) else r)

/-- floor(2^32 * 2^(a / n)): the tables ta (n = 256) and tb (n = 65,536). -/
def powTable (n a : Nat) : Nat := rootFrom (2 ^ (32 * n + a)) n 33 0

/-- weight of R303 for a Q8.24 value. -/
def weight (xq : Int) : Nat :=
  let e := xq / 2 ^ 24
  let f := (xq - e * 2 ^ 24).toNat
  let tc := 2 ^ 32 + f % 256 * 0xB17217F7 / 2 ^ 24
  let m := powTable 256 (f / 2 ^ 16) * powTable 65536 (f / 2 ^ 8 % 256) / 2 ^ 32 * tc / 2 ^ 32
  m / 2 ^ (1 - e).toNat

-- The draw (R302)

/-- A logit: a NaN counts as -inf. -/
def logit (f : Fmt) (bits : Nat) : FV :=
  match fdecode f bits with
  | .nan _ => .inf true
  | v => v

/-- The greatest of some logits. -/
def maxLogit : List FV → FV
  | [] => .inf true
  | v :: vs => if (maxLogit vs).lt false v then v else maxLogit vs

/-- floor(y * 2^24) of an FP32 value, between -2^31 and 0 (R302, R308). -/
def q824 (bits : Nat) : Int :=
  match fdecode .f32 bits with
  | .fin neg m e =>
    let n : Int := if neg then -(m : Int) else m
    let v := if -24 ≤ e then n * 2 ^ (e + 24).toNat else n / 2 ^ (-(e + 24)).toNat
    min 0 (max (-(2 ^ 31)) v)
  | .inf false => 0
  | _ => -(2 ^ 31)

/-- xq of a logit (R302). -/
def scaledLogit (lmax invT l : FV) : Int :=
  let env : Env := ⟨.rne, false, false⟩
  match lmax, l with
  | .inf false, .inf false => 0
  | .inf false, _ => -(2 ^ 31)
  | _, .inf true => -(2 ^ 31)
  | _, _ => q824 (roundTo .f32 env ((l.add .rne lmax.neg).mul invT)).1

/-- The first entry of a list of (weight, token) whose cumulative weight exceeds r. -/
def pick (r : Nat) : Nat → List (Nat × Nat) → Nat
  | _, [] => 0xFFFFFFFF
  | acc, (w, i) :: l => if r < acc + w then i else pick r (acc + w) l

/-- The shortest prefix whose weights reach a threshold. -/
def prefixTo (thr : Nat) : Nat → List (Nat × Nat) → List (Nat × Nat)
  | _, [] => []
  | acc, (w, i) :: l => if thr ≤ acc + w then [(w, i)] else (w, i) :: prefixTo thr (acc + w) l

/-- The sum of the weights of a list. -/
def weightSum (l : List (Nat × Nat)) : Nat := (l.map (·.1)).sum

/-- sampleRow of R302: the token and the code, from the first V logits, the group words and the seed. -/
def sampleRow (f : Fmt) (bits : List Nat) (g : List Word) (seed : Dword) : Nat × Nat :=
  let ls := bits.map (logit f)
  let lmax := maxLogit ls
  let invT := fdecode .f32 (g.getD 2 0).toNat
  if ls.all (· = .inf true) then (0xFFFFFFFF, 6)
  else if invT.isZero then (ls.findIdx fun l => !(l.lt false lmax) && !(lmax.lt false l), 0)
  else
    let ws := ls.map fun l => weight (scaledLogit lmax invT l)
    let order := (ws.zip (List.range ws.length)).mergeSort fun a b => b.1 < a.1 || (a.1 = b.1 && a.2 ≤ b.2)
    let topk := (g.getD 3 0).toNat
    let keep := order.take (if topk = 0 then bits.length else topk)
    let topp := (g.getD 4 0).toNat
    let p := if topp = 0 then 2 ^ 32 else topp
    let thr := (p * weightSum keep + 2 ^ 32 - 1) / 2 ^ 32
    let kept := prefixTo thr 0 keep
    let u := match ugen seed (g.getD 6 0) (g.getD 5 0) 0 0 with
      | lo :: hi :: _ => hi.toNat * 2 ^ 32 + lo.toNat
      | _ => 0
    (pick (u * weightSum kept / 2 ^ 64) 0 kept, 0)

-- SHA-256 (R234)

/-- The round constants of SHA-256. -/
def shaK : List Word :=
  [0x428a2f98#32, 0x71374491#32, 0xb5c0fbcf#32, 0xe9b5dba5#32, 0x3956c25b#32, 0x59f111f1#32, 0x923f82a4#32, 0xab1c5ed5#32]
  ++ [0xd807aa98#32, 0x12835b01#32, 0x243185be#32, 0x550c7dc3#32, 0x72be5d74#32, 0x80deb1fe#32, 0x9bdc06a7#32, 0xc19bf174#32]
  ++ [0xe49b69c1#32, 0xefbe4786#32, 0x0fc19dc6#32, 0x240ca1cc#32, 0x2de92c6f#32, 0x4a7484aa#32, 0x5cb0a9dc#32, 0x76f988da#32]
  ++ [0x983e5152#32, 0xa831c66d#32, 0xb00327c8#32, 0xbf597fc7#32, 0xc6e00bf3#32, 0xd5a79147#32, 0x06ca6351#32, 0x14292967#32]
  ++ [0x27b70a85#32, 0x2e1b2138#32, 0x4d2c6dfc#32, 0x53380d13#32, 0x650a7354#32, 0x766a0abb#32, 0x81c2c92e#32, 0x92722c85#32]
  ++ [0xa2bfe8a1#32, 0xa81a664b#32, 0xc24b8b70#32, 0xc76c51a3#32, 0xd192e819#32, 0xd6990624#32, 0xf40e3585#32, 0x106aa070#32]
  ++ [0x19a4c116#32, 0x1e376c08#32, 0x2748774c#32, 0x34b0bcb5#32, 0x391c0cb3#32, 0x4ed8aa4a#32, 0x5b9cca4f#32, 0x682e6ff3#32]
  ++ [0x748f82ee#32, 0x78a5636f#32, 0x84c87814#32, 0x8cc70208#32, 0x90befffa#32, 0xa4506ceb#32, 0xbef9a3f7#32, 0xc67178f2#32]

/-- The initial hash value. -/
def shaInit : List Word :=
  [0x6a09e667#32, 0xbb67ae85#32, 0x3c6ef372#32, 0xa54ff53a#32, 0x510e527f#32, 0x9b05688c#32, 0x1f83d9ab#32, 0x5be0cd19#32]

/-- One more word of the schedule, kept newest first. -/
def shaNext (w : List Word) : List Word :=
  let x := w.getD 14 0
  let y := w.getD 1 0
  let s0 := x.rotateRight 7 ^^^ x.rotateRight 18 ^^^ (x >>> 3)
  let s1 := y.rotateRight 17 ^^^ y.rotateRight 19 ^^^ (y >>> 10)
  (w.getD 15 0 + s0 + w.getD 6 0 + s1) :: w

/-- The 64 words of a block's schedule. -/
def shaSchedule (w : List Word) : List Word := ((List.range 48).foldl (fun w _ => shaNext w) w.reverse).reverse

/-- One round. -/
def shaRound (v : List Word) (kw : Word × Word) : List Word :=
  match v with
  | [a, b, c, d, e, f, g, h] =>
    let t1 := h + (e.rotateRight 6 ^^^ e.rotateRight 11 ^^^ e.rotateRight 25) + ((e &&& f) ^^^ (~~~e &&& g)) + kw.1 + kw.2
    let t2 := (a.rotateRight 2 ^^^ a.rotateRight 13 ^^^ a.rotateRight 22) + ((a &&& b) ^^^ (a &&& c) ^^^ (b &&& c))
    [t1 + t2, a, b, c, d + t1, e, f, g]
  | v => v

/-- The big-endian words of bytes. -/
def beWords (bs : List Byte) : List Word :=
  (List.range (bs.length / 4)).map fun i => BitVec.ofNat 32 (leNat (((bs.drop (4 * i)).take 4).reverse))

/-- One 64-byte block. -/
def shaBlock (h : List Word) (bs : List Byte) : List Word :=
  (h.zip ((shaK.zip (shaSchedule (beWords bs))).foldl shaRound h)).map fun p => p.1 + p.2

/-- n blocks from the front of a padded message. -/
def shaBlocks : Nat → List Word → List Byte → List Word
  | 0, h, _ => h
  | n + 1, h, bs => shaBlocks n (shaBlock h (bs.take 64)) (bs.drop 64)

/-- SHA-256 of bytes, as 32 bytes. -/
def sha256 (bs : List Byte) : List Byte :=
  let n := bs.length
  let k := (n + 9 + 63) / 64
  let padded := bs ++ [0x80#8] ++ List.replicate (64 * k - n - 9) 0 ++ (leBytes 8 (8 * n)).reverse
  (shaBlocks k shaInit padded).flatMap fun w => (leBytes 4 w.toNat).reverse

end Sys2Proof.Machine
end

