-- ==== Sys2Proof/Machine/Granules.lean ====
section
/-! DEFINITION. Events of the engine threads: granules of copy, gath, scat and drain, the end of a sample and of a
gauge, and the status word (spec/08_isa_matrix_engines.md R219, R228-R234; spec/16_sampling_unit.md R305-R308;
spec/20_part6_preempt_copies.md R350; spec/21_memory_model.md R369). -/

namespace Sys2Proof.Machine

-- Commands

/-- A code of 1 to 3, which stops the command (R229). -/
def State.stopCmd (s : State) (id code va : Nat) : State :=
  (s.modCmd id fun k => { k.met code (some va) with stop := true, waits := [] }).dropGrains (· = id)

-- Granules (R228, R230, R231, R232, R219)

/-- A part of a granule in .g: where, how long, and whether it is read, written or both. -/
structure Piece where
  va : Nat
  len : Nat
  rd : Bool
  wr : Bool
deriving DecidableEq, Repr, Inhabited

/-- A range of addresses page by page. -/
def pieces (va len : Nat) (rd wr : Bool) : List Piece :=
  (List.range ((va + len + 4095) / 4096 - va / 4096)).map fun i =>
    let a := max va ((va / 4096 + i) * 4096)
    ⟨a, min (va + len) ((va / 4096 + i + 1) * 4096) - a, rd, wr⟩

/-- A granule of a copy or of a drain: source, destination, bytes; for a drain the source is its first tile element. -/
structure Gran where
  src : Nat
  dst : Nat
  len : Nat
deriving DecidableEq, Repr, Inhabited

/-- The parts of a destination range between 256-byte-aligned addresses. -/
def parts256 (dst len : Nat) : List (Nat × Nat) :=
  (List.range ((dst + len + 255) / 256 - dst / 256)).map fun i =>
    let a := max dst ((dst / 256 + i) * 256)
    (a, min (dst + len) ((dst / 256 + i + 1) * 256) - a)

/-- The granules of a copy, row by row (R228, R230, R350). -/
def copyGrans (g : List Word) : List Gran :=
  (List.range (grp g 5)).flatMap fun n =>
    let d := grp64 g 0 + n * copyStride g 7
    let s := grp64 g 2 + n * copyStride g 6
    (parts256 d (grp g 4)).map fun p => ⟨s + (p.1 - d), p.1, p.2⟩

/-- The bytes of a delivered element, and those it counts (R219). -/
def EngCmd.elemBytes (k : EngCmd) : Nat := shapeBytes k.handle.record
def EngCmd.elemCount (k : EngCmd) : Nat := if k.mode = .addx then 4 else k.elemBytes

/-- The granules of a drain, row by row: the source is 64 times the tile row plus the first tile column (R219, R228). -/
def EngCmd.drainGrans (k : EngCmd) : List Gran :=
  let r := k.handle.record
  let w := k.elemBytes
  let row0 := grp k.group 0
  let col0 := grp k.group 1
  let cols := min 64 (recNcol r - col0)
  (List.range (if k.acc = .f64 then 64 else 128)).flatMap fun i =>
    if recNrow r ≤ row0 + i || cols = 0 then []
    else
      let d := recBase r + (row0 + i) * recRstr r + col0 * w
      (parts256 d (cols * w)).map fun p => ⟨64 * i + (p.1 - d) / w, p.1, p.2⟩

/-- The granules of a command, and the bytes each counts into its barb. -/
def EngCmd.total (k : EngCmd) : Nat :=
  match k.kind with
  | .copy => (copyGrans k.group).length
  | .gath | .scat => grp k.group 2
  | .drain => k.drainGrans.length
  | _ => 0
def EngCmd.counted (k : EngCmd) (g : Nat) : Nat :=
  match k.kind with
  | .copy => ((copyGrans k.group).getD g default).len
  | .gath => gathRow k.handle.record
  | .scat => scatRow k.handle.record
  | .drain => (k.drainGrans.getD g default).len / k.elemBytes * k.elemCount
  | _ => 0

/-- The index of a position of a gath or scat, as shared memory holds it now, poisoned or not: R231 and R232 say nothing of a
poisoned word of the index array (DESIGN CHOICE, log entry 85). -/
def State.indexOf (s : State) (k : EngCmd) (p : Nat) : Nat := (s.blk k.blk).shm.num (grp k.group 1 + 4 * p) 4

/-- The row of a shape that an index names. -/
def shapeRow (r : List Dword) (i : Nat) : Nat := recBase r + i * recRstr r

/-- The parts of a granule in .g. -/
def State.granPieces (s : State) (k : EngCmd) (g : Nat) : List Piece :=
  let r := k.handle.record
  match k.kind with
  | .copy =>
    let q := (copyGrans k.group).getD g default
    (if k.srcS then [] else pieces q.src q.len true false) ++ (if k.dstS then [] else pieces q.dst q.len false true)
  | .gath =>
    let i := s.indexOf k g
    if recNrow r ≤ i || tget k.rows i ≠ [] then [] else pieces (shapeRow r i) (gathRow r) true false
  | .scat =>
    let i := s.indexOf k g
    if recNrow r ≤ i then [] else pieces (shapeRow r i) (gathRow r) false true
  | .drain =>
    let q := k.drainGrans.getD g default
    pieces q.dst q.len false true
  | _ => []

-- Access (R228, R369, R376, R378)

/-- What the checks of some parts find. -/
inductive Checked where
  | ok (xs : List (Piece × Xl))
  | wait (va : Nat) (wr : Bool)
  | fail (code va : Nat)
deriving DecidableEq, Repr, Inhabited

/-- An access of a command cut off or refused, counted in its grid (R383, R401). -/
def State.engBarred (s : State) (k : EngCmd) (va : Nat) : State :=
  s.countEvent k.pkg k.ctx (s.blk k.blk).grid 2
    (s.threadEvent k.blk k.tid (frameWord 0 k.pc false) (tcauseWord 0 (some va)) 0)

/-- The translation of an address for a command at the engine's die (R376); reads of tables that are cut off are counted in its
grid (R401, R402). -/
def State.reachEng (s : State) (k : EngCmd) (va : Nat) (rd wr : Bool) : State × Except XErr Xl :=
  let us := [dieOf (s.blk k.blk).core]
  ((List.range (s.tableCuts k.pkg us k.ctx va)).foldl (fun s _ => s.engBarred k va) s).xlate k.pkg us k.ctx va rd wr

/-- The translations of some parts at the engine's die, in order (R376, R378). -/
def State.engCheck (s : State) (k : EngCmd) : List Piece → State × Checked
  | [] => (s, .ok [])
  | p :: ps =>
    match s.reachEng k p.va p.rd p.wr with
    | (s, .error .absent) => (s, .wait p.va p.wr)
    | (s, .error (.fault c _)) => (s, .fail (if c = 0x0E then 3 else if p.wr then 2 else 1) p.va)
    | (s, .ok x) =>
      match s.engCheck k ps with
      | (s, .ok xs) => (s, .ok ((p, x) :: xs))
      | o => o

/-- The bytes of checked parts, read at their homes without a lease (R369). -/
def State.engRead (s : State) (k : EngCmd) (xs : List (Piece × Xl)) : List (Byte × Bool) :=
  xs.flatMap fun p => s.readHome p.2.pkg k.ctx p.2.pa p.1.len

/-- The clocks of what a command reads merged into its engine thread's (R363, R369). -/
def State.engSaw (s : State) (k : EngCmd) (xs : List (Piece × Xl)) : State :=
  let cs := xs.map fun p => if p.2.pkg = k.pkg then s.clockOf k.pkg (s.physKey k.pkg p.2.pa) p.1.len else []
  s.modCmd k.id fun k => { k with oc := clocks (k.oc :: cs) }

/-- The accesses of a command that are barred counted in its grid (R383, R401). -/
def State.countEng (s : State) (k : EngCmd) (xs : List (Piece × Xl)) : State :=
  xs.foldl (fun s e =>
    if s.barred e.2.pkg k.ctx e.2.pa e.1.wr then s.engBarred k e.1.va else s) s

/-- Whether an operation stands for a granule of a command that waits at its home to write. -/
def HomeOp.grainOf (o : HomeOp) (id g : Nat) : Bool :=
  o.who = .engine id && match o.kind with
    | .grain h _ => h = g
    | _ => false

/-- Whether a granule of a command may write n bytes at a home now (R365): their leases have passed, and nothing that came
before it waits there. -/
def State.mayWrite (s : State) (id g p pa n : Nat) : Bool :=
  let key := s.physKey p pa
  s.leasesPast p (sectorsOf key n)
    && s.first (s.coh.ops.takeWhile fun o => !(o.grainOf id g && o.pkg = p && o.key = key)) key n

/-- A granule takes its place at the homes of what it writes, as a write that waits there (R365, R369). -/
def State.reserve (s : State) (k : EngCmd) (g : Nat) (xs : List (Piece × Xl)) : State :=
  let at_ (o : HomeOp) (e : Piece × Xl) : Bool := o.grainOf k.id g && o.pkg = e.2.pkg && o.key = s.physKey e.2.pkg e.2.pa
  let s := s.modCoh fun h => { h with ops := h.ops.filter fun o => !o.grainOf k.id g || xs.any (at_ o) }
  xs.foldl (fun s e =>
    if s.coh.ops.any fun o => at_ o e then s
    else s.enqueue
      { (default : HomeOp) with
        pkg := e.2.pkg, key := s.physKey e.2.pkg e.2.pa, va := e.1.va, kind := .grain g e.1.len, who := .engine k.id
        ctx := k.ctx, gen := e.2.gen }) s

/-- A granule waits at no home any more. -/
def State.unreserve (s : State) (id g : Nat) : State :=
  s.modCoh fun h => { h with ops := h.ops.filter fun o => !o.grainOf id g }

/-- Bytes written by an engine at a home (R187, R363, R369), marking the page (R234); a barred write is discarded. -/
def State.engWrite (s : State) (k : EngCmd) (x : Xl) (va : Nat) (bs : List (Byte × Bool)) : State :=
  if s.barred x.pkg k.ctx x.pa true then s
  else
    let oc := ((s.cmd? k.id).getD k).oc
    (s.homeWrite x.pkg x.pa (.engine k.id) oc bs false).1.markPage x.pkg k.ctx (if isPeer va then peerOff va else va)

/-- Bytes laid over checked parts, in order. -/
def State.engWrites (s : State) (k : EngCmd) : List (Piece × Xl) → List (Byte × Bool) → State
  | [], _ => s
  | (p, x) :: xs, bs => (s.engWrite k x p.va (bs.take p.len)).engWrites k xs (bs.drop p.len)

/-- Whether a command's request for the page of an address is outstanding (R379). -/
def State.askedPage (s : State) (k : EngCmd) (va : Nat) : Bool :=
  let at_ := s.requestPlace k.pkg k.ctx va
  s.coh.reqs.any fun q => q.pkg = at_.1 && q.vpn = at_.2 / 4096 && q.waiters.contains (.engine k.id)

/-- The page of an address asked for, once (R379). -/
def State.askPage (s : State) (k : EngCmd) (va : Nat) (wr : Bool) : State :=
  if s.askedPage k va then s else s.requestPage k.pkg k.ctx va wr.toNat true (some (.engine k.id)) none

/-- Whether a granule of a command waits for a page that has been asked for. -/
def State.pageOut (s : State) (k : EngCmd) (g : Nat) : Bool := k.waits.any fun w => w.2.1 = g && s.askedPage k w.2.2

-- The order of granules (R350)

/-- The granules up to g that have not been delivered. -/
def EngCmd.undone (k : EngCmd) (g : Nat) : List Nat := (List.range (g + 1)).filter fun h => !k.done.contains h

/-- The granules that start before granule g does: those below it that have not started (R350). scat has no such order. -/
def EngCmd.toStart (k : EngCmd) (g : Nat) : List Nat :=
  if k.kind = .scat then []
  else (k.undone g).filter fun h => h ≠ g && decide (k.begun ≤ h) && !(k.flown.any fun f => f.gran = h)

/-- Whether granule g may complete next (R350, R392): one in flight that was not abandoned may; another starts while no more than
16 are in flight, none waits on a page, and the sluice has not closed. -/
def EngCmd.mayRun (k : EngCmd) (g : Nat) : Bool :=
  !k.stop && g < k.total && !k.done.contains g && !(k.flown.any fun f => f.gran = g)
    && (k.kind = .scat || (decide (g < k.begun) && !k.gone.contains g)
      || (decide (k.begun ≤ g) && !k.shut && k.waits.isEmpty && decide ((k.undone g).length ≤ 16)))

/-- Granules of a command up to g have started (R350). -/
def State.began (s : State) (id g : Nat) : State := s.modCmd id fun k => { k with begun := max k.begun (g + 1) }

/-- Granule g has started and waits for a page, which is asked for; once the sluice has closed it is abandoned (R350). -/
def State.waitGran (s : State) (k : EngCmd) (g va : Nat) (wr : Bool) : State :=
  if k.shut then s.modCmd k.id fun k => { k with gone := k.gone ++ [g] }
  else ((s.modCmd k.id fun k => { k with waits := (k.waits.filter fun w => w.2.1 ≠ g) ++ [(wr, g, va)] }).began k.id g).askPage
    k va wr

/-- The pages of granules checked in the order in which they start (R350): the first that is not resident is asked for, and the
first that fails stops the command. -/
def State.startGrans (s : State) (k : EngCmd) : List Nat → State × Bool
  | [] => (s, true)
  | g :: gs =>
    match s.engCheck k (s.granPieces k g) with
    | (s, .ok _) => s.startGrans k gs
    | (s, .fail c va) => (s.stopCmd k.id c va, false)
    | (s, .wait va wr) => (s.waitGran k g va wr, false)

/-- A granule written (R195, R228, R229): performed at once, or when the last write of the command has reached every die copy;
it brings code 4 if its source was poisoned, and an `extra` code if that is not 0. -/
def State.delivered (s : State) (k : EngCmd) (g : Nat) (bad : Bool) (addr : Option Nat) (extra : Nat) : State :=
  let f : Flight := ⟨g, k.counted g, (if bad then [(4, addr)] else []) ++ if extra = 0 then [] else [(extra, none)]⟩
  if s.engPushes k.id then s.modCmd k.id fun k => { k with flown := k.flown ++ [f] } else s.deliver k.id f

/-- Bytes put into the shared memory of a command's block. -/
def State.shmPut (s : State) (b off : Nat) (bs : List (Byte × Bool)) : State :=
  s.modBlk b fun bl => { bl with shm := bl.shm.write off bs }

/-- The result of adding to a location or cell at its home (R219, R232): new bytes; a poisoned one stays poisoned. -/
def addHome (k : EngCmd) (fc : Nat) (old : List (Byte × Bool)) (v : Nat) : List (Byte × Bool) :=
  let bad := old.any (·.2)
  let raw := old.map (·.1)
  let env : Env := ⟨rmOfCode k.rm, k.daz, k.ftz⟩
  if fc = 0x42 then
    let x := toXacc .f32 k.daz v
    (xaccBytes (xaccAdd (xaccOf raw) x.1 x.2.1)).map fun b => (b, bad)
  else
    let f : Fmt := if fc = 0x0B then .f64 else .f32
    (leBytes (f.width / 8) (fpAdd f env (leNat raw) v).1).map fun b => (b, bad)

/-- Values added to consecutive elements of w bytes (R219, R232). -/
def addAll (k : EngCmd) (fc w : Nat) : List (Byte × Bool) → List Nat → List (Byte × Bool)
  | _, [] => []
  | old, v :: vs => addHome k fc (old.take w) v ++ addAll k fc w (old.drop w) vs

/-- Checked parts that are written, and those that are only read. -/
def writes (xs : List (Piece × Xl)) : List (Piece × Xl) := xs.filter fun p => p.1.wr
def reads (xs : List (Piece × Xl)) : List (Piece × Xl) := xs.filter fun p => !p.1.wr

/-- Whether every checked part that is written can be written now. -/
def State.allWritable (s : State) (k : EngCmd) (g : Nat) (xs : List (Piece × Xl)) : Bool :=
  (writes xs).all fun p => s.mayWrite k.id g p.2.pkg p.2.pa p.1.len

-- copy (R230)

/-- A granule of a copy moved. -/
def State.copyGran (s : State) (k : EngCmd) (g : Nat) (xs : List (Piece × Xl)) : State :=
  let q := (copyGrans k.group).getD g default
  let bs := if k.srcS then (s.blk k.blk).shm.read q.src q.len else s.engRead k (reads xs)
  let s := if k.dstS then s.shmPut k.blk q.dst bs else s.engWrites k (writes xs) bs
  s.delivered k g (bs.any (·.2)) (if k.srcS then none else some q.src) 0

-- gath and scat (R231, R232)

/-- A position of a gath delivered: the row of its index, fetched once and replayed, or zeros for an index out of range
(R231). -/
def State.gathGran (s : State) (k : EngCmd) (g : Nat) (xs : List (Piece × Xl)) : State :=
  let r := k.handle.record
  let rb := gathRow r
  let i := s.indexOf k g
  let out : Bool := recNrow r ≤ i
  let bs := if out then List.replicate rb (0, false) else if tget k.rows i ≠ [] then tget k.rows i else s.engRead k xs
  let s := if out then s else s.modCmd k.id fun k => { k with rows := tset k.rows i bs }
  (s.shmPut k.blk (grp k.group 0 + g * rb) bs).delivered k g (bs.any (·.2)) (some (shapeRow r i)) (if out then 5 else 0)

/-- A source row of a scat: its FP32 values. -/
def State.scatVals (s : State) (k : EngCmd) (p : Nat) : List Nat :=
  let r := k.handle.record
  let a := grp k.group 0 + p * scatRow r
  (List.range (recNcol r)).map fun q => (s.blk k.blk).shm.num (a + 4 * q) 4
/-- Whether a source row holds poison. -/
def State.scatBad (s : State) (k : EngCmd) (p : Nat) : Bool :=
  let n := scatRow k.handle.record
  ((s.blk k.blk).shm.read (grp k.group 0 + p * n) n).any (·.2)

/-- Rows of one index summed at the engine in ascending position, each step rounded (R232). -/
def State.scatSum (s : State) (k : EngCmd) : List Nat → List Nat
  | [] => []
  | p :: ps =>
    let env : Env := ⟨rmOfCode k.rm, false, k.ftz⟩
    ps.foldl (fun acc q => (acc.zip (s.scatVals k q)).map fun v => (fpAdd .f32 env v.1 v.2).1) (s.scatVals k p)

/-- A position of a scat added: into FP32 with every other position of its index, once; into XACC alone (R232). -/
def State.scatGran (s : State) (k : EngCmd) (g : Nat) (xs : List (Piece × Xl)) : State :=
  let r := k.handle.record
  let fc := recFcode r
  let i := s.indexOf k g
  if recNrow r ≤ i then s.delivered k g false none 5
  else if k.cover.contains g then s.delivered k g false none 0
  else
    let mine := (List.range (grp k.group 2)).filter fun p =>
      p = g || (fc = 0x0A && s.indexOf k p = i && !k.cover.contains p && !k.done.contains p)
    let bad := mine.any (s.scatBad k)
    let old := s.engRead k xs
    let new := addAll k fc (shapeBytes r) old (s.scatSum k mine)
    let new := if bad then new.map fun b => (b.1, true) else new
    let s := (s.engWrites k xs new).modCmd k.id fun k => { k with cover := k.cover ++ mine }
    s.delivered k g bad none 0

-- drain (R219)

/-- A granule of a drain delivered: a poisoned element is written with its poison (R229). -/
def State.drainGran (s : State) (k : EngCmd) (g : Nat) (xs : List (Piece × Xl)) : State :=
  let q := k.drainGrans.getD g default
  let w := k.elemBytes
  let vs := (List.range (q.len / w)).map fun n => (tget k.tile (q.src + n)).toNat
  let bs := match k.mode with
    | .st => clean (vs.flatMap (leBytes w))
    | _ => addAll k (recFcode k.handle.record) w (s.engRead k xs) vs
  let bad (i : Nat) : Bool := tget k.tileBad (q.src + i / w)
  let bs := ((List.range bs.length).zip bs).map fun b => (b.2.1, b.2.2 || bad b.1)
  (s.engWrites k xs bs).delivered k g ((List.range q.len).any bad) none 0

/-- The cells that a granule of exact sums adds to (R185). -/
def State.noteCells (s : State) (k : EngCmd) (xs : List (Piece × Xl)) : State :=
  if recFcode k.handle.record ≠ 0x42 || !(k.kind = .scat || k.kind = .drain) then s
  else xs.foldl (fun s e => (List.range (e.1.len / 64)).foldl (fun s i =>
    s.modCoh fun h => h.withCell (s.physKey e.2.pkg e.2.pa / 64 + i)) s) s

/-- A granule performed, once every page that it and those started before it touch is resident (R350); until the leases on what
it writes have passed it waits at its homes as a write (R365, R369). -/
def State.granule (s : State) (k : EngCmd) (g : Nat) : State :=
  if !k.mayRun g || s.pageOut k g then s
  else
    match s.startGrans k (k.toStart g) with
    | (s, false) => s
    | (s, true) =>
      match s.engCheck k (s.granPieces k g) with
      | (s, .ok xs) =>
        let s := s.noteCells k (writes xs)
        (if !s.allWritable k g xs then s.reserve k g (writes xs)
        else
        let s := ((s.unreserve k.id g).countEng k xs).engSaw k xs
        match k.kind with
          | .copy => s.copyGran k g xs
          | .gath => s.gathGran k g xs
          | .scat => s.scatGran k g xs
          | .drain => s.drainGran k g xs
          | _ => s).began k.id g
      | (s, _) => (s.startGrans k [g]).1

/-- The parts of a granule that reach a peer package (R348), its source before its destination. -/
def State.granPeers (s : State) (k : EngCmd) (g : Nat) : List Piece := (s.granPieces k g).filter fun p => isPeer p.va

/-- Whether a granule reaches a peer package (R348). -/
def State.granRemote (s : State) (k : EngCmd) (g : Nat) : Bool := (s.granPieces k g).any fun p => isPeer p.va

/-- A granule started over the link, on its way to the peer (R346, R348): the operation's key is the granule. -/
def State.sendGran (s : State) (k : EngCmd) (g : Nat) : State :=
  let va := ((s.granPeers k g).head?.map (·.va)).getD 0
  let o : HomeOp := { (default : HomeOp) with pkg := k.pkg, key := g, va := va, who := .engine k.id, ctx := k.ctx }
  if s.coh.remote.any fun t => t.op.who = .engine k.id && t.op.key = g then s
  else
    match s.startGrans k (k.toStart g) with
    | (s, false) => s
    | (s, true) =>
      (s.modCoh fun h => { h with remote := h.remote ++ [⟨k.pkg, peerNo va, peerOff va, o, s.ns, k.pc⟩] }).began k.id g

/-- A granule event of one kind of command: a granule over the link that comes before it must have been sent (R350). -/
def State.granEvent (s : State) (kind : EngKind) (id g : Nat) : State :=
  match s.cmd? id with
  | none => s
  | some k =>
    if k.kind ≠ kind || !k.mayRun g || (k.toStart g).any (s.granRemote k) then s
    else if s.granRemote k g then s.sendGran k g
    else s.granule k g

/-- COPY_GRANULE (R230). -/
def execCopyGranule (cmd g : Nat) (s : State) : Out := .next (s.granEvent .copy cmd g)
/-- GATH_POSITION (R231). -/
def execGathPosition (cmd p : Nat) (s : State) : Out := .next (s.granEvent .gath cmd p)
/-- SCAT_POSITION (R232). -/
def execScatPosition (cmd p : Nat) (s : State) : Out := .next (s.granEvent .scat cmd p)
/-- DRAIN_GRANULE (R219). -/
def execDrainGranule (cmd g : Nat) (s : State) : Out := .next (s.granEvent .drain cmd g)

-- The end of a command (R229)

/-- A command ended: a nonzero code is an event of its grid (R341); the results land, ECNT falls, the command is gone. -/
def State.finish (s : State) (k : EngCmd) (ws : List Word) : State :=
  let bl := s.blk k.blk
  let s := if k.code = 0 then s
    else s.countEvent k.pkg k.ctx bl.grid 7
      (s.threadEvent k.blk k.tid (frameWord 0 k.pc false) (tcauseWord 0 k.badAddr) k.code)
  let s := k.tids.foldl (fun s t =>
    (s.landWords k.blk t (dstWords (BitVec.ofNat 8 k.sreg) ws) false true).modThr k.blk t fun th =>
      { th with ecnt := th.ecnt - 1 }) s
  { s with cmds := s.cmds.filter fun o => o.id ≠ k.id }

/-- The status word (R229). -/
def statusWord (done code : Nat) : Word := BitVec.ofNat 32 (min done 0xFFFFFF * 256 + code)

/-- ENGINE_STATUS_WRITE (R229): once every granule is delivered, or a code has stopped the command, the bytes not
delivered leave PEND and the status is written. -/
def execEngineStatusWrite (cmd : Nat) (s : State) : Out :=
  match s.cmd? cmd with
  | none => .next s
  | some k =>
    let ended : Bool := match k.kind with
      | .sample => false
      | .gauge => k.stop || k.result.isSome
      | _ => k.stop || k.done.length = k.total
    if !ended || k.flown ≠ [] || s.engPushes cmd then .next s
    else
      let rest := (((List.range k.total).filter fun g => !k.done.contains g).map k.counted).sum
      let s := match k.barb with
        | some off => if rest = 0 then s else s.barbSub k.blk off rest
        | none => s
      let s := s.modCoh fun h => { h with remote := h.remote.filter fun t => t.op.who ≠ .engine cmd }
      .next (s.finish k [statusWord k.done.length k.code])

-- sample (R302-R308)

/-- A row of logits read part by part (R305): the bytes, or where it stops. -/
def State.logitBytes (s : State) (k : EngCmd) : List Piece → State × Checked × List Byte
  | [] => (s, .ok [], [])
  | p :: ps =>
    match s.engCheck k [p] with
    | (s, .ok xs) =>
      let s := s.countEng k xs
      let bs := s.engRead k xs
      match bs.findIdx? (·.2) with
      | some i => (s, .fail 4 (p.va + i), [])
      | none =>
        match s.logitBytes k ps with
        | (s, c, rest) => (s, c, bs.map (·.1) ++ rest)
    | (s, c) => (s, c, [])

/-- Bytes as elements of w bytes. -/
def elemsOf (w : Nat) (bs : List Byte) : List Nat :=
  (List.range (bs.length / w)).map fun i => leNat ((bs.drop (w * i)).take w)

/-- What a sample gives where a logit was written while it ran (R308): any token, or a code of R305. -/
def freeSample (v n : Nat) : Nat × Nat :=
  if n % (v + 1) = v then (0xFFFFFFFF, [1, 3, 4, 6].getD (n / (v + 1) % 4) 6) else (n % (v + 1), 0)

/-- SAMPLE_COMPLETE (R302, R305, R306): one of the two commands that the units of a die run ends. -/
def execSampleComplete (cmd : Nat) (s : State) : Out :=
  match s.cmd? cmd with
  | none => .next s
  | some k =>
    let units := (s.samplesOn k.pkg (dieOf (s.blk k.blk).core)).take 2
    if k.kind ≠ .sample || k.shut || !(units.any fun u => u.id = cmd) || s.pageOut k 0 then
      .next s
    else
      let r := k.handle.record
      let w := shapeBytes r
      let v := grp k.group 1
      let done (s : State) (k : EngCmd) (o : Nat × Nat) : State :=
        s.finish { k with code := o.2 } [BitVec.ofNat 32 o.1, statusWord 0 o.2]
      if k.dirty then .next (done s k (freeSample v (Config.freeDraw s.tick)))
      else if k.stop then .next (done s k (0xFFFFFFFF, k.code))
      else match s.logitBytes k (pieces (shapeRow r (grp k.group 0)) (v * w) true false) with
        | (s, .ok _, bs) => .next (done s k (sampleRow (if w = 4 then .f32 else .bf16) (elemsOf w bs) k.group k.seed))
        | (s, .fail c va, _) => .next (done s (k.met c (some va)) (0xFFFFFFFF, c))
        | (s, .wait va _, _) =>
          .next ((s.modCmd cmd fun k => { k with waits := [(false, 0, va)] }).askPage k va false)

-- gauge (R234)

/-- Whether a page's mark is set (R234). -/
def State.pageMarked (s : State) (p x va : Nat) : Bool := tget (s.pctx p x).clean (va / 65536) = 0

/-- A leaf: the bytes hashed, or what stands for a page that is unmapped, poisoned or failing (R234). -/
inductive Leaf64 where
  | hash (bs : List Byte)
  | unmapped
  | poisoned
  | fail (code va : Nat)
deriving DecidableEq, Repr, Inhabited

/-- The bytes of a page, read part by part. A 64 KiB page of whose leaves one is unmapped is unmapped as a whole, also where
another is poisoned (DESIGN CHOICE, log entry 78). -/
def State.leafBytes (s : State) (k : EngCmd) : List Piece → State × Leaf64
  | [] => (s, .hash [])
  | p :: ps =>
    match s.engCheck k [p] with
    | (s, .wait _ _) => (s, .unmapped)
    | (s, .fail c va) => (s, .fail c va)
    | (s, .ok xs) =>
      let s := s.countEng k xs
      let bs := s.engRead k xs
      match s.leafBytes k ps with
      | (s, .hash rest) => if bs.any (·.2) then (s, .poisoned) else (s, .hash (bs.map (·.1) ++ rest))
      | (s, .unmapped) => (s, .unmapped)
      | (s, .fail c va) => (s, .fail c va)
      | (s, .poisoned) => (s, .poisoned)

/-- The nodes on the way from a leaf to the root, the lowest first. -/
def ancestors : Nat → Nat → List Nat
  | 0, _ => []
  | fuel + 1, n => if n ≤ 1 then [] else n / 2 :: ancestors fuel (n / 2)

/-- The nodes a set of leaves changes, the deepest first, each once. -/
def changedNodes (n : Nat) (ps : List Nat) : List Nat :=
  let up := (ps.flatMap fun p => ancestors 64 (n + p)).eraseDups
  up.mergeSort fun a b => b ≤ a

/-- A tree under construction: node number and its 32 bytes with their poison. -/
abbrev Tree := List (Nat × List (Byte × Bool))

/-- A node's bytes: the new ones, or those that memory holds. -/
def State.nodeBytes (s : State) (c : Nat) (x : Nat → Option Xl) (t : Tree) (n : Nat) : List (Byte × Bool) :=
  match t.find? fun e => e.1 = n with
  | some e => e.2
  | none => match x n with
    | some l => s.readHome l.pkg c l.pa 32
    | none => List.replicate 32 (0, false)

/-- The inner nodes computed from their children (R234). -/
def State.treeUp (s : State) (c : Nat) (x : Nat → Option Xl) (t : Tree) : List Nat → Tree
  | [] => t
  | n :: ns =>
    let kids := s.nodeBytes c x t (2 * n) ++ s.nodeBytes c x t (2 * n + 1)
    let bad := kids.any (·.2)
    s.treeUp c x ((n, (sha256 (kids.map (·.1))).map fun b => (b, bad)) :: t) ns

/-- The leaves of some pages (R234): one written while the gauge ran is not defined. -/
def State.leaves (s : State) (k : EngCmd) : List Nat → State × Tree × Nat × Option (Nat × Nat)
  | [] => (s, [], 0, none)
  | p :: ps =>
    let va := grp64 k.group 0 + 65536 * p
    match s.leafBytes k (pieces va 65536 true false) with
    | (s, .fail c a) => (s, [], 0, some (c, a))
    | (s, l) =>
      let bs : List Byte := match l with
        | .hash bs =>
          if k.cover.contains p then (List.range 32).map fun i => Config.freeByte s.tick (va + i) else sha256 bs
        | .poisoned => List.replicate 32 0xFF#8
        | _ => List.replicate 32 0
      match s.leaves k ps with
      | (s, t, c, e) => (s, (grp k.group 2 + p, clean bs) :: t, if l = .poisoned then 4 else c, e)

/-- The translations of the tree's nodes, in order; a page that is not resident or fails ends the list there. -/
def State.nodeXls (s : State) (k : EngCmd) (tree : Nat) : List Nat → State × Checked
  | [] => (s, .ok [])
  | n :: ns =>
    match s.engCheck k [⟨tree + 32 * n, 32, true, true⟩] with
    | (s, .ok xs) =>
      match s.nodeXls k tree ns with
      | (s, .ok ys) => (s, .ok (xs ++ ys))
      | o => o
    | o => o

/-- The marks cleared by a gauge: of the pages it rehashed that were not written meanwhile (R234). -/
def State.clearMarks (s : State) (k : EngCmd) (ps : List Nat) : State :=
  let k := (s.cmd? k.id).getD k
  ps.foldl (fun s p =>
    let va := grp64 k.group 0 + 65536 * p
    if k.cover.contains p then s
    else
      s.modCtx k.pkg k.ctx fun c => { c with clean := tset c.clean (va / 65536) 1 }) s

/-- GAUGE_COMPLETE (R234): the leaves rehashed, their ancestors recomputed, the count in slot 0, the marks cleared. -/
def execGaugeComplete (cmd : Nat) (s : State) : Out :=
  match s.cmd? cmd with
  | none => .next s
  | some k =>
    if k.kind ≠ .gauge || k.stop || k.result.isSome || k.shut || s.pageOut k 0 then .next s
    else
      let n := grp k.group 2
      let tree := grp64 k.group 4
      let full : Bool := grp k.group 3 = 1
      let ps := (List.range n).filter fun p =>
        full || k.cover.contains p || s.pageMarked k.pkg k.ctx (grp64 k.group 0 + 65536 * p)
      let inner := changedNodes n ps
      let kids := (inner.flatMap fun m => [2 * m, 2 * m + 1]).eraseDups
      let nodes := (0 :: ps.map (n + ·) ++ inner ++ kids).eraseDups
      match s.leaves k ps with
      | (s, _, _, some (c, va)) => .next (s.stopCmd cmd c va)
      | (s, t, code, none) =>
        match s.nodeXls k tree nodes with
        | (s, .fail c va) => .next (s.stopCmd cmd c va)
        | (s, .wait va _) =>
          .next ((s.modCmd cmd fun k => { k with waits := [(true, 0, va)] }).askPage k va true)
        | (s, .ok xs) =>
          if !(xs.all fun x => s.mayWrite cmd 0 x.2.pkg x.2.pa 32) then .next (s.reserve k 0 xs)
          else
            let s := ((s.unreserve cmd 0).countEng k xs).engSaw k xs
            let at_ (m : Nat) : Option Xl := (xs.find? fun x => x.1.va = tree + 32 * m).map (·.2)
            let t := s.treeUp k.ctx at_ t inner
            let t := (0, clean (leBytes 32 ps.length)) :: t
            let code := if t.any fun e => e.2.any (·.2) then 4 else code
            let s := t.foldl (fun s e => match at_ e.1 with
              | some x => s.engWrite k x (tree + 32 * e.1) e.2
              | none => s) s
            let s := s.clearMarks k ps
            .next (s.modCmd cmd fun k =>
              let k := if code = 0 then k else k.met code none
              { k with result := some (BitVec.ofNat 32 ps.length, code) })

end Sys2Proof.Machine
end

