-- ==== Sys2Proof/Machine/Issue.lean ====
section
/-! DEFINITION. The issue of a warp, member by member: which member executes next, what it executes, and the end of
the issue with its tags, its cost and the warp's fate (spec/10_regrouping.md R247, R252-R255, R261,
spec/01_machine_state.md R20-R22). -/

namespace Sys2Proof.Machine

/-- The order of the warps that issue in one cycle, by their next members: ascending tid (R188), and behind all others
those whose instruction writes a block register (R28), then those that reshape, then those of codereg. A warp without a member
left comes last. So the tags that an issue changes are seen by no shapeq of its cycle, and a status that lands in it applies
to the tag that a reshape of the cycle makes (R117, R118). -/
def IssueWarp.order (w : IssueWarp) : Nat :=
  match w.todo with
  | [] => 8192
  | m :: _ => w.last * 2048 + m.2 + 1

/-- The warp that comes first put at the front. -/
def frontWarp : List IssueWarp → List IssueWarp
  | [] => []
  | w :: r => match frontWarp r with
    | [] => [w]
    | v :: q => if v.order < w.order then v :: w :: q else w :: v :: q

/-- The issuing warps with the one whose member executes next at the front. -/
def State.fronted (s : State) : State := { s with issue := frontWarp s.issue }

/-- The issuing warp's next member made the executing thread. -/
def State.takeMember (s : State) : Option State :=
  match s.issue with
  | [] => none
  | w :: r =>
    match w.todo with
    | [] => none
    | m :: ms => some { s with cur := m, issue := { w with todo := ms, done := m :: w.done } :: r }

/-- Whether the executing thread takes part in the issue (R253): it stands at the warp's PC and can issue, or it waits
there at an exchange or a crew instruction whose group issues (R257, R258). -/
def State.takesPart (s : State) : Bool :=
  let th := s.me
  th.pc = s.iw.pc && (th.issuable || match th.wait with
    | some .exchange => true
    | some (.crew _) => true
    | _ => false)

/-- What the executing thread does next: an instruction to execute; nothing more, its fetch having raised a fault or
parked it; or the fetch of a poisoned word. -/
inductive Ready where
  | run (i : Instr) (s : State)
  | done (s : State)
  | poisoned
deriving DecidableEq, Repr, Inhabited

/-- The executing thread's fetch and decoding: a fault of either is taken at its PC (R61, R84, R387), and a page that is
not resident parks it (R175). The fault of a poisoned pass comes before both (R213). -/
def State.prepare (s : State) : Ready :=
  if !s.takesPart then .done s
  else match s.panelFault with
    | some a => .done (s.takePanelFault a)
    | none => match s.fetch with
      | (s, .fault cause sub addr) => .done (s.faultMe cause sub addr)
      | (s, .absent) => .done (s.parkMe s.me.pc.toNat false)
      | (_, .poisoned) => .poisoned
      | (s, .word w) =>
        match decode w with
        | .error (cause, sub) => .done (s.faultMe cause sub none)
        | .ok i => .run i s

/-- The registers of furrows that an issue wrote: block, furrow, register, each once. -/
def wroteKeys : List (Nat × Nat × Nat) → List (Nat × Nat × Nat)
  | [] => []
  | (b, t, r) :: l =>
    let k := wroteKeys l
    if k.contains (b, t / 32, r) then k else (b, t / 32, r) :: k

/-- The tag of one register of a furrow after an issue that wrote it (R20, R261). -/
def Block.tagIssue (bl : Block) (f r : Nat) (ts : List Nat) : Block :=
  bl.tagWrites f r (ts.map fun t => (t % 32, tget (tget bl.threads t).regs r))

/-- The tags after an issue, and whether one became general. -/
def State.tagAll (s : State) (wrote : List (Nat × Nat × Nat)) : State × Bool :=
  (wroteKeys wrote).foldl (fun (acc : State × Bool) k =>
    let (s, g) := acc
    let (b, f, r) := k
    let ts := (wrote.filter fun w => w.1 = b && w.2.1 / 32 = f && w.2.2 = r).map (·.2.1)
    let old := tget (s.blk b).tags (tagKey f r)
    let s := s.modBlk b fun bl => bl.tagIssue f r ts
    (s, g || (old ≠ .general && tget (s.blk b).tags (tagKey f r) = .general))) (s, false)

/-- A change of a tag to general, or by reshape, lengthens the issue by 2 cycles for a member that took part (R22, R118,
R252). -/
def Thread.later (th : Thread) (serial last : Nat) : Thread :=
  { th with
    fresh := th.fresh.map fun f => if f.serial = serial then { f with ready := f.ready + 2 } else f
    stallUntil := if th.readySince = last then th.stallUntil + 2 else th.stallUntil
    issued := if th.issued = last then last + 2 else th.issued
    readySince := if th.readySince = last then last + 2 else th.readySince }

/-- Whether a thread is a member of a standing warp of its core. -/
def Core.stands (k : Core) (b t : Nat) : Bool := k.warps.any fun w => w.lanes.any fun l => l.1 = b && l.2.1 = t

/-- Whether a bucket held a loose issuable thread in a cycle that has passed (R246, R254). -/
def State.bucketHeld (s : State) (k : Core) (b : Nat) (pc : VAddr) (mode : Bool) (at_ : Nat) : Bool :=
  (s.blk b).threads.any fun t =>
    t.2.issuable && t.2.pc = pc && t.2.ms.mode = mode && t.2.readySince ≤ at_ && !k.stands b t.1

/-- Whether the warp dissolves at the end of its issue, a merge apart (R253): by an event, or because its members stand at different
PCs or in different modes, as after a guarded call some of whose members are predicated off (DEDUCED, log entry 62). -/
def State.dissolves (s : State) (w : IssueWarp) : Bool :=
  w.event || match w.lanes with
    | [] => true
    | (b, t, _) :: _ =>
      let th := s.thr b t
      w.lanes.any fun l => let o := s.thr l.1 l.2.1; !o.issuable || o.pc ≠ th.pc || o.ms.mode ≠ th.ms.mode

/-- Whether the warp's issue presents a merge opportunity (R254): a branch of every member to one target other than the next
word, with fewer than 32 members. -/
def State.mayMerge (s : State) (w : IssueWarp) : Bool :=
  w.branch && w.lanes.length < 32 && w.lanes.all fun l => (s.thr l.1 l.2.1).pc ≠ w.pc + 8

/-- THE END OF AN ISSUE: the tags of the registers written, the cycles a change of a tag costs, the picker's bound
(R252), and the warp standing or dissolved (R247, R253). A merge is decided once the issue's last cycle has passed. -/
def State.endIssue (s : State) : State :=
  match s.issue with
  | [] => s
  | w :: rest =>
    let last := w.start + w.x
    let (s, g) := s.tagAll w.wrote
    let g := g || w.g
    let s := if g then w.done.foldl (fun s m => s.modThr m.1 m.2 fun th => th.later w.serial last) s else s
    let ended := last + (if g then 2 else 0)
    let gone := s.dissolves w
    let s := s.modCore w.pkg w.core fun k =>
      { k with
        pickBusy := tset k.pickBusy w.part (ended + 1)
        warps := if gone then k.warps else k.warps ++ [⟨w.formed, w.part, w.lanes, ended, s.mayMerge w⟩] }
    { s with issue := rest }

/-- The end of a member's turn: the issues of a cycle end once all their members have executed. -/
def State.settle (s : State) : State := if s.issue.all fun w => w.todo.isEmpty then s.endIssue else s

/-- The model's counter of free values read and advanced. -/
def State.ticked (s : State) : State := { s with tick := s.tick + 1 }

-- A machine about to run one instruction (log entry 9)

/-- A page-table entry: V, R, W and LEAF over a physical address (R375). -/
def pteWord (pa : Nat) (leaf : Bool) : Dword := BitVec.ofNat 64 (pa + leaf.toNat * 8 + 7)

/-- The launch record of a grid of one block of one thread (R235): 4,096 bytes of shared memory, 256 of local memory
and 64 parameter bytes, code at an address, one role of one furrow with 248 registers. -/
def oneThreadRecord (code : Nat) : List Dword :=
  [0x0000000100000001#64, 0x0000100000000001#64, 0x0111000000400801#64, BitVec.ofNat 64 code, 0,
    0x0000004000000100#64, 0, 0, 0x000000020001F800#64, 0, 0, 0, 0, 0, 0, 0]

/-- Package 0 booted, its partition 0 over one open region; context 0 on it, whose tables at 4,096 map the first GiB to
itself as data and the second as a code object of 1,024 slots; block 0 with one thread at the object's slot 2, about to
issue as a warp of one; the word given stands there. -/
def State.loaded (s : State) (w : Dword) : State :=
  let rg : List Dword := [0, 0xBFFFFFF000#64, 0x4FF#64]
  let code : Nat := 0x40000000
  let s := s.modPkg 0 fun q =>
    { q with regions := tset q.regions 0 rg, boot := { q.boot with ready := true, stage := 6 } }
  let s := s.modCtx 0 0 fun c =>
    { c with live := true, part := 0, xlat := 0x1001#64, objs := [⟨BitVec.ofNat 57 code, 1024, []⟩], pre := .running }
  let s := s.writeDws 0 0x1000 [pteWord 0x2000 false]
  let s := s.writeDws 0 0x2000 [pteWord 0x3000 false]
  let s := s.writeDws 0 0x3000 [pteWord 0 true, pteWord code true]
  let s := s.write64 0 (code + 16) w
  let rec_ := oneThreadRecord code
  let th : Thread :=
    { (default : Thread) with
      pc := BitVec.ofNat 57 (code + 16), st := .ready, sp := 256#32, allot := 248
      ms := { (default : MState) with res := true } }
  let bl : Block :=
    { (default : Block) with
      place := .resident, record := rec_, threads := [(0, th)], hold := 0x40#16, bid := ⟨0, 0, 0⟩ }
  let iw : IssueWarp :=
    { (default : IssueWarp) with
      pc := th.pc, start := s.cycle, lanes := [(0, 0, 0)], todo := [(0, 0)] }
  { s with blocks := tset s.blocks 0 bl, issue := [iw], nextBlk := max s.nextBlk 1 }

end Sys2Proof.Machine
end

