-- ==== Sys2Proof/Machine/Weir.lean ====
section
/-! DEFINITION. The weir: the waits that end, the candidates of a picker, its choice, and the forming of warps
(spec/10_regrouping.md R245-R258, R264, R266; spec/06_isa_float.md R147; spec/24_package_system.md R411). -/

namespace Sys2Proof.Machine

-- Waits that end

/-- Whether the condition is met for which a thread waits to execute its instruction again. A rendezvous is not among
these: what completes it releases its threads. -/
def State.waitOver (s : State) (b t : Nat) (w : Wait) : Bool :=
  let bl := s.blk b
  let th := s.thr b t
  match w with
  | .counts l n e sc => s.countsHold b t l n e sc
  | .limit 0 => decide (th.lcnt < 63)
  | .limit 1 => decide (th.scnt < 63)
  | .limit _ => decide (th.ecnt < 31)
  | .held =>
    th.hold = 0 && !(s.core bl.pkg bl.core).viewLost && !(s.pkg bl.pkg).unsync
      && s.coh.ops.all fun o => o.who ≠ .thread b t || (match o.kind with | .store _ => true | _ => false)
  | .flags => !s.flagsOut b t
  | .window p q a => (!p || !bl.passesOut th) && (!q || s.windowQuiet b t a)
  | .passes => !bl.busy
  | .barb off ph => (bl.barbAt off).ph ≠ ph
  | .exitLoads => th.lcnt = 0
  | .stores => !s.storesOut b t
  | .shoot g => s.shootOver bl.pkg bl.ctx g
  | .shootTurn => s.shootFree bl.pkg bl.ctx
  | .codePage _ => s.coh.reqs.all fun q => !q.waiters.contains (.thread b t)
  | .queueFull => (s.samplesOn bl.pkg (dieOf bl.core)).length < 66
  | .sealEnd h => s.coh.lands.all fun l => !(l.blk = b && l.tid = t && l.sealH = some h)
  | .join _ _ | .barrier _ | .exchange | .crew _ | .lwait _ => false
  | .yieldHold => (s.pctx bl.pkg bl.ctx).pre ≠ .pending

/-- A thread whose wait is over executes its instruction again; a tlbi whose shootdown has ended completes (R381). The weir
looks in every cycle, so that the condition came to hold in the one before (R15, R246). -/
def State.wakeOver (s : State) (b t : Nat) : State :=
  match (s.thr b t).wait with
  | none => s
  | some w =>
    if !s.waitOver b t w then s
    else match w with
      | .shoot g =>
        let bl := s.blk b
        let s := s.modCtx bl.pkg bl.ctx fun c => { c with shoots := c.shoots.filter (· ≠ g) }
        (s.modThr b t fun th => th.release (s.cycle - 1)).ringBells bl.pkg bl.ctx
      | _ => s.modThr b t fun th => th.wake (s.cycle - 1)

/-- The resident blocks of a core. -/
def State.residents (s : State) (p c : Nat) : List (Nat × Block) :=
  s.blocks.filter fun (b : Nat × Block) => b.2.place = Place.resident && b.2.pkg = p && b.2.core = c

/-- Every wait of a core's running blocks that is over ended. -/
def State.wakeCore (s : State) (p c : Nat) : State :=
  (s.residents p c).foldl (fun s b =>
    if s.blockRuns b.2 then b.2.threads.foldl (fun s t => s.wakeOver b.1 t.1) s else s) s

/-- Standing warps with a member that can no longer issue dissolve (R247, R253). -/
def State.dropWarps (s : State) (p c : Nat) : State :=
  let keep (w : Warp) : Bool :=
    w.lanes.all fun l => (s.thr l.1 l.2.1).issuable && (s.blk l.1).place = .resident && s.blockRuns (s.blk l.1)
  s.modCore p c fun k => { k with warps := k.warps.filter keep }

/-- The merges whose branch's last cycle has passed decided (R254, R255): the warp dissolves if the bucket of its target
held a loose issuable thread in that cycle, and stands otherwise. -/
def State.mergeWarps (s : State) (p c : Nat) : State :=
  let k := s.core p c
  let due (w : Warp) : Bool := w.merge && w.lastEnd < s.cycle
  let goes (w : Warp) : Bool := match w.lanes with
    | [] => true
    | (b, t, _) :: _ => s.bucketHeld k b (s.thr b t).pc (s.thr b t).ms.mode w.lastEnd
  s.modCore p c fun k =>
    { k with warps := (k.warps.filter fun w => !(due w && goes w)).map fun w => if due w then { w with merge := false } else w }

-- Pipes (R147)

/-- The pipe an instruction needs in its partition, with its repeat interval: 1 FP32, 2 FP64, 3 special function. -/
def pipeOf : Instr → Option (Nat × Nat)
  | .dadd .. | .dmul .. | .dfma .. => some (2, 2)
  | .ddiv .. | .dsqrt .. | .drcp .. => some (2, 16)
  | .frcp .. | .frsq .. | .fsqrt .. | .fex2 .. | .flg2 .. | .fsinpi .. | .fcospi .. => some (3, 4)
  | .fdiv .. => some (3, 8)
  | .fadd .. | .fsub .. | .fmul .. | .ffma .. | .fmin .. | .fmax .. | .fminn .. | .fmaxn .. | .fcmp .. | .fclass ..
  | .frnd .. | .hadd2 .. | .hmul2 .. | .hfma2 .. | .fcvt .. | .f2i .. | .i2f .. | .fldx .. | .fexpo .. | .fmant ..
  | .mfpack .. | .mfunpk .. | .popnz .. | .spcomp .. => some (1, 1)
  | _ => none

/-- The instruction at an address of a context, if it can be read now and decodes, with its guard and STALL. -/
def State.peekInstr (s : State) (p x : Nat) (pc : VAddr) : Option (Instr × Ctl) :=
  (s.peek p x pc.toNat).bind fun w =>
    match decode w with
    | .error _ => none
    | .ok i => some (i, (Fields.ofDword w).ctl)

/-- The pipe that the instruction at an address needs. -/
def State.pipeAt (s : State) (p x : Nat) (pc : VAddr) : Option (Nat × Nat) :=
  (s.peekInstr p x pc).bind fun i => pipeOf i.1

/-- The place of the instruction at an address among the issues of a cycle: it writes JCFG, DETCFG or MGANG (R28, R208), it
reshapes, or its status lands at once (R117, R118). -/
def State.issueRank (s : State) (p x : Nat) (pc : VAddr) : Nat :=
  match s.peekInstr p x pc with
  | some (.csrw _ _ num, _) => if num = 0x011#12 || num = 0x012#12 then 1 else 0
  | some (.mgang _ _, _) => 1
  | some (.reshape _ _, _) => 2
  | some (.codereg _ _ _, _) => 3
  | _ => 0

/-- The key of a partition's pipe. -/
def pipeKey (q pipe : Nat) : Nat := q * 4 + pipe

/-- Whether the pipe that an address needs is outside its repeat interval (R245). -/
def State.pipeFree (s : State) (k : Core) (p x q : Nat) (pc : VAddr) : Bool :=
  match s.pipeAt p x pc with
  | none => true
  | some (n, _) => tget k.pipes (pipeKey q n) ≤ s.cycle

-- Candidates (R245-R249)

/-- What a picker can choose. -/
inductive Pick where
  | standing (w : Warp)
  | bucket (blk : Nat) (pc : VAddr) (mode : Bool)
  | exchange (blk lead : Nat) (group : List Nat)
  | crew (blk part : Nat) (ts : List Nat)
deriving DecidableEq, Repr, Inhabited

/-- A candidate with the key that ranks it (R249). -/
structure Cand where
  key : List Nat
  pick : Pick
deriving DecidableEq, Repr, Inhabited

/-- Whether a thread may be chosen now, its pipe apart (R245, R246). -/
def Thread.eligible (th : Thread) (now : Nat) : Bool := th.issuable && th.stallUntil ≤ now && th.readySince < now

/-- The key of a candidate (R249): smaller is preferred. `ths` are its eligible threads and `all_` all of its threads. -/
def rankKey (ths all_ : List Thread) (nq now : Nat) (crew : Bool) (age : Nat) (pc : VAddr) (kind slot formed : Nat) :
    List Nat :=
  let head :=
    if ths.any fun th => th.readySince + 2 * nq ≤ now then [0, 0, 0]
    else [1, 7 - all_.foldl (fun m th => max m th.prio) 0, (!(crew || all_.any fun th => th.ms.mode)).toNat]
  head ++ [age, pc.toNat, kind, slot, formed]

/-- The earliest ready-since of some threads. -/
def oldest (ths : List Thread) : Nat :=
  match ths with
  | [] => 0
  | th :: r => r.foldl (fun m o => min m o.readySince) th.readySince

/-- The threads of a block that a bucket holds and a picker could take now (R246). -/
def State.bucketThreads (s : State) (k : Core) (b : Nat) (pc : VAddr) (mode : Bool) : List (Nat × Thread) :=
  (s.blk b).threads.filter fun t =>
    t.2.eligible s.cycle && t.2.pc = pc && t.2.ms.mode = mode && !k.stands b t.1

/-- All the threads of a bucket: the loose ones of a block at a PC in a mode (R246). -/
def State.bucketAll (s : State) (k : Core) (b : Nat) (pc : VAddr) (mode : Bool) : List Thread :=
  ((s.blk b).threads.filter fun t => t.2.issuable && t.2.pc = pc && t.2.ms.mode = mode && !k.stands b t.1).map (·.2)

/-- The buckets of a core that hold an eligible loose thread homed on a partition: block, PC, mode. -/
def State.bucketsOf (s : State) (k : Core) (p c q : Nat) : List (Nat × VAddr × Bool) :=
  ((s.residents p c).flatMap fun b =>
    if !s.blockRuns b.2 then []
    else (b.2.threads.filter fun t =>
      t.2.eligible s.cycle && b.2.homePart t.1 = q && !k.stands b.1 t.1).map fun t =>
        (b.1, t.2.pc, t.2.ms.mode)).eraseDups

/-- The group of an exchange instruction (R196). -/
def exGroup (i : Instr) (t : Nat) : Option (List Nat) :=
  match i with
  | .qxchIdx .. | .qxchX .. | .qbcst .. => some (quadOf t)
  | .fshflIdx .. | .fshflUp .. | .fshflDown .. | .fshflXor .. | .fvoteAll .. | .fvoteAny .. | .fvoteUni ..
  | .fvoteBallot .. => some (furrowOf t)
  | _ => none

/-- The assembled exchange that a waiting thread leads, as its first member that has not exited (R257). Where the word
at its PC cannot be read now, the thread goes alone to meet that. -/
def State.exchangeAt (s : State) (b t : Nat) : Option Pick :=
  let bl := s.blk b
  let th := s.thr b t
  match s.peekInstr bl.pkg bl.ctx th.pc with
  | none => some (.exchange b t [t])
  | some (i, c) =>
    match exGroup i t with
    | none => some (.exchange b t [t])
    | some g =>
      let live := g.filter fun o => (tget bl.threads o).st ≠ .exited
      if live.headD t = t && s.exReady b g th.pc c (usesOf i) then some (.exchange b t live) else none

/-- The exchanges that a partition's picker can choose. -/
def State.exchangesOf (s : State) (p c q : Nat) : List Pick :=
  (s.residents p c).flatMap fun b =>
    if !s.blockRuns b.2 then []
    else b.2.threads.filterMap fun t =>
      if t.2.wait = some .exchange && t.2.st ≠ .parked && b.2.homePart t.1 = q && t.2.stallUntil ≤ s.cycle then
        s.exchangeAt b.1 t.1
      else none

/-- Whether an instruction runs passes, and so assembles only once the crew's passes are over (R289). -/
def runsPasses : Instr → Bool
  | .mma .. | .mmasp .. | .mmad .. => true
  | _ => false

/-- The crew of a block's assembled crew instruction (R206, R258). -/
def State.crewAt (s : State) (b : Nat) : Option Mgang :=
  let bl := s.blk b
  let lead := bl.threads.find? fun t => t.2.st ≠ .parked && match t.2.wait with
    | some (.crew _) => true
    | _ => false
  lead.bind fun t =>
    match t.2.wait with
    | some (.crew w) =>
      let g := Mgang.ofWord w
      let runs := (s.peekInstr bl.pkg bl.ctx t.2.pc).any fun i => runsPasses i.1
      if bl.crewReady g t.2.pc runs then some g else none
    | _ => none

/-- The part of an assembled crew instruction that a partition's picker can choose (R258). Once a part has issued, the
others may issue while the sluice closes or the core halts (R266). -/
def State.crewPartOf (s : State) (b q : Nat) : Option Pick :=
  let bl := s.blk b
  let halting : Bool := (s.pctx bl.pkg bl.ctx).pre = .closing || ((s.core bl.pkg bl.core).sliced && s.ctxRuns bl.pkg bl.ctx)
  let may : Bool := s.blockRuns bl || (halting && !bl.parts.isEmpty)
  if may && !bl.parts.contains q then
    (s.crewAt b).map fun g => .crew b q ((g.threads.drop (32 * q)).take 32)
  else none

-- Assembly (R15, R249)

/-- A group has assembled: from then its members' age counts. -/
def State.meet (s : State) (b : Nat) (ts : List Nat) : State :=
  s.modBlk b fun bl => ts.foldl (fun bl t => bl.modThr t fun th =>
    if th.met then th else { th with met := true, readySince := s.cycle - 1 }) bl

/-- The groups of a core that have assembled since the weir last looked. -/
def State.meetCore (s : State) (p c : Nat) : State :=
  (s.residents p c).foldl (fun s b =>
    if !s.blockRuns b.2 then s
    else
      let s := b.2.threads.foldl (fun s t =>
        if t.2.wait = some .exchange && !t.2.met && t.2.st ≠ .parked then
          match s.exchangeAt b.1 t.1 with
          | some (.exchange _ _ g) => s.meet b.1 g
          | _ => s
        else s) s
      match s.crewAt b.1 with
      | some g => s.meet b.1 g.threads
      | none => s) s

/-- The threads of a choice, those of a bucket that could not be chosen now among them. -/
def State.pickAll (s : State) (k : Core) (c : Pick) : List Thread :=
  match c with
  | .bucket b pc mode => s.bucketAll k b pc mode
  | .standing w => w.lanes.map fun l => s.thr l.1 l.2.1
  | .exchange b _ g => g.map fun t => s.thr b t
  | .crew b _ ts => ts.map fun t => s.thr b t

/-- The eligible threads of a choice. -/
def State.pickThreads (s : State) (k : Core) (c : Pick) : List Thread :=
  match c with
  | .standing w => w.lanes.map fun l => s.thr l.1 l.2.1
  | .bucket b pc mode => (s.bucketThreads k b pc mode).map (·.2)
  | .exchange b _ g => g.map fun t => s.thr b t
  | .crew b _ ts => ts.map fun t => s.thr b t

/-- The block of a choice. -/
def Pick.blk : Pick → Nat
  | .standing w => (w.lanes.headD default).1
  | .bucket b _ _ => b
  | .exchange b _ _ => b
  | .crew b _ _ => b

/-- The candidates of a partition's picker with their keys (R248, R249). -/
def State.candidates (s : State) (p c q : Nat) : List Cand :=
  let k := s.core p c
  let nq := ((s.residents p c).map fun b => ((List.range b.2.nthr).filter fun t => b.2.homePart t = q).length).sum
  let cand (y : Pick) (kind formed : Nat) (age : Option Nat) : Cand :=
    let ths := s.pickThreads k y
    let pc := (ths.headD default).pc
    ⟨rankKey ths (s.pickAll k y) nq s.cycle (kind = 0) (age.getD (oldest ths)) pc kind (s.blk y.blk).slot formed, y⟩
  let stand := k.warps.filter fun w =>
    w.part = q && (w.lanes.all fun l => (s.thr l.1 l.2.1).eligible s.cycle) &&
      (match w.lanes with
       | [] => false
       | (b, t, _) :: _ => s.pipeFree k p (s.blk b).ctx q (s.thr b t).pc)
  let bucks := (s.bucketsOf k p c q).filter fun y => s.pipeFree k p (s.blk y.1).ctx q y.2.1
  (stand.map fun w => cand (.standing w) 2 w.serial (some w.lastEnd))
    ++ (bucks.map fun y => cand (.bucket y.1 y.2.1 y.2.2) 3 0 none)
    ++ ((s.exchangesOf p c q).map fun y => cand y 1 0 none)
    ++ ((s.residents p c).filterMap fun b => (s.crewPartOf b.1 q).map fun y => cand y 0 0 none)

/-- The choice of each partition whose picker is free (R248). Two assembled exchanges of one block at one PC are equal under
R249's eight ranks; the one that comes first, whose lead has the lower tid, is taken (DESIGN CHOICE, log entry 73). -/
def State.choices (s : State) (p c : Nat) : List (Nat × Pick) :=
  (List.range 4).filterMap fun q =>
    if s.cycle < tget (s.core p c).pickBusy q then none
    else (leastBy Cand.key (s.candidates p c q)).map fun y => (q, y.pick)

-- Forming (R250, R251)

/-- The lowest free lane of 32. -/
def freeLane (used : List Nat) : Option Nat := (List.range 32).find? fun l => !used.contains l

/-- A thread placed in a lane behind those that come before it by tid. -/
def putLane (x : Nat × Nat × Nat) : List (Nat × Nat × Nat) → List (Nat × Nat × Nat)
  | [] => [x]
  | y :: ys => if x.2.1 < y.2.1 then x :: y :: ys else y :: putLane x ys

/-- A thread put at its place in ascending (ready-since, tid). -/
def putAge (x : Nat × Thread) : List (Nat × Thread) → List (Nat × Thread)
  | [] => [x]
  | y :: ys => if keyLt [x.2.readySince, x.1] [y.2.readySince, y.1] then x :: y :: ys else y :: putAge x ys

/-- Threads in ascending (ready-since, tid). -/
def byAge (ts : List (Nat × Thread)) : List (Nat × Thread) := ts.foldl (fun l x => putAge x l) []

/-- Pass 1: a thread takes its home lane if it is free. -/
def pass1 (b : Nat) (lanes : List (Nat × Nat × Nat)) (t : Nat) : List (Nat × Nat × Nat) :=
  if lanes.any fun l => l.2.2 = homeLane t then lanes else putLane (b, t, homeLane t) lanes
/-- Pass 2 and phase 2: a thread not placed takes the lowest free lane. -/
def pass2 (b : Nat) (lanes : List (Nat × Nat × Nat)) (t : Nat) : List (Nat × Nat × Nat) :=
  if lanes.any fun l => l.2.1 = t then lanes
  else match freeLane (lanes.map (·.2.2)) with
    | some n => putLane (b, t, n) lanes
    | none => lanes

/-- Phase 1 of a picker that chooses a bucket. -/
def State.phase1 (s : State) (k : Core) (q b : Nat) (pc : VAddr) (mode : Bool) : List (Nat × Nat × Nat) :=
  let own := ((byAge ((s.bucketThreads k b pc mode).filter fun t => (s.blk b).homePart t.1 = q)).take 32).map (·.1)
  let l := own.foldl (pass1 b) []
  if mode then l else own.foldl (pass2 b) l

/-- Phase 2: threads of other partitions that no picker took in this cycle, at most 8. -/
def State.phase2 (s : State) (k : Core) (q b : Nat) (pc : VAddr) (mode : Bool) (lanes : List (Nat × Nat × Nat))
    (taken : List (Nat × Nat)) : List (Nat × Nat × Nat) :=
  if mode then lanes
  else
    let far := (byAge ((s.bucketThreads k b pc mode).filter fun t =>
      (s.blk b).homePart t.1 ≠ q && !taken.contains (b, t.1))).map (·.1)
    (far.take (min 8 (32 - lanes.length))).foldl (pass2 b) lanes

/-- The members of a warp in home lanes. -/
def homeLanes (b : Nat) (ts : List Nat) : List (Nat × Nat × Nat) :=
  ts.foldl (fun l t => putLane (b, t, homeLane t) l) []

/-- The lanes of every choice after phase 1. -/
def State.formed1 (s : State) (k : Core) (c : Nat × Pick) : List (Nat × Nat × Nat) :=
  match c.2 with
  | .standing w => w.lanes
  | .bucket b pc mode => s.phase1 k c.1 b pc mode
  | .exchange b _ g => homeLanes b g
  | .crew b _ ts => homeLanes b ts

/-- Phase 2 over the pickers in ascending order. -/
def State.formed2 (s : State) (k : Core) :
    List ((Nat × Pick) × List (Nat × Nat × Nat)) → List (Nat × Nat) → List ((Nat × Pick) × List (Nat × Nat × Nat))
  | [], _ => []
  | (c, lanes) :: r, taken =>
    match c.2 with
    | .bucket b pc mode =>
      let l := s.phase2 k c.1 b pc mode lanes taken
      (c, l) :: s.formed2 k r (l.map (fun x => (x.1, x.2.1)) ++ taken)
    | _ => (c, lanes) :: s.formed2 k r taken

-- Issuing

/-- x of R252. -/
def State.crossing (s : State) (q : Nat) (lanes : List (Nat × Nat × Nat)) : Nat :=
  if lanes.any fun l => (s.blk l.1).homePart l.2.1 ≠ q then 2
  else if lanes.any fun l => l.2.2 ≠ homeLane l.2.1 then 1
  else 0

/-- A warp begins to issue in a partition: its members take their lanes, its pipe begins its interval (R147, R250), which counts from
the first cycle of the issue. A warp none of whose members then takes part starts the interval too (both DESIGN CHOICE, log
entry 65). -/
def State.begin (s : State) (p c q : Nat) (formed : Option Nat) (lanes : List (Nat × Nat × Nat))
    (todo : List (Nat × Nat)) (x : Nat) : State :=
  let (b, t, _) := lanes.headD default
  let pc := (s.thr b t).pc
  let w : IssueWarp :=
    { (default : IssueWarp) with
      pkg := p, core := c, part := q, serial := s.nextWarp, formed := formed.getD s.nextWarp, pc := pc
      start := s.cycle, x := x, lanes := lanes, todo := todo }
  let w := { w with last := s.issueRank p (s.blk b).ctx pc }
  let pipe := s.pipeAt p (s.blk b).ctx pc
  let s := s.modCore p c fun k =>
    { k with
      pipes := match pipe with
        | some (n, i) => tset k.pipes (pipeKey q n) (s.cycle + i)
        | none => k.pipes
      pickBusy := tset k.pickBusy q (s.cycle + 1) }
  { s with issue := s.issue ++ [w], nextWarp := s.nextWarp + 1 }

/-- A context whose sluice closes drains once no assembled crew part is left to issue (R266, R391). -/
def State.halted (s : State) (p x : Nat) : State :=
  if (s.pctx p x).pre = .closing && (s.blocks.all fun (b : Nat × Block) =>
      b.2.place ≠ .resident || b.2.pkg ≠ p || b.2.ctx ≠ x || b.2.parts.isEmpty) then
    s.modCtx p x fun c => { c with pre := .draining }
  else s

/-- A choice issues. A crew part takes its cycle; the last one issues the instruction for the whole crew (R258). -/
def State.issuePick (s : State) (p c : Nat) (y : (Nat × Pick) × List (Nat × Nat × Nat)) : State :=
  let q := y.1.1
  let lanes := y.2
  let all := lanes.map fun l => (l.1, l.2.1)
  match y.1.2 with
  | .standing w =>
    let s := s.modCore p c fun k => { k with warps := k.warps.filter fun v => v.serial ≠ w.serial }
    s.begin p c q (some w.serial) lanes all (s.crossing q lanes)
  | .bucket _ _ _ => if lanes.isEmpty then s else s.begin p c q none lanes all (s.crossing q lanes)
  | .exchange b t _ => s.begin p c q none lanes [(b, t)] 0
  | .crew b _ _ =>
    let bl := s.blk b
    let parts := q :: bl.parts
    if parts.length < 4 then
      (s.modBlk b fun bl => { bl with parts := parts }).modCore p c fun k =>
        { k with pickBusy := tset k.pickBusy q (s.cycle + 1) }
    else
      let t := (all.headD default).2
      match (s.thr b t).wait with
      | some (.crew w) =>
        let ts := (Mgang.ofWord w).threads
        ((s.modBlk b fun bl => { bl with parts := [] }).begin p c q none
          (ts.map fun t => (b, t, homeLane t)) [(b, ts.headD 0)] 0).halted p bl.ctx
      | _ => s

/-- What the weir of a core finds before it chooses: waits that have ended, groups that have assembled, warps that dissolve. -/
def State.looked (s : State) (p c : Nat) : State := (((s.wakeCore p c).meetCore p c).dropWarps p c).mergeWarps p c

/-- WARP_FORM (R248, R250): every free picker of a core chooses a candidate and forms or issues a warp. -/
def execWarpForm (pkg core : Nat) (s : State) : Out :=
  let s := s.looked pkg core
  let k := s.core pkg core
  if !dutyOk (s.pkg pkg).power.duty s.cycle then .next s
  else
    let one := (s.choices pkg core).map fun c => (c, s.formed1 k c)
    let taken := one.flatMap fun y => y.2.map fun l => (l.1, l.2.1)
    .next ((s.formed2 k one taken).foldl (fun s y => s.issuePick pkg core y) s)

end Sys2Proof.Machine
end

