-- ==== Sys2Proof/Machine/Waits.lean ====
section
/-! DEFINITION. Events of waits, of the host and of Runtime: a join's hold limit, the answer to a page request, the
invalidation doorbell, posts of the host to a queue, and writes of descriptors, queue tables and scheduling words
(spec/04_isa_integer_control.md R111; spec/18_scheduling.md R313-R316, R326; spec/22_translation_security.md R379-R381). -/

namespace Sys2Proof.Machine

-- Joins (R111)

/-- Whether the earliest hold deadline of a slot's waiters has passed. -/
def Block.joinDue (bl : Block) (n now : Nat) : Bool :=
  bl.threads.any fun t => match t.2.wait with
    | some (.join k d) => k = n && d ≤ now
    | _ => false

/-- JOIN_HOLD_EXPIRY (R111). -/
def execJoinHoldExpiry (blk slot : Nat) (s : State) : Out :=
  let bl := s.blk blk
  if bl.place = .resident && s.blockRuns bl && bl.joinDue slot s.cycle then
    .next (s.modBlk blk fun bl => bl.joinRelease slot s.cycle)
  else .next s

-- Page answers (R379, R380)

/-- A parked thread that goes on: it executes its instruction again, or waits on where it waited. -/
def Thread.unpark (th : Thread) (now : Nat) : Thread :=
  { th with
    st := if th.wait.isSome && !th.ms.h then .waiting else th.ready
    pk := none
    readySince := th.since now }

/-- What an answer to a request does to one waiter. The granules of a command that wait for the page run again, and those that
the peer held on it have their 10 µs begin again (R346). -/
def State.answerOne (s : State) (q : PageReq) (ok : Bool) : Who → State
  | .thread b t =>
    let th := s.thr b t
    match th.wait, th.pk with
    | some (.codePage r), _ =>
      if ok then s
      else
        (s.landWords b t (dstWords (BitVec.ofNat 8 r) [2]) false false).modThr b t fun th => th.release s.cycle
    | _, some _ =>
      if th.st ≠ .parked then s
      else if ok then s.modThr b t fun th => th.unpark s.cycle
      else s.faultT b t cPage 0 none th.pc
    | _, none => s
  | .engine id =>
    match s.cmd? id with
    | none => s
    | some k =>
      let on (w : Bool × Nat × Nat) : Bool := s.requestPlace k.pkg k.ctx w.2.2 = (q.pkg, q.vpn * 4096 + w.2.2 % 4096)
      let sent (r : Remote) : Remote :=
        if r.op.who = .engine id && k.waits.any (fun w => on w && w.2.1 = r.op.key) then { r with sent := s.ns } else r
      let s := s.modCoh fun h => { h with remote := h.remote.map sent }
      match ok, k.waits.find? on with
      | false, some w => s.stopCmd id (if w.1 then 2 else 1) w.2.2
      | _, _ => s.modCmd id fun k => { k with waits := k.waits.filter fun w => !on w }
  | .host | .agent => s

/-- A parked thread whose need has no request, for want of a tag, asks again (R379). -/
def State.askAgain (s : State) (b t : Nat) : State :=
  let bl := s.blk b
  match (s.thr b t).pk with
  | none => s
  | some (wr, va) =>
    if (s.thr b t).st ≠ .parked || bl.place ≠ .resident
        || s.coh.reqs.any fun q => q.waiters.contains (.thread b t) then s
    else s.requestPage bl.pkg bl.ctx va.toNat wr.toNat false (some (.thread b t)) none

/-- An answer dropped and counted (R380). -/
def State.lateAnswer (s : State) (p : Nat) : State := s.modPkg p fun q => { q with late := q.late + 1 }

/-- The parked threads ask again, each whose need has no request (R379). -/
def State.askAll (s : State) : State :=
  s.blocks.foldl (fun s b => b.2.threads.foldl (fun s t => s.askAgain b.1 t.1) s) s

/-- PAGE_ANSWER (R379, R380): `ctx` is the package's number for the context. -/
def execPageAnswer (pkg ctx tag status : Nat) (s : State) : Out :=
  if !s.hostUp pkg then .next s
  else match s.coh.reqs.find? fun q => q.pkg = pkg && q.tag = tag with
  | none => .next (s.lateAnswer pkg)
  | some r =>
    if (s.pctx pkg r.ctx).num ≠ ctx then .next (s.lateAnswer pkg)
    else
      let s := s.modCoh fun h => { h with reqs := h.reqs.filter fun q => !(q.pkg = pkg && q.tag = tag) }
      if !(s.pctx pkg r.ctx).live then .next (s.lateAnswer pkg)
      else
        let ok : Bool := status = 0
        let s := r.preqs.foldl (fun s w => s.modThr w.1 w.2 fun th => { th with scnt := th.scnt - 1 }) s
        let s := r.waiters.foldl (fun s w => s.answerOne r ok w) s
        .next s.askAll

/-- INVALIDATION_DOORBELL (R381). -/
def execInvalidationDoorbell (pkg ctx : Nat) (page : Option VAddr) (s : State) : Out :=
  if !(s.pctx pkg ctx).live || !s.hostUp pkg then .next s
  else .next ((s.modCtx pkg ctx fun c => { c with bells := c.bells ++ [page] }).ringBells pkg ctx)

-- Queues (R314-R316)

/-- The head of a queue (R316): its oldest grid that was not wholly dealt before this cycle. -/
def State.headOf (s : State) (p x n : Nat) : Option Grid :=
  let h := s.queueHead p x n
  leastBy (fun g : Grid => [((g.queue.getD (0, 0)).2 + 2 ^ 32 - h) % 2 ^ 32])
    ((s.pkg p).grids.filter fun g => g.ctx = x && (g.queue.any fun q => q.1 = n) && (s.dealsNow p g || s.cycle < g.last))

/-- The head of a queue checked, if the host posted it (R315): refused, it completes its entry and the next follows. -/
def State.checkHead (s : State) (p x n : Nat) : Nat → State
  | 0 => s
  | k + 1 =>
    match s.headOf p x n with
    | none => s
    | some g =>
      if g.checked || !s.queueOn p x n then s
      else
        let e := (g.queue.getD (0, 0)).2
        let pa := s.ringPa p x n e
        let bs := s.agentBytes p x pa 128
        let r := bytesDws bs
        let st := if bs.any (·.2) then 11 else s.recordStatus p x r
        if st = 0 then
          let held := s.heldIds x
          let id := nextGridId held (held.length + 1) (s.pctx p x).nextId
          let s := s.modCtx p x fun c => { c with nextId := id }
          let acc := (s.pkg p).nextAcc + 1
          s.modPkg p fun q =>
            { q with
              grids := (q.grids.filter fun o => o.acc ≠ g.acc) ++
                [{ g with id := id, acc := acc, record := r, checked := true, todo := [(0, recClusters r)],
                          total := vol (recGrid r) }]
              nextAcc := acc }
        else
          let s := s.modPkg p fun q => { q with grids := q.grids.filter fun o => o.acc ≠ g.acc }
          (s.completeEntry p x n e (completionDw false false st 0)).checkHead p x n k

/-- The queues of a context looked at: new posts taken up, and heads checked. With QEN = 0 and no entry outstanding the queue
table may change, so that the queues begin afresh (R313). -/
def State.queuesOf (s : State) (p x : Nat) : State :=
  if !bitAt (s.descDw p x 2) 0 then
    if (s.pkg p).grids.any fun g => g.ctx = x && g.queue.isSome && !g.state.ended then s
    else s.modCtx p x fun c => { c with taken := [] }
  else
    (List.range Config.maxQueues).foldl (fun s n =>
      if !s.queueOn p x n then s
      else (s.takeEntries p x n (s.queueSize p x n)).checkHead p x n (s.queueSize p x n + 1)) s

/-- A posted write of the host: it waits at its home, in the order of its posting (R315, R357). -/
def State.hostPost (s : State) (p x pa : Nat) (bs : List Byte) : State := s.post p x pa .host bs

/-- TAIL of a queue as the host wrote it last (R315). -/
def State.hostTail (s : State) (p x n : Nat) : Nat :=
  let pa := s.queuePa p x n + 12
  leNat ((postedOver .host p (s.physKey p pa) s.coh.ops (s.physRead p pa 4)).map (·.1))

/-- HOST_TAIL_WRITE (R315): the host writes a record to entry TAIL and then the new TAIL; the writes arrive in order. -/
def execHostTailWrite (pkg ctx queue : Nat) (record : List Dword) (tail : Word) (s : State) : Out :=
  if !(s.pctx pkg ctx).live || Config.maxQueues ≤ queue || !s.rootUp pkg then .next s
  else
    let r := (List.range 16).map fun i => dw record i
    .next ((s.hostPost pkg ctx (s.ringPa pkg ctx queue (s.hostTail pkg ctx queue)) (r.flatMap fun d => leBytes 8 d.toNat)).hostPost
      pkg ctx (s.queuePa pkg ctx queue + 12) (leBytes 4 tail.toNat))

-- Runtime's writes (R313, R314, R326, R409)

/-- A scheduling word as it is kept (R326): reserved bits 0, GDL clamped. -/
def schedWord (v : Dword) : Dword :=
  BitVec.ofNat 64 (max 10 (min 10000 (bitsOf v 45 32)) * 2 ^ 32 + bitsOf v 27 16 * 2 ^ 16 + bitsOf v 15 0)

/-- A dword of a queue's descriptor as Runtime writes it: reserved bits keep their 0 (R10, R314). -/
def queueWord (n : Nat) (v : Dword) : Dword :=
  match n with
  | 0 => BitVec.ofNat 64 (bitsOf v 56 0)
  | 2 => BitVec.ofNat 64 (bitsOf v 15 8 * 256)
  | _ => 0

/-- RUNTIME_REGISTER_WRITE. HEAD and TAIL of a queue are not written by it (R314, R315). Words in memory are written over
CXL.mem, at their homes (R313, R357). -/
def execRuntimeRegisterWrite (pkg : Nat) (target : RtTarget) (value : Dword) (s : State) : Out :=
  if !s.rootUp pkg then .next s
  else match target with
  | .descriptor x n =>
    if !(s.pctx pkg x).live || 16 ≤ n then .next s
    else .next (s.hostPost pkg x ((s.pctx pkg x).desc + 8 * n) (leBytes 8 value.toNat))
  | .queue x q n =>
    if !(s.pctx pkg x).live || Config.maxQueues ≤ q || n = 1 || 4 ≤ n then .next s
    else .next (s.hostPost pkg x (s.queuePa pkg x q + 8 * n) (leBytes 8 (queueWord n value).toNat))
  | .scheduling k =>
    if 8 ≤ k then .next s
    else .next (s.modPkg pkg fun g => { g with parts := tmod g.parts k fun q => { q with sched := schedWord value } })
  | .errorRing => .next (s.modPkg pkg fun g => { g with errBase := value })

end Sys2Proof.Machine
end

