-- ==== Sys2Proof/Machine/Images.lean ====
section
/-! DEFINITION. The image of a block: when a block is quiet, what its image holds, and saving it
(spec/23_faults_preemption.md R391-R397; spec/20_part6_preempt_copies.md R350-R352; spec/14_matrix_mode.md R295, R296;
spec/10_regrouping.md R266). -/

namespace Sys2Proof.Machine

-- Halting and quiescing (R266, R350, R391)

/-- A command once the sluice closes (R350, R392): a copy, gath or drain starts no further granule, and one of its granules that
waits on a page is abandoned. A sample or gauge is abandoned, a sample that is queued is removed from its queue (R307); a scat
finishes. -/
def EngCmd.close (k : EngCmd) : EngCmd :=
  if k.kind = .scat then k
  else { k with shut := true, gone := k.gone ++ k.waits.map (·.2.1), waits := [] }

/-- A command whose block is not saved after all goes on. -/
def EngCmd.reopen (k : EngCmd) : EngCmd := { k with shut := false, gone := [] }

/-- The length of the prefix of granules delivered (R350): of a command of n granules. -/
def prefixDone (done : List Nat) : Nat → Nat
  | 0 => 0
  | n + 1 => let m := prefixDone done n; if m = n && done.contains n then n + 1 else m

/-- A closed command as it is recorded (R350): the granules done are a prefix. One delivered behind an abandoned granule, which can
be where a peer held that one, is not counted, and is delivered again. -/
def EngCmd.prefixed (k : EngCmd) : EngCmd :=
  if k.kind = .copy || k.kind = .gath || k.kind = .drain then
    let n := prefixDone k.done k.total
    { k with done := List.range n, begun := n }
  else k

/-- The bytes that the granules delivered behind an abandoned one had counted into the barb, which count again (log entry 83). -/
def EngCmd.recount (k : EngCmd) : Nat := ((k.done.filter fun g => !k.prefixed.done.contains g).map k.counted).sum

/-- Whether a granule of a command has been abandoned (R350), for a transaction over the link. -/
def EngCmd.leaves (k : EngCmd) (r : Remote) : Bool := r.op.who = .engine k.id && k.gone.contains r.op.key

/-- Whether the granules that have started are delivered or abandoned (R350), and none is on its way to a die copy or to a
peer. -/
def State.cmdQuiet (s : State) (k : EngCmd) : Bool :=
  match k.kind with
  | .scat => false
  | .sample | .gauge => k.shut
  | _ => k.shut && ((List.range k.begun).all fun g => k.done.contains g || k.gone.contains g) && k.flown = []
      && s.coh.remote.all fun t => t.op.who ≠ .engine k.id || k.leaves t

/-- Whether a command still runs: one that has stopped, or has finished, first writes its status (R350). -/
def EngCmd.unfinished (k : EngCmd) : Bool :=
  match k.kind with
  | .sample => true
  | .gauge => !k.stop && k.result.isNone
  | _ => !k.stop && k.done.length < k.total

/-- The commands of a block. -/
def State.cmdsOf (s : State) (b : Nat) : List EngCmd := s.cmds.filter fun k => k.blk = b

/-- Whether a thread waits at lwait. -/
def Thread.atLwait (th : Thread) : Bool := match th.wait with
  | some (.lwait _) => true
  | _ => false

/-- The engine commands whose status a thread awaits. -/
def State.owedCmds (s : State) (b t : Nat) : Nat := ((s.cmdsOf b).filter fun k => k.tids.contains t).length

/-- Whether the quiesce of a block is complete (R391). -/
def State.quiet (s : State) (b : Nat) : Bool :=
  let bl := s.blk b
  bl.parts.isEmpty && (bl.crew.all fun r => r.granted.isEmpty) && (bl.drain.all fun d => d.startCap.isNone)
    && ((s.cmdsOf b).all fun k => s.cmdQuiet k && k.unfinished)
    && (bl.threads.all fun t =>
      t.2.lcnt = 0 && t.2.hold = 0 && t.2.scnt = s.preqsOf b t.1
        && t.2.ecnt = s.owedCmds b t.1 + t.2.atLwait.toNat)

-- The image (R393-R397)

/-- A list in groups of eight; the last may be shorter. -/
def groups8 {α : Type} : List α → List (List α)
  | a :: b :: c :: d :: e :: f :: g :: h :: l => [a, b, c, d, e, f, g, h] :: groups8 l
  | [] => []
  | l => [l]
/-- Bytes as dwords, padded with zeros. -/
def packDws (bs : List Byte) : List Dword := (groups8 bs).map fun g => BitVec.ofNat 64 (leNat g)
/-- Dwords padded to a multiple of 64 bytes (R393). -/
def pad64 (ds : List Dword) : List Dword := ds ++ List.replicate ((8 - ds.length % 8) % 8) 0

/-- A barrier entry (R393). -/
def Barrier.dword (k : Barrier) : Dword :=
  let kind := match k.kind with
    | .idle => 0
    | .whole => 1
    | .register => 2
  BitVec.ofNat 64 (kind * 2 ^ 22 + k.target % 2 ^ 11 * 2 ^ 11 + k.arr % 2 ^ 11)

/-- STATE of a thread (R394): in handler mode it is 3, whether the thread waits or is parked there. -/
def Thread.stateCode (th : Thread) : Nat :=
  if th.st = .exited then 4
  else if th.ms.h then 3
  else match th.st with
    | .parked => 2
    | .waiting => 1
    | _ => 0

/-- WAIT and WID of a thread (R394). -/
def Thread.waitCode (th : Thread) : Nat × Nat :=
  match th.wait with
  | some (.join k _) => (1, k)
  | some (.barrier k) => (2, k)
  | some .exchange => (3, 0)
  | some (.crew _) => (4, 0)
  | some (.lwait _) => (5, 0)
  | _ => (0, 0)

/-- A thread's record (R394). -/
def Thread.record (th : Thread) (engs : Nat) : List Dword :=
  let hv := (List.range 16).foldl (fun m n => if (tget th.handles n).valid then m + 2 ^ n else m) 0
  [BitVec.ofNat 64 (th.pc.toNat / 8 * 2 ^ 10 + th.stateCode * 2 ^ 7 + th.waitCode.1 * 2 ^ 4 + th.waitCode.2),
    BitVec.ofNat 64 (th.ms.toWord.toNat * 2 ^ 32 + th.fpcsr.toWord.toNat),
    BitVec.ofNat 64 (engs * 4096 * 2 ^ 32 + th.mprog.toWord.toNat),
    BitVec.ofNat 64 (th.sp.toNat * 2 ^ 32 + th.preds.toNat * 2 ^ 24 + hv * 2 ^ 8 + th.chk.toNat),
    th.tvec, th.tframe0, th.tframe1, th.tcause,
    (match th.pk with
     | some (wr, va) => BitVec.ofNat 64 (2 ^ 63 + wr.toNat * 2 ^ 61 + va.toNat % 2 ^ 57)
     | none => 0),
    0, 0, 0, 0, 0, 0, 0]
    ++ (List.range 16).map fun n => if (tget th.handles n).valid then (tget th.handles n).value else 0

/-- The payload of a register (R395). -/
def Block.payload (bl : Block) (f r : Nat) : List Byte :=
  match tget bl.tags (tagKey f r) with
  | .uniform u => leBytes 4 u.toNat
  | .affine b st => leBytes 4 b.toNat ++ leBytes 4 st.toNat
  | .general => (bl.values f r).flatMap fun w => leBytes 4 w.toNat

/-- The section of a furrow (R395): the tag map, then the payloads. -/
def Block.furrowDws (bl : Block) (f : Nat) : List Dword :=
  let n := (tget bl.threads (32 * f)).allot
  let map_ := (List.range n).foldl (fun m r => m + (tget bl.tags (tagKey f r)).code.toNat * 4 ^ r) 0
  pad64 (packDws (leBytes ((n + 31) / 32 * 8) map_ ++ (List.range n).flatMap (bl.payload f)))

/-- An engine record (R396). -/
def EngCmd.dwords (k : EngCmd) : List Dword :=
  let kind := match k.kind with
    | .copy => 1
    | .gath => 2
    | .scat => 3
    | .sample => 4
    | .gauge => 5
    | .drain => 6
  let w := if k.acc = .f64 then 8 else 4
  let n := if k.kind = .drain then (if k.acc = .f64 then 4096 else 8192) else 0
  let tile := (List.range n).flatMap fun i => leBytes w (tget k.tile i).toNat
  let restarts : Bool := k.kind = .sample || k.kind = .gauge
  [BitVec.ofNat 64 (kind * 2 ^ 56 + k.tid * 2 ^ 32 + k.sreg * 2 ^ 24 + (if restarts then 0 else k.done.length)),
    BitVec.ofNat 64 ((k.barb.getD 0xFFFFFFFF) * 2 ^ 32 + n * w)]
    ++ ((List.range 4).map fun i => BitVec.ofNat 64 (grp64 k.group (2 * i)))
    ++ [if k.kind = .copy || k.kind = .gauge then 0 else k.handle.value, k.seed] ++ pad64 (packDws tile)

/-- The crew record (R397). -/
def CrewRun.dwords (r : CrewRun) : List Dword :=
  let kind := match r.kind with
    | .mma => 1
    | .mmasp => 2
    | .mmad => 3
  let d : Bool := r.kind = .mmad
  [BitVec.ofNat 64 (r.pc.toNat / 8 * 2 ^ 10 + kind * 2 ^ 8 + r.ty.code.toNat),
    BitVec.ofNat 64 (r.k * 2 ^ 32 + (if d then r.mbase else 0) * 2 ^ 24 + r.rm.toNat * 2 ^ 9 + r.daz.toNat * 2 ^ 8
      + r.ftz.toNat * 2 ^ 7),
    if d then 0 else r.ha.value, r.hb.value, 0, 0, 0, 0]

/-- The codes of REASON (R393). -/
def SaveReason.code : SaveReason → Nat
  | .sluice => 1
  | .boundary => 2
  | .lwait => 3
  | .slice => 4

/-- A join mask as sixteen dwords (R393). -/
def maskDws (m : BitVec 1024) : List Dword := (List.range 16).map fun i => m.extractLsb' (64 * i) 64

/-- The image of a block (R393): its dwords. -/
def State.imageOf (s : State) (b : Nat) (why : SaveReason) : List Dword :=
  let bl := s.blk b
  let n := bl.nthr
  let ks := s.cmdsOf b
  let crew := (bl.crew.map CrewRun.dwords).getD []
  let fixed := (List.range 16).map (fun i => (tget bl.bars i).dword)
    ++ (List.range 16).flatMap (fun i => maskDws (tget bl.joins i)) ++ crew
  let thr := (List.range n).flatMap fun t => (tget bl.threads t).record (s.owedCmds b t)
  let regs := (List.range ((n + 31) / 32)).flatMap bl.furrowDws
  let shm := pad64 (packDws (tgets bl.shm.cells 0 bl.shb))
  let eng := ks.flatMap EngCmd.dwords
  let othr := 64 + 8 * fixed.length
  let oreg := othr + 8 * thr.length
  let oshm := oreg + 8 * regs.length
  let oeng := oshm + 8 * shm.length
  let size := oeng + 8 * eng.length
  [BitVec.ofNat 64 (size * 2 ^ 32 + 2 ^ 16 + n * 2 ^ 5 + bl.crew.isSome.toNat * 2 ^ 4),
    BitVec.ofNat 64 (bl.grid * 2 ^ 32 + ks.length * 2 ^ 16 + why.code),
    BitVec.ofNat 64 (bl.bid.y * 2 ^ 32 + bl.bid.x), BitVec.ofNat 64 (bl.shb * 2 ^ 32 + bl.bid.z),
    BitVec.ofNat 64 (bl.mgang.toWord.toNat * 2 ^ 32 + bl.hold.toNat), BitVec.ofNat 64 (bl.detcfg.toNat * 2 ^ 32),
    BitVec.ofNat 64 (othr * 2 ^ 32 + oreg), BitVec.ofNat 64 (oshm * 2 ^ 32 + oeng)]
    ++ fixed ++ thr ++ regs ++ shm ++ eng

/-- The bytes of an image. -/
def Image.size (i : Image) : Nat := 8 * i.dwords.length

/-- Where the images of a kind go (R329, R391): the swap region of the context for lwait, else the shadow region of the
partition, whose first 64 bytes are the end record's (R399): the first byte for images, and the end. -/
def State.imageRegion (s : State) (p x : Nat) (why : SaveReason) : Nat × Nat :=
  if why = .lwait then
    let lo := bitsOf (s.descDw p x 4) 51 21 * 2 ^ 21
    (lo, lo + bitsOf (s.descDw p x 4) 20 11 * 2 ^ 21)
  else
    let q := s.partOf p x
    (q.shbase + 64, q.shbase + q.shsz * 2 ^ 21)

/-- The place of an image of some bytes in its region: the lowest that is free (log entry 37). None where it does not fit
(R329, R391). -/
def State.imageBase (s : State) (p x : Nat) (why : SaveReason) (n : Nat) : Option Nat :=
  let (lo, hi) := s.imageRegion p x why
  let used := s.images.filterMap fun i => if i.2.pkg = p then i.2.base.map fun a => (a, a + i.2.size) else none
  let free := (lo :: used.map (·.2)).filter fun a => lo ≤ a && a + n ≤ hi && used.all fun u => a + n ≤ u.1 || u.2 ≤ a
  leastBy (fun a => [a]) free

/-- Whether an image of some bytes fits its region beside those already there. -/
def State.imageFits (s : State) (p x : Nat) (why : SaveReason) (n : Nat) : Bool := (s.imageBase p x why n).isSome

/-- An image written to its place, page by page (R391). -/
def State.imageWrite (s : State) (p x a : Nat) (ds : List Dword) : State :=
  (pieces a (8 * ds.length) false true).foldl (fun s q =>
    s.post p x q.va .agent ((ds.drop ((q.va - a) / 8)).take (q.len / 8) |>.flatMap fun d => leBytes 8 d.toNat)) s

-- Saving (R391)

/-- A thread as it is saved (R394): its counts dropped, and only a rendezvous joined kept of what it waits for; a yield under
a graceful pre-emption holds through a time slice (R112). -/
def Thread.saved (th : Thread) (engs : Nat) (slice : Bool) : Thread :=
  let keep : Option Wait :=
    if th.waitCode.1 ≠ 0 || (slice && th.wait = some .yieldHold) then th.wait else none
  { th with
    lcnt := 0, scnt := 0, ecnt := engs + th.atLwait.toNat, hold := 0, fresh := [], wait := keep
    st := if keep.isNone && th.st = .waiting then th.ready else th.st }

/-- The shootdown a thread waits on, which goes on without it (R381, R394). -/
def Thread.shooting (th : Thread) : Option (BitVec 8) := match th.wait with
  | some (.shoot g) => some g
  | _ => none

/-- The standing warps that hold a thread of some blocks dissolve (R247, R253). -/
def State.dropBlocks (s : State) (bs : List Nat) : State :=
  { s with cores := s.cores.map fun (k : Nat × Core) =>
      (k.1, { k.2 with warps := k.2.warps.filter fun w => w.lanes.all fun l => !bs.contains l.1 }) }

/-- The crew's passes stopped before their end (R213, R295): RSM is 1 in every crew thread. -/
def Block.stopRun (bl : Block) : Block := if bl.crew.isSome then bl.modMprogs fun m => { m with rsm := true } else bl

/-- The closed commands of a block as they are recorded, with the barbs' bytes to come (R350). -/
def State.prefixCmds (s : State) (b : Nat) : State :=
  let s := (s.cmdsOf b).foldl (fun s k => match k.barb with
    | some off => if k.recount = 0 then s else s.barbBack b off k.recount
    | none => s) s
  { s with cmds := s.cmds.map fun k => if k.blk = b then k.prefixed else k }

/-- A quiet block saved: its image is made, its commands go with it, and it leaves its core (R391, R329). No warp of it is
saved (R266). -/
def State.saveBlock (s : State) (b : Nat) (why : SaveReason) : State :=
  let s := ((s.dropBlocks [b]).modBlk b Block.stopRun).prefixCmds b
  let bl := s.blk b
  let ds := s.imageOf b why
  let i : Image := ⟨bl.pkg, bl.ctx, b, why, s.imageBase bl.pkg bl.ctx why (8 * ds.length), [], ds, bl, s.cmdsOf b⟩
  let s := match i.base with
    | some a => s.imageWrite bl.pkg bl.ctx a ds
    | none => s
  let gens := bl.threads.filterMap fun t => t.2.shooting
  let s := s.modCtx bl.pkg bl.ctx fun c => { c with shoots := c.shoots.filter fun g => !gens.contains g }
  let mine : Who → Bool
    | .thread o _ => o = b
    | .engine k => i.cmds.any fun c => c.id = k
    | .host | .agent => false
  let s := s.modCoh fun h =>
    { h with reqs := h.reqs.map fun q =>
      { q with waiters := q.waiters.filter fun w => !mine w, preqs := q.preqs.filter fun w => w.1 ≠ b } }
  let s := s.dropGrains fun id => i.cmds.any fun k => k.id = id
  let s := s.modCoh fun h => { h with remote := h.remote.filter fun t => !(i.cmds.any fun k => k.leaves t) }
  let owed := bl.threads.map fun t => (t.1, s.owedCmds b t.1)
  let s := { s with
    cmds := s.cmds.filter fun k => k.blk ≠ b
    images := tset s.images s.nextImg i
    nextImg := s.nextImg + 1 }
  s.modBlk b fun bl =>
    { bl with
      place := .saved why, drain := none, cwords := [], left := s.cycle + 1, back := false
      threads := bl.threads.map fun t => (t.1, t.2.saved (tget owed t.1) (why = .slice)) }

end Sys2Proof.Machine
end

