-- ==== Sys2Proof/Machine/Restores.lean ====
section
/-! DEFINITION. The restore of a block from its image: the checks of what memory holds, the block and the commands that it
describes, and the save-area fault (spec/23_faults_preemption.md R393-R399; spec/20_part6_preempt_copies.md R351;
spec/14_matrix_mode.md R295, R296). -/

namespace Sys2Proof.Machine

-- Checking an image (R398)

/-- A dword of an image. -/
def Image.dw (i : Image) (n : Nat) : Dword := i.dwords.getD n 0
/-- The dwords at which the sections begin: thread table, register data, shared image, engine records. -/
def Image.thr (i : Image) : Nat := bitsOf (i.dw 6) 63 32 / 8
def Image.reg (i : Image) : Nat := bitsOf (i.dw 6) 31 0 / 8
def Image.shm (i : Image) : Nat := bitsOf (i.dw 7) 63 32 / 8
def Image.eng (i : Image) : Nat := bitsOf (i.dw 7) 31 0 / 8
/-- The threads of an image, whether it has a crew record, where that stands, and its engine records. -/
def Image.nthr (i : Image) : Nat := bitsOf (i.dw 0) 15 5
def Image.hasCrew (i : Image) : Bool := bitAt (i.dw 0) 4
def Image.crewDw (i : Image) (n : Nat) : Dword := i.dw (280 + n)
def Image.neng (i : Image) : Nat := bitsOf (i.dw 1) 31 16

/-- A depth K that R212, R214 or R215 allows for a type. -/
def depthOk (kind : RunKind) (ty : Ty) (k : Nat) : Bool :=
  match kind with
  | .mmad => k = 64
  | _ => passDepth ty kind ≤ k && k ≤ 4096 && k % passDepth ty kind = 0
      && (!(ty.mx || kind = .mmasp) || k % 32 = 0)

/-- Whether the crew record of an image breaks a rule of R397. -/
def Image.crewBad (i : Image) : Bool :=
  if !i.hasCrew then false
  else
    let kind : Option RunKind := match bitsOf (i.crewDw 0) 9 8 with
      | 1 => some .mma
      | 2 => some .mmasp
      | 3 => some .mmad
      | _ => none
    let mbase := bitsOf (i.crewDw 1) 31 24
    let ts := (Mgang.ofWord (BitVec.ofNat 32 (bitsOf (i.dw 4) 63 32))).threads
    let mprog (t : Nat) : Nat := bitsOf (i.dw (i.thr + 32 * t + 2)) 31 0
    match kind, Ty.ofCode (BitVec.ofNat 5 (bitsOf (i.crewDw 0) 4 0)) with
    | some k, some ty =>
      (k = .mmad && (mbase % 8 ≠ 0 || ts.any fun t => (tget i.block.threads t).allot < mbase + 64))
        || !depthOk k ty (bitsOf (i.crewDw 1) 63 32) || ts.any fun t => mprog t ≠ mprog (ts.headD 0)
    | _, _ => true

/-- The tag codes of a furrow of n registers whose section begins at a dword (R395), and the dwords of that section. -/
def Image.tagsAt (i : Image) (a n : Nat) : List Nat :=
  (List.range n).map fun r => bitsOf (i.dw (a + r / 32)) (2 * (r % 32) + 1) (2 * (r % 32))
def sectionSize (codes : List Nat) : Nat :=
  let pay := (codes.map fun c => match c with
    | 0 => 4
    | 1 => 8
    | _ => 128).sum
  ((codes.length + 31) / 32 + (pay + 7) / 8 + 7) / 8 * 8

/-- The first furrow with a reserved tag code, among some from a section on. -/
def Image.tagBad (i : Image) : Nat → List Nat → Option Nat
  | _, [] => none
  | a, f :: fs =>
    let codes := i.tagsAt a (tget i.block.threads (32 * f)).allot
    if codes.contains 3 then some f else i.tagBad (a + sectionSize codes) fs

/-- Where the engine records begin, each after its predecessor's payload (R396). -/
def Image.engAt (i : Image) : Nat → Nat → List Nat
  | 0, _ => []
  | n + 1, a => a :: i.engAt n (a + 8 + (bitsOf (i.dw (a + 1)) 31 0 + 63) / 64 * 8)

/-- Whether a reserved field of the header, a barrier entry, the crew record or an engine record is nonzero (R393, R396,
R397). -/
def Image.headRz (i : Image) : Bool :=
  bitsOf (i.dw 0) 3 0 ≠ 0 || bitsOf (i.dw 1) 15 8 ≠ 0 || bitsOf (i.dw 5) 31 0 ≠ 0
    || ((List.range 16).any fun n => bitsOf (i.dw (8 + n)) 63 24 ≠ 0)
    || (i.hasCrew && (bitsOf (i.crewDw 0) 7 5 ≠ 0 || bitsOf (i.crewDw 1) 23 12 ≠ 0 || bitsOf (i.crewDw 1) 6 0 ≠ 0
      || (List.range 4).any fun n => i.crewDw (4 + n) ≠ 0))
    || (i.engAt i.neng i.eng).any fun a => bitsOf (i.dw a) 55 42 ≠ 0
/-- Whether a reserved field of a thread's record is nonzero (R394). -/
def Image.thrRz (i : Image) (t : Nat) : Bool :=
  let a := i.thr + 32 * t
  bitsOf (i.dw (a + 3)) 31 31 ≠ 0 || bitsOf (i.dw (a + 3)) 7 1 ≠ 0 || bitsOf (i.dw (a + 8)) 60 57 ≠ 0
    || (List.range 7).any fun n => i.dw (a + 9 + n) ≠ 0
/-- Whether STATE or WAIT of a thread's record is reserved (R394). -/
def Image.thrBad (i : Image) (t : Nat) : Bool :=
  4 < bitsOf (i.dw (i.thr + 32 * t)) 9 7 || 5 < bitsOf (i.dw (i.thr + 32 * t)) 6 4

/-- The sections of furrows, from a dword on: each with its first dword and the one after its last (R395). -/
def Image.sections (i : Image) : Nat → List Nat → List (Nat × Nat × Nat)
  | _, [] => []
  | a, f :: fs =>
    let e := a + sectionSize (i.tagsAt a (tget i.block.threads (32 * f)).allot)
    (f, a, e) :: i.sections e fs

/-- The parts of an image that are some thread's own: its record, the section of its furrow, which is its first thread's, and the
records of its commands, each with its first dword and the one after its last. -/
def Image.ownParts (i : Image) : List (Nat × Nat × Nat) :=
  ((List.range i.nthr).map fun t => (t, i.thr + 32 * t, i.thr + 32 * t + 32))
    ++ ((i.sections i.reg (List.range ((i.nthr + 31) / 32))).map fun p => (32 * p.1, p.2))
    ++ (i.engAt i.neng i.eng).map fun a =>
      (bitsOf (i.dw a) 41 32, a, a + 8 + (bitsOf (i.dw (a + 1)) 31 0 + 7) / 8)

/-- The first thread of which a part fails: thread 0 where what fails is no thread's own (R399; log entry 37). -/
def Image.failing (i : Image) (bad : Nat → Nat → Bool) : Nat :=
  ((i.ownParts.filter fun p => bad p.2.1 p.2.2).map (·.1)).min?.getD 0

/-- Whether a section or a record goes beyond SIZE, or SIZE beyond what was saved (R398). -/
def Image.sizeBad (i : Image) : Bool :=
  let n := bitsOf (i.dw 0) 63 32 / 8
  i.dwords.length < n || n < i.reg || n < i.shm + (bitsOf (i.dw 3) 63 32 + 7) / 8 || i.ownParts.any fun p => n < p.2.2

/-- The SUB of the save-area fault that an image meets at its restore, with the first failing thread (R398, R399). -/
def Image.fault (i : Image) : Option (Nat × Nat) :=
  let ts := List.range i.nthr
  if bitsOf (i.dw 0) 31 16 ≠ 1 || i.crewBad then some (1, 0)
  else match i.tagBad i.reg (List.range ((i.nthr + 31) / 32)) with
    | some f => some (2, 32 * f)
    | none =>
      if i.headRz then some (3, 0)
      else match ts.find? i.thrRz, ts.find? i.thrBad with
        | some t, _ => some (3, t)
        | none, some t => some (4, t)
        | none, none =>
          if i.sizeBad then some (5, i.failing fun _ e => bitsOf (i.dw 0) 63 32 / 8 < e)
          else if i.bad ≠ [] then some (6, i.failing fun a e => i.bad.any fun n => a ≤ n && n < e)
          else none

/-- An image as its restore reads it, where it stands in memory (R398). -/
def State.imageRead (s : State) (i : Image) : Image :=
  match i.base with
  | none => i
  | some a =>
    let bs := (pieces a i.size true false).flatMap fun q => s.agentBytes i.pkg i.ctx q.va q.len
    let bad := ((groups8 bs).zipIdx.filter fun g => g.1.any (·.2)).map (·.2)
    { i with dwords := packDws (bs.map (·.1)), bad := i.bad ++ bad }

-- What an image says (R393-R397)

/-- Bytes of an image, and a word. -/
def Image.bytes (i : Image) (off n : Nat) : List Byte :=
  (List.range n).map fun k => BitVec.ofNat 8 ((i.dw ((off + k) / 8)).toNat / 2 ^ (8 * ((off + k) % 8)))
def Image.word (i : Image) (off : Nat) : Word := BitVec.ofNat 32 (leNat (i.bytes off 4))

/-- The handle of a value among some handles (R25, R394): one of another value seals no record (log entry 37). -/
def handleOf (hs : List Handle) (v : Dword) : Handle := (hs.find? fun h => h.valid && h.value = v).getD ⟨true, v, [], 0⟩

/-- The handles that a block and its commands hold. -/
def Block.allHandles (bl : Block) (ks : List EngCmd) : List Handle :=
  (bl.threads.flatMap fun t => (List.range 16).map fun n => tget t.2.handles n)
    ++ (bl.crew.elim [] fun r => [r.ha, r.hb]) ++ ks.map (·.handle)

/-- What a thread waits for by WAIT and WID of its record (R394): `gang` is MGANG, and `lreg` the register of the lwait at its
PC. A wait that these do not tell is the saved thread's. -/
def waitOf (old : Thread) (w : Nat × Nat) (gang : Word) (lreg : Nat) : Option Wait :=
  if old.waitCode = w then old.wait
  else match w.1 with
    | 1 => some (.join w.2 0)
    | 2 => some (.barrier w.2)
    | 3 => some .exchange
    | 4 => some (.crew gang)
    | 5 => some (.lwait lreg)
    | _ => none

/-- A thread as its record says (R394). -/
def Image.thread (i : Image) (hs : List Handle) (gang : Word) (lreg : VAddr → Nat) (t : Nat) (old : Thread) : Thread :=
  let d (n : Nat) : Dword := i.dw (i.thr + 32 * t + n)
  let lo (n : Nat) : Word := (d n).truncate 32
  let hi (n : Nat) : Word := (d n >>> 32).truncate 32
  let pc : VAddr := BitVec.ofNat 57 (bitsOf (d 0) 63 10 * 8)
  let w := (bitsOf (d 0) 6 4, bitsOf (d 0) 3 0)
  { old with
    pc := pc, wait := waitOf old w gang (lreg pc), st := if bitsOf (d 0) 9 7 = 4 then .exited else .ready
    ms := MState.ofWord (hi 1), fpcsr := Fpcsr.ofWord (lo 1), mprog := MProg.ofWord (lo 2), sp := hi 3
    ecnt := bitsOf (d 2) 48 44 + (decide (w.1 = 5)).toNat
    preds := BitVec.ofNat 7 (bitsOf (d 3) 30 24), chk := bitAt (d 3) 0
    tvec := d 4, tframe0 := d 5, tframe1 := d 6, tcause := d 7
    handles := (List.range 16).foldl (fun m n =>
      tset m n (if bitAt (d 3) (8 + n) then handleOf hs (d (16 + n)) else { tget m n with valid := false })) old.handles }

/-- A furrow's register written by its tag (R395). -/
def Block.putReg (bl : Block) (f r code : Nat) (ws : List Word) : Block :=
  let g : Tag := match code with
    | 0 => .uniform (ws.getD 0 0)
    | 1 => .affine (ws.getD 0 0) (ws.getD 1 0)
    | _ => .general
  let v (k : Nat) : Word := (g.value k).getD (ws.getD k 0)
  { bl with
    tags := tset bl.tags (tagKey f r) g
    threads := bl.threads.map fun t => if t.1 / 32 = f then (t.1, { t.2 with regs := tset t.2.regs r (v (t.1 % 32)) }) else t }

/-- The registers of a furrow with their tag codes, from a byte on. -/
def Image.putRegs (i : Image) (f : Nat) : List (Nat × Nat) → Nat → Block → Block
  | [], _, bl => bl
  | (r, c) :: l, off, bl =>
    let n := match c with
      | 0 => 1
      | 1 => 2
      | _ => 32
    i.putRegs f l (off + 4 * n) (bl.putReg f r c ((List.range n).map fun k => i.word (off + 4 * k)))

/-- The registers of a block, by the sections of its furrows. -/
def Image.putFurrows (i : Image) (bl : Block) : Block :=
  (i.sections i.reg (List.range ((i.nthr + 31) / 32))).foldl (fun bl p =>
    let n := (tget i.block.threads (32 * p.1)).allot
    i.putRegs p.1 ((List.range n).zip (i.tagsAt p.2.1 n)) (8 * (p.2.1 + (n + 31) / 32)) bl) bl

/-- A barrier as its entry says (R393): who has arrived, which an entry does not tell, is as it was saved with it. -/
def barrierOf (old : Barrier) (d : Dword) (came : List Nat) : Barrier :=
  if old.dword = d then old
  else
    let kind : BarKind := match bitsOf d 23 22 with
      | 1 => .whole
      | 2 => .register
      | _ => .idle
    ⟨kind, bitsOf d 21 11, bitsOf d 10 0, came⟩

/-- The crew's unfinished instruction as its record says, at the depth of MPROG (R295, R397). -/
def Image.crew (i : Image) (hs : List Handle) (old : CrewRun) : CrewRun :=
  let d := i.crewDw
  let lead := (Mgang.ofWord (BitVec.ofNat 32 (bitsOf (i.dw 4) 63 32))).threads.headD 0
  { old with
    kind := match bitsOf (d 0) 9 8 with
      | 2 => .mmasp
      | 3 => .mmad
      | _ => .mma
    pc := BitVec.ofNat 57 (bitsOf (d 0) 63 10 * 8), ty := (Ty.ofCode (BitVec.ofNat 5 (bitsOf (d 0) 4 0))).getD old.ty
    k := bitsOf (d 1) 63 32, mbase := bitsOf (d 1) 31 24, rm := BitVec.ofNat 3 (bitsOf (d 1) 11 9), daz := bitAt (d 1) 8
    ftz := bitAt (d 1) 7, ha := handleOf hs (d 2), hb := handleOf hs (d 3)
    next := (MProg.ofWord ((i.dw (i.thr + 32 * lead + 2)).truncate 32)).depth.toNat }

/-- The acc and mode that an engine record holds (R204, R396). -/
def accModeOf (n : Nat) : Acc × DrainMode :=
  ((match n / 4 % 4 with | 1 => .f64 | 2 => .i32 | _ => .f32), (match n % 4 with | 1 => .addf | 2 => .addx | _ => .st))

/-- A command as the record at a dword says (R396). -/
def Image.cmd (i : Image) (hs : List Handle) (a : Nat) (old : EngCmd) : EngCmd :=
  let kind : EngKind := match bitsOf (i.dw a) 63 56 with
    | 1 => .copy
    | 2 => .gath
    | 4 => .sample
    | 5 => .gauge
    | _ => .drain
  let group := (List.range 8).map fun n => i.word (8 * a + 16 + 4 * n)
  let acc := accModeOf (group.getD 2 0).toNat
  let w := if acc.1 = .f64 then 8 else 4
  let n := bitsOf (i.dw a) 23 0
  let k := { old with
    kind := kind, tid := bitsOf (i.dw a) 41 32, sreg := bitsOf (i.dw a) 31 24, group := group, seed := i.dw (a + 7)
    done := List.range n, begun := n
    barb := if bitsOf (i.dw (a + 1)) 63 32 = 0xFFFFFFFF then none else some (bitsOf (i.dw (a + 1)) 63 32)
    handle := if kind = EngKind.copy || kind = EngKind.gauge then old.handle else handleOf hs (i.dw (a + 6)) }
  if kind = .drain then
    { k with
      acc := acc.1, mode := acc.2
      tile := (List.range (bitsOf (i.dw (a + 1)) 31 0 / w)).foldl (fun m j =>
        tset m j (BitVec.ofNat 64 (leNat (i.bytes (8 * (a + 8) + w * j) w)))) [] }
  else { k with tids := [k.tid] }

/-- The commands of an image: those saved with it as their records say, and any that its records add. -/
def Image.commands (i : Image) (hs : List Handle) (next : Nat) : List EngCmd :=
  ((List.range i.neng).zip (i.engAt i.neng i.eng)).map fun p =>
    i.cmd hs p.2 (i.cmds.getD p.1
      { (default : EngCmd) with id := next + p.1, pkg := i.pkg, ctx := i.ctx, blk := i.blk, oc := [] })

/-- A saved block as its image says (R398): the registers by their tags, the shared image, and the barrier, join, MGANG, JCFG,
DETCFG and crew state. Marks of poison, and what an image does not hold, are as they were saved (log entry 37). -/
def Image.toBlock (i : Image) (hs : List Handle) (lreg : VAddr → Nat) (old : Block) : Block :=
  let gang : Word := BitVec.ofNat 32 (bitsOf (i.dw 4) 63 32)
  let bl := i.putFurrows { old with
    threads := old.threads.map fun t => (t.1, i.thread hs gang lreg t.1 t.2) }
  let came (n : Nat) : List Nat := (bl.threads.filter fun t => t.2.wait = some (.barrier n)).map (·.1)
  { bl with
    mgang := Mgang.ofWord gang, hold := BitVec.ofNat 16 (bitsOf (i.dw 4) 15 0), detcfg := BitVec.ofNat 3 (bitsOf (i.dw 5) 34 32)
    bars := (List.range 16).foldl (fun m n => tset m n (barrierOf (tget m n) (i.dw (8 + n)) (came n))) old.bars
    joins := (List.range 16).foldl (fun m n =>
      tset m n (BitVec.ofNat 1024 (leNat (i.bytes (192 + 128 * n) 128)))) old.joins
    shm := { old.shm with cells := tsets old.shm.cells 0 (i.bytes (8 * i.shm) old.shb) }
    crew := if i.hasCrew then some (i.crew hs (old.crew.getD default)) else none }

-- Restoring (R398)

/-- The thread slots of a core that no block standing there holds, the lowest first (R245). -/
def State.freeSlots (s : State) (p c : Nat) : List Nat :=
  let used := (s.blocksOn p c).flatMap fun bl => bl.threads.map fun t => t.2.slot
  (List.range Config.maxThreads).filter fun n => !used.contains n
/-- The lowest free block slot of a core (R249). -/
def State.freeBlockSlot (s : State) (p c : Nat) : Nat :=
  let used := (s.blocksOn p c).map (·.slot)
  ((List.range Config.maxBlocks).find? fun n => !used.contains n).getD 0

/-- A thread restored (R266, R394, R398): a join's deadline restarts, an access is issued again, every other wait is
joined again or evaluated afresh. It is loose 8 cycles after the placement, its restore cycle (R322). -/
def Thread.restored (th : Thread) (slot hold now : Nat) : Thread :=
  let wait : Option Wait := match th.wait with
    | some (.join k _) => some (.join k (now + 8 + 16 * hold))
    | w => w
  let st : TState :=
    if th.st = .exited then .exited
    else if wait.isSome && !th.ms.h then .waiting
    else th.ready
  { th with
    slot := slot, wait := wait, st := st, pk := none, via := none, fresh := [], owed := 0, met := false
    stallUntil := now + 1, readySince := now + 8 }

/-- A command re-issued with its block (R307, R351, R392): at DONE, or from the start for sample and gauge; a row that was
written since the sample's issue stays so (R308). -/
def EngCmd.again (k : EngCmd) : EngCmd :=
  let k := { k with shut := false, gone := [], waits := [], rows := [] }
  match k.kind with
  | .gauge => { k with cover := [], done := [], begun := 0, result := none, code := 0, badAddr := none, stop := false }
  | .sample => { k with cover := [], done := [], begun := 0, result := none, code := 0, badAddr := none, stop := false }
  | _ => k

/-- The grid's event and the end of the context at a save-area fault (R398, R399): the event's frame is the failing thread's
saved frame with CAUSE 0x17 (R341). -/
def State.saveAreaFault (s : State) (i : Image) (core sub t : Nat) : State :=
  let th := tget i.block.threads t
  let fr := BitVec.ofNat 64 ((bitAt th.tframe0 63).toNat * 2 ^ 63 + 0x17 * 2 ^ 55 + bitsOf th.tframe0 54 0)
  let tc := tcauseWord sub none
  let e : EvRec := ⟨fr, tc, s.gtime i.pkg, s.pkgNo i.pkg i.ctx, core, th.slot, t, 0, i.block.bid⟩
  let s := s.countEvent i.pkg i.ctx i.block.grid 6 e
  s.killContext i.pkg i.ctx (endRecord 2 (s.pctx i.pkg i.ctx).num (s.gtime i.pkg) (s.pkgNo i.pkg i.ctx) core t i.block.grid
    th.tframe0 th.tframe1 tc)

/-- The image of a saved block. -/
def State.imageFor (s : State) (b : Nat) : Option (Nat × Image) := s.images.find? fun i => i.2.blk = b

/-- What a saved block's image gives back (R398): the block and the commands. An image that memory holds as it was saved gives
what was saved. -/
def State.unpack (s : State) (i r : Image) : Block × List EngCmd :=
  let old := s.blk i.blk
  if r.dwords = i.dwords then (old, i.cmds)
  else
    let hs := old.allHandles i.cmds
    let lreg (pc : VAddr) : Nat := match s.peekInstr i.pkg i.ctx pc with
      | some (.lwait _ d, _) => d.toNat
      | _ => 248
    (r.toBlock hs lreg old, r.commands hs s.nextCmd)

/-- A saved block restored on a core with a first partition (R398). -/
def State.restoreBlock (s : State) (b core part0 : Nat) : State :=
  match s.imageFor b with
  | none => s
  | some (n, i) =>
    let r := s.imageRead i
    match r.fault with
    | some (sub, t) => s.saveAreaFault i core sub t
    | none =>
      let slots := s.freeSlots i.pkg core
      let slot := s.freeBlockSlot i.pkg core
      let (bl, ks) := s.unpack i r
      let now := s.cycle
      let s := { s with
        images := terase s.images n
        cmds := s.cmds ++ ks.map EngCmd.again
        nextCmd := s.nextCmd + (ks.length - i.cmds.length) }
      let s := s.modBlk b fun _ =>
        { bl with
          place := .resident, core := core, part0 := part0, slot := slot, back := false, left := 0
          crew := bl.crew.map fun r => { r with granted := [], made := now, lastGrant := now, again := true }
          threads := ((List.range bl.threads.length).zip bl.threads).map fun t =>
            (t.2.1, t.2.2.restored (slots.getD t.1 0) bl.hold.toNat now) }
      if i.reason ≠ .lwait then s
      else
        let s := s.lwaitDeliver b
        s.modBlk b fun bl => { bl with threads := bl.threads.map fun t => (t.1, { t.2 with readySince := now + 8 }) }

end Sys2Proof.Machine
end

