-- ==== Sys2Proof/Machine/Dispatcher.lean ====
section
/-! DEFINITION. The checkgate of a package and the turnouts of its dies: lots, units and their order, placing, ageing,
retirement, the end of a grid, and the resumption from lwait (spec/18_scheduling.md R316-R333, R413;
spec/01_machine_state.md R43; spec/04_isa_integer_control.md R113). -/

namespace Sys2Proof.Machine

-- The state of a block at its placement (R43)

/-- The cluster coordinates of index j, and the coordinates of rank r of a cluster (R319). -/
def clusterXyz (r : List Dword) (j : Nat) : Dim3 :=
  let g := recGrid r
  let c := recCluster r
  ⟨j % (g.x / c.x), j / (g.x / c.x) % (g.y / c.y), j / (g.x / c.x * (g.y / c.y))⟩
def blockXyz (r : List Dword) (j rank : Nat) : Dim3 :=
  let c := recCluster r
  let k := clusterXyz r j
  ⟨k.x * c.x + rank % c.x, k.y * c.y + rank / c.x % c.y, k.z * c.z + rank / (c.x * c.y)⟩

/-- A thread of a block as it is placed (R43, R328): loose 8 cycles later (R322). -/
def freshThread (r : List Dword) (tvec : Dword) (role slot now : Nat) : Thread :=
  { (default : Thread) with
    pc := recCode r + BitVec.ofNat 57 (8 * roleEntry r role), st := .ready, ms := { (default : MState) with res := true }
    sp := BitVec.ofNat 32 (recLocal r), tvec := tvec, chk := recChk r, readySince := now + 8, slot := slot
    role := role, allot := roleRegs r role, prio := rolePrio r role }

/-- The threads of a block as they are placed. -/
def freshThreads (r : List Dword) (tvec : Dword) (slots : List Nat) (now : Nat) : Tab Thread :=
  let roles := furrowRoles r
  (List.range (vol (recBlock r))).map fun t => (t, freshThread r tvec (roles.getD (t / 32) 0) (slots.getD t 0) now)

/-- TVEC of a thread placed (R38, R313). -/
def State.vector (s : State) (p x : Nat) : Dword := BitVec.ofNat 64 (bitsOf (s.descDw p x 3) 56 3 * 8)

/-- A block made resident (R320, R43). -/
def State.placeBlock (s : State) (p : Nat) (g : Grid) (j rank core part0 : Nat) : State :=
  let r := g.record
  let bl : Block :=
    { (default : Block) with
      place := .resident, pkg := p, core := core, ctx := g.ctx, grid := g.id, cluster := j, rank := rank
      slot := s.freeBlockSlot p core, part0 := part0, bid := blockXyz r j rank, record := r
      threads := freshThreads r (s.vector p g.ctx) (s.freeSlots p core) s.cycle
      hold := 0x40#16, detcfg := recDeti r }
  { s with blocks := tset s.blocks s.nextBlk bl, nextBlk := s.nextBlk + 1 }

-- Grids that may be dealt (R316)

/-- The priority of a grid's units (R317). -/
def State.gridPrio (s : State) (p : Nat) (g : Grid) : Nat :=
  match g.queue with
  | some (n, _) => s.queuePrio p g.ctx n
  | none => g.prio

/-- Whether a grid's poster has completed (R241, R316): of a pod grid, on every package (R338). -/
def State.posterOver (s : State) (p : Nat) (g : Grid) : Bool :=
  match g.poster with
  | none => true
  | some a => (s.pkg p).grids.all fun o =>
      o.acc ≠ a || if o.pod then (s.findPod o.ctx o.id).all (·.complete) else o.state.ended

/-- Whether clusters of a grid may be dealt (R316, R391). -/
def State.dealable (s : State) (p : Nat) (g : Grid) : Bool :=
  g.checked && s.dealsNow p g && s.ctxRuns p g.ctx && (s.pctx p g.ctx).pre = .running && s.posterOver p g
    && match g.queue with
       | none => true
       | some (n, _) => s.queueOn p g.ctx n && (s.headOf p g.ctx n).any fun h => h.acc = g.acc

/-- New posts taken up and heads checked, over the contexts of a package. -/
def State.openQueues (s : State) (p : Nat) : State :=
  (s.ctxs.filter fun (c : Nat × PkgCtx) => c.1 / 65536 = p && c.2.live).foldl (fun s c => s.queuesOf p (c.1 % 65536)) s

-- Lots (R319)

/-- The first n clusters of some ranges, and the ranges without them. -/
def takeRange (n : Nat) : List (Nat × Nat) → Option ((Nat × Nat) × List (Nat × Nat))
  | [] => none
  | (lo, hi) :: r => if hi ≤ lo then takeRange n r
    else some ((lo, min hi (lo + n)), if lo + n < hi then (lo + n, hi) :: r else r)

/-- Whether a grid is dealt in lots. -/
def Grid.inLots (g : Grid) : Bool := !recOrd g.record && !recDet g.record

/-- A turnout's request for its next lot of a grid: up to 16 clusters. -/
def State.lotFor (s : State) (p die : Nat) (g : Grid) : State :=
  let q := s.partOf p g.ctx
  let has := (s.pkg p).lots.any fun l => l.die = die && l.grid = g.acc
  if !s.dealable p g || !g.inLots || has || (q.terraces die).isEmpty then s
  else match takeRange 16 g.todo with
    | none => s
    | some ((lo, hi), rest) =>
      let s := s.modGrid p g.acc fun g => { g with todo := rest }
      s.modPkg p fun k => { k with lots := k.lots ++ [⟨die, g.acc, lo, hi⟩] }

/-- CHECKGATE_LOT_REQUEST (R319). -/
def execCheckgateLotRequest (pkg die : Nat) (s : State) : Out :=
  let s := s.openQueues pkg
  .next ((s.pkg pkg).grids.foldl (fun s g => s.lotFor pkg die g) s)

-- Virtual positions (R324)

/-- The index by which a grid's cluster takes its virtual position: for a pod grid, j div NP (R337). -/
def State.virtIndex (s : State) (p : Nat) (g : Grid) (j : Nat) : Nat := if g.pod then j / s.pkgCount p g.ctx else j
/-- The terrace of virtual index v, and the cores of its ranks. -/
def Partition.virtTerrace (q : Partition) (r : List Dword) (v : Nat) : Nat :=
  let ts := q.allTerraces
  ts.getD (v / max 1 (8 / recClusterSize r) % ts.length) 0
def Partition.virtCore (q : Partition) (r : List Dword) (v rank : Nat) : Nat :=
  let u := max 1 (8 / recClusterSize r)
  8 * q.virtTerrace r v + (v % u * recClusterSize r + rank) % 8

/-- The lowest cluster of some ranges whose virtual terrace is on a die. -/
def State.detNext (s : State) (p die : Nat) (g : Grid) : Option Nat :=
  let q := s.partOf p g.ctx
  let near := max 1 (8 / recClusterSize g.record) * q.allTerraces.length * (if g.pod then s.pkgCount p g.ctx else 1)
  let on (j : Nat) : Bool := q.virtTerrace g.record (s.virtIndex p g j) / Config.terracesPerDie = die
  g.todo.findSome? fun r => ((List.range (min (r.2 - r.1) near)).map fun i => r.1 + i).find? on

/-- A cluster taken out of the ranges. -/
def withoutCluster (j : Nat) : List (Nat × Nat) → List (Nat × Nat)
  | [] => []
  | (lo, hi) :: r =>
    if lo ≤ j && j < hi then
      (if lo < j then [(lo, j)] else []) ++ (if j + 1 < hi then [(j + 1, hi)] else []) ++ r
    else (lo, hi) :: withoutCluster j r

-- Units (R317)

/-- What a unit places: a new cluster of a grid, or saved blocks. -/
inductive Work where
  | fresh (j : Nat)
  | again (blocks : List Nat)
deriving DecidableEq, Repr, Inhabited

/-- A unit offered to a turnout, with its grid and the key that ranks it. -/
structure Offer where
  id : UnitId
  key : List Nat
  grid : Grid
  work : Work
deriving DecidableEq, Repr, Inhabited

/-- The cluster of a grid that a turnout offers, if it holds one (R319): under ORD the next one is offered from the cycle after
the one before it is placed, to every turnout. -/
def State.heldCluster (s : State) (p die : Nat) (g : Grid) : Option Nat :=
  let q := s.partOf p g.ctx
  if !s.dealable p g || (q.terraces die).isEmpty then none
  else if recDet g.record then s.detNext p die g
  else if recOrd g.record then (if s.cycle < g.last then none else (takeRange 1 g.todo).map (·.1.1))
  else ((s.pkg p).lots.find? fun l => l.die = die && l.grid = g.acc).map (·.lo)

/-- The new clusters offered to a turnout. -/
def State.freshOffers (s : State) (p die : Nat) : List Offer :=
  (s.pkg p).grids.filterMap fun g => (s.heldCluster p die g).map fun j =>
    ⟨⟨g.acc, j, false⟩, [1, 7 - s.gridPrio p g, g.acc, j], g, .fresh j⟩

/-- Whether a saved block waits to be placed again. -/
def State.waitsPlace (s : State) (p : Nat) (bl : Block) : Bool :=
  bl.back && bl.pkg = p && (match bl.place with | .saved w => w ≠ .slice | _ => false)
    && s.ctxRuns p bl.ctx && (s.pctx p bl.ctx).pre = .running

/-- The saved blocks that are placed together with one (R332): one resuming from lwait alone, others with their cluster. -/
def State.backWith (s : State) (p b : Nat) (bl : Block) : List Nat :=
  if bl.place = .saved .lwait then [b]
  else (s.blocks.filter fun (o : Nat × Block) =>
    s.waitsPlace p o.2 && o.2.place ≠ Place.saved SaveReason.lwait && o.2.ctx = bl.ctx && o.2.grid = bl.grid
      && o.2.cluster = bl.cluster).map (·.1)

/-- The resumptions and restores offered to the turnouts of a package; one whose partition has no terrace on the die, or
under DET whose own terrace is elsewhere, is not offered there. -/
def State.againOffers (s : State) (p die : Nat) : List Offer :=
  s.blocks.filterMap fun (b : Nat × Block) =>
    let bl := b.2
    let mates := s.backWith p b.1 bl
    if !s.waitsPlace p bl || mates.headD b.1 ≠ b.1 then none
    else (s.findGrid p bl.ctx bl.grid).bind fun g =>
      let q := s.partOf p bl.ctx
      let own := q.virtTerrace g.record (s.virtIndex p g bl.cluster) / Config.terracesPerDie = die
      if (q.terraces die).isEmpty || (recDet g.record && !own) then none
      else some ⟨⟨g.acc, bl.cluster * 16 + (if mates.length = 1 then bl.rank + 1 else 0), true⟩,
        [0, 7 - s.gridPrio p g, g.acc, bl.cluster, bl.rank], g, .again mates⟩

/-- An offer put at its place. -/
def putOffer (o : Offer) : List Offer → List Offer
  | [] => [o]
  | a :: r => if keyLt o.key a.key then o :: a :: r else a :: putOffer o r
/-- The units offered to a turnout in the order of R317. -/
def State.offers (s : State) (p die : Nat) : List Offer :=
  (s.againOffers p die ++ s.freshOffers p die).foldl (fun l o => putOffer o l) []

-- Fit (R320, R321, R324)

/-- What a core of a partition holds in this cycle, if it serves blocks: a block that left in this cycle counts. -/
def State.heldLoad (s : State) (p : Nat) (q : Partition) (c : Nat) : Option Load :=
  (s.coreLoad p q c).map fun l =>
    (s.blocks.filter fun (b : Nat × Block) => !b.2.stands && s.cycle < b.2.left && b.2.pkg = p && b.2.core = c).foldl
      (fun l b => l.add b.2.record b.2.part0) l

/-- The cores of the ranks of a cluster at its virtual position, if all fit (R324). -/
def detFit (have_ : Nat → Option Load) (q : Partition) (r : List Dword) (v : Nat) :
    List Nat → List (Nat × Nat) → Option (List (Nat × Nat))
  | [], acc => some acc
  | rank :: rs, acc =>
    let c := q.virtCore r v rank
    match (have_ c).bind fun l =>
      ((acc.filter fun a => a.1 = c).foldl (fun l a => l.add r a.2) l).fit r with
    | none => none
    | some p0 => detFit have_ q r v rs (acc ++ [(c, p0)])

/-- The ranks that a unit places. -/
def State.ranksOf (s : State) (o : Offer) : List Nat :=
  match o.work with
  | .fresh _ => List.range (recClusterSize o.grid.record)
  | .again bs => bs.map fun b => (s.blk b).rank
/-- The cluster of a unit. -/
def State.clusterOf (s : State) (o : Offer) : Nat :=
  match o.work with
  | .fresh j => j
  | .again bs => (s.blk (bs.headD 0)).cluster

/-- The hash that starts the search for a terrace (R321). -/
def terraceHash (c : Dim3) : Nat :=
  ((BitVec.ofNat 32 c.x * 0x9E3779B1#32) ^^^ (BitVec.ofNat 32 c.y * 0x85EBCA77#32)
    ^^^ (BitVec.ofNat 32 c.z * 0xC2B2AE3D#32)).toNat

/-- The terraces of a turnout in the order in which a unit tries them (R321): a block that resumes from lwait beside a
resident block of its cluster tries that one's only; a block sliced out is resident on its logical core (R327), and keeps the
terrace for every saved block of its cluster (R333). -/
def State.terraceOrder (s : State) (p die : Nat) (o : Offer) : List Nat :=
  let ts := (s.partOf p o.grid.ctx).terraces die
  let g := recGrid o.grid.record
  let j := s.clusterOf o
  let mate := match o.work with
    | .fresh _ => none
    | .again _ => s.blocks.find? fun (b : Nat × Block) => b.2.stands && b.2.pkg = p && b.2.ctx = o.grid.ctx
        && b.2.grid = o.grid.id && b.2.cluster = j
  match mate with
  | some m => ts.filter fun t => t = m.2.core / 8
  | none =>
    if g.y * g.z = 1 then ts
    else
      let k := terraceHash (clusterXyz o.grid.record j) / 2 ^ 16 % ts.length
      ts.drop k ++ ts.take k

/-- The cores of a unit on a terrace, if it fits there, by what each core holds. -/
def State.unitFit (s : State) (p : Nat) (o : Offer) (have_ : Nat → Option Load) (t : Nat) : Option (List (Nat × Nat)) :=
  let q := s.partOf p o.grid.ctx
  let r := o.grid.record
  if recDet r then
    let v := s.virtIndex p o.grid (s.clusterOf o)
    if q.virtTerrace r v = t then detFit have_ q r v (s.ranksOf o) [] else none
  else clusterFit have_ r (s.ranksOf o).length t

/-- The first terrace among some on which a unit fits now. -/
def State.findFit (s : State) (p : Nat) (o : Offer) (ts : List Nat) : Option (List (Nat × Nat)) :=
  ts.findSome? fun t => s.unitFit p o (s.heldLoad p (s.partOf p o.grid.ctx)) t

-- Placing (R322)

/-- The grid and the lot after a cluster is placed (R318, R319). -/
def State.dealtOne (s : State) (p die : Nat) (g : Grid) (j : Nat) : State :=
  let n := g.placed + recClusterSize g.record
  let s := s.modGrid p g.acc fun g =>
    { g with
      placed := n
      last := s.cycle + 1
      todo := if g.inLots then g.todo else withoutCluster j g.todo
      state := if n = g.total && !g.pod && g.state = .dealing then .dealt else g.state }
  s.modPkg p fun k =>
    { k with lots := (k.lots.map fun l =>
        if l.die = die && l.grid = g.acc then { l with lo := l.lo + 1 } else l).filter fun l => l.lo < l.hi }

/-- Every block of a unit made resident (R322, R332). One placed in the cycle of a cancel with KILL = 1 stops at once (R239,
R318). -/
def State.placeUnit (s : State) (p die : Nat) (o : Offer) (at_ : List (Nat × Nat)) : State :=
  match o.work with
  | .fresh j =>
    let t := (((s.ranksOf o).zip at_).foldl (fun s y => s.placeBlock p o.grid j y.1 y.2.1 y.2.2) s).dealtOne p die o.grid j
    if o.grid.kill then t.killBlocks p o.grid else t
  | .again bs => (bs.zip at_).foldl (fun s y => s.restoreBlock y.1 y.2.1 y.2.2) s

/-- The key of a package's turnout. -/
def State.turnout (s : State) (p die : Nat) : Turnout := tget (s.pkg p).turns die
def State.modTurnout (s : State) (p die : Nat) (f : Turnout → Turnout) : State :=
  s.modPkg p fun k => { k with turns := tmod k.turns die f }

/-- The cycle from which a unit has been refused. -/
def Turnout.since (n : Turnout) (id : UnitId) : Option Nat := (n.refused.find? fun r => r.1 = id).map (·.2)

/-- The terrace that ageing closes for a refused head (R322), if it closes one. -/
def State.ageing (s : State) (p die : Nat) (head : Offer) : Option Nat :=
  let n := s.turnout p die
  let q := s.partOf p head.grid.ctx
  match n.since head.id with
  | none => none
  | some f =>
    let filled := n.backfill.filter fun b => f ≤ b.2
    if q.age = 0 || n.closed.isSome || s.cycle - f < 16 * q.age || !(filled.any fun b => b.2 < s.cycle) then none
    else
      let could := (s.terraceOrder p die head).filter fun t => (s.unitFit p head (s.coreEmpty p q) t).isSome
      let good (t : Nat) : Nat := ((terraceCores t).filter fun c =>
        ((s.heldLoad p q c).any fun l => (l.fit head.grid.record).isSome)
          || filled.any fun b => (s.blk b.1).stands && (s.blk b.1).pkg = p && (s.blk b.1).core = c).length
      leastBy (fun t => [8 - good t, t]) could

/-- The first unit behind the head that fits an open terrace, with its cores. -/
def State.backfillOf (s : State) (p die : Nat) (closed : Option Nat) : List Offer → Option (Offer × List (Nat × Nat))
  | [] => none
  | o :: r =>
    match s.findFit p o ((s.terraceOrder p die o).filter fun t => closed ≠ some t) with
    | some a => some (o, a)
    | none => s.backfillOf p die closed r

/-- The blocks that a unit places: new ones take the next keys. -/
def State.blocksPlaced (s : State) (o : Offer) : List Nat :=
  match o.work with
  | .fresh _ => (List.range (recClusterSize o.grid.record)).map fun i => s.nextBlk + i
  | .again bs => bs

/-- What a turnout's cycle comes to (R322): the unit that it places, with its cores; `back` says that it is back-fill. -/
structure Deal where
  unit : Offer
  cores : List (Nat × Nat)
  back : Bool
deriving DecidableEq, Repr, Inhabited

/-- The choice of a turnout in one cycle (R322): the head is placed where it fits; a refused head keeps its refused cycle,
ageing may close a terrace for it, and a unit behind it may be placed as back-fill. -/
def State.turnoutPick (s : State) (p die : Nat) : State × Option Deal :=
  match s.offers p die with
  | [] => (s, none)
  | head :: rest =>
    match s.findFit p head (s.terraceOrder p die head) with
    | some a => (s, some ⟨head, a, false⟩)
    | none =>
      let s := s.modTurnout p die fun n =>
        if (n.since head.id).isSome then n else { n with refused := n.refused ++ [(head.id, s.cycle)] }
      let s := match s.ageing p die head with
        | some t => s.modTurnout p die fun n => { n with closed := some t }
        | none => s
      (s, (s.backfillOf p die (s.turnout p die).closed rest).map fun y => ⟨y.1, y.2, true⟩)

/-- A unit that no longer waits has no refused cycle, at any turnout of its package (R322). -/
def State.unitPlaced (s : State) (p : Nat) (id : UnitId) : State :=
  s.modPkg p fun k => { k with turns := k.turns.map fun (n : Nat × Turnout) =>
    (n.1, { n.2 with refused := n.2.refused.filter fun r => r.1 ≠ id }) }

/-- The placement that a turnout has chosen, its only one in the cycle (R322). -/
def State.dealPlace (s : State) (p die : Nat) (d : Deal) : State :=
  let new := if d.back then (s.blocksPlaced d.unit).map fun b => (b, s.cycle) else []
  ((s.placeUnit p die d.unit d.cores).unitPlaced p d.unit.id).modTurnout p die fun n =>
    { n with
      backfill := n.backfill ++ new
      closed := if d.back then n.closed else none
      last := s.cycle + 1 }

/-- TURNOUT_CYCLE (R322). -/
def execTurnoutCycle (pkg die : Nat) (s : State) : Out :=
  let s := s.openQueues pkg
  if s.cycle < (s.turnout pkg die).last then .next s
  else match s.turnoutPick pkg die with
    | (s, none) => .next s
    | (s, some d) => .next (s.dealPlace pkg die d)

/-- TERRACE_CLOSE_AGEING (R322): the step of a turnout's cycle that closes a terrace for a refused head. -/
def execTerraceCloseAgeing (pkg die : Nat) (s : State) : Out :=
  match s.offers pkg die with
  | [] => .next s
  | head :: _ =>
    if (s.findFit pkg head (s.terraceOrder pkg die head)).isSome then .next s
    else match s.ageing pkg die head with
      | some t => .next (s.modTurnout pkg die fun n => { n with closed := some t })
      | none => .next s

/-- Whether a turnout's choice is to place one saved block on a core. -/
def Deal.restores (d : Deal) (b core : Nat) : Bool := d.unit.work = .again [b] && (d.cores.map (·.1)) = [core]

/-- BLOCK_RESTORE (R398): a saved block that stands alone in its unit is restored, where its turnout's cycle places it
(R321, R322). A cluster is restored whole, by its turnout (R332). -/
def execBlockRestore (img core : Nat) (s : State) : Out :=
  let i := tget s.images img
  let die := dieOf core
  let u := s.openQueues i.pkg
  if i.dwords.isEmpty || u.cycle < (u.turnout i.pkg die).last then .next s
  else match u.turnoutPick i.pkg die with
    | (v, some d) => .next (if d.restores i.blk core then v.dealPlace i.pkg die d else s)
    | (_, none) => .next s

-- Pre-emption's end (R331, R391, R413)

/-- The blocks of a context resident on a package. -/
def State.residentOf (s : State) (p x : Nat) : List (Nat × Block) :=
  s.blocks.filter fun (b : Nat × Block) => b.2.place = Place.resident && b.2.pkg = p && b.2.ctx = x

/-- Saved blocks of a context made restore units (R332); those swapped out by lwait wait for their children. -/
def State.reopen (s : State) (p x : Nat) : State :=
  { s with blocks := s.blocks.map fun (b : Nat × Block) =>
      if b.2.pkg = p && b.2.ctx = x && (b.2.place = Place.saved .sluice || b.2.place = Place.saved .boundary) then
        (b.1, { b.2 with back := true })
      else b }

/-- A context goes on running. -/
def State.runAgain (s : State) (p x : Nat) : State :=
  (s.modCtx p x fun c => { c with pre := .running, resume := false }).reopen p x

/-- Whether every thread of a block that has not exited waits at a yield (R331). -/
def Block.atBoundary (bl : Block) : Bool := bl.live.all fun t => (tget bl.threads t).wait = some .yieldHold

/-- The blocks of a context that a time slice has taken off their cores. -/
def State.slicedOut (s : State) (p x : Nat) : List (Nat × Block) :=
  s.blocks.filter fun (b : Nat × Block) => b.2.place = Place.saved .slice && b.2.pkg = p && b.2.ctx = x

/-- A block that a time slice took off its core, when the save of its context takes it up (R332, R391): it waits for the
resumption as the others do, and holds no core. -/
def Block.unslice (bl : Block) : Block :=
  if bl.place = .saved .slice then
    { bl with
      place := .saved (if bl.atBoundary then .boundary else .sluice)
      threads := bl.threads.map fun t =>
        if t.2.wait = some Wait.yieldHold then (t.1, { t.2 with wait := none, st := t.2.ready }) else t }
  else bl
def State.unslice (s : State) (p x : Nat) : State :=
  { s with blocks := s.blocks.map fun (b : Nat × Block) =>
      if b.2.pkg = p && b.2.ctx = x then (b.1, b.2.unslice) else b }

/-- A pre-emption whose blocks are all at a boundary, saved or retired has ended (R331, R391); a resumption that waited
for it takes effect (R413). -/
def State.settlePre (s : State) (p x : Nat) : State :=
  let c := s.pctx p x
  let left : Bool := !(s.residentOf p x).isEmpty || (c.pre = .pending && (s.slicedOut p x).any fun b => !b.2.atBoundary)
  if c.live && c.pre ≠ .running && c.pre ≠ .saved && !left then
    let s := (s.unslice p x).modCtx p x fun c => { c with pre := .saved }
    if c.resume then s.runAgain p x else s
  else s

-- Retirement and completion (R113, R318, R338)

/-- Whether a block can retire (R113, R259). -/
def Block.ended (bl : Block) : Bool :=
  bl.crew.isNone && bl.drain.isNone
    && bl.threads.all fun t => t.2.st = .exited && t.2.lcnt = 0 && t.2.scnt = 0 && t.2.ecnt = 0

/-- A retired block: what is left of it is its place in the grid. -/
def Block.gone (bl : Block) (now : Nat) : Block :=
  { (default : Block) with
    place := .retired, pkg := bl.pkg, core := bl.core, ctx := bl.ctx, grid := bl.grid, cluster := bl.cluster
    rank := bl.rank, part0 := bl.part0, bid := bl.bid, record := bl.record, left := now + 1 }

/-- BLOCK_RETIRE (R113). -/
def execBlockRetire (blk : Nat) (s : State) : Out :=
  let bl := s.blk blk
  if bl.place ≠ .resident || !bl.ended then .next s
  else
    let s := s.modBlk blk fun bl => bl.gone s.cycle
    let s := match s.findGrid bl.pkg bl.ctx bl.grid with
      | none => s
      | some g => s.modGrid bl.pkg g.acc fun g => if g.kill then { g with kld := g.kld + 1 } else { g with fin := g.fin + 1 }
    .next (s.settlePre bl.pkg bl.ctx)

/-- Whether every block placed of a grid has retired (R318). -/
def Grid.allRetired (g : Grid) : Bool := g.fin + g.kld = g.placed

/-- A grid of one package ends (R318, R338): its state, its report and its queue's entry. -/
def State.endGrid (s : State) (p : Nat) (g : Grid) : State :=
  let c : Bool := g.state = .cancelling
  let g' := { g with state := if c then GState.cancelled else GState.complete, nst := g.total - g.placed
                     tend := s.gtime p }
  let s := s.modGrid p g.acc fun _ => g'
  let s := s.writeReport p g.ctx (g'.summary (s.pkgNo p g.ctx))
  match g.queue with
  | none => s
  | some (n, e) => s.completeEntry p g.ctx n e (completionDw (g.faults ≠ 0) c 0 g.id)

/-- Whether a pod grid is complete (R338): a final summary from every package, and every block accounted for. -/
def State.podOver (s : State) (x : Nat) (h : PodGrid) : Bool :=
  h.ended && (s.podPkgs x).all fun p => h.finals.contains (s.pkgNo p x)

/-- A pod grid completes at its headgate (R338, R339): its report is written there. -/
def State.endPod (s : State) (p x : Nat) (h : PodGrid) : State :=
  let m := (s.headPkg p x).getD p
  let h' := { h with complete := true, nst := h.total - h.fin - h.kld, tend := s.gtime m }
  (s.modPod x h.seq fun _ => h').writeReport m x h'.summary

/-- GRID_COMPLETE (R338): `grid` is the grid's place in the package's order of acceptance. -/
def execGridComplete (pkg grid : Nat) (s : State) : Out :=
  match (s.pkg pkg).grids.find? fun g => g.acc = grid with
  | none => .next s
  | some g =>
    if g.pod then
      match s.findPod g.ctx g.id with
      | none => .next s
      | some h => .next (if !h.complete && s.podOver g.ctx h then s.endPod pkg g.ctx h else s)
    else if (g.state = .dealt || (g.state = .cancelling && !s.dealsNow pkg g)) && g.allRetired then .next (s.endGrid pkg g)
    else .next s

/-- LWAIT_RESUME (R238, R329): once the last counted child has completed, a block swapped out becomes a resumption unit;
one that stayed on its core goes on there. -/
def execLwaitResume (blk : Nat) (s : State) : Out :=
  let bl := s.blk blk
  if !s.kidsOver blk then .next s
  else if bl.place = .saved .lwait then .next (s.modBlk blk fun bl => { bl with back := true })
  else if bl.place = .resident && s.ctxRuns bl.pkg bl.ctx then .next (s.lwaitSettle blk)
  else .next s

end Sys2Proof.Machine
end

