-- ==== Sys2Proof/Machine/Sfu.lean ====
section
/-! DEFINITION. The special-function units (spec/06_isa_float.md R159, R160). The exact cases and special values are
as stated; elsewhere the delivered word is the free value Config.sfu where it lies within the bound of R160, and
otherwise the nearest end of that bound (log entry 6). The exact value is enclosed by fixed-point arithmetic. -/

namespace Sys2Proof.Machine

/-- Fractional bits of the fixed-point enclosures. -/
def fx : Nat := 320
/-- floor(pi * 2^320), a mathematical constant. -/
def piFx : Nat := 0x3243f6a8885a308d313198a2e03707344a4093822299f31d0082efa98ec4e6c89452821e638d01377

def rtzEnv : Env := ⟨.rtz, false, false⟩
def rupEnv : Env := ⟨.rup, false, false⟩

/-- The FP32 encoding of a positive value rounded down or up. -/
def f32Down (x : FV) : Nat := (roundTo .f32 rtzEnv x).1
def f32Up (x : FV) : Nat := (roundTo .f32 rupEnv x).1

/-- The delivered word's flags and flush: it differs from the exact value (R159). -/
def sfuInexact (ftz : Bool) (bits : Nat) : Res :=
  let mag := bits % 2 ^ 31
  if mag < 2 ^ 23 && mag ≠ 0 then (if ftz then (bits - mag, UF ||| NX) else (bits, UF ||| NX)) else (bits, NX)

/-- A delivered word that equals the exact value; a subnormal one is flushed under FTZ (R160). -/
def sfuExact (ftz : Bool) (bits : Nat) : Res :=
  let mag := bits % 2 ^ 31
  if ftz && mag < 2 ^ 23 && mag ≠ 0 then (bits - mag, UF ||| NX) else (bits, 0)

/-- A faithful result (R159): one of the two values that bracket the exact magnitude, which lies between `lo` and
`hi`; the free value chooses. -/
def sfuFaithful (ftz neg : Bool) (v : Word) (lo hi : FV) : Res :=
  let a := f32Down lo
  let b := f32Up hi
  let s := signBit .f32 neg
  if a = b then sfuExact ftz (s + a)
  else sfuInexact ftz (s + if v.toNat % 2 ^ 31 = b then b else a)

/-- A result within 2^-22 of an exact value that lies between lo and hi, both scaled by 2^fx (R159). -/
def sfuAbsolute (ftz : Bool) (v : Word) (lo hi : Int) : Res :=
  let tol : Int := 2 ^ (fx - 22)
  let ok := match fdecode .f32 v.toNat with
    | .fin neg m e => let x := atExp neg m (e + fx) 0; lo - tol ≤ x && x ≤ hi + tol
    | _ => false
  if ok then sfuInexact ftz v.toNat else sfuInexact ftz (roundTo .f32 rtzEnv (ofInt lo (-fx) false)).1

/-- frcp (R160). -/
def sfuRcp (daz ftz : Bool) (v a : Word) : Res :=
  match fread .f32 daz a.toNat with
  | .nan sig => (defaultNaN .f32, if sig then NV else 0)
  | .inf neg => (signBit .f32 neg, 0)
  | .fin neg m e =>
    if m = 0 then (infinity .f32 neg, DZ)
    else if !gtPow m e 1 (-128) then (infinity .f32 neg, OF ||| NX)
    else
      let (n, d) := scaleDown 1 m e
      let lo := (roundMag .f32 rtzEnv false false n d).1
      let hi := (roundMag .f32 rupEnv false false n d).1
      let s := signBit .f32 neg
      if lo = hi then sfuExact ftz (s + lo) else sfuInexact ftz (s + if v.toNat % 2 ^ 31 = hi then hi else lo)

/-- frsq (R160): floor(2^k / sqrt(m)) with a sticky last bit encloses the exact value. -/
def sfuRsq (daz ftz : Bool) (v a : Word) : Res :=
  match fread .f32 daz a.toNat with
  | .nan sig => (defaultNaN .f32, if sig then NV else 0)
  | .inf neg => if neg then (defaultNaN .f32, NV) else (0, 0)
  | .fin neg m e =>
    if m = 0 then (infinity .f32 neg, DZ)
    else if neg then (defaultNaN .f32, NV)
    else
      let m' := if e % 2 = 0 then m else 2 * m
      let e' := if e % 2 = 0 then e else e - 1
      let r := isqrt (2 ^ 200 / m')
      let x := FV.fin false (2 * r + if r * r * m' = 2 ^ 200 then 0 else 1) (-101 - e' / 2)
      sfuFaithful ftz false v x x

/-- A lower bound of 2^(f / 2^fx) at fx bits, from the roots 2^(2^-i) of the bits i of f. -/
def exp2From (f : Nat) : Nat → Nat → Nat → Nat → Nat
  | 0, _, _, p => p
  | k + 1, i, c, p =>
    let c := isqrt (c * 2 ^ fx)
    exp2From f k (i + 1) c (if f / 2 ^ (fx - i) % 2 = 1 then p * c / 2 ^ fx else p)

/-- fex2 (R160). -/
def sfuEx2 (daz ftz : Bool) (v a : Word) : Res :=
  match fread .f32 daz a.toNat with
  | .nan sig => (defaultNaN .f32, if sig then NV else 0)
  | .inf neg => if neg then (0, 0) else (infinity .f32 false, 0)
  | .fin neg m e =>
    if m = 0 then (0x3F800000, 0)
    else
      let x := atExp neg m (e + fx) 0
      let n := x / 2 ^ fx
      let f := (x % 2 ^ fx).toNat
      if 128 ≤ n then (infinity .f32 false, OF ||| NX)
      else if x < -149 * 2 ^ fx then (0, UF ||| NX)
      else if f = 0 then sfuExact ftz (roundTo .f32 rtzEnv (.fin false 1 n)).1
      else
        let p := exp2From f 160 1 (2 * 2 ^ fx) (2 ^ fx)
        sfuFaithful ftz false v (.fin false p (n - fx)) (.fin false (p + 4096) (n - fx))

/-- Digits of log2 of y / 2^fx in [1, 2), by repeated squaring. -/
def log2From : Nat → Nat → Nat → Nat
  | 0, _, d => d
  | k + 1, y, d =>
    let y := y * y / 2 ^ fx
    if 2 ^ (fx + 1) ≤ y then log2From k (y / 2) (2 * d + 1) else log2From k y (2 * d)

/-- flg2 (R160). -/
def sfuLg2 (daz ftz : Bool) (v a : Word) : Res :=
  match fread .f32 daz a.toNat with
  | .nan sig => (defaultNaN .f32, if sig then NV else 0)
  | .inf neg => if neg then (defaultNaN .f32, NV) else (infinity .f32 false, 0)
  | .fin neg m e =>
    if m = 0 then (infinity .f32 true, DZ)
    else if neg then (defaultNaN .f32, NV)
    else
      let k := Nat.log2 m
      let e2 := e + k
      if m = 2 ^ k then sfuExact ftz (roundTo .f32 rtzEnv (ofInt e2 0 false)).1
      else
        let d := log2From 110 (m * 2 ^ (fx - k)) 0
        let lo : Int := (e2 * 2 ^ 110 + d) * 2 ^ (fx - 110)
        let hi : Int := (e2 * 2 ^ 110 + d + 3) * 2 ^ (fx - 110)
        if e2 = 0 || e2 = -1 then sfuAbsolute ftz v lo hi
        else if e2 < 0 then sfuFaithful ftz true v (.fin false hi.natAbs (-fx)) (.fin false lo.natAbs (-fx))
        else sfuFaithful ftz false v (.fin false lo.natAbs (-fx)) (.fin false hi.natAbs (-fx))

/-- The terms of the sine's series at fx bits: the sum of those of even and of odd rank. -/
def sinFrom (t2 : Nat) : Nat → Nat → Nat → Nat → Nat → Nat × Nat
  | 0, _, _, p, n => (p, n)
  | k + 1, i, t, p, n =>
    let u := t * t2 / 2 ^ fx / ((i + 1) * (i + 2))
    if i % 4 = 1 then sinFrom t2 k (i + 2) u (p + t) n else sinFrom t2 k (i + 2) u p (n + t)

/-- sin(pi * r / 2^fx) at fx bits for r at most 2^(fx - 1), correct to within 256 units. -/
def sinPiFx (r : Nat) : Nat :=
  let t := r * piFx / 2 ^ fx
  let (p, n) := sinFrom (t * t / 2 ^ fx) 45 1 t 0 0
  p - n

/-- fsinpi (R160). -/
def sfuSin (daz ftz : Bool) (v a : Word) : Res :=
  match fread .f32 daz a.toNat with
  | .nan sig => (defaultNaN .f32, if sig then NV else 0)
  | .inf _ => (defaultNaN .f32, NV)
  | .fin neg m e =>
    let x := m * 2 ^ (e + fx).toNat
    let r := x % 2 ^ (fx + 1)
    let q := r % 2 ^ fx
    let sg := neg != decide (2 ^ fx ≤ r)
    if q = 0 then (signBit .f32 neg, 0)
    else if q = 2 ^ (fx - 1) then (signBit .f32 sg + 0x3F800000, 0)
    else
      let y := sinPiFx (if q < 2 ^ (fx - 1) then q else 2 ^ fx - q)
      if x < 2 ^ (fx - 4) then sfuFaithful ftz neg v (.fin false (y - 256) (-fx)) (.fin false (y + 256) (-fx))
      else
        let i : Int := if sg then -(y : Int) else y
        sfuAbsolute ftz v (i - 256) (i + 256)

/-- fcospi (R160). -/
def sfuCos (daz ftz : Bool) (v a : Word) : Res :=
  match fread .f32 daz a.toNat with
  | .nan sig => (defaultNaN .f32, if sig then NV else 0)
  | .inf _ => (defaultNaN .f32, NV)
  | .fin _ m e =>
    let x := m * 2 ^ (e + fx).toNat
    let r := x % 2 ^ (fx + 1)
    let r := if r ≤ 2 ^ fx then r else 2 ^ (fx + 1) - r
    if r = 0 then (0x3F800000, 0)
    else if r = 2 ^ fx then (0xBF800000, 0)
    else if r = 2 ^ (fx - 1) then (0, 0)
    else
      let i : Int := if r < 2 ^ (fx - 1) then (sinPiFx (2 ^ (fx - 1) - r) : Int) else -(sinPiFx (r - 2 ^ (fx - 1)) : Int)
      sfuAbsolute ftz v (i - 256) (i + 256)

end Sys2Proof.Machine
end

