-- ==== Sys2Proof/Machine/Float.lean ====
section
/-! DEFINITION. Classes 3 and 4: floating point, conversions, special functions, minifloat packing and census
(spec/06_isa_float.md R143-R166). Each meaning reads its operands, computes by Flags or Sfu, writes with the latency of
R56 and raises its flags. -/

namespace Sys2Proof.Machine

/-- A 32-bit result with flags, written with a latency (R144). -/
def State.fput (s : State) (c : Ctl) (d : RegF) (r : Res) (L : Nat) : State :=
  ((s.wr d (BitVec.ofNat 32 r.1) L).raiseMe r.2).advance c
/-- A 64-bit result with flags. -/
def State.fput64 (s : State) (c : Ctl) (d : RegF) (r : Res) (L : Nat) : State :=
  ((s.wr64 d (BitVec.ofNat 64 r.1) L).raiseMe r.2).advance c
/-- A result of a type's width. -/
def State.fputT (s : State) (c : Ctl) (t : Ty) (d : RegF) (r : Res) (L : Nat) : State :=
  if t.is64 then s.fput64 c d r L else s.fput c d r L
/-- A scalar source in a format: the low bits of its register or pair (R143). -/
def State.fsrc (s : State) (t : Ty) (r : RegF) : Nat := s.rdN t r % 2 ^ (fmtOf t).width
/-- A pair as a number. -/
def State.dsrc (s : State) (r : RegF) : Nat := (s.rd64 r).toNat

/-- fadd (R148). -/
def execFadd (c : Ctl) (d a b : RegF) (ty : Ty) (rm : Rmo) (s : State) : Out :=
  s.run c (.fadd c d a b ty rm) fun s => s.fput c d (fpAdd (fmtOf ty) (s.env rm) (s.fsrc ty a) (s.fsrc ty b)) 5
/-- fsub (R148). -/
def execFsub (c : Ctl) (d a b : RegF) (ty : Ty) (rm : Rmo) (s : State) : Out :=
  s.run c (.fsub c d a b ty rm) fun s => s.fput c d (fpSub (fmtOf ty) (s.env rm) (s.fsrc ty a) (s.fsrc ty b)) 5
/-- fmul (R148). -/
def execFmul (c : Ctl) (d a b : RegF) (ty : Ty) (rm : Rmo) (s : State) : Out :=
  s.run c (.fmul c d a b ty rm) fun s => s.fput c d (fpMul (fmtOf ty) (s.env rm) (s.fsrc ty a) (s.fsrc ty b)) 5
/-- ffma (R148). -/
def execFfma (c : Ctl) (d a b x : RegF) (ty : Ty) (rm : Rmo) (s : State) : Out :=
  s.run c (.ffma c d a b x ty rm) fun s =>
    s.fput c d (fpFma (fmtOf ty) (s.env rm) (s.fsrc ty a) (s.fsrc ty b) (s.fsrc ty x)) 5
/-- fmin (R150). -/
def execFmin (c : Ctl) (d a b : RegF) (ty : Ty) (s : State) : Out :=
  s.run c (.fmin c d a b ty) fun s =>
    s.fput c d (fpMinMax (fmtOf ty) s.me.fpcsr.daz false false (s.fsrc ty a) (s.fsrc ty b)) 5
/-- fmax (R150). -/
def execFmax (c : Ctl) (d a b : RegF) (ty : Ty) (s : State) : Out :=
  s.run c (.fmax c d a b ty) fun s =>
    s.fput c d (fpMinMax (fmtOf ty) s.me.fpcsr.daz true false (s.fsrc ty a) (s.fsrc ty b)) 5
/-- fminn (R150). -/
def execFminn (c : Ctl) (d a b : RegF) (ty : Ty) (s : State) : Out :=
  s.run c (.fminn c d a b ty) fun s =>
    s.fput c d (fpMinMax (fmtOf ty) s.me.fpcsr.daz false true (s.fsrc ty a) (s.fsrc ty b)) 5
/-- fmaxn (R150). -/
def execFmaxn (c : Ctl) (d a b : RegF) (ty : Ty) (s : State) : Out :=
  s.run c (.fmaxn c d a b ty) fun s =>
    s.fput c d (fpMinMax (fmtOf ty) s.me.fpcsr.daz true true (s.fsrc ty a) (s.fsrc ty b)) 5
/-- fcmp (R151). -/
def execFcmp (c : Ctl) (p : PredF) (a b : RegF) (cc : Cond) (ty : Ty) (s : State) : Out :=
  s.run c (.fcmp c p a b cc ty) fun s =>
    let r := fpCmp (fmtOf ty) s.me.fpcsr.daz cc (s.fsrc ty a) (s.fsrc ty b)
    ((s.wrPred p r.1 5).raiseMe r.2).advance c
/-- fclass (R152). -/
def execFclass (c : Ctl) (d a : RegF) (ty : Ty) (s : State) : Out :=
  s.run c (.fclass c d a ty) fun s => s.fput c d (fpClass (fmtOf ty) (s.fsrc ty a), 0) 5
/-- frnd (R153). -/
def execFrnd (c : Ctl) (d a : RegF) (ty : Ty) (rm : Rmo) (s : State) : Out :=
  s.run c (.frnd c d a ty rm) fun s => s.fput c d (fpRnd (fmtOf ty) (s.env rm) (s.fsrc ty a)) 5

/-- A packed pair computed element by element (R149). -/
def packed2 (f : Nat → Res) : Res := ((f 0).1 + 65536 * (f 1).1, (f 0).2 ||| (f 1).2)
/-- Element k of a packed pair. -/
def half (w : Word) (k : Nat) : Nat := w.toNat / 2 ^ (16 * k) % 65536
/-- hadd2 (R149). -/
def execHadd2 (c : Ctl) (d a b : RegF) (ty : Ty) (rm : Rmo) (s : State) : Out :=
  s.run c (.hadd2 c d a b ty rm) fun s =>
    s.fput c d (packed2 fun k => fpAdd (fmtOf ty) (s.env rm) (half (s.rd a) k) (half (s.rd b) k)) 5
/-- hmul2 (R149). -/
def execHmul2 (c : Ctl) (d a b : RegF) (ty : Ty) (rm : Rmo) (s : State) : Out :=
  s.run c (.hmul2 c d a b ty rm) fun s =>
    s.fput c d (packed2 fun k => fpMul (fmtOf ty) (s.env rm) (half (s.rd a) k) (half (s.rd b) k)) 5
/-- hfma2 (R149). -/
def execHfma2 (c : Ctl) (d a b x : RegF) (ty : Ty) (rm : Rmo) (s : State) : Out :=
  s.run c (.hfma2 c d a b x ty rm) fun s =>
    s.fput c d
      (packed2 fun k => fpFma (fmtOf ty) (s.env rm) (half (s.rd a) k) (half (s.rd b) k) (half (s.rd x) k)) 5

/-- dadd (R148). -/
def execDadd (c : Ctl) (d a b : RegF) (rm : Rmo) (s : State) : Out :=
  s.run c (.dadd c d a b rm) fun s => s.fput64 c d (fpAdd .f64 (s.env rm) (s.dsrc a) (s.dsrc b)) 8
/-- dmul (R148). -/
def execDmul (c : Ctl) (d a b : RegF) (rm : Rmo) (s : State) : Out :=
  s.run c (.dmul c d a b rm) fun s => s.fput64 c d (fpMul .f64 (s.env rm) (s.dsrc a) (s.dsrc b)) 8
/-- dfma (R148). -/
def execDfma (c : Ctl) (d a b x : RegF) (rm : Rmo) (s : State) : Out :=
  s.run c (.dfma c d a b x rm) fun s => s.fput64 c d (fpFma .f64 (s.env rm) (s.dsrc a) (s.dsrc b) (s.dsrc x)) 8
/-- ddiv (R148). -/
def execDdiv (c : Ctl) (d a b : RegF) (rm : Rmo) (s : State) : Out :=
  s.run c (.ddiv c d a b rm) fun s => s.fput64 c d (fpDiv .f64 (s.env rm) (s.dsrc a) (s.dsrc b)) 24
/-- dsqrt (R148). -/
def execDsqrt (c : Ctl) (d a : RegF) (rm : Rmo) (s : State) : Out :=
  s.run c (.dsqrt c d a rm) fun s => s.fput64 c d (fpSqrt .f64 (s.env rm) (s.dsrc a)) 24
/-- drcp (R148). -/
def execDrcp (c : Ctl) (d a : RegF) (rm : Rmo) (s : State) : Out :=
  s.run c (.drcp c d a rm) fun s => s.fput64 c d (fpRcp .f64 (s.env rm) (s.dsrc a)) 24

/-- fcvt (R154). -/
def execFcvt (c : Ctl) (d a : RegF) (ty : Ty) (src : FpSrc) (rm : Rmo) (s : State) : Out :=
  s.run c (.fcvt c d a ty src rm) fun s =>
    s.fputT c ty d (fpCvt (fmtOf ty) (fmtOfSrc src) (s.env rm) (s.fsrc src.ty a)) 5
/-- f2i (R155): a narrow result is extended to 32 bits. -/
def execF2i (c : Ctl) (d a : RegF) (ty : Ty) (src : FpSrc) (rm : Rmo) (s : State) : Out :=
  s.run c (.f2i c d a ty src rm) fun s =>
    let r := fpToInt ty (fmtOfSrc src) (s.env rm) (s.fsrc src.ty a)
    s.fputT c ty d (wrap (tyWidth ty) r.1, r.2) 5
/-- i2f (R156). -/
def execI2f (c : Ctl) (d a : RegF) (ty src : Ty) (rm : Rmo) (s : State) : Out :=
  s.run c (.i2f c d a ty src rm) fun s =>
    let v := s.rdN src a % 2 ^ intWidth src
    let n : Int := if tySigned src then sval (intWidth src) v else v
    s.fputT c ty d (fpOfInt (fmtOf ty) (s.env rm) n) 5
/-- fldx (R157). -/
def execFldx (c : Ctl) (d a b : RegF) (ty : Ty) (rm : Rmo) (s : State) : Out :=
  s.run c (.fldx c d a b ty rm) fun s =>
    s.fputT c ty d (fpLdx (fmtOf ty) (s.env rm) (s.rdN ty a) (s.rd b).toInt) 5
/-- fexpo (R158). -/
def execFexpo (c : Ctl) (d a : RegF) (ty : Ty) (s : State) : Out :=
  s.run c (.fexpo c d a ty) fun s => (s.wr d (fpExpo (fmtOf ty) s.me.fpcsr.daz (s.rdN ty a)) 5).advance c
/-- fmant (R158). -/
def execFmant (c : Ctl) (d a : RegF) (ty : Ty) (s : State) : Out :=
  s.run c (.fmant c d a ty) fun s => s.fputT c ty d (fpMant (fmtOf ty) s.me.fpcsr.daz (s.rdN ty a)) 5

/-- A special function of the executing thread: the free word of its unit, bounded (R159). -/
def State.sfu (s : State) (c : Ctl) (op : Nat) (d a : RegF) (f : Bool → Bool → Word → Word → Res) : State :=
  let e := s.me.fpcsr
  s.fput c d (f e.daz e.ftz (Config.sfu op (s.rd a) e.daz e.ftz) (s.rd a)) 12
/-- frcp (R160). -/
def execFrcp (c : Ctl) (d a : RegF) (s : State) : Out := s.run c (.frcp c d a) fun s => s.sfu c 0 d a sfuRcp
/-- frsq (R160). -/
def execFrsq (c : Ctl) (d a : RegF) (s : State) : Out := s.run c (.frsq c d a) fun s => s.sfu c 1 d a sfuRsq
/-- fsqrt (R148). -/
def execFsqrt (c : Ctl) (d a : RegF) (rm : Rmo) (s : State) : Out :=
  s.run c (.fsqrt c d a rm) fun s => s.fput c d (fpSqrt .f32 (s.env rm) (s.fsrc .f32 a)) 12
/-- fdiv (R148). -/
def execFdiv (c : Ctl) (d a b : RegF) (rm : Rmo) (s : State) : Out :=
  s.run c (.fdiv c d a b rm) fun s => s.fput c d (fpDiv .f32 (s.env rm) (s.fsrc .f32 a) (s.fsrc .f32 b)) 16
/-- fex2 (R160). -/
def execFex2 (c : Ctl) (d a : RegF) (s : State) : Out := s.run c (.fex2 c d a) fun s => s.sfu c 2 d a sfuEx2
/-- flg2 (R160). -/
def execFlg2 (c : Ctl) (d a : RegF) (s : State) : Out := s.run c (.flg2 c d a) fun s => s.sfu c 3 d a sfuLg2
/-- fsinpi (R160). -/
def execFsinpi (c : Ctl) (d a : RegF) (s : State) : Out := s.run c (.fsinpi c d a) fun s => s.sfu c 4 d a sfuSin
/-- fcospi (R160). -/
def execFcospi (c : Ctl) (d a : RegF) (s : State) : Out := s.run c (.fcospi c d a) fun s => s.sfu c 5 d a sfuCos

/-- mfpack (R162). -/
def execMfpack (c : Ctl) (d a b : RegF) (ty : Ty) (src : FpSrc) (sat : Bool) (rm : Rmo) (s : State) : Out :=
  s.run c (.mfpack c d a b ty src sat rm) fun s =>
    let r := fpPack ty src (s.env rm) sat (s.rd b) (s.rdList a (ieeeRegs ty src))
    ((s.wr d r.1 5).raiseMe r.2).advance c
/-- mfunpk (R163). -/
def execMfunpk (c : Ctl) (d a b : RegF) (ty : Ty) (dst : FpSrc) (s : State) : Out :=
  s.run c (.mfunpk c d a b ty dst) fun s => (s.wrList d (fpUnpack ty dst (s.rd b) (s.rd a)) 5).advance c
/-- popnz (R165). -/
def execPopnz (c : Ctl) (d a : RegF) (ty : Ty) (daz : Bool) (s : State) : Out :=
  s.run c (.popnz c d a ty daz) fun s => (s.wr d (BitVec.ofNat 32 (fpPopnz ty daz (s.rd a).toNat)) 5).advance c
/-- spcomp (R166). -/
def execSpcomp (c : Ctl) (d a : RegF) (ty : Ty) (daz : Bool) (s : State) : Out :=
  s.run c (.spcomp c d a ty daz) fun s =>
    let r := fpSpcomp ty daz (s.rd64 a).toNat
    ((s.wr d r.1 5).wr (RegF.up d 1) r.2 5).advance c

end Sys2Proof.Machine
end

