-- ==== Sys2Proof/Machine/Pod.lean ====
section
/-! DEFINITION. The headgate of a context, its standby, and the checkgates' part in pod grids: acceptance, dealing,
summaries and cancels (spec/19_pod.md R334-R342). -/

namespace Sys2Proof.Machine

/-- The next sequence number (R335): past those whose id is 0 or still held. -/
def nextSeq (held : List Nat) : Nat → Nat → Nat
  | 0, n => n + 1
  | fuel + 1, n =>
    if (n + 1) % 2 ^ 31 = 0 || held.contains ((n + 1) % 2 ^ 31) then nextSeq held fuel (n + 1) else n + 1

/-- The lowest failing status that some packages give a record, or 0 (R335). -/
def State.podStatus (s : State) (x : Nat) (r : List Dword) : Nat :=
  match ((s.podPkgs x).map fun p => s.recordStatus p x r).filter (· ≠ 0) with
  | [] => 0
  | k :: ks => ks.foldl min k

/-- The words of a headgate's answer on their way to the thread that asked (R237, R239, R240). -/
def State.podWords (s : State) (l : PodLaunch) (ws : List Word) : State :=
  s.sendLand
    { (default : Land) with blk := l.blk, tid := l.tid, ecnt := true, regs := dstWords (BitVec.ofNat 8 l.reg) ws }
/-- The answer to a launch.pod (R237). -/
def State.podAnswer (s : State) (l : PodLaunch) (id status : Nat) : State :=
  s.podWords l [BitVec.ofNat 32 id, BitVec.ofNat 32 status]

/-- The cancels that a context's headgate has sent a checkgate and that have not reached it: they come before anything that is sent
to it later (R342, R347; log entry 40). -/
def State.cancelsTo (s : State) (p x : Nat) : State :=
  (tget s.heads x).main.grids.foldl (fun s h =>
    match s.findGrid p x h.id with
    | some g => if h.cancel && !h.complete && (g.state = .dealing || g.state = .dealt) then s.cancelGrid p g h.kill else s
    | none => s) s

/-- A pod grid taken up by the checkgate of a package (R336). -/
def State.podAccept (s : State) (p x id : Nat) (l : PodLaunch) : State :=
  s.addGrid p
    { (default : Grid) with
      id := id, ctx := x, record := l.record, prio := l.prio, pod := true, checked := true
      total := vol (recGrid l.record), state := .dealing }

/-- A launch.pod's record at the headgate (R335, R336). -/
def State.podLaunch (s : State) (ctx : Nat) (l : PodLaunch) : State :=
  let h := tget s.heads ctx
  if h.gone then s.podAnswer l 0 10
  else
    let held := (h.main.grids.filter fun g => !g.complete).map fun g => g.id % 2 ^ 31
    let n := nextSeq held (held.length + 2) h.main.seq
    let s := s.modHead ctx fun h => { h with seq := n }
    let st := s.podStatus ctx l.record
    if st ≠ 0 then s.podAnswer l 0 st
    else
      let id := 2 ^ 31 + n % 2 ^ 31
      let g : PodGrid :=
        { (default : PodGrid) with
          id := id, seq := n, record := l.record, prio := l.prio, src := l.src, parent := l.blk
          total := vol (recGrid l.record) }
      let s := s.modHead ctx fun h => { h with grids := h.grids ++ [g] }
      let s := (s.podPkgs ctx).foldl (fun s p => ((s.cancelsTo p ctx).podAccept p ctx id l).carried l.src p) s
      let kid := podMark + n
      let s := s.modBlk l.blk fun bl =>
        if (tget bl.threads l.tid).atLwait then { bl with late := bl.late ++ [kid] }
        else { bl with kids := bl.kids ++ [kid] }
      s.podAnswer l id 0

/-- POD_GRID_BROADCAST (R335, R336): the oldest message at the headgate. A cancel or an lstat that came behind a launch of its
package (R347) is answered here, before the cycle's requests for lots are served (R342). -/
def execPodGridBroadcast (ctx : Nat) (s : State) : Out :=
  match (tget s.heads ctx).main.inbox with
  | [] => .next s
  | l :: rest =>
    let t := s.modHead ctx fun h => { h with inbox := rest }
    match l.ask with
    | .launch => .next (t.podLaunch ctx l)
    | .cancel id kill =>
      if s.opened then .next s
      else .next ((t.cancelPod ctx id kill).1.podWords l [BitVec.ofNat 32 (t.cancelPod ctx id kill).2])
    | .stat id => if s.opened then .next s else .next (t.podWords l (t.podStat ctx id))

-- Dealing (R337)

/-- Clusters of a pod grid sent to a package's checkgate. -/
def State.podSend (s : State) (p x id lo hi : Nat) : State :=
  let s := s.cancelsTo p x
  match s.findGrid p x id with
  | none => s
  | some g => (s.modGrid p g.acc fun g => { g with todo := g.todo ++ [(lo, hi)] }).carried ((s.headPkg p x).getD p) p

/-- The headgate's next cluster; past the last, dealing is over (R338). -/
def State.podNext (s : State) (x : Nat) (h : PodGrid) (n : Nat) : State :=
  s.modPod x h.seq fun h => { h with next := n, ended := h.ended || recClusters h.record ≤ n }

/-- POD_LOT_REQUEST (R337): up to 64 clusters for a checkgate that has passed on its lot; under DET the next clusters, each
to its package. -/
def execPodLotRequest (pkg ctx grid : Nat) (s : State) : Out :=
  match s.findPod ctx grid, s.findGrid pkg ctx grid with
  | some h, some g =>
    let n := recClusters h.record
    if (tget s.heads ctx).gone || h.cancel || h.ended || n ≤ h.next then .next s
    else if recDet h.record then
      let hi := min n (h.next + 64)
      let s := (List.range (hi - h.next)).foldl (fun s i =>
        let j := h.next + i
        match s.pkgAt ctx (j % s.pkgCount pkg ctx) with
        | some p => s.podSend p ctx grid j (j + 1)
        | none => s) s
      .next (s.podNext ctx h hi)
    else if recOrd h.record || !g.todo.isEmpty || g.state ≠ .dealing then .next s
    else
      let hi := min n (h.next + 64)
      .next ((s.podSend pkg ctx grid h.next hi).podNext ctx h hi)
  | _, _ => .next s

/-- Whether a turnout of a package could place a cluster of a grid now (R337). -/
def State.couldPlace (s : State) (p x id j : Nat) : Bool :=
  match s.findGrid p x id with
  | none => false
  | some g =>
    let o : Offer := ⟨⟨g.acc, j, false⟩, [], g, .fresh j⟩
    (s.pctx p x).pre = .running && g.state = .dealing
      && (List.range Config.dies).any fun d => (s.findFit p o ((s.partOf p x).terraces d)).isSome

/-- POD_ORD_OFFER (R337): cluster j is offered once cluster j - 1 is placed, and granted to the lowest package that can
place it. -/
def execPodOrdOffer (ctx grid : Nat) (s : State) : Out :=
  match s.findPod ctx grid with
  | none => .next s
  | some h =>
    let ps := s.podPkgs ctx
    let placed := ps.all fun p => (s.findGrid p ctx grid).all fun g => g.todo.isEmpty
    if (tget s.heads ctx).gone || h.cancel || h.ended || recClusters h.record ≤ h.next || !recOrd h.record
        || recDet h.record || !placed then .next s
    else match ps.find? fun p => s.couldPlace p ctx grid h.next with
      | none => .next (s.modPod ctx h.seq fun h => { h with offer := some h.next })
      | some p =>
        let s := s.podSend p ctx grid h.next (h.next + 1)
        .next ((s.modPod ctx h.seq fun h => { h with offer := none }).podNext ctx h (h.next + 1))

-- Summaries (R338)

/-- PROGRESS_SUMMARY (R338): at most once in 1,000 ns, while a block of the grid is resident. -/
def execProgressSummary (pkg ctx grid : Nat) (s : State) : Out :=
  match s.findGrid pkg ctx grid with
  | none => .next s
  | some g =>
    let here := (s.residentOf pkg ctx).any fun b => b.2.grid = grid
    if !g.pod || g.finalSent || !here || s.ns < g.sentAt then .next s
    else .next ((s.sendSummary pkg ctx grid false).modGrid pkg g.acc fun g => { g with sentAt := s.ns + 1000 })

/-- FINAL_SUMMARY (R338): once the headgate has declared dealing over, every block received has retired, and its accesses
are performed at .pod. -/
def execFinalSummary (pkg ctx grid : Nat) (s : State) : Out :=
  match s.findPod ctx grid, s.findGrid pkg ctx grid with
  | some h, some g =>
    let held := !g.todo.isEmpty || (s.pkg pkg).lots.any fun l => l.grid = g.acc
    let mine (w : Who) : Bool := match w with
      | .thread b _ => (s.blk b).pkg = pkg && (s.blk b).ctx = ctx && (s.blk b).grid = grid
      | _ => false
    if !g.pod || g.finalSent || !h.ended || held || !g.allRetired || s.coh.pushes.any (fun u => mine u.who)
        || (h.cancel && g.state ≠ .cancelling) then .next s
    else
      let s := s.sendSummary pkg ctx grid true
      .next (s.modGrid pkg g.acc fun g =>
        { g with
          state := if g.state = .cancelling then .cancelled else .complete
          nst := g.total - g.placed, tend := s.gtime pkg })
  | _, _ => .next s

-- Cancels and the standby (R334, R342)

/-- POD_CANCEL (R342): the cancel, with its KILL, reaches every checkgate, and with it what was sent before (R347). -/
def execPodCancel (ctx grid : Nat) (kill : Bool) (s : State) : Out :=
  match s.findPod ctx grid with
  | none => .next s
  | some h =>
    if !h.cancel || h.complete || h.kill ≠ kill then .next s
    else .next ((s.podPkgs ctx).foldl (fun s p => s.cancelsTo p ctx) s)

/-- STANDBY_TAKEOVER (R334): the headgate stops answering and its standby goes on from what was mirrored; once the
standby has stopped as well, neither answers. -/
def execStandbyTakeover (ctx : Nat) (s : State) : Out :=
  .next { s with heads := tmod s.heads ctx fun h =>
    if h.stopped then { h with gone := true } else { h with main := h.mirror, stopped := true } }

end Sys2Proof.Machine
end

