-- ==== Sys2Proof/Machine/Links.lean ====
section
/-! DEFINITION. Global time over the pod and the Hokuzor Link: time messages, the loss of synchronisation, replays, ports,
and remote transactions (spec/19_pod.md R343-R348; spec/21_memory_model.md R367). -/

namespace Sys2Proof.Machine

-- Time (R343, R344)

/-- The time master of a package (R343): the headgate's package of a pod context that lives there, or its standby's once that
has taken over (R334), if it is another. -/
def State.master (s : State) (p : Nat) : Option Nat :=
  s.ctxs.findSome? fun c =>
    let x := c.1 % 65536
    if c.1 / 65536 = p && c.2.live && !s.descBad p x && bitAt (s.descDw p x 5) 0 then
      (s.headPkg p x).filter fun m => m ≠ p
    else none

/-- The guard band of the pod, in ns (R343, R344). -/
def podBand : Nat := 256

/-- Every core of a package: its time view lost, or back (R344, R367). -/
def State.viewOf (s : State) (p : Nat) (lost : Bool) : State :=
  { s with cores := s.cores.map fun (k : Nat × Core) =>
      if k.1 / 512 ≠ p then k
      else if lost then (k.1, { k.2 with l1 := [] })
      else (k.1, { k.2 with viewLost := false }) }

/-- A package synchronised again (R344). -/
def State.rejoin (s : State) (p : Nat) : State := (s.modPkg p fun q => { q with unsync := false }).viewOf p false

/-- A package that is its own time master, or spans no pod any more, has no offset to keep: it rejoins (R344). -/
def State.ownTime (s : State) : State :=
  s.pkgs.foldl (fun s q => if (s.pkg q.1).unsync && (s.master q.1).isNone then s.rejoin q.1 else s) s

/-- TIME_MESSAGE (R343, R344): the master's time, sent no more than the guard band ago. %gtime is set forward to it and
never back; the package is synchronised again once it is within the band. -/
def execTimeMessage (pkg time : Nat) (s : State) : Out :=
  match s.master pkg with
  | none => .next (s.rejoin pkg)
  | some m =>
    let s := s.carried m pkg
    let now := s.gtime m
    if now < time || time + podBand < now then .next s
    else
      let late : Int := (time : Int) - s.gtime pkg
      let s := s.modPkg pkg fun q => { q with goff := if 0 < late then q.goff + late else q.goff, lastMsg := s.ns }
      if s.gtime pkg ≤ now + podBand && now ≤ s.gtime pkg + podBand then
        .next (s.rejoin pkg)
      else .next ((s.modPkg pkg fun q => { q with unsync := true }).viewOf pkg true)

/-- GTIME_UNSYNC (R344): no time message for 100 µs. -/
def execGtimeUnsync (pkg : Nat) (s : State) : Out :=
  if (s.master pkg).isNone || s.ns < (s.pkg pkg).lastMsg + 100000 then .next s
  else .next ((s.modPkg pkg fun q => { q with unsync := true }).viewOf pkg true)

-- The link (R345)

/-- A port that needed 16 replays in a row goes down (R345). -/
def Pkg.portFails (q : Pkg) (port : Nat) : Pkg :=
  if tget q.replays port < 16 then q else { q with portDown := q.portDown ||| (1#18 <<< port) }

/-- FLIT_REPLAY (R345): one more replay in a row on a port, which goes down with the sixteenth. -/
def execFlitReplay (pkg port : Nat) (s : State) : Out :=
  if 18 ≤ port then .next s
  else .next (s.modPkg pkg fun q => { q with replays := tmod q.replays port (· + 1) }.portFails port)

/-- LINK_PORT_DOWN (R345): a port that needed 16 replays in a row goes down; its traffic takes other ways. -/
def execLinkPortDown (pkg port : Nat) (s : State) : Out :=
  if 18 ≤ port then .next s else .next (s.modPkg pkg fun q => q.portFails port)

-- Remote transactions (R346-R348)

/-- Whether the peer holds a remote granule on a page request of its own (R346). -/
def State.heldAt (s : State) (r : Remote) : Bool :=
  match r.op.who with
  | .engine id => (s.cmd? id).any fun c =>
      c.waits.any fun w => w.2.1 = r.op.key && isPeer w.2.2 && s.askedPage c w.2.2
  | _ => false

/-- Whether the 10 µs of a remote transaction have passed (R346). -/
def State.lost (s : State) (r : Remote) : Bool := r.sent + 10000 ≤ s.ns && !s.heldAt r

/-- Whether the k-th remote transaction is the next of its pair of packages that can arrive (R347): one that the peer
holds on a page has arrived. A granule's data and acknowledgement come back with its arrival, and so behind every response of
the peer that is on its way (log entry 32). -/
def State.mayArrive (s : State) (k : Nat) (r : Remote) : Bool :=
  let peer (o : Remote) : Option Nat := s.pkgAt o.op.ctx o.peer
  let back (b : Nat) (p : Option (Nat × Nat)) : Bool := p.any fun m => some m.1 = peer r && (s.blk b).pkg = r.src
  ((s.coh.remote.take k).all fun o => !(o.src = r.src && peer o = peer r) || s.heldAt o)
    && (r.op.who.isThread || (s.coh.lands.all (fun l => !back l.blk l.resp) && s.coh.acks.all fun a => !back a.blk a.resp))

/-- The second leg of a granule whose source and destination lie at peers: its data goes on to the destination's package, as a
transaction of its own (R346, R348). -/
def State.nextLeg (s : State) (c : EngCmd) (r : Remote) : Option Remote :=
  match (s.granPeers c r.op.key).find? fun p => p.wr with
  | some p => if p.va = r.op.va || peerNo p.va = r.peer then none
      else some { r with peer := peerNo p.va, off := peerOff p.va, op := { r.op with va := p.va }, sent := s.ns }
  | none => none

/-- The remote transactions without the k-th. -/
def State.dropRemote (s : State) (k : Nat) : State := s.modCoh fun h => { h with remote := dropAt h.remote k }

/-- Whether a remote granule is nothing to its command any more: delivered, or abandoned (R350), or the command has stopped. -/
def EngCmd.past (c : EngCmd) (r : Remote) : Bool :=
  c.stop || c.done.contains r.op.key || (c.flown.any fun f => f.gran = r.op.key) || c.gone.contains r.op.key

/-- REMOTE_REQUEST_ARRIVAL (R348): the k-th remote transaction reaches its peer, unless its 10 µs have passed. An atomic or
reduction goes to its home there; a granule is performed, or held while the peer's page is asked for (R346). -/
def execRemoteRequestArrival (k : Nat) (s : State) : Out :=
  match s.coh.remote[k]? with
  | none => .next s
  | some r =>
    if !s.mayArrive k r || s.lost r || (s.pkgAt r.op.ctx r.peer).isNone then .next s
    else
      let s := s.carried r.src ((s.pkgAt r.op.ctx r.peer).getD r.src)
      match r.op.who with
      | .engine id =>
        match s.cmd? id with
        | none => .next (s.dropRemote k)
        | some c =>
          if c.past r then .next (s.dropRemote k)
          else match s.nextLeg c r with
          | some n => .next ((s.dropRemote k).modCoh fun h => { h with remote := h.remote ++ [n] })
          | none =>
            let t := s.granule c r.op.key
            if (t.cmd? id).all fun d => d.past r then .next (t.dropRemote k)
            else if t.heldAt r then
              .next (t.modCoh fun h => { h with remote := h.remote.modify k fun r => { r with sent := s.ns } })
            else .next t
      | _ => .next ((s.dropRemote k).enqueue { r.op with va := r.off })

/-- A thread's lost atom, red or cas counted in its grid (R341, R346). -/
def State.countLost (s : State) (b t : Nat) (r : Remote) : State :=
  let bl := s.blk b
  s.countEvent bl.pkg bl.ctx bl.grid 7
    (s.threadEvent b t (frameWord 0 r.pc false) (tcauseWord 0 (some r.op.va)) 0x80)

/-- REMOTE_TIMEOUT (R346). -/
def execRemoteTimeout (k : Nat) (s : State) : Out :=
  match s.coh.remote[k]? with
  | none => .next s
  | some r =>
    if !s.lost r then .next s
    else match r.op.who with
      | .engine id =>
        match s.cmd? id with
        | none => .next (s.dropRemote k)
        | some c =>
          if c.past r then .next (s.dropRemote k)
          else
            let wr := (s.granPeers c r.op.key).any fun p => p.va = r.op.va && p.wr
            .next ((s.dropRemote k).stopCmd id (if wr then 2 else 1) r.op.va)
      | .thread b t =>
        let s := (s.dropRemote k).countLost b t r
        let ret : Bool := match r.op.kind with
          | .atom _ _ _ _ ret => ret
          | _ => false
        if ret then
          .next (s.sendLand
            { (default : Land) with
              blk := b, tid := t, regs := r.op.dst.map fun d => (d, (0 : Word)), marked := true
              unhold := r.op.sc, clear := r.op.clear })
        else .next (s.modCoh fun h => { h with acks := h.acks ++ [⟨b, t, [], none⟩] })
      | .host | .agent => .next (s.dropRemote k)

end Sys2Proof.Machine
end

