-- ==== Sys2Proof/Machine/Sluice.lean ====
section
/-! DEFINITION. Pre-emption and the end of a context: requests, the closing of the sluice, saving, escalation, resumption,
time slices, a kill by Runtime, and the grid's grants, which saving bounds (spec/14_matrix_mode.md R289-R292; spec/18_scheduling.md R327, R329, R331, R332, R413; spec/23_faults_preemption.md
R390-R399). -/

namespace Sys2Proof.Machine

/-- Core cycles in a microsecond (R2). -/
def perUs : Nat := 1300

/-- A context whose forced save is under way (R391). -/
def PkgCtx.saving (c : PkgCtx) : Bool := c.pre = .closing || c.pre = .draining || c.pre = .saving

-- Requests (R331, R390, R391, R413)

/-- PREEMPT_GRACEFUL (R331): nothing more of the context is placed. The requests of Runtime cross the host link (R400). -/
def execPreemptGraceful (pkg ctx : Nat) (s : State) : Out :=
  let c := s.pctx pkg ctx
  if !c.live || !s.hostUp pkg || c.pre ≠ .running then .next s
  else .next ((s.modCtx pkg ctx fun c => { c with pre := .pending, t0 := s.cycle }).settlePre pkg ctx)

/-- The engine commands of some blocks closed (R350, R392). -/
def State.closeCmds (s : State) (bs : List Nat) : State :=
  { s with cmds := s.cmds.map fun k => if bs.contains k.blk then k.close else k }

/-- A thread that the completion of a phase released from barb.wait in this cycle, back at it (R352). -/
def Thread.unfreed (th : Thread) (now : Nat) : Thread :=
  if th.freed = some now && th.via = some ⟨false, some (th.pc - 8)⟩ then { th with pc := th.pc - 8, via := none } else th

/-- Blocks halted for their save: their commands close (R350, R392), their standing warps dissolve (R247), and the waiters of a
phase completed in this cycle stay at barb.wait (R352). -/
def State.haltBlocks (s : State) (bs : List Nat) : State :=
  bs.foldl (fun s b => s.modBlk b fun bl => { bl with threads := bl.threads.map fun t => (t.1, t.2.unfreed s.cycle) })
    ((s.closeCmds bs).dropBlocks bs)

/-- The sluice closes over a context (R391): its cores halt, with assembled crew parts still to issue (R266). -/
def State.closeSluice (s : State) (p x : Nat) : State :=
  let s := s.unslice p x
  let bs := s.residentOf p x
  let parts := bs.any fun b => !b.2.parts.isEmpty
  let s := s.modCtx p x fun c => { c with pre := if parts then .closing else .draining, tc := s.cycle }
  (s.haltBlocks (bs.map (·.1))).settlePre p x

/-- Threads that wait at a yield go on (R390, R413). -/
def State.freeYields (s : State) (p x : Nat) : State :=
  { s with blocks := s.blocks.map fun (b : Nat × Block) =>
      if b.2.pkg = p && b.2.ctx = x then
        (b.1, { b.2 with threads := b.2.threads.map fun t =>
          if t.2.wait = some Wait.yieldHold then (t.1, t.2.wake s.cycle) else t })
      else b }

/-- PREEMPT_FORCED (R391): refused without a shadow region (R390). -/
def execPreemptForced (pkg ctx : Nat) (s : State) : Out :=
  let c := s.pctx pkg ctx
  if !c.live || !s.hostUp pkg || !(c.pre = .running || c.pre = .pending) || (s.partOf pkg ctx).shsz = 0 then .next s
  else .next (s.closeSluice pkg ctx)

/-- RESUME_REQUEST (R413). -/
def execResumeRequest (pkg ctx : Nat) (s : State) : Out :=
  let c := s.pctx pkg ctx
  if !c.live || !s.hostUp pkg then .next s
  else match c.pre with
    | .running => .next s
    | .pending => .next ((s.freeYields pkg ctx).runAgain pkg ctx)
    | .saved => .next (s.runAgain pkg ctx)
    | .closing | .draining | .saving => .next (s.modCtx pkg ctx fun c => { c with resume := true })

-- Time slices (R327)

/-- The logical cores that share a physical core, in SEQ order (R325). -/
def State.shareOf (s : State) (p pcore : Nat) : List Nat :=
  let on := (s.pkg p).remap.filter fun r => remapEn r.2 && remapPcore r.2 = pcore && remapGrp r.2 ≠ 0
  (List.range 16).flatMap fun n => (on.filter fun r => remapSeq r.2 = n).map (·.1)

/-- The core of a group that ran last: the one whose quantum began last. -/
def State.lastRun (s : State) (p : Nat) (cs : List Nat) : Nat :=
  cs.foldl (fun b c => if (s.core p b).quantStart < (s.core p c).quantStart then c else b) (cs.headD 0)

/-- Whether a logical core has halted at the end of its quantum, and its blocks are being saved: a core that waits for its turn
has not. -/
def State.outgoing (s : State) (p c : Nat) : Bool :=
  (s.core p c).sliced && s.lastRun p (s.shareOf p (remapPcore (tget (s.pkg p).remap c))) = c

-- Saving (R329, R331, R391)

/-- Whether the image of a block fits its region; at a graceful boundary a partition without a shadow region saves all
the same (R331, R390). -/
def State.blockFits (s : State) (b : Nat) (why : SaveReason) : Bool :=
  let bl := s.blk b
  (why = .boundary && (s.partOf bl.pkg bl.ctx).shsz = 0)
    || s.imageFits bl.pkg bl.ctx why (8 * (s.imageOf b why).length)

/-- Why a resident block is to be saved now, if it is: at lwait where the swap region can hold it, or else it waits on its core
(R329) until its quantum ends (R327). -/
def State.saveReason (s : State) (b : Nat) : Option SaveReason :=
  let bl := s.blk b
  let c := s.pctx bl.pkg bl.ctx
  if !c.live then none
  else if (c.saving || c.pre = .pending) && !bl.live.isEmpty && bl.atBoundary then some .boundary
  else if c.saving then some .sluice
  else if bl.lwaitAll && !s.kidsOver b && s.blockFits b .lwait then some .lwait
  else if s.outgoing bl.pkg bl.core then some .slice
  else none

/-- Whether a block is being saved at a boundary or at lwait, where its work is settled as the forced save settles it (R329,
R331): nothing more of it starts. -/
def State.settling (s : State) (b : Nat) : Bool :=
  match s.saveReason b with
  | some .boundary | some .lwait => true
  | _ => false

/-- Whether a block's commands are to be closed for its save, or go on since it is not saved after all. -/
def State.cmdsTurn (s : State) (b : Nat) : Bool :=
  (s.cmdsOf b).any fun k => k.kind ≠ .scat && match s.saveReason b with
    | some _ => !k.shut
    | none => k.shut && s.blockRuns (s.blk b)

/-- SAVE_IMAGE (R391, R393): the commands of a block that is to be saved close, and once its quiesce is complete it is saved; under
the sluice, once every block of the context is quiet. -/
def execSaveImage (blk : Nat) (s : State) : Out :=
  let bl := s.blk blk
  if bl.place ≠ .resident then .next s
  else match s.saveReason blk with
    | none =>
      if !s.blockRuns bl then .next s
      else .next { s with cmds := s.cmds.map fun k => if k.blk = blk then k.reopen else k }
    | some why =>
      let s := s.closeCmds [blk]
      let bs := (s.residentOf bl.pkg bl.ctx).map (·.1)
      let ready : Bool := if why = .sluice then bs.all s.quiet else s.quiet blk
      if !ready || !s.blockFits blk why then .next s
      else
        let s := if why = .sluice then s.modCtx bl.pkg bl.ctx fun c => { c with pre := .saving } else s
        .next ((s.saveBlock blk why).settlePre bl.pkg bl.ctx)

/-- Whether a quiet block cannot be saved, since its image does not fit the shadow region. -/
def State.overfull (s : State) (b : Nat) : Bool :=
  s.quiet b && match s.saveReason b with
    | some .lwait | none => false
    | some why => !s.blockFits b why

/-- GRACEFUL_DEADLINE (R331, R390): where a block is not at its boundary, or cannot be saved there, the sluice closes, or without a
shadow region the pre-emption is abandoned. -/
def execGracefulDeadline (pkg ctx : Nat) (s : State) : Out :=
  let c := s.pctx pkg ctx
  let q := s.partOf pkg ctx
  if !c.live || c.pre ≠ .pending || s.cycle < c.t0 + perUs * q.gdl
      || ((s.residentOf pkg ctx ++ s.slicedOut pkg ctx).all fun b => b.2.atBoundary)
        && !(s.residentOf pkg ctx).any (fun b => s.overfull b.1) then .next s
  else if q.shsz = 0 then
    let s := (s.freeYields pkg ctx).runAgain pkg ctx
    .next (s.tellHost pkg (.aborted (s.pctx pkg ctx).num))
  else .next (s.closeSluice pkg ctx)

/-- SLUICE_ESCALATION (R391): the second deadline has passed, for a save of the context or of one of its cores at a quantum's
end (R327), or the image of a quiet block does not fit. -/
def execSluiceEscalation (pkg ctx : Nat) (s : State) : Out :=
  let c := s.pctx pkg ctx
  let sdl := perUs * (s.partOf pkg ctx).sdl
  let slow (b : Block) : Bool := s.outgoing pkg b.core && (s.core pkg b.core).sliceAt + sdl ≤ s.cycle
  let late := (c.saving && c.tc + sdl ≤ s.cycle) || (s.residentOf pkg ctx).any fun b => slow b.2
  let full := (s.residentOf pkg ctx).any fun b => (c.saving || s.outgoing pkg b.2.core) && s.overfull b.1
  if !c.live || !(late || full) then .next s
  else .next (s.killContext pkg ctx (endRecord 3 (s.pctx pkg ctx).num (s.gtime pkg) 0 0 0 0 0 0 0))

/-- CONTEXT_KILL (R399): a kill by Runtime, at the lowest package on which the context lives whose host reaches it. -/
def execContextKill (ctx : Nat) (s : State) : Out :=
  match s.ctxs.find? fun c => c.1 % 65536 = ctx && c.2.live && s.hostUp (c.1 / 65536) with
  | none => .next s
  | some c =>
    let p := c.1 / 65536
    .next (s.killContext p ctx (endRecord 4 (s.pctx p ctx).num (s.gtime p) 0 0 0 0 0 0 0))

-- The end of a quantum (R327)

/-- The partition that a logical core serves. -/
def State.partAt (s : State) (p c : Nat) : Partition :=
  ((s.pkg p).parts.find? fun q => s.coreOn p q.2 c).elim default (·.2)

/-- The next core in SEQ order after one, past those with no block (R327). -/
def State.nextRun (s : State) (p : Nat) (cs : List Nat) (last : Nat) : Nat :=
  let after := (cs.dropWhile (· ≠ last)).drop 1 ++ cs.takeWhile (· ≠ last)
  (after.find? fun c => !(s.blocksOn p c).isEmpty).getD last

/-- The saved blocks of a logical core restored at its turn. -/
def State.sliceIn (s : State) (p c : Nat) : State :=
  (s.blocks.filter fun (b : Nat × Block) =>
    b.2.place = Place.saved .slice && b.2.pkg = p && b.2.core = c && s.ctxRuns p b.2.ctx).foldl
    (fun s b => s.restoreBlock b.1 c b.2.part0) s

/-- QUANTUM_EXPIRY (R327): at the end of its quantum a logical core halts, and its blocks are saved; once they are, the
next core of the group that has a block takes the physical core. -/
def execQuantumExpiry (pkg pcore : Nat) (s : State) : Out :=
  let cs := s.shareOf pkg pcore
  let last := s.lastRun pkg cs
  let next := s.nextRun pkg cs last
  if cs.isEmpty then .next s
  else if !(s.core pkg last).sliced then
    if s.cycle < (s.core pkg last).quantStart + perUs * (s.partAt pkg last).quant then .next s
    else if next = last then .next (s.modCore pkg last fun k => { k with quantStart := s.cycle })
    else .next ((s.modCore pkg last fun k =>
      { k with sliced := true, warps := [], sliceAt := s.cycle }).haltBlocks
      ((s.residents pkg last).map (·.1)))
  else if !(s.residents pkg last).isEmpty then .next s
  else .next ((s.modCore pkg next fun k => { k with sliced := false, quantStart := s.cycle }).sliceIn pkg next)

-- The grid's grants (R289, R291, R292)

/-- The blocks of a core with an entry whose instruction assembled in an earlier cycle (R289): none of a block that is halted, or
whose work is being settled for its save (R331). -/
def State.gridEntries (s : State) (p c : Nat) : List (Nat × Block) :=
  s.blocks.filter fun b => b.2.place = .resident && b.2.pkg = p && b.2.core = c && b.2.gridEntry
    && b.2.gridMade < s.cycle && s.ctxRuns p b.2.ctx && !s.settling b.1

/-- GRID_GRANT (R292): the arbiter of a core chooses an entry and grants a pass or a capture. -/
def execGridGrant (pkg core : Nat) (s : State) : Out :=
  let k := s.core pkg core
  let gd := (s.pkg pkg).power.gduty
  if k.sliced || s.cycle < k.gridFree || s.cycle < k.capUntil || !dutyOk gd s.cycle then .next s
  else match leastBy (fun b : Nat × Block => b.2.gridKey (s.pkg pkg) s.cycle) (s.gridEntries pkg core) with
    | none => .next s
    | some (b, bl) =>
      if k.lastCrew ≠ some b && !s.gridEmpty pkg core then .next s
      else match bl.crew, bl.drain with
        | some r, _ =>
          let s := s.modBlk b fun bl => bl.grantPass r s.cycle
          .next (s.modCore pkg core fun k =>
            { k with lastCrew := some b, gridFree := s.cycle + passBusy r.ty })
        | none, some d =>
          let s := s.modBlk b fun bl => { bl with drain := some { d with startCap := some s.cycle } }
          .next (s.modCore pkg core fun k => { k with lastCrew := some b, capUntil := s.cycle + 16 })
        | none, none => .next s

end Sys2Proof.Machine
end

