-- ==== Sys2Proof/Machine/Root.lean ====
section
/-! DEFINITION. Twildaos Root and boot: creating a context, releasing code, partitions, regions, attestation, the minimum
version, package reset and the backup image (spec/18_scheduling.md R313, R325; spec/04_isa_integer_control.md R121;
spec/22_translation_security.md R382, R383; spec/24_package_system.md R404-R407). -/

namespace Sys2Proof.Machine

/-- Whether Root's mailbox is open and the host reaches it (R401, R407). -/
def State.mailbox (s : State) (p : Nat) : Bool := (s.pkg p).boot.ready && s.hostUp p
/-- Root's reply to a mailbox request. -/
def State.reply (s : State) (p status : Nat) : State := s.tellHost p (.mailbox status)

-- Contexts (R313, R234, R334, R373)

/-- The context that CONTEXT_CREATE's operand names: in bits 15:0 the name that it has on every package, and above them the
package's directory number CTX for it (R313, R379; log entry 43). -/
def ctxOperand (name num : Nat) : Nat := name + 65536 * num

/-- CONTEXT_CREATE (R313): the package's directory entry `num` is written for the context; every page mark is set, and the
package is one of the context's. -/
def execContextCreate (pkg operand part desc : Nat) (s : State) : Out :=
  let ctx := operand % 65536
  let num := operand / 65536
  let taken := s.ctxs.any fun c => c.1 / 65536 = pkg && c.2.live && (c.1 % 65536 = ctx || c.2.num = num)
  if !s.mailbox pkg || 65536 ≤ num || 8 ≤ part || desc % 128 ≠ 0 || Config.hbmEnd < desc + 128 || taken then
    .next s
  else
    let fresh := !(s.ctxs.any fun c => c.1 % 65536 = ctx && c.2.live)
    let c : PkgCtx := { (default : PkgCtx) with live := true, part := part, desc := desc, pre := .running, num := num }
    let s := { s with ctxs := tset s.ctxs (ctxKey pkg ctx) c }
    let s := s.modCtx pkg ctx fun c => { c with xlat := s.descDw pkg ctx 0 }
    let put := fun (h : Head) =>
      let h := if fresh then default else h
      { h with pkgs := h.pkgs.filter (· ≠ pkg) ++ [pkg] }
    .next { s with heads := tmod s.heads ctx put }

-- Code objects (R121)

/-- CODE of the records of a queue that the checkgate has not taken up, whether the queue is on or off (R121): with QEN = 0 too,
if the queue table describes a ring (DESIGN CHOICE, log entry 84). -/
def State.postedCodes (s : State) (p x n : Nat) : List VAddr :=
  let tail := s.queueTail p x n
  let e := s.nextEntry p x n
  let l := bitsOf (s.queueDw p x n 2) 15 12
  if !bitAt (s.descDw p x 2) 0 && (l < 4 || 12 < l) then []
  else (List.range (min ((tail + 2 ^ 32 - e) % 2 ^ 32) (s.queueSize p x n))).map fun i =>
    (s.agentRead p x (s.ringPa p x n (e + i) + 24)).truncate 57

/-- Whether a pod grid that its headgate has not completed, or a record on its way there, names an object (R121, R335). -/
def State.podUses (s : State) (x : Nat) (o : CodeObj) : Bool :=
  let h := (tget s.heads x).main
  (h.grids.any fun g => !g.complete && recCode g.record = o.base)
    || h.inbox.any fun l => l.ask = .launch && recCode l.record = o.base

/-- Whether an object is in use (R121). -/
def State.codeInUse (s : State) (p x : Nat) (o : CodeObj) : Bool :=
  s.podUses x o
    || ((List.range Config.maxQueues).any fun n => (s.postedCodes p x n).contains o.base)
    ||
  ((s.pkg p).grids.any fun g => g.ctx = x && !g.state.ended &&
    (if g.checked then recCode g.record = o.base
     else
       let e := g.queue.getD (0, 0)
       (s.agentRead p x (s.ringPa p x e.1 e.2 + 24)).truncate 57 = o.base))
    || s.blocks.any fun b => b.2.pkg = p && b.2.ctx = x && (match b.2.place with | .saved _ => true | _ => false)
      && b.2.threads.any fun t => t.2.st ≠ .exited && o.covers t.2.pc.toNat

/-- CODE_RELEASE (R121): a context that does not live has no object. The shootdown it carries ends before Root answers. -/
def execCodeRelease (pkg ctx : Nat) (va : VAddr) (s : State) : Out :=
  if !s.mailbox pkg then .next s
  else if !(s.pctx pkg ctx).live then .next (s.reply pkg 1)
  else match (s.pctx pkg ctx).objs.find? fun o => o.base = va with
    | none => .next (s.reply pkg 1)
    | some o =>
      if s.codeInUse pkg ctx o then .next (s.reply pkg 2)
      else if !s.shootFree pkg ctx || s.genOut pkg ctx (fun _ => true) then .next s
      else
        let s := s.modCtx pkg ctx fun c => { c with objs := c.objs.filter fun q => q.base ≠ va }
        let s := s.shootStart pkg ctx none
        let s := s.modCtx pkg ctx fun c => { c with shoots := c.shoots.filter (· ≠ c.gen) }
        .next (s.reply pkg 0)

-- Partitions (R382, R325, R390)

/-- Whether a partition record has a nonzero RZ field: R10 leaves open what Root does with one, and the request is refused with
reply 1 (DESIGN CHOICE, log entry 79). -/
def partRz (r : List Dword) : Bool :=
  bitsOf (dw r 1) 63 32 ≠ 0 || bitsOf (dw r 4) 63 2 ≠ 0
    || [2, 3].any fun n => bitsOf (dw r n) 31 30 ≠ 0 || bitsOf (dw r n) 63 62 ≠ 0

/-- Whether two partition records share a basin, an engine or a terrace (R382). -/
def partClash (a b : List Dword) : Bool :=
  let qa : Partition := { (default : Partition) with record := a }
  let qb : Partition := { (default : Partition) with record := b }
  (List.range 48).any (fun t =>
      (qa.basin (2 * t) || qa.basin (2 * t + 1)) && (qb.basin (2 * t) || qb.basin (2 * t + 1)))
    || (dw a 2 &&& dw b 2) ≠ 0 || (dw a 3 &&& dw b 3) ≠ 0

/-- A remap entry as it is kept: reserved bits keep their 0 (R10, R325). -/
def remapWord (w : Word) : Word :=
  BitVec.ofNat 32 (w.toNat / 2 ^ 31 * 2 ^ 31 + w.toNat / 2 ^ 16 % 2 ^ 8 * 2 ^ 16 + w.toNat % 2 ^ 9)

/-- Whether a terrace's remap entries break R325: fields out of range, two dies, or more than two adjacent basins. -/
def remapBad (m : Tab Word) (t : Nat) : Bool :=
  let ws := ((terraceCores t).map fun c => tget m c).filter remapEn
  let dies := ws.map fun w => remapPcore w / 100
  let bas := ws.map fun w => remapPcore w % 100 / 4
  ws.any (fun w => 400 ≤ remapPcore w || remapGrp w < remapSeq w)
    || dies.any (· ≠ dies.headD 0) || bas.any fun a => bas.any fun b => a + 1 < b

/-- A sluice word as it is kept (R390): SDL clamped, reserved bits at 0 (R10). -/
def sluiceWord (v : Dword) : Dword :=
  BitVec.ofNat 64 (bitsOf v 63 23 * 2 ^ 23 + max 100 (min 10000 (bitsOf v 15 0)))

/-- Whether a region covers a partition's shadow region for it (R390). -/
def State.shadowOk (s : State) (p k : Nat) (q : Partition) : Bool :=
  q.shsz = 0 || (q.shsz ≤ 512 &&
    match regionAt (s.pkg p).regions (q.shbase / 4096) with
    | none => false
    | some (_, d) => (q.shbase + q.shsz * 2 ^ 21) / 4096 - 1 ≤ regionLast d && bitAt (dw d 2) k
        && bitAt (dw d 2) 8 = bitAt (dw q.record 4) 0)

/-- PARTITION_CONFIGURE (R382, R325, R390). A partition with a block that has not retired is left as it is. -/
def execPartitionConfigure (pkg part : Nat) (record : List Dword) (remap : List (Nat × Word)) (sluice : Dword)
    (s : State) : Out :=
  if !s.mailbox pkg || 8 ≤ part then .next s
  else
    let k := s.pkg pkg
    let r := (List.range 5).map fun i => dw record i
    let q : Partition := ⟨r, (tget k.parts part).sched, sluiceWord sluice⟩
    let m := remap.foldl (fun m e => if e.1 < Config.coresPerPkg then tset m e.1 (remapWord e.2) else m) k.remap
    let mine (c : Nat) : Bool := q.basin (c / 4)
    let shares := (List.range Config.coresPerPkg).any fun c =>
      mine c && remapEn (tget m c) && remapGrp (tget m c) ≠ 0
    let busy := s.blocks.any fun b => b.2.place ≠ .retired && b.2.pkg = pkg && (s.pctx pkg b.2.ctx).part = part
    let bad := partRz r || (k.parts.any fun o => o.1 ≠ part && partClash o.2.record r)
      || (remap.any fun e => !mine e.1) || ((List.range 48).any fun t => remapBad m t)
      || (q.shsz = 0 && shares) || !s.shadowOk pkg part q || busy
    if bad then .next (s.reply pkg 1)
    else
      let s := s.modPkg pkg fun k => { k with parts := tset k.parts part q, remap := m }
      let s := (List.range Config.coresPerPkg).foldl (fun s c =>
        if mine c && remapEn (tget m c) then
          s.modCore pkg c fun k => { k with sliced := decide (remapSeq (tget m c) ≠ 0), quantStart := s.cycle }
        else s) s
      .next (s.reply pkg 0)

-- Regions (R383)

/-- Whether a region record has a nonzero RZ field: refused with reply 1 (DESIGN CHOICE, log entry 79). -/
def regionRz (d : List Dword) : Bool :=
  bitsOf (dw d 0) 63 52 ≠ 0 || bitsOf (dw d 0) 11 0 ≠ 0 || bitsOf (dw d 1) 63 52 ≠ 0 || bitsOf (dw d 1) 11 0 ≠ 0
    || bitsOf (dw d 2) 63 11 ≠ 0 || dw d 3 ≠ 0

/-- Whether a write is outstanding before its home on a package (R381, R383). -/
def State.writesOut (s : State) (p : Nat) : Bool :=
  (s.coh.ops.any fun o => o.pkg = p && o.kind.writes)
    || s.coh.remote.any fun r => r.op.pkg = p && r.op.who.isThread && r.op.kind.writes

/-- REGION_DESCRIPTOR_WRITE (R383): every TLB of the package is invalidated, and Root waits until no write is outstanding
before its home. -/
def execRegionDescriptorWrite (pkg idx : Nat) (record : List Dword) (s : State) : Out :=
  if !s.mailbox pkg || 64 ≤ idx then .next s
  else if regionRz record then .next (s.reply pkg 1)
  else if s.writesOut pkg then .next s
  else
    let s := s.modCoh fun h => { h with tlb := h.tlb.filter fun e => e.pkg ≠ pkg }
    let s := s.modPkg pkg fun k =>
      { k with regions := tset k.regions idx ((List.range 4).map fun i => dw record i) }
    .next (s.reply pkg 0)

-- Attestation and versions (R405, R406)

/-- Dwords as bytes. -/
def dwsBytes (ds : List Dword) : List Byte := ds.flatMap fun d => leBytes 8 d.toNat
/-- Bytes as dwords. -/
def shaDws (bs : List Byte) : List Dword := packDws (sha256 bs)

/-- The records of R382 and R383 of a package, in order. -/
def Pkg.records (k : Pkg) : List Dword :=
  (List.range 8).flatMap (fun n => (List.range 5).map fun i => dw (tget k.parts n).record i)
    ++ (List.range 64).flatMap fun n => (List.range 4).map fun i => dw (tget k.regions n) i

/-- The attestation report (R406). -/
def Pkg.attest (k : Pkg) (pkg : Nat) (nonce : List Dword) : List Dword :=
  ((List.range 4).map fun i => dw nonce i) ++ ((List.range 4).map fun i => dw (Config.romHash pkg) i)
    ++ ((List.range 4).map fun i => dw k.rootHash i) ++ shaDws (dwsBytes k.records)
    ++ [BitVec.ofNat 64 (k.svn.toNat * 2 ^ 32 + k.boot.bkup.toNat), BitVec.ofNat 64 k.leaf]

/-- The signature of a report under a leaf: 3,604 bytes (R405). -/
def signatureOf (r : List Dword) (leaf : Nat) : List Byte :=
  (List.range 3604).map fun i => (Config.attestSignature r leaf).getD i 0

/-- The status that says that no leaf is left (R406). -/
def exhausted : Nat := 2

/-- ATTEST_REQUEST (R406): the leaf counter advances before the signature is released. -/
def execAttestRequest (pkg : Nat) (nonce : List Dword) (s : State) : Out :=
  let k := s.pkg pkg
  if !s.mailbox pkg then .next s
  else if 2 ^ 40 ≤ k.leaf then .next (s.reply pkg exhausted)
  else
    let r := k.attest pkg nonce
    .next ((s.modPkg pkg fun k => { k with leaf := k.leaf + 1 }).tellHost pkg
      (.attestation r (signatureOf r k.leaf)))

/-- SVN_UPDATE (R405): the minimum only rises, on a command that verifies. -/
def execSvnUpdate (pkg : Nat) (svn : Word) (signature : List Byte) (s : State) : Out :=
  if !s.mailbox pkg then .next s
  else if Config.updateVerifies svn signature && (s.pkg pkg).svnMin.toNat < svn.toNat then
    .next ((s.modPkg pkg fun k => { k with svnMin := svn }).reply pkg 0)
  else .next (s.reply pkg 1)

-- Boot (R405, R407)

/-- What ROM finds of a Root image: 0, or the ERR of the boot word. -/
def Pkg.imageErr (k : Pkg) (image : List Byte) : Nat :=
  if !Config.imageVerifies image || 262144 < image.length then 1
  else if (Config.imageSvn image).toNat < k.svnMin.toNat then 2
  else 0

/-- The remap entry of a logical core at boot (R407 stage 4): the cores of terrace t of a die stand on the enabled cores
of its physical basins 2t and 2t + 1, several on one where those are fewer than 8 (log entry 28). -/
def bootRemap (disabled : List Nat) (c : Nat) : Word :=
  let die := dieOf c
  let t := c % Config.coresPerDie / 8
  let i := c % 8
  let have_ := ((List.range 8).map fun n => 100 * die + 8 * t + n).filter fun n => !disabled.contains n
  let n := have_.length
  if n = 0 then 0
  else BitVec.ofNat 32 (2 ^ 31 + ((List.range 8).filter fun k => k % n = i % n).length.pred * 2 ^ 20
    + i / n * 2 ^ 16 + have_.getD (i % n) 0)

/-- The physical ranges that Root publishes: above HBM only (R372), a pool range with one of the two ports (R402). -/
def publish (rs : List (Nat × Nat × Nat × Nat)) : List PhysRange :=
  (rs.filter fun r => Config.hbmEnd ≤ r.1 && r.1 ≤ r.2.1 && (r.2.2.1 = 0 || r.2.2.2 < 2)).map fun r => ⟨r.1, r.2.1, r.2.2.1, r.2.2.2⟩

/-- Stages 3 to 6 under a verified image (R407). -/
def Pkg.bootOn (k : Pkg) (image : List Byte) (bkup hbmOk linksOk : Bool) (disabled : List Nat)
    (ranges : List (Nat × Nat × Nat × Nat)) : Pkg :=
  let k := { k with rootHash := shaDws image, svn := Config.imageSvn image }
  let stop (stage err : Nat) : Boot := ⟨false, bkup, err, stage, bkup⟩
  let m : Tab Word := (List.range Config.coresPerPkg).foldl (fun m c => tset m c (bootRemap disabled c)) []
  if !hbmOk then { k with boot := stop 3 3 }
  else if m.isEmpty then { k with boot := stop 4 5 }
  else if !linksOk then { k with remap := m, boot := stop 5 4 }
  else { k with remap := m, ranges := publish ranges, boot := ⟨true, bkup, 0, 6, bkup⟩ }

/-- A package as a reset leaves it: what is fused or stateful stays, and what the host was sent. -/
def Pkg.afterReset (k : Pkg) (now : Nat) : Pkg :=
  { Pkg.reset with clk0 := now, ticked := k.ticked, retrain := k.retrain, svnMin := k.svnMin, leaf := k.leaf
                   errRing := k.errRing, host := k.host, inlet10 := k.inlet10, flow10 := k.flow10, plMax := k.plMax }

/-- A package reset: everything on it is gone but the bytes of its memory. -/
def State.wipe (s : State) (p : Nat) : State :=
  let ours (b : Nat) : Bool := (s.blk b).pkg = p
  let s := s.modCoh fun h =>
    { h with
      ops := h.ops.filter fun o => o.pkg ≠ p
      lx := h.lx.filter fun e => e.1 / 2 ^ 47 ≠ p
      cells := h.cells.filter fun c => c / 2 ^ 46 ≠ p
      copies := h.copies.filter fun c => c.pkg ≠ p
      pushes := h.pushes.filter fun u => u.pkg ≠ p
      lands := h.lands.filter fun l => !ours l.blk
      acks := h.acks.filter fun a => !ours a.blk
      tlb := h.tlb.filter fun e => e.pkg ≠ p
      reqs := h.reqs.filter fun q => q.pkg ≠ p
      remote := h.remote.filter fun r => r.src ≠ p }
  let s := { s with
    issue := s.issue.filter fun w => w.pkg ≠ p
    ctxs := s.ctxs.filter fun c => c.1 / 65536 ≠ p
    cores := s.cores.filter fun c => c.1 / 512 ≠ p
    blocks := s.blocks.filter fun b => b.2.pkg ≠ p
    cmds := s.cmds.filter fun k => k.pkg ≠ p
    images := s.images.filter fun i => i.2.pkg ≠ p }
  s.modPkg p fun k => k.afterReset s.cycle

/-- PACKAGE_RESET (R407): the image read from flash, whether HBM and the links train, the fused map of disabled cores, and
the ranges above HBM. -/
def execPackageReset (pkg : Nat) (image : List Byte) (hbmOk linksOk : Bool) (disabled : List Nat)
    (ranges : List (Nat × Nat × Nat × Nat)) (s : State) : Out :=
  .next ((s.wipe pkg).modPkg pkg fun k =>
    let e := k.imageErr image
    if e ≠ 0 then { k with boot := ⟨false, false, e, 2, false⟩ } else k.bootOn image false hbmOk linksOk disabled ranges)

/-- BACKUP_IMAGE (R407): the one backup image, that ROM waits for at stage 2; where it fails too the package stays there. -/
def execBackupImage (pkg : Nat) (image : List Byte) (hbmOk linksOk : Bool) (disabled : List Nat)
    (ranges : List (Nat × Nat × Nat × Nat)) (s : State) : Out :=
  if (s.pkg pkg).boot.stage ≠ 2 || (s.pkg pkg).boot.tried then .next s
  else .next (s.modPkg pkg fun k =>
    let e := k.imageErr image
    if e ≠ 0 then { k with boot := { k.boot with err := e, tried := true } }
    else k.bootOn image true hbmOk linksOk disabled ranges)

end Sys2Proof.Machine
end

