-- ==== Sys2Proof/Machine/System.lean ====
section
/-! DEFINITION. The package in its system: UCIe modules and pool ports, errors, scrubbing, power, cooling, and the host's
accesses to device memory (spec/24_package_system.md R400-R403, R408-R412). -/

namespace Sys2Proof.Machine

-- Links to the host and to the pool (R401, R402)

/-- UCIE_MODULE_DOWN (R401). -/
def execUcieModuleDown (pkg module : Nat) (s : State) : Out :=
  if 4 ≤ module then .next s
  else .next (s.modPkg pkg fun k => { k with ucieDown := k.ucieDown ||| (1#4 <<< module) })

/-- UCIE_RETRAIN (R401): every 100 ms the modules are trained again; one that fails goes down again. What waited for the host
asks again (R379). -/
def execUcieRetrain (pkg : Nat) (s : State) : Out :=
  let n := s.ns / 100000000
  if n ≤ (s.pkg pkg).retrain then .next s
  else .next (s.modPkg pkg fun k => { k with ucieDown := 0, retrain := n }).askAll

/-- POOL_PORT_DOWN (R402). -/
def execPoolPortDown (pkg port : Nat) (s : State) : Out :=
  if 2 ≤ port then .next s
  else .next (s.modPkg pkg fun k => { k with poolDown := k.poolDown ||| (1#2 <<< port) })

-- Errors (R408, R409)

/-- An error record (R409). -/
def errRecord (src die sev pa stamp : Nat) : Dword × Dword :=
  (BitVec.ofNat 64 (src % 256 * 2 ^ 56 + die % 4 * 2 ^ 54 + sev % 4 * 2 ^ 52 + pa % 2 ^ 52), BitVec.ofNat 64 stamp)

/-- A record sent to the host ring that Runtime has named (R409), if the host is in reach (R400); 0 names none. -/
def State.errSend (s : State) (p src die sev pa : Nat) : State :=
  if !s.hostUp p || (s.pkg p).errBase = 0 then s
  else s.modPkg p fun k => { k with errRing := k.errRing ++ [(k.errBase, errRecord src die sev pa (s.gtime p))] }

/-- A corrected error counted; its record is sent at most once per ms and unit (R409). -/
def State.corrected (s : State) (p src die pa : Nat) : State :=
  let u := src * 4 + die
  let s := s.modPkg p fun k => { k with errs := tmod k.errs u (· + 1) }
  if s.ns < tget (s.pkg p).lastCorr u then s
  else (s.errSend p src die 0 pa).modPkg p fun k => { k with lastCorr := tset k.lastCorr u (s.ns + 1000000) }

/-- The 32 bytes of a sector poisoned, in memory and in every copy (R175, R408). -/
def State.poisonSector (s : State) (p pa : Nat) : State :=
  let a := pa / 32 * 32
  let s := s.physWrite p a ((s.physRead p a 32).map fun b => (b.1, true))
  let sec := s.physKey p a / 32
  s.modCoh fun h => { h with copies := h.copies.map fun c =>
    if c.pkg = p && c.sector = sec then { c with bytes := c.bytes.map fun b => (b.1, true) } else c }

/-- The dwords of a sector poisoned in the image of a package that stands there (R398). -/
def State.poisonImage (s : State) (p pa : Nat) : State :=
  { s with images := s.images.map fun (i : Nat × Image) =>
      match i.2.base with
      | some a =>
        let hit := (List.range i.2.dwords.length).filter fun n => (a + 8 * n) / 32 = pa / 32
        if i.2.pkg = p && hit ≠ [] then (i.1, { i.2 with bad := i.2.bad ++ hit }) else i
      | none => i }

/-- The words of an L1 line poisoned in one core of a die that holds it; which one is left open (log entry 12). -/
def State.poisonL1 (s : State) (p die pa : Nat) : State :=
  let line := s.physKey p pa / 128
  let cs := s.cores.filter fun (k : Nat × Core) => k.1 / 512 = p && dieOf (k.1 % 512) = die && k.2.l1.any fun e => e.line = line
  if cs.isEmpty then s
  else
    s.modCore p ((cs.getD (Config.freeDraw s.tick % cs.length) default).1 % 512) fun k =>
      { k with l1 := k.l1.map fun e => if e.line = line then { e with marks := e.mask } else e }

/-- What an error strikes in a core: a register, or a byte of shared or of private memory. -/
inductive Struck where
  | reg | shm | loc
deriving DecidableEq, Repr, Inhabited

/-- A register, or a byte of shared or of private memory, of a die's cores poisoned; which one is left open (log entry 12). -/
def State.poisonCore (s : State) (p die : Nat) (what : Struck) : State :=
  let bs := s.blocks.filter fun (b : Nat × Block) =>
    b.2.place = Place.resident && b.2.pkg = p && dieOf b.2.core = die
  if bs.isEmpty then s
  else
    let b := (bs.getD (Config.freeDraw s.tick % bs.length) default).1
    s.modBlk b fun bl =>
      let t := Config.freeDraw (s.tick + 1) % max 1 bl.nthr
      match what with
      | .shm => { bl with shm := { bl.shm with bad := tset bl.shm.bad (Config.freeDraw (s.tick + 1) % max 1 bl.shb) true } }
      | .loc => bl.modThr t fun th =>
        { th with loc := { th.loc with bad := tset th.loc.bad (Config.freeDraw (s.tick + 2) % max 1 (recLocal bl.record)) true } }
      | .reg => bl.modThr t fun th => { th with marks := tset th.marks (Config.freeDraw (s.tick + 2) % max 1 th.allot) true }

/-- ECC_ERROR (R408): a corrected error is counted, an uncorrectable error of data poisons it: of the L1 where an address is
given, else of shared or private memory, which is left open (log entry 12); of the L2 and what lies below it in memory where an
address is given, else of private memory (R355); data of a link or an engine where it is written: in memory where an address is
given, else in a register. -/
def execEccError (pkg src die sev pa : Nat) (s : State) : Out :=
  if src = 0 || 7 < src || 4 ≤ die || 2 ≤ sev then .next s
  else if sev = 0 then .next (s.corrected pkg src die pa)
  else
    let s := match src with
      | 1 => s.poisonCore pkg die .reg
      | 2 => if pa ≠ 0 then s.poisonL1 pkg die pa
        else s.poisonCore pkg die (if Config.freeDraw (s.tick + 3) % 2 = 0 then .shm else .loc)
      | _ =>
        if pa = 0 then s.poisonCore pkg die (if src < 6 then .loc else .reg)
        else if s.inMap pkg pa then (s.poisonSector pkg pa).poisonImage pkg pa
        else s
    .next (s.errSend pkg src die 1 pa)

/-- The posted writes of a package's own agents that wait at its homes applied. -/
def State.flush (s : State) (p : Nat) : State :=
  s.coh.ops.foldl (fun s o => match o.kind with
    | .posted bs => if o.who = .agent && o.pkg = p && !s.opBarred o then s.applied p (s.paOf p o.key) (clean bs) else s
    | _ => s) s

/-- FATAL_ERROR (R408, R399): the record reaches the host, every context of the package ends with REASON 5, and the package
resets. -/
def execFatalError (pkg src die pa : Nat) (s : State) : Out :=
  let s := s.errSend pkg src die 2 pa
  let xs := (s.ctxs.filter fun c => c.1 / 65536 = pkg && c.2.live).map fun c => c.1 % 65536
  let s := xs.foldl (fun s x => s.killContext pkg x (endRecord 5 (s.pctx pkg x).num (s.gtime pkg) 0 0 0 0 0 0 0)) s
  .next ((s.flush pkg).wipe pkg)

/-- SCRUB (R408): the scrubber reads every line of HBM. -/
def execScrub (pkg : Nat) (s : State) : Out := .next (s.modPkg pkg fun k => { k with scrubs := k.scrubs + 1 })

-- Power and cooling (R410, R412)

/-- The highest DUTY that the thermal limit allows (R410). -/
def Power.dutyMax (w : Power) : Nat := if w.therm then 15 else 63

/-- One step of the power control (R410). -/
def Power.step (w : Power) (pwr : Nat) : Power :=
  let w := { w with pwr := pwr }
  if w.pl < pwr then
    if 15 < w.gduty then { w with gduty := w.gduty - 1 } else { w with duty := w.duty - 1 }
  else if pwr * 100 ≤ w.pl * 98 then
    if w.duty < w.dutyMax then { w with duty := w.duty + 1 }
    else if w.gduty < 63 then { w with gduty := w.gduty + 1 }
    else w
  else w

/-- A package after one step of the power control in a cycle: a GDUTY that ends is kept with the cycle after it, as the newest of
sixteen (R292: no entry waits longer). -/
def Pkg.tick (k : Pkg) (n pwr now : Nat) : Pkg :=
  let w := k.power.step (min pwr 65535)
  let past := if w.gduty = k.power.gduty then k.gridPast else ((now + 1, k.power.gduty) :: k.gridPast).take 16
  { k with power := w, ticked := n, gridPast := past }

/-- POWER_CONTROL_TICK (R410): once in every 10 µs, while Root runs; the power is a field of 16 bits. -/
def execPowerControlTick (pkg pwr : Nat) (s : State) : Out :=
  let n := s.ns / 10000
  if n ≤ (s.pkg pkg).ticked || (s.pkg pkg).boot.stage ≤ 2 then .next s
  else .next (s.modPkg pkg fun k => k.tick n pwr s.cycle)

/-- POWER_WORD_WRITE (R410): PL clamped. -/
def execPowerWordWrite (pkg pl : Nat) (s : State) : Out :=
  if !s.rootUp pkg then .next s
  else .next (s.modPkg pkg fun k => { k with power := { k.power with pl := max 1500 (min k.plMax pl) } })

/-- JUNCTION_OVERTEMP (R410). -/
def execJunctionOvertemp (pkg : Nat) (hot : Bool) (s : State) : Out :=
  .next (s.modPkg pkg fun k =>
    { k with power := { k.power with therm := hot, duty := if hot then min k.power.duty 15 else k.power.duty } })

/-- The upper bound of PL (R412): 100 W lower per K of inlet above 40 °C, and in proportion to the flow below 4.0 L/min;
never below the lower bound. -/
def plBound (inlet10 flow10 : Nat) : Nat :=
  let b := 4600 - 10 * (inlet10 - 400)
  max 1500 (if flow10 < 40 then b * flow10 / 40 else b)

/-- COOLANT_CHANGE (R412): temperatures and flows in tenths. -/
def execCoolantChange (pkg inlet10 flow10 : Nat) (s : State) : Out :=
  .next (s.modPkg pkg fun k =>
    let b := plBound inlet10 flow10
    { k with inlet10 := inlet10, flow10 := flow10, plMax := b, power := { k.power with pl := min k.power.pl b } })

-- The host's accesses (R400, R383)

/-- CXL_MEM_ACCESS (R400): a store of the bytes given, or with none a load of `len` bytes, within one line of device HBM;
it waits at its home as an access of an agent within .sys. -/
def execCxlMemAccess (pkg pa : Nat) (data : List Byte) (len : Nat) (s : State) : Out :=
  let n := if data.isEmpty then len else data.length
  if n = 0 || 128 < pa % 128 + n || Config.hbmEnd < pa + n || !s.rootUp pkg then .next s
  else if s.hostRefused pkg pa (!data.isEmpty) then
    .next (if data.isEmpty then s.tellHost pkg (.read (List.replicate n (0, true))) else s)
  else .next (s.enqueue
    { (default : HomeOp) with
      pkg := pkg, key := s.physKey pkg pa, who := .host
      kind := if data.isEmpty then .hostLoad n else .hostStore data })

end Sys2Proof.Machine
end

