-- ==== Sys2Proof/Machine/Dispatch.lean ====
section
/-! DEFINITION. The dispatch from an instruction or event to its meaning: one arm per constructor. -/

namespace Sys2Proof.Machine

open Sys2Proof

/-- What the machine does for one instruction of the executing thread, or for one event of another agent. -/
def exec (i : Instr) (s : State) : Host.Outcome State Fault Refusal :=
  match i with
  | .iadd c d a b ty sat => Sys2Proof.Machine.execIadd c d a b ty sat s
  | .isub c d a b ty sat => Sys2Proof.Machine.execIsub c d a b ty sat s
  | .imul c d a b ty => Sys2Proof.Machine.execImul c d a b ty s
  | .imulh c d a b ty => Sys2Proof.Machine.execImulh c d a b ty s
  | .imad c d a b x ty sat => Sys2Proof.Machine.execImad c d a b x ty sat s
  | .imadw c d a b x ty => Sys2Proof.Machine.execImadw c d a b x ty s
  | .imin c d a b ty => Sys2Proof.Machine.execImin c d a b ty s
  | .imax c d a b ty => Sys2Proof.Machine.execImax c d a b ty s
  | .iabs c d a ty sat => Sys2Proof.Machine.execIabs c d a ty sat s
  | .ineg c d a ty sat => Sys2Proof.Machine.execIneg c d a ty sat s
  | .icmp c p a b cc ty => Sys2Proof.Machine.execIcmp c p a b cc ty s
  | .lea c d a b sh ty => Sys2Proof.Machine.execLea c d a b sh ty s
  | .shl c d a b ty => Sys2Proof.Machine.execShl c d a b ty s
  | .shr c d a b ty => Sys2Proof.Machine.execShr c d a b ty s
  | .sar c d a b ty => Sys2Proof.Machine.execSar c d a b ty s
  | .fshL c d a b x => Sys2Proof.Machine.execFshL c d a b x s
  | .fshR c d a b x => Sys2Proof.Machine.execFshR c d a b x s
  | .andB c d a b ty => Sys2Proof.Machine.execAnd c d a b ty s
  | .orB c d a b ty => Sys2Proof.Machine.execOr c d a b ty s
  | .xorB c d a b ty => Sys2Proof.Machine.execXor c d a b ty s
  | .notB c d a ty => Sys2Proof.Machine.execNot c d a ty s
  | .lop3 c d a b x lut => Sys2Proof.Machine.execLop3 c d a b x lut s
  | .bfx c d a b ty => Sys2Proof.Machine.execBfx c d a b ty s
  | .bfi c d a b x => Sys2Proof.Machine.execBfi c d a b x s
  | .popc c d a ty => Sys2Proof.Machine.execPopc c d a ty s
  | .clz c d a ty => Sys2Proof.Machine.execClz c d a ty s
  | .brev c d a ty => Sys2Proof.Machine.execBrev c d a ty s
  | .ffs c d a ty => Sys2Proof.Machine.execFfs c d a ty s
  | .isel c d a b p ty => Sys2Proof.Machine.execIsel c d a b p ty s
  | .plop c pd pa pb pc lut => Sys2Proof.Machine.execPlop c pd pa pb pc lut s
  | .mov c d a ty => Sys2Proof.Machine.execMov c d a ty s
  | .movi c d imm => Sys2Proof.Machine.execMovi c d imm s
  | .movh c d a imm => Sys2Proof.Machine.execMovh c d a imm s
  | .ldlit32 c d imm => Sys2Proof.Machine.execLdlit32 c d imm s
  | .ldlit64 c d imm => Sys2Proof.Machine.execLdlit64 c d imm s
  | .shapeq c d a => Sys2Proof.Machine.execShapeq c d a s
  | .reshape c a => Sys2Proof.Machine.execReshape c a s
  | .nop c => Sys2Proof.Machine.execNop c s
  | .bra c arm slot imm => Sys2Proof.Machine.execBra c arm slot imm s
  | .brx c a imm => Sys2Proof.Machine.execBrx c a imm s
  | .call c imm => Sys2Proof.Machine.execCall c imm s
  | .callx c a imm => Sys2Proof.Machine.execCallx c a imm s
  | .ret c => Sys2Proof.Machine.execRet c s
  | .join c slot => Sys2Proof.Machine.execJoin c slot s
  | .yield c => Sys2Proof.Machine.execYield c s
  | .exit c => Sys2Proof.Machine.execExit c s
  | .pad c label => Sys2Proof.Machine.execPad c label s
  | .trap c code => Sys2Proof.Machine.execTrap c code s
  | .bkpt c code => Sys2Proof.Machine.execBkpt c code s
  | .reth c => Sys2Proof.Machine.execReth c s
  | .rdsr c d sel => Sys2Proof.Machine.execRdsr c d sel s
  | .csrr c d num => Sys2Proof.Machine.execCsrr c d num s
  | .csrw c a num => Sys2Proof.Machine.execCsrw c a num s
  | .csrwFpcsr c a => Sys2Proof.Machine.execCsrwFpcsr c a s
  | .csrwMprog c a => Sys2Proof.Machine.execCsrwMprog c a s
  | .tlbiCtx c => Sys2Proof.Machine.execTlbiCtx c s
  | .tlbiPage c a => Sys2Proof.Machine.execTlbiPage c a s
  | .codereg c d a => Sys2Proof.Machine.execCodereg c d a s
  | .fadd c d a b ty rm => Sys2Proof.Machine.execFadd c d a b ty rm s
  | .fsub c d a b ty rm => Sys2Proof.Machine.execFsub c d a b ty rm s
  | .fmul c d a b ty rm => Sys2Proof.Machine.execFmul c d a b ty rm s
  | .ffma c d a b x ty rm => Sys2Proof.Machine.execFfma c d a b x ty rm s
  | .fmin c d a b ty => Sys2Proof.Machine.execFmin c d a b ty s
  | .fmax c d a b ty => Sys2Proof.Machine.execFmax c d a b ty s
  | .fminn c d a b ty => Sys2Proof.Machine.execFminn c d a b ty s
  | .fmaxn c d a b ty => Sys2Proof.Machine.execFmaxn c d a b ty s
  | .fcmp c p a b cc ty => Sys2Proof.Machine.execFcmp c p a b cc ty s
  | .fclass c d a ty => Sys2Proof.Machine.execFclass c d a ty s
  | .frnd c d a ty rm => Sys2Proof.Machine.execFrnd c d a ty rm s
  | .hadd2 c d a b ty rm => Sys2Proof.Machine.execHadd2 c d a b ty rm s
  | .hmul2 c d a b ty rm => Sys2Proof.Machine.execHmul2 c d a b ty rm s
  | .hfma2 c d a b x ty rm => Sys2Proof.Machine.execHfma2 c d a b x ty rm s
  | .dadd c d a b rm => Sys2Proof.Machine.execDadd c d a b rm s
  | .dmul c d a b rm => Sys2Proof.Machine.execDmul c d a b rm s
  | .dfma c d a b x rm => Sys2Proof.Machine.execDfma c d a b x rm s
  | .ddiv c d a b rm => Sys2Proof.Machine.execDdiv c d a b rm s
  | .dsqrt c d a rm => Sys2Proof.Machine.execDsqrt c d a rm s
  | .drcp c d a rm => Sys2Proof.Machine.execDrcp c d a rm s
  | .fcvt c d a ty src rm => Sys2Proof.Machine.execFcvt c d a ty src rm s
  | .f2i c d a ty src rm => Sys2Proof.Machine.execF2i c d a ty src rm s
  | .i2f c d a ty src rm => Sys2Proof.Machine.execI2f c d a ty src rm s
  | .fldx c d a b ty rm => Sys2Proof.Machine.execFldx c d a b ty rm s
  | .fexpo c d a ty => Sys2Proof.Machine.execFexpo c d a ty s
  | .fmant c d a ty => Sys2Proof.Machine.execFmant c d a ty s
  | .frcp c d a => Sys2Proof.Machine.execFrcp c d a s
  | .frsq c d a => Sys2Proof.Machine.execFrsq c d a s
  | .fsqrt c d a rm => Sys2Proof.Machine.execFsqrt c d a rm s
  | .fdiv c d a b rm => Sys2Proof.Machine.execFdiv c d a b rm s
  | .fex2 c d a => Sys2Proof.Machine.execFex2 c d a s
  | .flg2 c d a => Sys2Proof.Machine.execFlg2 c d a s
  | .fsinpi c d a => Sys2Proof.Machine.execFsinpi c d a s
  | .fcospi c d a => Sys2Proof.Machine.execFcospi c d a s
  | .mfpack c d a b ty src sat rm => Sys2Proof.Machine.execMfpack c d a b ty src sat rm s
  | .mfunpk c d a b ty dst => Sys2Proof.Machine.execMfunpk c d a b ty dst s
  | .popnz c d a ty daz => Sys2Proof.Machine.execPopnz c d a ty daz s
  | .spcomp c d a ty daz => Sys2Proof.Machine.execSpcomp c d a ty daz s
  | .ld c d m w v => Sys2Proof.Machine.execLd c d m w v s
  | .ldAcq c d m w => Sys2Proof.Machine.execLdAcq c d m w s
  | .st c m b w v => Sys2Proof.Machine.execSt c m b w v s
  | .stRel c m b w => Sys2Proof.Machine.execStRel c m b w s
  | .ldnf c d m w64 => Sys2Proof.Machine.execLdnf c d m w64 s
  | .preq c m => Sys2Proof.Machine.execPreq c m s
  | .cas c d m b w64 sc => Sys2Proof.Machine.execCas c d m b w64 sc s
  | .atomx c m b f => Sys2Proof.Machine.execAtomx c m b f s
  | .atomAdd c d m b w64 sc => Sys2Proof.Machine.execAtomAdd c d m b w64 sc s
  | .atomMin c d m b k sc => Sys2Proof.Machine.execAtomMin c d m b k sc s
  | .atomMax c d m b k sc => Sys2Proof.Machine.execAtomMax c d m b k sc s
  | .atomAnd c d m b w64 sc => Sys2Proof.Machine.execAtomAnd c d m b w64 sc s
  | .atomOr c d m b sc => Sys2Proof.Machine.execAtomOr c d m b sc s
  | .atomXor c d m b sc => Sys2Proof.Machine.execAtomXor c d m b sc s
  | .atomExch c d m b w64 sc => Sys2Proof.Machine.execAtomExch c d m b w64 sc s
  | .atomAddF32 c d m b sc => Sys2Proof.Machine.execAtomAddF32 c d m b sc s
  | .atomAddF64 c d m b sc => Sys2Proof.Machine.execAtomAddF64 c d m b sc s
  | .redAdd c m b w64 => Sys2Proof.Machine.execRedAdd c m b w64 s
  | .redMin c m b k => Sys2Proof.Machine.execRedMin c m b k s
  | .redMax c m b k => Sys2Proof.Machine.execRedMax c m b k s
  | .redAnd c m b w64 => Sys2Proof.Machine.execRedAnd c m b w64 s
  | .redOr c m b => Sys2Proof.Machine.execRedOr c m b s
  | .redXor c m b => Sys2Proof.Machine.execRedXor c m b s
  | .redAddF32 c m b => Sys2Proof.Machine.execRedAddF32 c m b s
  | .redAddF64 c m b => Sys2Proof.Machine.execRedAddF64 c m b s
  | .xrnd c d m w64 => Sys2Proof.Machine.execXrnd c d m w64 s
  | .xclr c m => Sys2Proof.Machine.execXclr c m s
  | .waitcnt c l st e scope => Sys2Proof.Machine.execWaitcnt c l st e scope s
  | .bar c a id => Sys2Proof.Machine.execBar c a id s
  | .barArv c a id => Sys2Proof.Machine.execBarArv c a id s
  | .barbInit c m b => Sys2Proof.Machine.execBarbInit c m b s
  | .barbExpect c m b => Sys2Proof.Machine.execBarbExpect c m b s
  | .barbArrive c d m => Sys2Proof.Machine.execBarbArrive c d m s
  | .barbWait c m b => Sys2Proof.Machine.execBarbWait c m b s
  | .qxchIdx c d a b ty => Sys2Proof.Machine.execQxchIdx c d a b ty s
  | .qxchX c d a k ty => Sys2Proof.Machine.execQxchX c d a k ty s
  | .qbcst c d a m ty => Sys2Proof.Machine.execQbcst c d a m ty s
  | .fshflIdx c d a b ty => Sys2Proof.Machine.execFshflIdx c d a b ty s
  | .fshflUp c d a b ty => Sys2Proof.Machine.execFshflUp c d a b ty s
  | .fshflDown c d a b ty => Sys2Proof.Machine.execFshflDown c d a b ty s
  | .fshflXor c d a b ty => Sys2Proof.Machine.execFshflXor c d a b ty s
  | .fvoteAll c pd pa => Sys2Proof.Machine.execFvoteAll c pd pa s
  | .fvoteAny c pd pa => Sys2Proof.Machine.execFvoteAny c pd pa s
  | .fvoteUni c pd pa => Sys2Proof.Machine.execFvoteUni c pd pa s
  | .fvoteBallot c d pa => Sys2Proof.Machine.execFvoteBallot c d pa s
  | .rngLo c d a b => Sys2Proof.Machine.execRngLo c d a b s
  | .rngHi c d a b => Sys2Proof.Machine.execRngHi c d a b s
  | .mmodeM c abase => Sys2Proof.Machine.execMmodeM c abase s
  | .mmodeV c => Sys2Proof.Machine.execMmodeV c s
  | .mgang c a => Sys2Proof.Machine.execMgang c a s
  | .mzero c => Sys2Proof.Machine.execMzero c s
  | .mma c ha hb k ty => Sys2Proof.Machine.execMma c ha hb k ty s
  | .mmasp c ha hb k ty => Sys2Proof.Machine.execMmasp c ha hb k ty s
  | .mmad c a hb ty => Sys2Proof.Machine.execMmad c a hb ty s
  | .mstat c d => Sys2Proof.Machine.execMstat c d s
  | .mdrainSt c d a b hc acc => Sys2Proof.Machine.execMdrainSt c d a b hc acc s
  | .mdrainAddf c d a b hc acc => Sys2Proof.Machine.execMdrainAddf c d a b hc acc s
  | .mdrainAddx c d a b hc acc => Sys2Proof.Machine.execMdrainAddx c d a b hc acc s
  | .mcvt c d ty rm => Sys2Proof.Machine.execMcvt c d ty rm s
  | .seal c hd a b => Sys2Proof.Machine.execSeal c hd a b s
  | .hquery c d ha => Sys2Proof.Machine.execHquery c d ha s
  | .hdrop c hd => Sys2Proof.Machine.execHdrop c hd s
  | .copy c d a b srcS dstS => Sys2Proof.Machine.execCopy c d a b srcS dstS s
  | .gath c d a b hc => Sys2Proof.Machine.execGath c d a b hc s
  | .scat c d a b hc => Sys2Proof.Machine.execScat c d a b hc s
  | .sample c d a b hc => Sys2Proof.Machine.execSample c d a b hc s
  | .gauge c d a => Sys2Proof.Machine.execGauge c d a s
  | .launch c d a prio => Sys2Proof.Machine.execLaunch c d a prio s
  | .launchPod c d a prio => Sys2Proof.Machine.execLaunchPod c d a prio s
  | .lwait c d => Sys2Proof.Machine.execLwait c d s
  | .lcancel c d a => Sys2Proof.Machine.execLcancel c d a s
  | .lcancelKill c d a => Sys2Proof.Machine.execLcancelKill c d a s
  | .lstat c d a => Sys2Proof.Machine.execLstat c d a s
  | .qpost c d a b => Sys2Proof.Machine.execQpost c d a b s
  | .warpForm pkg core => Sys2Proof.Machine.execWarpForm pkg core s
  | .loadWriteback k => Sys2Proof.Machine.execLoadWriteback k s
  | .storePerformed k => Sys2Proof.Machine.execStorePerformed k s
  | .homeWriteApply k => Sys2Proof.Machine.execHomeWriteApply k s
  | .pushApply k => Sys2Proof.Machine.execPushApply k s
  | .l1Rebase pkg core => Sys2Proof.Machine.execL1Rebase pkg core s
  | .timeViewLost pkg core => Sys2Proof.Machine.execTimeViewLost pkg core s
  | .hostSnoop pkg pa data => Sys2Proof.Machine.execHostSnoop pkg pa data s
  | .gridGrant pkg core => Sys2Proof.Machine.execGridGrant pkg core s
  | .passCommit blk => Sys2Proof.Machine.execPassCommit blk s
  | .drainCapture blk => Sys2Proof.Machine.execDrainCapture blk s
  | .copyGranule cmd g => Sys2Proof.Machine.execCopyGranule cmd g s
  | .gathPosition cmd p => Sys2Proof.Machine.execGathPosition cmd p s
  | .scatPosition cmd p => Sys2Proof.Machine.execScatPosition cmd p s
  | .drainGranule cmd g => Sys2Proof.Machine.execDrainGranule cmd g s
  | .sampleComplete cmd => Sys2Proof.Machine.execSampleComplete cmd s
  | .gaugeComplete cmd => Sys2Proof.Machine.execGaugeComplete cmd s
  | .engineStatusWrite cmd => Sys2Proof.Machine.execEngineStatusWrite cmd s
  | .joinHoldExpiry blk slot => Sys2Proof.Machine.execJoinHoldExpiry blk slot s
  | .pageAnswer pkg ctx tag status => Sys2Proof.Machine.execPageAnswer pkg ctx tag status s
  | .invalidationDoorbell pkg ctx page => Sys2Proof.Machine.execInvalidationDoorbell pkg ctx page s
  | .hostTailWrite pkg ctx queue record tail => Sys2Proof.Machine.execHostTailWrite pkg ctx queue record tail s
  | .runtimeRegisterWrite pkg target value => Sys2Proof.Machine.execRuntimeRegisterWrite pkg target value s
  | .turnoutCycle pkg die => Sys2Proof.Machine.execTurnoutCycle pkg die s
  | .terraceCloseAgeing pkg die => Sys2Proof.Machine.execTerraceCloseAgeing pkg die s
  | .checkgateLotRequest pkg die => Sys2Proof.Machine.execCheckgateLotRequest pkg die s
  | .blockRetire blk => Sys2Proof.Machine.execBlockRetire blk s
  | .gridComplete pkg grid => Sys2Proof.Machine.execGridComplete pkg grid s
  | .lwaitResume blk => Sys2Proof.Machine.execLwaitResume blk s
  | .podGridBroadcast ctx => Sys2Proof.Machine.execPodGridBroadcast ctx s
  | .podLotRequest pkg ctx grid => Sys2Proof.Machine.execPodLotRequest pkg ctx grid s
  | .podOrdOffer ctx grid => Sys2Proof.Machine.execPodOrdOffer ctx grid s
  | .progressSummary pkg ctx grid => Sys2Proof.Machine.execProgressSummary pkg ctx grid s
  | .finalSummary pkg ctx grid => Sys2Proof.Machine.execFinalSummary pkg ctx grid s
  | .podCancel ctx grid kill => Sys2Proof.Machine.execPodCancel ctx grid kill s
  | .standbyTakeover ctx => Sys2Proof.Machine.execStandbyTakeover ctx s
  | .timeMessage pkg time => Sys2Proof.Machine.execTimeMessage pkg time s
  | .gtimeUnsync pkg => Sys2Proof.Machine.execGtimeUnsync pkg s
  | .flitReplay pkg port => Sys2Proof.Machine.execFlitReplay pkg port s
  | .linkPortDown pkg port => Sys2Proof.Machine.execLinkPortDown pkg port s
  | .remoteRequestArrival k => Sys2Proof.Machine.execRemoteRequestArrival k s
  | .remoteTimeout k => Sys2Proof.Machine.execRemoteTimeout k s
  | .preemptGraceful pkg ctx => Sys2Proof.Machine.execPreemptGraceful pkg ctx s
  | .gracefulDeadline pkg ctx => Sys2Proof.Machine.execGracefulDeadline pkg ctx s
  | .preemptForced pkg ctx => Sys2Proof.Machine.execPreemptForced pkg ctx s
  | .saveImage blk => Sys2Proof.Machine.execSaveImage blk s
  | .sluiceEscalation pkg ctx => Sys2Proof.Machine.execSluiceEscalation pkg ctx s
  | .resumeRequest pkg ctx => Sys2Proof.Machine.execResumeRequest pkg ctx s
  | .blockRestore img core => Sys2Proof.Machine.execBlockRestore img core s
  | .quantumExpiry pkg pcore => Sys2Proof.Machine.execQuantumExpiry pkg pcore s
  | .contextKill ctx => Sys2Proof.Machine.execContextKill ctx s
  | .contextCreate pkg ctx part desc => Sys2Proof.Machine.execContextCreate pkg ctx part desc s
  | .codeRelease pkg ctx va => Sys2Proof.Machine.execCodeRelease pkg ctx va s
  | .partitionConfigure pkg part record remap sluice => Sys2Proof.Machine.execPartitionConfigure pkg part record remap sluice s
  | .regionDescriptorWrite pkg idx record => Sys2Proof.Machine.execRegionDescriptorWrite pkg idx record s
  | .attestRequest pkg nonce => Sys2Proof.Machine.execAttestRequest pkg nonce s
  | .svnUpdate pkg svn signature => Sys2Proof.Machine.execSvnUpdate pkg svn signature s
  | .packageReset pkg image hbmOk linksOk disabled ranges => Sys2Proof.Machine.execPackageReset pkg image hbmOk linksOk disabled ranges s
  | .backupImage pkg image hbmOk linksOk disabled ranges => Sys2Proof.Machine.execBackupImage pkg image hbmOk linksOk disabled ranges s
  | .ucieModuleDown pkg module => Sys2Proof.Machine.execUcieModuleDown pkg module s
  | .ucieRetrain pkg => Sys2Proof.Machine.execUcieRetrain pkg s
  | .poolPortDown pkg port => Sys2Proof.Machine.execPoolPortDown pkg port s
  | .eccError pkg src die sev pa => Sys2Proof.Machine.execEccError pkg src die sev pa s
  | .fatalError pkg src die pa => Sys2Proof.Machine.execFatalError pkg src die pa s
  | .scrub pkg => Sys2Proof.Machine.execScrub pkg s
  | .powerControlTick pkg pwr => Sys2Proof.Machine.execPowerControlTick pkg pwr s
  | .powerWordWrite pkg pl => Sys2Proof.Machine.execPowerWordWrite pkg pl s
  | .junctionOvertemp pkg hot => Sys2Proof.Machine.execJunctionOvertemp pkg hot s
  | .coolantChange pkg inlet10 flow10 => Sys2Proof.Machine.execCoolantChange pkg inlet10 flow10 s
  | .cxlMemAccess pkg pa data len => Sys2Proof.Machine.execCxlMemAccess pkg pa data len s

end Sys2Proof.Machine
end

