-- ==== Sys2Proof/Machine/Turns.lean ====
section
/-! DEFINITION. What takes place where no warp issues (log entry 3): in each cycle first the events whose cycle the spec
fixes, in an order of their own; then events of other agents, as the agenda or a free value gives them; then the next cycle.
-/

namespace Sys2Proof.Machine

/-- The blocks on their cores. -/
def State.placed (s : State) : List (Nat × Block) := s.blocks.filter fun (b : Nat × Block) => b.2.place = Place.resident

/-- The cores that hold a block. -/
def State.liveCores (s : State) : List (Nat × Nat) := (s.placed.map fun b => (b.2.pkg, b.2.core)).eraseDups

/-- The packages with a grid that has not ended, or with queues from which one may come. -/
def State.busyPkgs (s : State) : List Nat :=
  (s.pkgs.filter fun (q : Nat × Pkg) =>
    (q.2.grids.any fun g => !g.state.ended)
      || s.ctxs.any fun c => c.1 / 65536 = q.1 && c.2.live && bitAt (s.descDw q.1 (c.1 % 65536) 2) 0).map (·.1)

/-- Passes that have read their panels or ended before this cycle, and captures that have ended (R218, R289). -/
def State.commitsDue (s : State) : List Instr :=
  s.placed.flatMap fun b =>
    (if b.2.crew.any fun r => (r.granted.head?.any fun g => g.at_ + passTime r.ty ≤ s.cycle)
        || r.granted.any fun g => !g.read && g.at_ + 2 ≤ s.cycle then [.passCommit b.1] else [])
      ++ (if b.2.drain.any fun d => d.startCap.any fun t => t + 16 ≤ s.cycle then [.drainCapture b.1] else [])

/-- The weir of every core that holds a block (R248). -/
def State.formsDue (s : State) : List Instr := s.liveCores.map fun k => .warpForm k.1 k.2

/-- The arbiters with an entry (R292). -/
def State.grantsDue (s : State) : List Instr :=
  (s.liveCores.filter fun k => s.placed.any fun b => b.2.pkg = k.1 && b.2.core = k.2 && b.2.gridEntry).map fun k =>
    .gridGrant k.1 k.2

/-- The join slots whose hold has passed; an arrival of this cycle came before (R111). -/
def State.holdsDue (s : State) : List Instr :=
  s.placed.flatMap fun b =>
    ((List.range 16).filter fun n => s.blockRuns b.2 && b.2.joinDue n s.cycle).map fun n => .joinHoldExpiry b.1 n

/-- The deadlines of pre-emption that have passed; a yield of this cycle came before (R112, R331, R391). -/
def State.deadlinesDue (s : State) : List Instr :=
  (s.ctxs.filter fun (c : Nat × PkgCtx) => c.2.live && c.2.pre ≠ .running && c.2.pre ≠ .saved).flatMap fun c =>
    let p := c.1 / 65536
    let x := c.1 % 65536
    [.gracefulDeadline p x, .sluiceEscalation p x]

/-- The physical cores that logical cores share (R327), and the contexts of the blocks that are being saved there. -/
def State.quantaDue (s : State) : List Instr :=
  s.pkgs.flatMap fun (q : Nat × Pkg) =>
    ((q.2.remap.filter fun r => remapEn r.2 && remapGrp r.2 ≠ 0).map fun r => remapPcore r.2).eraseDups.map fun k =>
      .quantumExpiry q.1 k
def State.slowDue (s : State) : List Instr :=
  ((s.placed.filter fun b => s.outgoing b.2.pkg b.2.core).map fun b => (b.2.pkg, b.2.ctx)).eraseDups.map fun k =>
    .sluiceEscalation k.1 k.2

/-- The single saved block that a turnout's cycle restores, if it does (R398). -/
def State.restoreDue (s : State) (p die : Nat) : List Instr :=
  match ((s.openQueues p).turnoutPick p die).2 with
  | none => []
  | some d => match d.unit.work, d.cores with
    | .again [b], [(c, _)] => ((s.imageFor b).map fun i => Instr.blockRestore i.1 c).toList
    | _, _ => []

/-- The turnouts of a package: the requests for lots in ascending die, and then each turnout's cycle (R319, R322). -/
def State.turnoutsDue (s : State) (p : Nat) : List Instr :=
  ((List.range Config.dies).map fun d => .checkgateLotRequest p d)
    ++ (List.range Config.dies).flatMap fun d => .terraceCloseAgeing p d :: s.restoreDue p d ++ [.turnoutCycle p d]

/-- The headgates: a cancel or an lstat that has arrived (R342), requests for lots in ascending package, and the offers under
ORD (R337). -/
def State.podsDue (s : State) : List Instr :=
  s.heads.flatMap fun (h : Nat × Head) =>
    (if h.2.main.inbox.head?.any fun l => l.ask ≠ .launch then [.podGridBroadcast h.1] else [])
    ++ (h.2.main.grids.filter fun g => !g.ended).flatMap fun g =>
      ((s.podPkgs h.1).map fun p => .podLotRequest p h.1 g.id) ++ [.podOrdOffer h.1 g.id]

/-- The packages that have had no time message for too long (R344). -/
def State.unsyncsDue (s : State) : List Instr :=
  (s.pkgs.filter fun (q : Nat × Pkg) =>
    !q.2.unsync && q.2.lastMsg + 100000 ≤ s.ns && (s.master q.1).isSome).map fun q => .gtimeUnsync q.1

/-- The packages whose host link is to be trained again (R401). -/
def State.retrainsDue (s : State) : List Instr :=
  (s.pkgs.filter fun (q : Nat × Pkg) => q.2.retrain < s.ns / 100000000).map fun q => .ucieRetrain q.1

/-- The blocks whose commands close for their save, or go on (R329, R331). -/
def State.settleDue (s : State) : List Instr := (s.placed.filter fun b => s.cmdsTurn b.1).map fun b => .saveImage b.1

/-- The L1s whose view of time has reached their next base (R366). -/
def State.rebasesDue (s : State) : List Instr :=
  let cs : List (Nat × Nat) := (s.cores.map fun k => (k.1 / 512, k.1 % 512)) ++ s.liveCores
  (cs.eraseDups.filter fun k => s.rebases k.1 k.2 ≠ 0).map fun k => .l1Rebase k.1 k.2

/-- The steps of the power control, each 10 µs while Root runs (R410): the power that it measures is left open (log entry 47). -/
def State.powersDue (s : State) : List Instr :=
  (s.pkgs.filter fun (q : Nat × Pkg) => q.2.ticked < s.ns / 10000 && 2 < q.2.boot.stage).map fun q =>
    .powerControlTick q.1 (Config.freeDraw (s.tick + q.1) % 65536)

/-- What follows the weirs in a cycle. -/
def State.restDue (s : State) : List Instr :=
  s.rebasesDue ++ s.grantsDue ++ s.holdsDue ++ s.deadlinesDue ++ s.settleDue ++ s.slowDue ++ s.quantaDue ++ s.busyPkgs.flatMap s.turnoutsDue ++ s.podsDue
    ++ s.unsyncsDue ++ s.retrainsDue ++ s.powersDue

/-- The remote transaction whose time is up (R346). -/
def State.expired (s : State) : Option Nat :=
  (List.range s.coh.remote.length).find? fun k => (s.coh.remote[k]?).any s.lost

/-- The next event that this cycle owes, if it owes one. The order in which the weirs of the cores look is free. -/
def State.due (s : State) : Option Instr :=
  let new (l : List Instr) : List Instr := l.filter fun i => !s.did.contains i
  if s.opened then none
  else match s.expired with
    | some k => some (.remoteTimeout k)
    | none => match new s.commitsDue with
      | i :: _ => some i
      | [] => match new s.formsDue with
        | [i] => some i
        | i :: r => some ((i :: r).getD ((Config.turn s.tick).elapse % (r.length + 1)) i)
        | [] => (new s.restDue).head?

/-- Whether the spec fixes the cycle of an event: it takes place where it is due, and at no other time. -/
def Instr.fixedCycle : Instr → Bool
  | .warpForm .. | .gridGrant .. | .passCommit .. | .drainCapture .. | .joinHoldExpiry .. | .gracefulDeadline ..
  | .quantumExpiry .. | .checkgateLotRequest .. | .terraceCloseAgeing .. | .blockRestore .. | .turnoutCycle ..
  | .podLotRequest .. | .podOrdOffer .. | .gtimeUnsync .. | .remoteTimeout .. | .ucieRetrain .. | .l1Rebase .. | .powerControlTick .. => true
  | _ => false

/-- The doorbells of every context served as far as they can be (R381). -/
def State.ringAll (s : State) : State :=
  s.ctxs.foldl (fun s c => if c.2.bells = [] && c.2.rung = [] then s else s.ringBells (c.1 / 65536) (c.1 % 65536)) s

/-- The next cycle: the dealing of grids cancelled in the last one has ended (R318), doorbells whose last write has reached its home
are done (R381), and packages that are their own time master are synchronised (R344). -/
def State.nextCycle (s : State) : State :=
  ({ s with cycle := s.cycle + 1, did := [], opened := false } : State).dealingEnds.ringAll.ownTime

/-- The step of an agent that no cycle is fixed for: the first of the agenda, or the one a free value picks. Where it is to
come later, the next cycle begins. -/
def State.freeTurn (s : State) : State × Instr :=
  let t := s.agenda.headD (Config.turn s.tick)
  let rest := s.agenda.drop 1
  match t.elapse with
  | 0 => ({ s with agenda := rest, opened := true }, if Instr.fixedCycle t.what then .nop default else t.what)
  | n + 1 => ({ s.nextCycle with agenda := ⟨n, t.what⟩ :: rest }, .nop default)

/-- What takes place where no warp issues, with the state in which it does: an instruction has no place there. -/
def State.nextTurn (s : State) : State × Instr :=
  match s.due with
  | some i => ({ s with did := i :: s.did }, i)
  | none => s.freeTurn

end Sys2Proof.Machine
end

