-- ==== Sys2Proof/Machine/Step.lean ====
section
/-! DEFINITION. One step of the machine (log entry 3): the next member of the issuing warps executes its instruction;
where none is left the issue ends; where no warp issues, one event of another agent takes place. -/

namespace Sys2Proof.Machine

/-- One step. -/
def step (s : State) : Host.Outcome State Fault Refusal :=
  match s.ticked.fronted.takeMember with
  | some m =>
    match m.prepare with
    | .run i r =>
      match exec i r with
      | .next t => .next t.settle
      | o => o
    | .done t => .next t.settle
    | .poisoned => .fault .poisonedFetch
  | none =>
    match s.issue with
    | _ :: _ => .next s.ticked.fronted.endIssue
    | [] => if s.ticked.nextTurn.2.isEvent then exec s.ticked.nextTurn.2 s.ticked.nextTurn.1 else .next s.ticked.nextTurn.1

/-- The state with one instruction stored where step fetches its next: a loaded machine whose issuing warp has one
member left (log entry 9). Every instruction has 64 bits. -/
def State.withFetchWord (s : State) (_nbits w : Nat) : State := s.loaded (BitVec.ofNat 64 w)

end Sys2Proof.Machine
end

