-- ==== Sys2Proof/Safety.lean ====
section
/-! DEFINITION. What claims about a run are said in: when the executing thread executes its instruction, what it means
that only that thread has changed, and the forms that hold of every state a run reaches. -/

namespace Sys2Proof.Machine

-- Memory

/-- The canonical form of physical memory: addresses strictly rising, and no entry equal to what an unlisted address
reads as; the poison of its bytes likewise. -/
def Memory.wf (m : List Host.Cell) (bad : Tab Bool) : Bool := twf m && twf bad
/-- The memory of a state is in canonical form. -/
def State.memOk (s : State) : Bool := Memory.wf s.mem s.bad
/-- Every die copy, and every write on its way to one, holds the 32 bytes of a sector. -/
def State.copiesOk (s : State) : Bool :=
  (s.coh.copies.all fun k => k.bytes.length = 32) && s.coh.pushes.all fun u => u.bytes.length = 32
/-- The blocks are listed by strictly rising number: none stands twice. -/
def State.blocksOk (s : State) : Bool := decide (s.blocks.Pairwise fun a b => a.1 < b.1)
/-- One byte of physical memory, with its poison. -/
def State.byteAt (s : State) (k : Nat) : Byte × Bool := (tget s.mem k, tget s.bad k)
/-- One byte of a private memory, with its poison. -/
def Bytes.at (m : Bytes) (k : Nat) : Byte × Bool := (tget m.cells k, tget m.bad k)

-- When an instruction executes

/-- Whether the executing thread, as it meets an instruction, executes it (R385): its registers lie in
its allotment (R84 check 9) and none in a window in use (R287), its guard holds (R53), no stall-count
fault applies (R58) and no source is marked poisoned (R175). -/
def State.executes (s : State) (c : Ctl) (i : Instr) : Bool :=
  let th := s.me
  let bl := s.myBlk
  let u := usesOf i
  (u.regs.all fun r => decide (r < th.allot))
    && !(bl.passesOut th && u.regs.any fun r => bl.inWindow th r)
    && !(th.chk && !((onep c.ps).all fun p => (th.unready (256 + p) s.nowCycle).isEmpty))
    && decide (s.rdPred c.ps ≠ c.pn) && (s.stallSub u).isNone && !(u.srcs.any fun r => tget th.marks r)

/-- Whether the executing thread is predicated off as it meets an instruction (R53): the checks that come before the
guard (R385) pass and the guard is false. -/
def State.skips (s : State) (c : Ctl) (i : Instr) : Bool :=
  let th := s.me
  let bl := s.myBlk
  let u := usesOf i
  (u.regs.all fun r => decide (r < th.allot))
    && !(bl.passesOut th && u.regs.any fun r => bl.inWindow th r)
    && !(th.chk && !((onep c.ps).all fun p => (th.unready (256 + p) s.nowCycle).isEmpty))
    && decide (s.rdPred c.ps = c.pn)

/-- The guard field of an instruction that a thread executes on its own: not a bra, whose members arm a slot predicated
off or not (R107), nor a jump through a table, whose landing-pad faults every member takes (R54), nor one that threads
execute together (R196, R206). -/
def aloneGuard : Instr → Option Ctl
  | .iadd c .. | .isub c .. | .imul c .. | .imulh c .. | .imad c .. | .imadw c .. | .imin c .. | .imax c ..
  | .iabs c .. | .ineg c .. | .icmp c .. | .lea c .. | .shl c .. | .shr c .. | .sar c .. | .fshL c .. | .fshR c ..
  | .andB c .. | .orB c .. | .xorB c .. | .notB c .. | .lop3 c .. | .bfx c .. | .bfi c .. | .popc c .. | .clz c ..
  | .brev c .. | .ffs c .. | .isel c .. | .plop c .. | .mov c .. | .movi c .. | .movh c .. | .ldlit32 c ..
  | .ldlit64 c .. | .shapeq c .. | .reshape c .. | .nop c | .call c .. | .ret c
  | .join c .. | .yield c | .exit c | .pad c .. | .trap c .. | .bkpt c .. | .reth c | .rdsr c .. | .csrr c ..
  | .csrw c .. | .csrwFpcsr c .. | .csrwMprog c .. | .tlbiCtx c | .tlbiPage c .. | .codereg c .. | .fadd c ..
  | .fsub c .. | .fmul c .. | .ffma c .. | .fmin c .. | .fmax c .. | .fminn c .. | .fmaxn c .. | .fcmp c ..
  | .fclass c .. | .frnd c .. | .hadd2 c .. | .hmul2 c .. | .hfma2 c .. | .dadd c .. | .dmul c .. | .dfma c ..
  | .ddiv c .. | .dsqrt c .. | .drcp c .. | .fcvt c .. | .f2i c .. | .i2f c .. | .fldx c .. | .fexpo c ..
  | .fmant c .. | .frcp c .. | .frsq c .. | .fsqrt c .. | .fdiv c .. | .fex2 c .. | .flg2 c .. | .fsinpi c ..
  | .fcospi c .. | .mfpack c .. | .mfunpk c .. | .popnz c .. | .spcomp c .. | .ld c .. | .ldAcq c .. | .st c ..
  | .stRel c .. | .ldnf c .. | .preq c .. | .cas c .. | .atomx c .. | .atomAdd c .. | .atomMin c .. | .atomMax c ..
  | .atomAnd c .. | .atomOr c .. | .atomXor c .. | .atomExch c .. | .atomAddF32 c .. | .atomAddF64 c ..
  | .redAdd c .. | .redMin c .. | .redMax c .. | .redAnd c .. | .redOr c .. | .redXor c .. | .redAddF32 c ..
  | .redAddF64 c .. | .xrnd c .. | .xclr c .. | .waitcnt c .. | .barbInit c .. | .barbExpect c .. | .barbArrive c ..
  | .barbWait c .. | .rngLo c .. | .rngHi c .. | .mmodeV c | .mgang c .. | .mzero c | .mstat c .. | .mcvt c ..
  | .seal c .. | .hquery c .. | .hdrop c .. | .copy c .. | .gath c .. | .scat c .. | .sample c .. | .gauge c ..
  | .launch c .. | .launchPod c .. | .lcancel c .. | .lcancelKill c .. | .lstat c .. | .qpost c ..
  | .bar c .. | .barArv c .. | .lwait c .. => some c
  | _ => none

-- What has changed

/-- Nothing but the blocks and the record of the issue has changed, no block but the executing thread's, of it nothing
but its threads, and of these none but the executing one. -/
def OnlyMe (s t : State) : Prop :=
  t = { s with blocks := t.blocks, issue := t.issue }
    ∧ (∀ b, b ≠ s.cur.1 → t.blk b = s.blk b)
    ∧ t.myBlk = { s.myBlk with threads := t.myBlk.threads }
    ∧ ∀ k, k ≠ s.cur.2 → t.thr s.cur.1 k = s.thr s.cur.1 k

/-- Of a thread nothing has changed but its registers with their marks, predicates and FPCSR, the results noted as on
their way, and where and when it goes on. -/
def Thread.Data (th u : Thread) : Prop :=
  u = { th with
    regs := u.regs, marks := u.marks, preds := u.preds, fpcsr := u.fpcsr, fresh := u.fresh, pc := u.pc, via := u.via
    stallUntil := u.stallUntil, readySince := u.readySince, issued := u.issued, st := u.st, wait := u.wait, pk := u.pk }

/-- Of a thread nothing has changed but where and when it goes on. -/
def Thread.Moved (th u : Thread) : Prop :=
  u = { th with
    pc := u.pc, via := u.via, stallUntil := u.stallUntil, readySince := u.readySince, issued := u.issued, st := u.st
    wait := u.wait, pk := u.pk }

/-- Of a thread that has arrived at a rendezvous nothing has changed but where it waits, the STALL it then owes, and that its
group has not assembled yet. -/
def Thread.Owing (th u : Thread) (stall : Nat) : Prop := { th with owed := stall, met := false }.Moved u

/-- The value a list of written registers gives one, if it lists it. -/
def written (ws : List (Nat × Word)) (r : Nat) : Option Word := (ws.find? fun p => p.1 = r).map (·.2)

/-- The executing thread has retired its instruction: it goes on at the next word and can issue; the registers listed hold the words
given and are not marked; the predicates listed hold the values given; the flags given have been raised; and nothing
else has changed. -/
def Retired (s t : State) (ws : List (Nat × Word)) (ps : List (Nat × Bool)) (fl : BitVec 5) : Prop :=
  OnlyMe s t ∧ s.me.Data t.me ∧ t.me.pc = s.me.pc + 8 ∧ t.me.issuable = true
    ∧ (∀ r, tget t.me.regs r = (written ws r).getD (tget s.me.regs r))
    ∧ (∀ r, tget t.me.marks r = if (written ws r).isSome then false else tget s.me.marks r)
    ∧ (∀ p, t.me.preds.getLsbD p = ((ps.find? fun q => q.1 = p).map (·.2)).getD (s.me.preds.getLsbD p))
    ∧ t.me.fpcsr = { s.me.fpcsr with flags := s.me.fpcsr.flags ||| fl }

/-- A well-formed instruction that the executing thread executes retires with these registers, predicates and flags. -/
def Completes (s : State) (i : Instr) (c : Ctl) (ws : List (Nat × Word)) (ps : List (Nat × Bool)) (fl : BitVec 5) : Prop :=
  i.wellFormed = true → s.executes c i = true → ∃ t, exec i s = .next t ∧ Retired s t ws ps fl

-- Control

/-- Nothing but the blocks and the record of the issue has changed, and no thread and no block but the executing
thread's. -/
def OnlyMine (s t : State) : Prop :=
  t = { s with blocks := t.blocks, issue := t.issue }
    ∧ (∀ b, b ≠ s.cur.1 → t.blk b = s.blk b)
    ∧ ∀ k, k ≠ s.cur.2 → t.thr s.cur.1 k = s.thr s.cur.1 k

/-- The executing thread has gone to an address, where it can issue, with nothing else changed but what a first change
of it (`th`) has done to it. -/
def Went (th : Thread) (t : State) (pc : VAddr) : Prop := th.Moved t.me ∧ t.me.pc = pc ∧ t.me.issuable = true

/-- TAKING AN EXCEPTION outside handler mode (R387): the frame and TCAUSE are written, H is set, the thread stands at
TVEC; nothing else changes but the count of the event in its grid (R341) and the record of the issue. -/
def TookFault (s t : State) (cause : Nat) (tc : Dword) (pc : VAddr) : Prop :=
  OnlyMe s { t with pkgs := s.pkgs }
    ∧ (∀ p, p ≠ s.myBlk.pkg → t.pkg p = s.pkg p)
    ∧ t.pkg s.myBlk.pkg = { s.pkg s.myBlk.pkg with grids := (t.pkg s.myBlk.pkg).grids }
    ∧ t.me = { s.me with
        tframe0 := frameWord cause pc false, tcause := tc, ms := { s.me.ms with h := true }, pc := tvecPc s.me.tvec
        st := .handler, wait := none, pk := none, via := some ⟨true, none⟩, readySince := max s.lastCycle s.me.issued }

/-- No table that a walk of an address for the executing thread reads is cut off (R401, R402). -/
def State.tablesUp (s : State) (va : Nat) : Prop :=
  s.tableCuts s.myBlk.pkg (coreUnits s.myBlk.core) s.myBlk.ctx va = 0

/-- The translations held are all that has changed (R376). -/
def OnlyTlb (s t : State) : Prop := t = { s with coh := { s.coh with tlb := t.coh.tlb } }

/-- A value of a type as register words, the low word first (R17, R86). -/
def tyWords (ty : Ty) (n : Nat) : List Word := if ty.is64 then halves (BitVec.ofNat 64 n) else [BitVec.ofNat 32 n]

-- Memory accesses

/-- The words that a loaded value fills, the lowest-addressed first: sign-extended, zero-extended or whole (R171). -/
def loadedWords (w : LdW) (v : Nat) : List Word :=
  match w with
  | .i8 => [(BitVec.ofNat 8 v).signExtend 32]
  | .i16 => [(BitVec.ofNat 16 v).signExtend 32]
  | .n8 | .n16 | .b32 => [BitVec.ofNat 32 v]
  | .b64 => [BitVec.ofNat 32 v, BitVec.ofNat 32 (v / 2 ^ 32)]
  | .b128 => (List.range 4).map fun i => BitVec.ofNat 32 (v / 2 ^ (32 * i))

/-- Nothing has changed but the executing thread, as in `OnlyMe`, what coherence holds, and of the cores their L1s and
observed clocks. -/
def OnlyAccess (s t : State) : Prop :=
  OnlyMe s { t with coh := s.coh, cores := s.cores }
    ∧ ∀ k, tget t.cores k = { tget s.cores k with l1 := (tget t.cores k).l1, oc := (tget t.cores k).oc }

/-- Of what coherence holds nothing has changed but translations, leases and die copies, and one result sent. -/
def Coh.Read (h k : Coh) (l : Land) : Prop :=
  k = { h with tlb := k.tlb, lx := k.lx, copies := k.copies, lands := h.lands ++ [l] }

/-- Of what coherence holds nothing has changed but translations, and one operation sent to its home. -/
def Coh.Sent (h k : Coh) (o : HomeOp) : Prop := k = { h with tlb := k.tlb, ops := h.ops ++ [o] }

/-- A result on its way to the executing thread, counted in LCNT. -/
def State.result (s : State) (regs : List (Nat × Word)) (marked : Bool) : Land :=
  { (default : Land) with blk := s.cur.1, tid := s.cur.2, regs := regs, marked := marked }

/-- A byte of memory as a thread reads it at its home: its own latest outstanding store to it (R169), or memory's. -/
def State.homeByte (s : State) (who : Who) (k : Nat) : Byte × Bool :=
  match ownByte who k s.coh.ops none with
  | some b => (b, false)
  | none => s.byteAt k

/-- What a load at scope .blk may return for a byte (R169, R356, R364): the thread's own latest outstanding store to it, or
else the byte of a live entry of its core's L1, of an open copy at its die, or of memory. -/
def State.NearByte (s : State) (who : Who) (va k : Nat) (b : Byte × Bool) : Prop :=
  let bl := s.myBlk
  match ownByte who k s.coh.ops none with
  | some v => b = (v, false)
  | none =>
    b = s.byteAt k
      ∨ (∃ e ∈ (s.core bl.pkg bl.core).l1, e.ctx = bl.ctx ∧ e.vtag = va / 128
          ∧ e.live (s.core bl.pkg bl.core).lbase (s.gtime bl.pkg) = true
          ∧ b = (((tget e.words (va % 128 / 4)) >>> (8 * (va % 4))).truncate 8, e.marks.getLsbD (va % 128 / 4)))
      ∨ ∃ q ∈ s.coh.copies, q.pkg = bl.pkg ∧ q.die = dieOf bl.core ∧ q.sector = k / 32 ∧ s.gtime bl.pkg < q.window
          ∧ q.bytes[k % 32]? = some b

/-- A thread of a group has retired an exchange (R196): it goes on at the next word and can issue, with the registers and
predicates listed, and nothing else of it has changed. -/
def MemberRetired (s t : State) (k : Nat) (ws : List (Nat × Word)) (ps : List (Nat × Bool)) : Prop :=
  let th := s.thr s.cur.1 k
  let u := t.thr s.cur.1 k
  th.Data u ∧ u.pc = th.pc + 8 ∧ u.issuable = true ∧ u.fpcsr = th.fpcsr
    ∧ (∀ r, tget u.regs r = (written ws r).getD (tget th.regs r))
    ∧ (∀ r, tget u.marks r = if (written ws r).isSome then false else tget th.marks r)
    ∧ ∀ p, u.preds.getLsbD p = ((ps.find? fun q => q.1 = p).map (·.2)).getD (th.preds.getLsbD p)

/-- Nothing has changed but the blocks and the record of the issue, no other block, and of the executing thread's block
nothing but the threads of a group. -/
def OnlyGroup (s t : State) (group : List Nat) : Prop :=
  t = { s with blocks := t.blocks, issue := t.issue }
    ∧ (∀ b, b ≠ s.cur.1 → t.blk b = s.blk b)
    ∧ t.myBlk = { s.myBlk with threads := t.myBlk.threads }
    ∧ ∀ k, k ∉ group → t.thr s.cur.1 k = s.thr s.cur.1 k

-- Crews, engines and launches

/-- The crew of an MGANG value stands assembled at the executing thread's instruction (R206): 128 different threads wait
there, each executing it (R58, R258), alike in FPCSR.RM, DAZ and FTZ and in MPROG, with no capture pending and no re-issued
instruction's passes outstanding (R296). -/
def State.assembled (s : State) (g : Mgang) (c : Ctl) (i : Instr) : Prop :=
  g.v = true ∧ g.threads.Nodup ∧ s.myBlk.drain = none ∧ (∀ r, s.myBlk.crew = some r → r.again = false) ∧ s.me.wait = some (.crew g.toWord)
    ∧ ∀ k ∈ g.threads, (s.thr s.cur.1 k).wait = some (.crew g.toWord) ∧ (s.thr s.cur.1 k).pc = s.me.pc
      ∧ (s.thr s.cur.1 k).fpcsr.rm = s.me.fpcsr.rm ∧ (s.thr s.cur.1 k).fpcsr.daz = s.me.fpcsr.daz
      ∧ (s.thr s.cur.1 k).fpcsr.ftz = s.me.fpcsr.ftz ∧ (s.thr s.cur.1 k).mprog = s.me.mprog
      ∧ ({ s with cur := (s.cur.1, k) } : State).executes c i = true

/-- Every thread of a crew has retired its crew instruction, changed by it as given (`after`, by crew thread number) and
gone on at the next word; no other thread and no other block has changed. -/
def CrewWent (s t : State) (g : Mgang) (after : Nat → Thread → Thread) : Prop :=
  t = { s with blocks := t.blocks, issue := t.issue } ∧ (∀ b, b ≠ s.cur.1 → t.blk b = s.blk b)
    ∧ (∀ k, k ∉ g.threads → t.thr s.cur.1 k = s.thr s.cur.1 k)
    ∧ ∀ i k, g.threads[i]? = some k →
        (after i (s.thr s.cur.1 k)).Moved (t.thr s.cur.1 k) ∧ (t.thr s.cur.1 k).pc = (s.thr s.cur.1 k).pc + 8
          ∧ (t.thr s.cur.1 k).issuable = true

/-- Of the cores nothing has changed but the L1 of the executing thread's, which holds its context's lines no more. -/
def L1Cleared (s t : State) : Prop :=
  ∀ k, (tget t.cores k).l1 = if k = coreKey s.myBlk.pkg s.myBlk.core then
    (tget s.cores k).l1.filter fun e => e.ctx ≠ s.myBlk.ctx else (tget s.cores k).l1

/-- The 8 bytes of each dword of a record as the executing thread reads them at a key, and whether any is poisoned. -/
def State.recordWords (s : State) (key n : Nat) : List Dword :=
  (List.range n).map fun j => BitVec.ofNat 64 (leNat ((List.range 8).map fun i =>
    (s.homeByte (.thread s.cur.1 s.cur.2) (key + 8 * j + i)).1))
def State.recordPoison (s : State) (key n : Nat) : Bool :=
  (List.range (8 * n)).any fun i => (s.homeByte (.thread s.cur.1 s.cur.2) (key + i)).2

/-- A record of n dwords at an address can be read by the executing thread now, at this key (R220, R237). -/
def State.recordReads (s x : State) (a n : Nat) (xl : Xl) : Prop :=
  let p := s.myBlk.pkg
  a % (8 * n) = 0 ∧ a < 2 ^ 56 ∧ s.tablesUp a ∧ s.xlate p (coreUnits s.myBlk.core) s.myBlk.ctx a true false = (x, .ok xl)
    ∧ s.barred p s.myBlk.ctx xl.pa false = false ∧ s.ownPending (.thread s.cur.1 s.cur.2) (s.physKey p xl.pa) (8 * n) = false

-- Events

/-- Nothing but one package has changed. -/
def OnlyPkg (s t : State) (p : Nat) : Prop := t = { s with pkgs := t.pkgs } ∧ ∀ q, q ≠ p → t.pkg q = s.pkg q

/-- Nothing but one block has changed. -/
def OnlyBlk (s t : State) (b : Nat) : Prop := t = { s with blocks := t.blocks } ∧ ∀ x, x ≠ b → t.blk x = s.blk x

/-- Nothing but one core has changed. -/
def OnlyCore (s t : State) (p c : Nat) : Prop :=
  t = { s with cores := t.cores } ∧ ∀ k, k ≠ coreKey p c → tget t.cores k = tget s.cores k

/-- Nothing but one context on one package has changed. -/
def OnlyCtx (s t : State) (p x : Nat) : Prop :=
  t = { s with ctxs := t.ctxs } ∧ ∀ k, k ≠ ctxKey p x → tget t.ctxs k = tget s.ctxs k

/-- Nothing but what one headgate and its standby hold has changed. -/
def OnlyHead (s t : State) (x : Nat) : Prop :=
  t = { s with heads := t.heads } ∧ ∀ y, y ≠ x → tget t.heads y = tget s.heads y

/-- The bytes given stand at a key and after it, and every other byte of memory is as it was. -/
def Stored (s t : State) (key : Nat) (bs : List (Byte × Bool)) : Prop :=
  (∀ i b, bs[i]? = some b → t.byteAt (key + i) = b)
    ∧ ∀ i, i < key ∨ key + bs.length ≤ i → t.byteAt i = s.byteAt i

/-- The bytes given stand at an offset of a private memory, and every other byte of it is as it was. -/
def Bytes.Stored (m n : Bytes) (off : Nat) (bs : List (Byte × Bool)) : Prop :=
  (∀ i b, bs[i]? = some b → n.at (off + i) = b) ∧ ∀ i, i < off ∨ off + bs.length ≤ i → n.at i = m.at i

/-- A granule of a command of a kind can be performed now: it is its turn, it reaches no peer, the pages of the granules
started before it and its own are resident, and the leases on what it writes have passed; `x` is the state after the
translations and the note of the cells that it adds to, which alone differ. -/
def State.granReady (s y x : State) (kind : EngKind) (g : Nat) (k : EngCmd) (xs : List (Piece × Xl)) : Prop :=
  s.cmd? k.id = some k ∧ k.kind = kind ∧ k.mayRun g = true ∧ k.waits = [] ∧ s.granRemote k g = false
    ∧ (∀ h ∈ k.toStart g, s.granRemote k h = false) ∧ s.startGrans k (k.toStart g) = (y, true)
    ∧ (∃ w, y.engCheck k (y.granPieces k g) = (w, .ok xs) ∧ x = w.noteCells k (writes xs))
    ∧ x.allWritable k g xs = true

/-- A granule has been written: its command lists it as delivered, with this code met, or, while a write of the command is on
its way to a die copy, as not yet performed, with this code to come; its barb, where it has one, has been told elsewhere. -/
def Delivered (t : State) (k : EngCmd) (g code : Nat) (addr : Option Nat) : Prop :=
  ∃ c, t.cmd? k.id = some c ∧
    (t.engPushes k.id = false → c.done = k.done ++ [g] ∧ c.flown = k.flown
      ∧ (code = 0 → c.code = k.code)
      ∧ (code ≠ 0 → k.code = 0 ∨ code < k.code → c.code = code ∧ c.badAddr = addr))
    ∧ (t.engPushes k.id = true → c.done = k.done ∧ c.code = k.code
      ∧ ∃ n, c.flown = k.flown ++ [⟨g, n, if code = 0 then [] else [(code, addr)]⟩])

/-- Why Root refuses a partition's record, with the remap table and the sluice word that would stand (R325, R382, R390): a reserved
field, a clash with another partition, an entry of a core that is not its own, a terrace whose entries do not agree, time
sharing without a shadow region, a shadow region that no region record covers, or a block that has not retired. -/
def State.partRefused (s : State) (p n : Nat) (r : List Dword) (map_ : Tab Word) (remap : List (Nat × Word)) (sl : Dword) :
    Prop :=
  let q : Partition := ⟨r, (tget (s.pkg p).parts n).sched, sluiceWord sl⟩
  partRz r = true ∨ (∃ o ∈ (s.pkg p).parts, o.1 ≠ n ∧ partClash o.2.record r = true)
    ∨ (∃ e ∈ remap, q.basin (e.1 / 4) = false) ∨ (∃ i, i < 48 ∧ remapBad map_ i = true)
    ∨ (q.shsz = 0 ∧ ∃ c, c < 384 ∧ q.basin (c / 4) = true ∧ remapEn (tget map_ c) = true ∧ remapGrp (tget map_ c) ≠ 0)
    ∨ s.shadowOk p n q = false ∨ ∃ o ∈ s.blocks, o.2.place ≠ .retired ∧ o.2.pkg = p ∧ (s.pctx p o.2.ctx).part = n

/-- A context has ended early (R399): on each of its packages it lives no more and every block of it has retired. -/
def Ended (s t : State) (p x : Nat) : Prop :=
  ∀ q ∈ s.ctxPkgs p x, (t.pctx q x).live = false
    ∧ ∀ b ∈ t.blocks, b.2.pkg = q → b.2.ctx = x → b.2.place = .retired

/-- What a thread's own program has put in it is as it was: registers, predicates, handles, PC, FPCSR and MSTATE. -/
def Thread.Kept (th u : Thread) : Prop :=
  u.regs = th.regs ∧ u.marks = th.marks ∧ u.preds = th.preds ∧ u.handles = th.handles ∧ u.pc = th.pc ∧ u.fpcsr = th.fpcsr
    ∧ u.ms = th.ms

end Sys2Proof.Machine
end

