-- ==== Sys2Proof/Certificates/Slice0/Obligations.lean ====
section
/-! DEFINITION. The statements for the provers. Each says in its docstring the rule or section of spec/ it formalises;
`Completes` and `Retired` (Sys2Proof/Safety.lean) carry the result of an instruction together with its frame. -/

open Sys2Proof Sys2Proof.Machine

-- Encoding

/-- Decoding the word of a well-formed instruction gives the instruction back, for every instruction and every operand
that its encoding admits (R44-R52, R68-R84). -/
def Obligations.DecodeEncode : Prop :=
  ∀ i : Instr, i.wellFormed = true → decode (encode i) = .ok i

/-- A word that the decoder accepts gives a well-formed instruction (R84 checks 5, 6 and 8): reserved codes, register fields of
249 to 255 and registers out of alignment never reach a meaning. R45: opcode 0x000 is refused as an illegal instruction,
and so is every word with a nonzero value in bits [49:48]. -/
def Obligations.DecodedIsWellFormed : Prop :=
  (∀ (w : Dword) (i : Instr), decode w = .ok i → i.wellFormed = true)
    ∧ (∀ w : Dword, w.extractLsb' 54 10 = 0#10 → decode w = .error (1, 1))
      ∧ ∀ w : Dword, w.extractLsb' 48 2 ≠ 0#2 → ∃ k, decode w = .error (1, k)

/-- Words that the spec writes out decode to the instructions it gives them (the examples of spec/02, 03, 04, 06, 07 and
08). -/
def Obligations.PrintedWordsDecode : Prop :=
  decodeTableWord 64 0x0044A040405F8000 = some (.iadd ⟨1, true, 2⟩ 4 4 5 .i32 false)
    ∧ decodeTableWord 64 0x40407F883FFFFFF8 = some (.bra ⟨0, false, 7⟩ true 3 0xFFFFFF8#28)
    ∧ decodeTableWord 64 0xC0007F8F803FF900 = some (.waitcnt ⟨0, false, 7⟩ 0 63 31 .die)
    ∧ decodeTableWord 64 0xA5C07080AF810040 = some (.ldAcq ⟨0, false, 7⟩ 8 ⟨10, .gDie, 0x40⟩ .b64)
    ∧ decodeTableWord 64 0x6208B010203F820A = some (.fcmp ⟨2, true, 3⟩ 1 2 3 .lt .f32)
    ∧ decodeTableWord 64 0xB7C0706020430008 = some (.atomAddF32 ⟨0, false, 7⟩ 6 ⟨2, .gPod, 8⟩ 4 true)
    ∧ decodeTableWord 64 0xE0C07F802032860D = some (.mma ⟨0, false, 7⟩ 2 3 40 .bf16)

-- The step

/-- A step runs the decoded instruction (R61, R247): where the next member of the issuing warps stands at its warp's PC and
can issue, no fault of a poisoned pass waits for it, a registered object covers its PC and does not mark it as data, the PC translates, and the eight unpoisoned
bytes there decode to i, a step is exec of i, and then the end of that member's turn. Of warps that issue in one cycle the
members execute in ascending tid, those that write a block register last (R28, R188). The fault of a poisoned pass that
waits for the member is taken instead (R213). With no member left the issue ends; where no warp issues, the next event
takes place. (Which event that is, and of warps on different cores the order in which members of one tid execute, are the model's choices,
logs 3 and 21.) -/
def Obligations.StepRunsDecoded : Prop :=
  (∀ (s m x : State) (o : CodeObj) (xl : Xl) (i : Instr),
      s.ticked.fronted.takeMember = some m → m.takesPart = true →
      m.panelFault = none → m.objAt m.myBlk.pkg m.myBlk.ctx m.me.pc.toNat = some o → o.isData m.me.pc.toNat = false →
      m.tablesUp m.me.pc.toNat → m.xlate m.myBlk.pkg (coreUnits m.myBlk.core) m.myBlk.ctx m.me.pc.toNat true false = (x, .ok xl) →
      (x.readHome xl.pkg m.myBlk.ctx xl.pa 8).any (·.2) = false →
      decode (BitVec.ofNat 64 (leNat ((x.readHome xl.pkg m.myBlk.ctx xl.pa 8).map (·.1)))) = .ok i →
      step s = match exec i x with
        | .next t => .next t.settle
        | o => o)
    ∧ (∀ (s m : State) (a : VAddr), s.ticked.fronted.takeMember = some m → m.takesPart = true → m.me.ms.h = false →
        m.me.panelStop = some a → ∃ t : State, step s = .next t.settle
          ∧ TookFault (m.modMe fun th => { th with panelStop := none }) t 0x0F (tcauseWord 1 (some a.toNat)) m.me.pc)
    ∧ (∀ (s : State) (w : IssueWarp) (r : List IssueWarp), s.fronted.issue = w :: r →
        w ∈ s.issue ∧ r.length + 1 = s.issue.length ∧ (∀ v ∈ s.issue, w.order ≤ v.order)
        ∧ (w.todo = [] → step s = .next s.ticked.fronted.endIssue))
    ∧ ∀ s : State, s.issue = [] → s.ticked.nextTurn.2.isEvent = true →
        step s = exec s.ticked.nextTurn.2 s.ticked.nextTurn.1

/-- Every step keeps physical memory in its canonical form: addresses strictly rising, and no entry that equals what an
unlisted address reads as. -/
def Obligations.StepKeepsMemoryCanonical : Prop :=
  ∀ s t : State, s.memOk = true → step s = .next t → t.memOk = true

/-- Every step keeps each die copy, and each write on its way to one, the 32 bytes of a sector (R355, R363, R364); and it
keeps the blocks each under a number of its own, the numbers rising. -/
def Obligations.StepKeepsDieCopiesAndBlocks : Prop :=
  ∀ s t : State, step s = .next t → (s.copiesOk = true → t.copiesOk = true) ∧ (s.blocksOk = true → t.blocksOk = true)

/-- What the spec gives for reset: nothing runs and no context lives; each partition's scheduling and sluice words hold
their reset values (R326, R390); the power word reads PL 4,600, GDUTY 63 and DUTY 63 (R410); no core holds a cached line;
boot has not begun (R407). Memory is then in its canonical form with nothing listed (that an unlisted byte reads as 0 is
the model's choice, log 2), and no die holds a copy. -/
def Obligations.ResetValues : Prop :=
  State.reset.issue = [] ∧ State.reset.blocks = [] ∧ State.reset.ctxs = [] ∧ State.reset.cores = []
    ∧ (∀ p, p < 8 → (tget (State.reset.pkg 0).parts p).sched = 0x000000C803E80080#64)
    ∧ (∀ p, p < 8 → (tget (State.reset.pkg 0).parts p).sluice = 0x00000000000003E8#64)
    ∧ (State.reset.pkg 0).power.pl = 4600 ∧ (State.reset.pkg 0).power.gduty = 63 ∧ (State.reset.pkg 0).power.duty = 63
    ∧ (State.reset.pkg 0).boot.ready = false ∧ (State.reset.pkg 0).boot.stage = 0
    ∧ State.reset.memOk = true ∧ State.reset.copiesOk = true
    ∧ State.reset.blocksOk = true ∧ ∀ k, State.reset.byteAt k = (0, false)

-- Integer arithmetic (classes 0 and 1)

/-- The integer rows of R89, by the helpers of R87: the destination takes the exact sum, difference, product, high half of the
product, multiply-add, minimum, maximum, absolute value or negation, clamped to the type's range under .sat and otherwise
wrapped, a pair low word first; vz takes nothing; nothing else changes. R90 and R103: imadw puts the exact product plus the
64-bit addend, modulo 2^64, in a pair; lea puts the base plus the index shifted left, modulo 2^64, in a pair. -/
def Obligations.IntegerArithmetic : Prop :=
  (∀ (s : State) (c : Ctl) (d a b x : RegF) (ty : Ty) (sat : Bool),
      let w := tyWidth ty
      let A := s.val ty a
      let B := s.val ty b
      let C := s.val ty x
      let fit (r : Int) : List (Nat × Word) :=
        dstWords d (tyWords ty (wrap w (if sat then clampInt (tySigned ty) w r else r)))
      let low (r : Int) : List (Nat × Word) := dstWords d (tyWords ty (wrap w r))
      Completes s (.iadd c d a b ty sat) c (fit (A + B)) [] 0
        ∧ Completes s (.isub c d a b ty sat) c (fit (A - B)) [] 0
        ∧ Completes s (.imul c d a b ty) c (low (A * B)) [] 0
        ∧ Completes s (.imulh c d a b ty) c (low (A * B / 2 ^ w)) [] 0
        ∧ Completes s (.imad c d a b x ty sat) c (fit (A * B + C)) [] 0
        ∧ Completes s (.imin c d a b ty) c (low (min A B)) [] 0
        ∧ Completes s (.imax c d a b ty) c (low (max A B)) [] 0
        ∧ Completes s (.iabs c d a ty sat) c (fit (A.natAbs : Int)) [] 0
        ∧ Completes s (.ineg c d a ty sat) c (fit (-A)) [] 0)
    ∧ ∀ (s : State) (c : Ctl) (d a b x : RegF) (sh : BitVec 4) (ty : Ty),
      Completes s (.imadw c d a b x ty) c
          (dstWords d (halves (BitVec.ofInt 64 (s.val ty a * s.val ty b + ((s.rd64 x).toNat : Int))))) [] 0
        ∧ Completes s (.lea c d a b sh ty) c
          (dstWords d (halves (BitVec.ofInt 64 (((s.rd64 a).toNat : Int) + s.val ty b * 2 ^ sh.toNat)))) [] 0

/-- R91-R94: the shifts by the whole count in B, where a count of the width or more gives 0, or for sar all sign bits; the
funnels; and the bitwise rows, each bit of lop3's result being the bit of LUT numbered by A's bit (weight 1), B's bit
(weight 2) and C's bit (weight 4). -/
def Obligations.ShiftsAndLogic : Prop :=
  ∀ (s : State) (c : Ctl) (d a b x : RegF) (ty : Ty) (lut : BitVec 8),
    let w := tyWidth ty
    let n := (s.rd b).toNat
    let k := min (s.rd x).toNat 32
    let v := (s.rd a).toNat * 2 ^ 32 + (s.rd b).toNat
    let put (r : Nat) : List (Nat × Word) := dstWords d (tyWords ty r)
    Completes s (.shl c d a b ty) c (put (if n < w then s.rdN ty a * 2 ^ n else 0)) [] 0
      ∧ Completes s (.shr c d a b ty) c (put (if n < w then s.rdN ty a / 2 ^ n else 0)) [] 0
      ∧ Completes s (.sar c d a b ty) c
        (put (wrap w (if n < w then s.val ty a / 2 ^ n else if s.val ty a < 0 then -1 else 0))) [] 0
      ∧ Completes s (.fshL c d a b x) c (dstWords d [BitVec.ofNat 32 (v * 2 ^ k / 2 ^ 32)]) [] 0
      ∧ Completes s (.fshR c d a b x) c (dstWords d [BitVec.ofNat 32 (v / 2 ^ k)]) [] 0
      ∧ Completes s (.andB c d a b ty) c (put (s.rdN ty a &&& s.rdN ty b)) [] 0
      ∧ Completes s (.orB c d a b ty) c (put (s.rdN ty a ||| s.rdN ty b)) [] 0
      ∧ Completes s (.xorB c d a b ty) c (put (s.rdN ty a ^^^ s.rdN ty b)) [] 0
      ∧ Completes s (.notB c d a ty) c (put (2 ^ w - 1 - s.rdN ty a)) [] 0
      ∧ ∀ r : Word, (∀ i, i < 32 → r.getLsbD i = lut.getLsbD (((s.rd a).getLsbD i).toNat
            + 2 * ((s.rd b).getLsbD i).toNat + 4 * ((s.rd x).getLsbD i).toNat)) →
          Completes s (.lop3 c d a b x lut) c (dstWords d [r]) [] 0

/-- R95: bfx and bfi take a position and a length from the control word's two low bytes, clamped to the word. R96: the number of
one bits, the number of zero bits above the highest one bit, the bits in reverse, and the index of the lowest one bit. -/
def Obligations.BitFieldsAndCounts : Prop :=
  (∀ (s : State) (c : Ctl) (d a b x : RegF) (ty : Ty) (pos len : Nat),
      (∀ ctl : Word, pos = min (ctl.toNat % 256) 32 → len = min (ctl.toNat / 256 % 256) (32 - pos) →
        (s.rd b = ctl →
          let part := (s.rd a).toNat / 2 ^ pos % 2 ^ len
          Completes s (.bfx c d a b ty) c
            (dstWords d [BitVec.ofInt 32 (if len = 0 then 0 else if ty = .i32 then sval len part else (part : Int))]) [] 0)
        ∧ (s.rd x = ctl → ∀ r : Word,
          (∀ i, i < 32 → r.getLsbD i =
            if pos ≤ i ∧ i < pos + len then (s.rd a).getLsbD (i - pos) else (s.rd b).getLsbD i) →
          Completes s (.bfi c d a b x) c (dstWords d [r]) [] 0)))
    ∧ ∀ (s : State) (c : Ctl) (d a : RegF) (ty : Ty),
      let w := tyWidth ty
      let n := s.rdN ty a
      Completes s (.popc c d a ty) c (dstWords d [BitVec.ofNat 32 ((List.range w).filter fun i => n.testBit i).length]) [] 0
        ∧ (n = 0 → Completes s (.clz c d a ty) c (dstWords d [BitVec.ofNat 32 w]) [] 0)
        ∧ (∀ i, n.testBit i = true → (∀ j, i < j → n.testBit j = false) →
          Completes s (.clz c d a ty) c (dstWords d [BitVec.ofNat 32 (w - 1 - i)]) [] 0)
        ∧ Completes s (.brev c d a ty) c
          (dstWords d (tyWords ty ((List.range w).map fun k => (n.testBit k).toNat * 2 ^ (w - 1 - k)).sum)) [] 0
        ∧ (n = 0 → Completes s (.ffs c d a ty) c (dstWords d [0xFFFFFFFF#32]) [] 0)
        ∧ (∀ i, n.testBit i = true → (∀ j, j < i → n.testBit j = false) →
          Completes s (.ffs c d a ty) c (dstWords d [BitVec.ofNat 32 i]) [] 0)

/-- R97-R101: compare to a predicate, select by one, the predicate table, and the moves. -/
def Obligations.CompareSelectMove : Prop :=
  ∀ (s : State) (c : Ctl) (d a b : RegF) (p pa pb px : PredF) (cc : Cond) (ty : Ty) (lut : BitVec 8) (imm : BitVec 28)
    (imm16 : BitVec 16),
    Completes s (.icmp c p a b cc ty) c [] ((onep p).map fun k => (k, intCmp cc (s.val ty a) (s.val ty b))) 0
      ∧ Completes s (.isel c d a b p ty) c (dstWords d (tyWords ty (if s.rdPred p then s.rdN ty a else s.rdN ty b))) [] 0
      ∧ Completes s (.plop c p pa pb px lut) c []
        ((onep p).map fun k =>
          (k, lut.getLsbD ((s.rdPred pa).toNat + 2 * (s.rdPred pb).toNat + 4 * (s.rdPred px).toNat))) 0
      ∧ Completes s (.mov c d a ty) c (dstWords d (tyWords ty (s.rdN ty a))) [] 0
      ∧ Completes s (.movi c d imm) c (dstWords d [imm.signExtend 32]) [] 0
      ∧ Completes s (.movh c d a imm16) c (dstWords d [imm16 ++ (s.rd a).truncate 16]) [] 0

-- Control flow, exceptions and the system registers (class 2)

/-- R387, R341: outside handler mode a fault writes TFRAME0 and TCAUSE, sets H and sends the thread to TVEC; registers,
predicates, handles, FPCSR and every other thread stay; the event is counted in the thread's grid. R39, R40: the fields of a
frame and of TCAUSE. -/
def Obligations.ExceptionEntry : Prop :=
  (∀ (s : State) (cause sub : Nat) (addr : Option Nat), s.me.ms.h = false →
      TookFault s (s.faultMe cause sub addr) cause (tcauseWord sub addr) s.me.pc
        ∧ ∀ g, s.findGrid s.myBlk.pkg s.myBlk.ctx s.myBlk.grid = some g →
            ∃ g', g' ∈ ((s.faultMe cause sub addr).pkg s.myBlk.pkg).grids ∧ g'.acc = g.acc ∧ g'.faults = g.faults + 1)
    ∧ ∀ (cause sub a : Nat) (pc : VAddr) (hf : Bool), cause < 256 → sub < 64 →
      let f := frameWord cause pc hf
      let t := tcauseWord sub (some a)
      let u := tcauseWord sub none
      f.getLsbD 63 = true ∧ f.extractLsb' 55 8 = BitVec.ofNat 8 cause ∧ f.extractLsb' 1 54 = pc.extractLsb' 3 54
        ∧ f.getLsbD 0 = hf
        ∧ t.getLsbD 63 = true ∧ t.extractLsb' 57 6 = BitVec.ofNat 6 sub ∧ t.extractLsb' 0 57 = BitVec.ofNat 57 a
        ∧ u.getLsbD 63 = false ∧ u.extractLsb' 57 6 = BitVec.ofNat 6 sub ∧ u.extractLsb' 0 57 = 0#57

/-- R388, R399: a fault in handler mode writes TFRAME1 and TCAUSE, leaves TFRAME0, and ends the context: on every package
of the context it no longer lives and every block of it has retired. -/
def Obligations.DoubleFaultEndsContext : Prop :=
  ∀ (s : State) (cause sub : Nat) (addr : Option Nat) (p : Nat), s.me.ms.h = true →
    p ∈ s.ctxPkgs s.myBlk.pkg s.myBlk.ctx →
    let t := s.faultMe cause sub addr
    t.me.tframe1 = frameWord cause s.me.pc true ∧ t.me.tcause = tcauseWord sub addr ∧ t.me.tframe0 = s.me.tframe0
      ∧ (t.pctx p s.myBlk.ctx).live = false
      ∧ ∀ b ∈ t.blocks, b.2.pkg = p → b.2.ctx = s.myBlk.ctx → b.2.place = .retired

/-- R115, R116, R55: trap takes cause 0x14 with the address after itself in the frame, and its STALL counts for the handler, bkpt cause 0x15 with its own, each with
its code as TCAUSE's address and AV = 0; reth outside handler mode is a privilege fault; in handler mode with a valid
frame it goes to the frame's PC, clears H and the frame's V, and changes nothing else. In handler mode trap, bkpt and a reth
without a valid frame (cause 0x10, SUB 5) are double faults. -/
def Obligations.TrapsAndReturn : Prop :=
  ∀ (s : State) (c : Ctl) (code : BitVec 8),
    (s.executes c (.trap c code) = true → s.me.ms.h = false →
      ∃ t, exec (.trap c code) s = .next t
        ∧ TookFault (s.modMe fun th => { th with stallUntil := s.lastCycle + 1 + c.stall.toNat }) t 0x14 (code.zeroExtend 64)
            (s.me.pc + 8))
    ∧ (s.executes c (.bkpt c code) = true → s.me.ms.h = false →
      ∃ t, exec (.bkpt c code) s = .next t ∧ TookFault s t 0x15 (code.zeroExtend 64) s.me.pc)
    ∧ (s.executes c (.reth c) = true → s.me.ms.h = false →
      ∃ t, exec (.reth c) s = .next t ∧ TookFault s t 0x13 0 s.me.pc)
    ∧ (s.executes c (.reth c) = true → s.me.ms.h = true → s.me.tframe0.getLsbD 63 = true →
      ∃ t, exec (.reth c) s = .next t ∧ OnlyMe s t
        ∧ Went { s.me with ms := { s.me.ms with h := false }, tframe0 := s.me.tframe0 &&& 0x7FFFFFFFFFFFFFFF#64 } t
            (s.me.tframe0.extractLsb' 1 54 ++ 0#3))
    ∧ ∀ (i : Instr) (cause : Nat) (pc : VAddr) (tc : Dword),
        (i = .trap c code ∧ cause = 0x14 ∧ pc = s.me.pc + 8 ∧ tc = code.zeroExtend 64)
          ∨ (i = .bkpt c code ∧ cause = 0x15 ∧ pc = s.me.pc ∧ tc = code.zeroExtend 64)
          ∨ (i = .reth c ∧ cause = 0x10 ∧ pc = s.me.pc ∧ tc = tcauseWord 5 none ∧ s.me.tframe0.getLsbD 63 = false) →
        s.executes c i = true → s.me.ms.h = true →
        ∃ t, exec i s = .next t ∧ t.me.tframe1 = frameWord cause pc true ∧ t.me.tcause = tc ∧ t.me.tframe0 = s.me.tframe0
          ∧ ∀ p ∈ s.ctxPkgs s.myBlk.pkg s.myBlk.ctx, (t.pctx p s.myBlk.ctx).live = false

/-- R376: translating an address changes nothing but what the TLBs hold. R374, R375: a walk that finds a leaf gives a page of
4 KiB, 64 KiB, 2 MiB or 1 GiB that holds the address, with base and physical address aligned to its size. -/
def Obligations.Translation : Prop :=
  (∀ (s : State) (p x va : Nat) (units : List Nat) (rd wr : Bool), OnlyTlb s (s.xlate p units x va rd wr).1)
    ∧ ∀ (s : State) (p x va : Nat) (l : Leaf), s.walk p x va = .ok l →
      (l.size = 4096 ∨ l.size = 65536 ∨ l.size = 0x200000 ∨ l.size = 0x40000000)
        ∧ l.base ≤ va ∧ va < l.base + l.size ∧ l.base % l.size = 0 ∧ l.pa % l.size = 0

/-- R102: where the bytes at PC + 4 * IMM lie in data-marked slots of the object that holds the ldlit, and are aligned and
readable, the destination takes them, and nothing else changes but the TLBs and, where the range is cut off or refused, the
count of the event in the grid; a byte outside such slots is a literal fault with SUB 1, and an address out of alignment one
with SUB 2. (That poisoned bytes give their values as they stand is the model's choice, log 53.) -/
def Obligations.LiteralLoads : Prop :=
  ∀ (s x : State) (c : Ctl) (d : RegF) (imm : BitVec 28) (xl : Xl),
    let la := (BitVec.ofInt 57 (s.me.pc.toNat + 4 * imm.toInt)).toNat
    let pool (n : Nat) : Bool := (s.objAt s.myBlk.pkg s.myBlk.ctx s.me.pc.toNat).any fun o =>
      (List.range n).all fun i => o.covers (la + i) && o.isData (la + i)
    let reads : Prop := s.tablesUp la ∧ s.xlate s.myBlk.pkg (coreUnits s.myBlk.core) s.myBlk.ctx la true false = (x, .ok xl)
    let value (n : Nat) : Nat := leNat ((x.readHome xl.pkg s.myBlk.ctx xl.pa n).map (·.1))
    let y := x.countCut s.cur.1 s.cur.2 la xl.pkg xl.pa false
    let i32 : Instr := .ldlit32 c d imm
    let i64 : Instr := .ldlit64 c d imm
    (i32.wellFormed = true → s.executes c i32 = true → pool 4 = true → la % 4 = 0 → reads →
      ∃ t, exec i32 s = .next t ∧ Retired y t (dstWords d [BitVec.ofNat 32 (value 4)]) [] 0)
    ∧ (i64.wellFormed = true → s.executes c i64 = true → pool 8 = true → la % 8 = 0 → reads →
      ∃ t, exec i64 s = .next t ∧ Retired y t (dstWords d (halves (BitVec.ofNat 64 (value 8)))) [] 0)
    ∧ (s.executes c i32 = true → pool 4 = false → s.me.ms.h = false →
      ∃ t, exec i32 s = .next t ∧ TookFault s t 0x09 (tcauseWord 1 (some la)) s.me.pc)
    ∧ (s.executes c i64 = true → pool 8 = false → s.me.ms.h = false →
      ∃ t, exec i64 s = .next t ∧ TookFault s t 0x09 (tcauseWord 1 (some la)) s.me.pc)
    ∧ ∀ i n, (i = i32 ∧ n = 4) ∨ (i = i64 ∧ n = 8) → s.executes c i = true → pool n = true → la % n ≠ 0 → s.me.ms.h = false →
      ∃ t, exec i s = .next t ∧ TookFault s t 0x09 (tcauseWord 2 (some la)) s.me.pc

/-- R117, R118, R20: shapeq writes the code of the register's tag, 0 for vz; reshape of a register sets its tag from the
32 stored values of the furrow, where no result is on its way to them, and moves on, changing no value and no other tag; reshape of vz only moves on. A tag computed from 32 values
is right for each of them. -/
def Obligations.ShapeTags : Prop :=
  ∀ (s : State) (c : Ctl) (d a : RegF),
    let f := s.cur.2 / 32
    (s.myBlk.detcfg.getLsbD 2 = false →
      Completes s (.shapeq c d a) c (dstWords d [if a = 248#8 then 0 else
        match tget s.myBlk.tags (f * 256 + a.toNat) with
        | .uniform _ => 0
        | .affine _ _ => 1
        | .general => 2]) [] 0)
    ∧ Completes s (.reshape c 248#8) c [] [] 0
    ∧ (a ≠ 248#8 → s.executes c (.reshape c a) = true →
      ∃ t, exec (.reshape c a) s = .next t ∧ OnlyMine s t
        ∧ Went s.me t (s.me.pc + 8)
        ∧ t.myBlk = { s.myBlk with threads := t.myBlk.threads, tags := t.myBlk.tags }
        ∧ ((∀ i, i < 32 → (s.thr s.cur.1 (f * 32 + i)).unready a.toNat s.nowCycle = []) →
            tget t.myBlk.tags (f * 256 + a.toNat) =
              shapeOf ((List.range 32).map fun i => tget (s.thr s.cur.1 (f * 32 + i)).regs a.toNat))
        ∧ ∀ k, k ≠ f * 256 + a.toNat → tget t.myBlk.tags k = tget s.myBlk.tags k)
    ∧ ∀ (vs : List Word) (i : Nat) (w : Word), vs.length = 32 → i < 32 →
        (shapeOf vs).value i = some w → vs.getD i 0 = w

/-- R107, R110, R51: nop and pad only move on; bra goes to PC + 8 * IMM modulo 2^57, or predicated off to the next word, and
in either case with ARM sets the thread's bit in the slot and no other. -/
def Obligations.Branches : Prop :=
  ∀ (s : State) (c : Ctl) (arm : Bool) (slot : BitVec 4) (imm : BitVec 28) (label : BitVec 16),
    Completes s (.nop c) c [] [] 0
      ∧ Completes s (.pad c label) c [] [] 0
      ∧ ∀ pc : VAddr, (s.executes c (.bra c arm slot imm) = true ∧ pc = BitVec.ofInt 57 (s.me.pc.toNat + 8 * imm.toInt))
          ∨ (s.skips c (.bra c arm slot imm) = true ∧ pc = s.me.pc + 8) → s.cur.2 < 1024 →
        ∃ t, exec (.bra c arm slot imm) s = .next t ∧ OnlyMine s t ∧ Went s.me t pc
          ∧ t.myBlk = { s.myBlk with threads := t.myBlk.threads, joins := t.myBlk.joins }
          ∧ ∀ n k, (tget t.myBlk.joins n).getLsbD k =
              if arm = true ∧ n = slot.toNat ∧ k = s.cur.2 then true else (tget s.myBlk.joins n).getLsbD k

/-- R53: of an instruction that a thread executes on its own, a member whose guard is false writes nothing, raises nothing
and goes on at the next word. -/
def Obligations.PredicatedOffMovesOn : Prop :=
  ∀ (s : State) (i : Instr) (c : Ctl), aloneGuard i = some c → s.skips c i = true →
    ∃ t, exec i s = .next t ∧ Retired s t [] [] 0

/-- R14, R109: call stores the address after itself below %sp and lowers %sp by 8; ret takes the dword at %sp, raises %sp
by 8 and goes there; a push below offset 0 and a pop above the allocation are local-space faults with SUB 1 and 2. A core
that has lost its time view holds them (R367), and so is none here. -/
def Obligations.CallAndReturn : Prop :=
  ∀ (s : State) (c : Ctl) (imm : BitVec 28),
    let sp := s.me.sp.toNat
    s.blind = false →
    (s.executes c (.call c imm) = true → 8 ≤ sp → sp ≤ recLocal s.myBlk.record →
      ∃ t, exec (.call c imm) s = .next t ∧ OnlyMe s t
        ∧ Went { s.me with sp := s.me.sp - 8, loc := t.me.loc } t (BitVec.ofInt 57 (s.me.pc.toNat + 8 * imm.toInt))
        ∧ t.me.loc.num (sp - 8) 8 = (s.me.pc + 8).toNat
        ∧ ∀ a, a < sp - 8 ∨ sp ≤ a → t.me.loc.at a = s.me.loc.at a)
    ∧ (s.executes c (.call c imm) = true → sp < 8 → s.me.ms.h = false →
      ∃ t, exec (.call c imm) s = .next t ∧ TookFault s t 0x08 (tcauseWord 1 none) s.me.pc)
    ∧ (∀ ra : VAddr, s.executes c (.ret c) = true → sp + 8 ≤ recLocal s.myBlk.record →
      s.me.loc.num sp 8 = ra.toNat → ra.toNat % 8 = 0 →
      ∃ t, exec (.ret c) s = .next t ∧ OnlyMe s t ∧ Went { s.me with sp := s.me.sp + 8 } t ra)
    ∧ (s.executes c (.ret c) = true → recLocal s.myBlk.record < sp + 8 → s.me.ms.h = false →
      ∃ t, exec (.ret c) s = .next t ∧ TookFault s t 0x08 (tcauseWord 2 none) s.me.pc)

/-- R63, R108, R109: a jump through a table in data-marked slots: the header's count bounds the index, an index out of
bounds takes entry 0, the entry is an offset in dwords from the table, and the target must be a pad with the table's
label; callx also pushes the address after itself. A member predicated off only moves on (R53); where the table is not marked
as data it takes the landing-pad fault SUB 2 all the same (R54), as one that executes does. (That poisoned bytes of header, entry
and target are taken as they stand is the model's choice, log 53; so is it that a member predicated off walks the table as the
others do, log 22.) -/
def Obligations.JumpTables : Prop :=
  ∀ (s s1 s2 s3 : State) (c k : Ctl) (a : RegF) (imm : BitVec 28) (x1 x2 x3 : Xl) (label : BitVec 16),
    let p := s.myBlk.pkg
    let x := s.myBlk.ctx
    let us := coreUnits s.myBlk.core
    let tab : VAddr := BitVec.ofInt 57 (s.me.pc.toNat + 8 * imm.toInt)
    let h := s1.read64 x1.pkg x1.pa
    let n := (h.extractLsb' 0 32).toNat
    let ent : VAddr := tab + BitVec.ofNat 57 (8 + 4 * if (s.rd a).toNat < n then (s.rd a).toNat else 0)
    let off : Word := BitVec.ofNat 32 (leNat ((s2.physRead x2.pkg x2.pa 4).map (·.1)))
    let tgt : VAddr := tab + off.signExtend 57 * 8
    s.dataMarked p x tab.toNat = true → s.tablesUp tab.toNat → s.xlate p us x tab.toNat true false = (s1, .ok x1) →
    h.extractLsb' 32 16 = 0#16 → 0 < n → n ≤ 2 ^ 20 → h.extractLsb' 48 16 = label →
    s.dataMarked p x ent.toNat = true → s1.tablesUp ent.toNat → s1.xlate p us x ent.toNat true false = (s2, .ok x2) →
    s.dataMarked p x tgt.toNat = false → s2.tablesUp tgt.toNat → s2.xlate p us x tgt.toNat true false = (s3, .ok x3) →
    decode (s3.read64 x3.pkg x3.pa) = .ok (.pad k label) →
    s1.barred x1.pkg x x1.pa false = false → s2.barred x2.pkg x x2.pa false = false → s3.barred x3.pkg x x3.pa false = false →
    (∀ i ∈ [Instr.brx c a imm, .callx c a imm], s.skips c i = true → ∃ t, exec i s = .next t ∧ OnlyTlb s s3 ∧ Retired s3 t [] [] 0)
    ∧ (s.executes c (.brx c a imm) = true →
      ∃ t, exec (.brx c a imm) s = .next t ∧ OnlyTlb s s3 ∧ OnlyMe s3 t ∧ Went s.me t tgt)
    ∧ (s.executes c (.callx c a imm) = true → s.blind = false → 8 ≤ s.me.sp.toNat → s.me.sp.toNat ≤ recLocal s.myBlk.record →
      ∃ t, exec (.callx c a imm) s = .next t ∧ OnlyTlb s s3 ∧ OnlyMe s3 t
        ∧ Went { s.me with sp := s.me.sp - 8, loc := t.me.loc } t tgt
        ∧ t.me.loc.num (s.me.sp.toNat - 8) 8 = (s.me.pc + 8).toNat
        ∧ ∀ b, b < s.me.sp.toNat - 8 ∨ s.me.sp.toNat ≤ b → t.me.loc.at b = s.me.loc.at b)
    ∧ ∀ v : State, v.me.ms.h = false → v.dataMarked v.myBlk.pkg v.myBlk.ctx (branchTarget v.me.pc imm).toNat = false →
      ∀ i ∈ [Instr.brx c a imm, .callx c a imm], v.skips c i = true ∨ v.executes c i = true ∧ v.blind = false →
        ∃ t, exec i v = .next t ∧ TookFault v t 0x04 (tcauseWord 2 (some (branchTarget v.me.pc imm).toNat)) v.me.pc

/-- R111: with HOLD = 0, or its bit clear, a thread clears its bit in the slot and goes on; otherwise it waits there, until
16 * HOLD cycles on, while an armed thread that has neither exited nor arrived is missing. Once none is missing, the last to
arrive and every waiter clear their bits and go on at the next word, where they can issue; no other thread and no other slot
changes. -/
def Obligations.Join : Prop :=
  ∀ (s : State) (c : Ctl) (slot : BitVec 4),
    let n := slot.toNat
    let m := tget s.myBlk.joins n
    let ws := s.myBlk.joinWaiters n
    let missing : Prop := ∃ k, k < s.myBlk.nthr ∧ k ≠ s.cur.2 ∧ m.getLsbD k = true ∧ (s.thr s.cur.1 k).st ≠ .exited ∧ k ∉ ws
    let frame (t : State) : Prop := t = { s with blocks := t.blocks, issue := t.issue }
      ∧ (∀ b, b ≠ s.cur.1 → t.blk b = s.blk b) ∧ (∀ k, k ≠ s.cur.2 → k ∉ ws → t.thr s.cur.1 k = s.thr s.cur.1 k)
      ∧ t.myBlk = { s.myBlk with threads := t.myBlk.threads, joins := t.myBlk.joins }
      ∧ ∀ j, j ≠ n → tget t.myBlk.joins j = tget s.myBlk.joins j
    let freed (t : State) : Prop := ∀ k ∈ ws,
      (t.thr s.cur.1 k).issuable = true ∧ (k < 1024 → (tget t.myBlk.joins n).getLsbD k = false)
        ∧ (ws.Nodup → (s.thr s.cur.1 k).Moved (t.thr s.cur.1 k) ∧ (t.thr s.cur.1 k).pc = (s.thr s.cur.1 k).pc + 8)
    s.executes c (.join c slot) = true → s.cur.2 < 1024 → s.cur.2 ∉ ws →
    (s.myBlk.hold = 0#16 ∨ m.getLsbD s.cur.2 = false →
      ∃ t, exec (.join c slot) s = .next t ∧ frame t ∧ Went s.me t (s.me.pc + 8) ∧ (tget t.myBlk.joins n).getLsbD s.cur.2 = false
        ∧ (ws = [] ∨ missing → OnlyMine s t
          ∧ ∀ j k, (tget t.myBlk.joins j).getLsbD k =
              if j = n ∧ k = s.cur.2 then false else (tget s.myBlk.joins j).getLsbD k)
        ∧ (¬ missing → freed t))
    ∧ (s.myBlk.hold ≠ 0#16 → m.getLsbD s.cur.2 = true → missing →
      ∃ t, exec (.join c slot) s = .next t ∧ OnlyMe s t ∧ s.me.Owing t.me c.stall.toNat
        ∧ t.me.wait = some (.join n (s.cycle + 16 * s.myBlk.hold.toNat)))
    ∧ (s.myBlk.hold ≠ 0#16 → m.getLsbD s.cur.2 = true → ¬ missing →
      ∃ t, exec (.join c slot) s = .next t ∧ frame t
        ∧ Went { s.me with owed := c.stall.toNat, met := false } t (s.me.pc + 8)
        ∧ (tget t.myBlk.joins n).getLsbD s.cur.2 = false ∧ freed t)

/-- R112, R113: yield makes the thread ready at the next word; while a graceful pre-emption of its context is pending, it waits
there instead. In V mode with LCNT 0, exit leaves the thread exited with its registers kept and its bit cleared in every
join slot; with loads outstanding it waits; in M mode it is an illegal-mode fault with SUB 1. -/
def Obligations.YieldAndExit : Prop :=
  ∀ (s : State) (c : Ctl),
    (s.executes c (.yield c) = true → (s.pctx s.myBlk.pkg s.myBlk.ctx).pre ≠ .pending →
      ∃ t, exec (.yield c) s = .next t ∧ OnlyMe s t ∧ Went s.me t (s.me.pc + 8))
    ∧ (s.executes c (.yield c) = true → (s.pctx s.myBlk.pkg s.myBlk.ctx).pre = .pending →
      ∃ t, exec (.yield c) s = .next t ∧ OnlyMe s t ∧ s.me.Moved t.me ∧ t.me.pc = s.me.pc + 8
        ∧ t.me.wait = some .yieldHold)
    ∧ (s.executes c (.exit c) = true → s.me.ms.mode = false → s.me.lcnt = 0 → s.cur.2 < 1024 → s.myBlk.bars = [] →
      (∀ o ∈ s.myBlk.threads, o.2.wait = none) →
      ∃ t, exec (.exit c) s = .next t ∧ OnlyMine s t ∧ t.me = { s.me with st := .exited, wait := none, via := none }
        ∧ t.myBlk = { s.myBlk with threads := t.myBlk.threads, joins := t.myBlk.joins }
        ∧ ∀ n k, (tget t.myBlk.joins n).getLsbD k =
            if n < 16 ∧ k = s.cur.2 then false else (tget s.myBlk.joins n).getLsbD k)
    ∧ (s.executes c (.exit c) = true → s.me.ms.mode = false → s.me.lcnt ≠ 0 →
      ∃ t, exec (.exit c) s = .next t ∧ OnlyMe s t ∧ s.me.Moved t.me ∧ t.me.wait = some .exitLoads)
    ∧ (s.executes c (.exit c) = true → s.me.ms.mode = true → s.me.ms.h = false →
      ∃ t, exec (.exit c) s = .next t ∧ TookFault s t 0x10 (tcauseWord 1 none) s.me.pc)

/-- R26, R104, R37: rdsr gives the value of the special register; with TIMEG, the timing registers are a determinism fault
(`PrivilegeAndTimingGuards`). R27-R42, R105: csrr gives the control register as it stands, its fields in their places. -/
def Obligations.RegisterReads : Prop :=
  (∀ (s : State) (c : Ctl) (d : RegF),
      let tid := s.cur.2
      let b := s.myBlk
      let n := recBlock b.record
      let g := recGrid b.record
      s.myBlk.detcfg.getLsbD 2 = false →
      (∀ r ∈ ([(0x00#8, tid % n.x), (0x01#8, tid / n.x % n.y), (0x02#8, tid / (n.x * n.y)), (0x04#8, b.bid.x), (0x05#8, b.bid.y),
            (0x06#8, b.bid.z), (0x08#8, g.x), (0x09#8, g.y), (0x0A#8, g.z), (0x0C#8, tid / 4), (0x0D#8, tid / 32),
            (0x0E#8, s.myLane), (0x0F#8, s.iw.part), (0x10#8, b.core), (0x11#8, s.me.sp.toNat),
            (0x12#8, (s.world b.pkg b.ctx).toNat)] : List (BitVec 8 × Nat)),
          Completes s (.rdsr c d r.1) c (dstWords d [BitVec.ofNat 32 r.2]) [] 0)
        ∧ Completes s (.rdsr c d 0x14#8) c (dstWords d (halves (BitVec.ofNat 64 (s.clock b.pkg)))) [] 0
        ∧ Completes s (.rdsr c d 0x16#8) c (dstWords d (halves (BitVec.ofNat 64 (s.gtime b.pkg)))) [] 0)
    ∧ ∀ (s : State) (c : Ctl) (d : RegF),
      let th := s.me
      let b := s.myBlk
      (∀ r ∈ [(0x001#12, th.ms.abase ++ th.ms.crew ++ 0#8 ++ BitVec.ofBool th.ms.res ++ 0#4 ++ BitVec.ofBool th.ms.h
            ++ BitVec.ofBool th.ms.vp ++ BitVec.ofBool th.ms.mp ++ BitVec.ofBool th.ms.mode),
          (0x003#12, BitVec.ofBool th.mprog.rsm ++ 0#2 ++ th.mprog.depth ++ 0#3 ++ th.mprog.pass),
          (0x004#12, th.sp),
          (0x010#12, BitVec.ofBool b.mgang.v ++ 0#11 ++ b.mgang.f3 ++ b.mgang.f2 ++ b.mgang.f1 ++ b.mgang.f0),
          (0x011#12, 0#16 ++ b.hold),
          (0x012#12, 0#29 ++ b.detcfg),
          (0x104#12, BitVec.ofNat 32 (s.pctx b.pkg b.ctx).num),
          (0x105#12, BitVec.ofNat 32 (s.world b.pkg b.ctx).toNat),
          (0x106#12, BitVec.ofNat 32 th.chk.toNat)],
        Completes s (.csrr c d r.1) c (dstWords d [r.2]) [] 0)
      ∧ (s.flagsOut s.cur.1 s.cur.2 = false →
        Completes s (.csrr c d 0x000#12) c (dstWords d [0#20 ++ th.fpcsr.rm ++ BitVec.ofBool th.fpcsr.daz
          ++ BitVec.ofBool th.fpcsr.ftz ++ 0#2 ++ th.fpcsr.flags]) [] 0)
      ∧ (th.lcnt < 64 → th.scnt < 64 → th.ecnt < 32 →
        Completes s (.csrr c d 0x002#12) c (dstWords d [0#15 ++ BitVec.ofNat 5 th.ecnt ++ BitVec.ofNat 6 th.scnt
          ++ BitVec.ofNat 6 th.lcnt]) [] 0)
      ∧ (∀ r ∈ [(0x100#12, th.tvec), (0x101#12, th.tframe0), (0x102#12, th.tframe1), (0x103#12, th.tcause)],
        Completes s (.csrr c d r.1) c (dstWords d (halves r.2)) [] 0)

/-- R27, R29, R31, R34, R36-R39, R42, R105: csrw of a register it may write: the fields that are RW take their bits, and
nothing else changes. -/
def Obligations.ControlRegisterWrites : Prop :=
  ∀ (s : State) (c : Ctl) (a : RegF),
    let th := s.me
    let w := s.rd a
    let puts (i : Instr) (u : Thread) : Prop := s.executes c i = true →
      ∃ t, exec i s = .next t ∧ OnlyMe s t ∧ Went u t (th.pc + 8)
    let sets (i : Instr) (u : Block) : Prop := s.executes c i = true →
      ∃ t, exec i s = .next t ∧ OnlyMine s t ∧ Went th t (th.pc + 8) ∧ t.myBlk = { u with threads := t.myBlk.threads }
    puts (.csrw c a 0x001#12) { th with ms := { th.ms with res := w.getLsbD 8 } }
      ∧ puts (.csrw c a 0x004#12) { th with sp := w.extractLsb' 3 29 ++ 0#3 }
      ∧ sets (.csrw c a 0x011#12) { s.myBlk with hold := w.extractLsb' 0 16 }
      ∧ sets (.csrw c a 0x012#12) { s.myBlk with detcfg := w.extractLsb' 0 3 }
      ∧ (th.ms.h = true →
        puts (.csrw c a 0x100#12) { th with tvec := 0#7 ++ (s.rd64 a).extractLsb' 3 54 ++ 0#3 }
          ∧ puts (.csrw c a 0x101#12) { th with tframe0 := s.rd64 a }
          ∧ puts (.csrw c a 0x106#12) { th with chk := w.getLsbD 0 })
      ∧ (s.flagsOut s.cur.1 s.cur.2 = false → (w.extractLsb' 9 3).toNat < 5 →
        puts (.csrwFpcsr c a)
          { th with fpcsr := ⟨w.extractLsb' 9 3, w.getLsbD 8, w.getLsbD 7, w.extractLsb' 0 5⟩ })
      ∧ (s.flagsOut s.cur.1 s.cur.2 = false → 5 ≤ (w.extractLsb' 9 3).toNat → th.ms.h = false →
        s.executes c (.csrwFpcsr c a) = true →
        ∃ t, exec (.csrwFpcsr c a) s = .next t ∧ TookFault s t 0x02 (tcauseWord 6 none) th.pc)
      ∧ (th.ms.mode = false → puts (.csrwMprog c a) (if w.getLsbD 31 then { th with mprog := ⟨false, 0, 0⟩ } else th))

/-- R27, R37-R39, R42, R105, R119, R120: outside handler mode a csrw of TVEC, TFRAME0 or CHKSB, either tlbi and codereg are a
privilege fault, and so is a csrw of a register that is never written; with TIMEG, rdsr of %clock, %gtime, %lane and
%part and shapeq are a determinism fault. -/
def Obligations.PrivilegeAndTimingGuards : Prop :=
  ∀ (s : State) (c : Ctl) (d a : RegF), s.me.ms.h = false →
    (∀ i ∈ [Instr.csrw c a 0x100#12, .csrw c a 0x101#12, .csrw c a 0x106#12, .csrw c a 0x002#12, .csrw c a 0x010#12,
        .csrw c a 0x102#12, .csrw c a 0x103#12, .csrw c a 0x104#12, .csrw c a 0x105#12, .tlbiCtx c, .tlbiPage c a,
        .codereg c d a],
      s.executes c i = true → ∃ t, exec i s = .next t ∧ TookFault s t 0x13 0 s.me.pc)
    ∧ (s.myBlk.detcfg.getLsbD 2 = true →
      ∀ i ∈ [Instr.rdsr c d 0x0E#8, .rdsr c d 0x0F#8, .rdsr c d 0x14#8, .rdsr c d 0x16#8, .shapeq c d a],
        s.executes c i = true → ∃ t, exec i s = .next t ∧ TookFault s t 0x06 0 s.me.pc)

/-- R119, R381: in handler mode, with no shootdown of the context under way and no write of the context outstanding, tlbi
leaves no translation of the context (of the page) on the package and no L1 line of it, takes the next generation,
and goes on; of the package's state and of memory nothing else changes. -/
def Obligations.Shootdown : Prop :=
  ∀ (s : State) (c : Ctl) (a : RegF),
    let p := s.myBlk.pkg
    let x := s.myBlk.ctx
    let va := (s.rd64 a).toNat % 2 ^ 57
    let after (t : State) : Prop :=
      t = { s with blocks := t.blocks, issue := t.issue, cores := t.cores, coh := { s.coh with tlb := t.coh.tlb }
                   ctxs := t.ctxs }
        ∧ Went s.me t (s.me.pc + 8) ∧ (t.pctx p x).gen = (s.pctx p x).gen + 1
        ∧ ∀ e ∈ t.coh.tlb, e ∈ s.coh.tlb
    s.me.ms.h = true → (s.pctx p x).shoots = [] → (∀ o ∈ s.coh.ops, ¬(o.pkg = p ∧ o.ctx = x)) →
    (∀ r ∈ s.coh.remote, ¬(r.op.pkg = p ∧ r.op.ctx = x)) →
    (s.executes c (.tlbiCtx c) = true →
      ∃ t, exec (.tlbiCtx c) s = .next t ∧ after t
        ∧ (∀ e ∈ t.coh.tlb, ¬(e.pkg = p ∧ e.ctx = x))
        ∧ ∀ k ∈ t.cores, k.1 / 512 = p → ∀ e ∈ k.2.l1, e.ctx ≠ x)
    ∧ (s.executes c (.tlbiPage c a) = true →
      ∃ t, exec (.tlbiPage c a) s = .next t ∧ after t
        ∧ (∀ e ∈ t.coh.tlb, ¬(e.pkg = p ∧ e.ctx = x ∧ e.base ≤ va ∧ va < e.base + e.size))
        ∧ (∀ e ∈ s.coh.tlb, ¬(e.pkg = p ∧ e.ctx = x) → e ∈ t.coh.tlb)
        ∧ ∀ k ∈ t.cores, k.1 / 512 = p → ∀ e ∈ k.2.l1, e.ctx = x → e.vtag * 128 / e.page ≠ va / e.page)

/-- R59, R60, R120: in handler mode with SCNT 0, codereg gives its status and moves on: 6 for an address that is not a multiple
of 8; 7 with as many objects registered as Root allows; 1 for a wrong header; 2 for a size below its header's; 3, 4, 5 for an
extent out of range, extents out of order, an overlap with a registered object; and 0 where every check passes, with the object
then registered and nothing else changed. A page that is not resident is asked for and waited for. An object registered
overlaps none registered before. (That an extent with LEN = 0 gives 3 is the model's choice, log 59.) -/
def Obligations.CodeRegistration : Prop :=
  ∀ (s : State) (c : Ctl) (d a : RegF) (va k : Nat) (o : CodeObj) (h0 h1 : Dword) (es : List Dword),
    let i : Instr := .codereg c d a
    let p := s.myBlk.pkg
    let x := s.myBlk.ctx
    let base := (s.rd64 a).toNat
    let objs := (s.pctx p x).objs
    let gives (k : Nat) (new : List CodeObj) : Prop := (s.me.unready d.toNat s.cycle).isEmpty = true →
      ∃ t, exec i s = .next t ∧ OnlyMine s { t with ctxs := s.ctxs }
        ∧ Went { s.me with regs := t.me.regs, marks := t.me.marks } t (s.me.pc + 8)
        ∧ (∀ r, tget t.me.regs r = if d ≠ 248#8 ∧ r = d.toNat then BitVec.ofNat 32 k else tget s.me.regs r)
        ∧ t.myBlk = { s.myBlk with threads := t.myBlk.threads, tags := t.myBlk.tags }
        ∧ t.pctx p x = { s.pctx p x with objs := objs ++ new }
    let np := (h1.extractLsb' 48 16).toNat
    let nw := (h1.extractLsb' 0 32).toNat
    let pools := es.map fun e => ((e.extractLsb' 0 32).toNat, (e.extractLsb' 32 32).toNat)
    let meets (q : CodeObj) : Prop := q.base.toNat < base + 8 * nw ∧ base < q.base.toNat + 8 * q.nwords
    i.wellFormed = true → s.executes c i = true → s.me.ms.h = true → s.me.scnt = 0 → s.me.st ≠ .exited →
    (s.register p x base = .ok (k, o) → gives k (if k = 0 then [o] else []))
    ∧ (base % 8 ≠ 0 → gives 6 [])
    ∧ (base % 8 = 0 → Config.maxObjects ≤ objs.length → gives 7 [])
    ∧ (base % 8 = 0 → objs.length < Config.maxObjects → s.objDws p x base 2 = .ok [h0, h1] →
      (h0 ≠ 0x000000014F474C55#64 ∨ h1.extractLsb' 32 16 ≠ 0#16 → gives 1 [])
      ∧ (h0 = 0x000000014F474C55#64 → h1.extractLsb' 32 16 = 0#16 →
        (nw < 2 + np → gives 2 [])
        ∧ (2 + np ≤ nw → s.objPages p x (base / 4096 * 4096) ((base + 8 * nw + 4095) / 4096 - base / 4096) = .ok () →
          s.objDws p x (base + 16) np = .ok es →
          (∀ q ∈ pools, q.1 + q.2 ≤ nw → ∃ ws, s.objDws p x (base + 8 * q.1) q.2 = .ok ws) →
          ((∃ q ∈ pools, q.2 = 0 ∨ q.1 < 2 + np ∨ nw < q.1 + q.2) → gives 3 [])
          ∧ ((∀ q ∈ pools, q.2 ≠ 0 ∧ 2 + np ≤ q.1 ∧ q.1 + q.2 ≤ nw) →
            (¬ (∀ j u v, pools[j]? = some u → pools[j + 1]? = some v → u.1 + u.2 ≤ v.1) → gives 4 [])
            ∧ ((∀ j u v, pools[j]? = some u → pools[j + 1]? = some v → u.1 + u.2 ≤ v.1) →
              ((∃ q ∈ objs, meets q) → gives 5 [])
              ∧ ((∀ q ∈ objs, ¬ meets q) → gives 0 [⟨BitVec.ofNat 57 base, nw, pools⟩]))))))
    ∧ (s.register p x base = .absent va →
      ∃ t, exec i s = .next t ∧ s.me.Moved t.me ∧ t.me.wait = some (.codePage d.toNat) ∧ t.ctxs = s.ctxs)
    ∧ (base % 8 ≠ 0 → s.register p x base = .ok (6, default))
    ∧ (s.register p x base = .ok (0, o) → base % 8 = 0 ∧ o.base = BitVec.ofNat 57 base
      ∧ ∀ q ∈ objs, base + 8 * o.nwords ≤ q.base.toNat ∨ q.base.toNat + 8 * q.nwords ≤ base)
-- Floating point and conversion (classes 3 and 4)

/-- R148-R153: the floating-point rows complete with the result of their operation under the instruction's rounding mode, DAZ
and FTZ, and raise its flags in FPCSR; nothing else changes. R159, R160: so do the special functions, whose units' words
(`Config.sfu`) are free. -/
def Obligations.FloatArithmetic : Prop :=
  ∀ (s : State) (c : Ctl) (d a b x : RegF) (p : PredF) (cc : Cond) (ty : Ty) (rm : Rmo),
    let f := fmtOf ty
    let e := s.env rm
    let A := s.fsrc ty a
    let B := s.fsrc ty b
    let X := s.fsrc ty x
    let daz := s.me.fpcsr.daz
    let one (i : Instr) (r : Nat × Flags) : Prop := Completes s i c (dstWords d [BitVec.ofNat 32 r.1]) [] r.2
    let two (i : Instr) (r : Nat × Flags) : Prop := Completes s i c (dstWords d (halves (BitVec.ofNat 64 r.1))) [] r.2
    let both (g : Nat → Nat × Flags) : Nat × Flags := ((g 0).1 + 65536 * (g 1).1, (g 0).2 ||| (g 1).2)
    let unit (op : Nat) (f : Bool → Bool → Word → Word → Nat × Flags) : Nat × Flags :=
      f daz s.me.fpcsr.ftz (Config.sfu op (s.rd a) daz s.me.fpcsr.ftz) (s.rd a)
    let h (r : RegF) (k : Nat) : Nat := (s.rd r).toNat / 2 ^ (16 * k) % 65536
    one (.fadd c d a b ty rm) (fpAdd f e A B) ∧ one (.fsub c d a b ty rm) (fpSub f e A B)
      ∧ one (.fmul c d a b ty rm) (fpMul f e A B) ∧ one (.ffma c d a b x ty rm) (fpFma f e A B X)
      ∧ one (.fdiv c d a b rm) (fpDiv .f32 e (s.rd a).toNat (s.rd b).toNat)
      ∧ one (.fsqrt c d a rm) (fpSqrt .f32 e (s.rd a).toNat)
      ∧ one (.fmin c d a b ty) (fpMinMax f daz false false A B) ∧ one (.fmax c d a b ty) (fpMinMax f daz true false A B)
      ∧ one (.fminn c d a b ty) (fpMinMax f daz false true A B) ∧ one (.fmaxn c d a b ty) (fpMinMax f daz true true A B)
      ∧ Completes s (.fcmp c p a b cc ty) c [] ((onep p).map fun k => (k, (fpCmp f daz cc A B).1)) (fpCmp f daz cc A B).2
      ∧ one (.fclass c d a ty) (fpClass f A, 0) ∧ one (.frnd c d a ty rm) (fpRnd f e A)
      ∧ one (.hadd2 c d a b ty rm) (both fun k => fpAdd f e (h a k) (h b k))
      ∧ one (.hmul2 c d a b ty rm) (both fun k => fpMul f e (h a k) (h b k))
      ∧ one (.hfma2 c d a b x ty rm) (both fun k => fpFma f e (h a k) (h b k) (h x k))
      ∧ two (.dadd c d a b rm) (fpAdd .f64 e (s.rd64 a).toNat (s.rd64 b).toNat)
      ∧ two (.dmul c d a b rm) (fpMul .f64 e (s.rd64 a).toNat (s.rd64 b).toNat)
      ∧ two (.dfma c d a b x rm) (fpFma .f64 e (s.rd64 a).toNat (s.rd64 b).toNat (s.rd64 x).toNat)
      ∧ two (.ddiv c d a b rm) (fpDiv .f64 e (s.rd64 a).toNat (s.rd64 b).toNat)
      ∧ two (.dsqrt c d a rm) (fpSqrt .f64 e (s.rd64 a).toNat)
      ∧ two (.drcp c d a rm) (fpRcp .f64 e (s.rd64 a).toNat)
      ∧ one (.frcp c d a) (unit 0 sfuRcp) ∧ one (.frsq c d a) (unit 1 sfuRsq) ∧ one (.fex2 c d a) (unit 2 sfuEx2)
      ∧ one (.flg2 c d a) (unit 3 sfuLg2) ∧ one (.fsinpi c d a) (unit 4 sfuSin) ∧ one (.fcospi c d a) (unit 5 sfuCos)

/-- R137: RTZ takes the integer part, RUP and RDN the integer above or below in the value's own sign, RNE and RNA the nearest
integer, a tie going to the even one and to the larger one. R139, R144: a value that an IEEE format holds is rounded to
itself with no flag under every mode, without FTZ. -/
def Obligations.Rounding : Prop :=
  (∀ (neg : Bool) (num den : Nat), 0 < den →
      let n (rm : RM) : Nat := rnd rm neg num den
      (n .rtz * den ≤ num ∧ num < (n .rtz + 1) * den)
        ∧ (neg = false → num ≤ n .rup * den ∧ n .rup * den < num + den)
        ∧ (neg = true → n .rup = n .rtz)
        ∧ (neg = true → num ≤ n .rdn * den ∧ n .rdn * den < num + den)
        ∧ (neg = false → n .rdn = n .rtz)
        ∧ (2 * (n .rne * den) ≤ 2 * num + den ∧ 2 * num ≤ 2 * (n .rne * den) + den
          ∧ (2 * (n .rne * den) = 2 * num + den ∨ 2 * num = 2 * (n .rne * den) + den → n .rne % 2 = 0))
        ∧ (2 * (n .rna * den) ≤ 2 * num + den ∧ 2 * num < 2 * (n .rna * den) + den))
    ∧ ∀ (f : Fmt) (e : Env) (a : Nat), f ∈ [Fmt.f64, .f32, .f16, .bf16] → e.ftz = false → a < 2 ^ f.width →
      (fdecode f a).isNaN = false → roundTo f e (fdecode f a) = (a, 0)

/-- R124, R148: in an IEEE format a signalling NaN among the sources gives the default NaN with NV; a quiet one, where no
condition of the row is invalid, gives it with no flag; infinities of opposite sign in a sum, and zero times infinity,
give it with NV; a finite nonzero value divided by zero gives the infinity of the signs' exclusive-or with DZ. -/
def Obligations.FloatSpecialCases : Prop :=
  ∀ (f : Fmt) (e : Env) (a b : Nat), f ∈ [Fmt.f64, .f32, .f16, .bf16] →
    let x := fread f e.daz a
    let y := fread f e.daz b
    (x.isSNaN = true ∨ y.isSNaN = true →
      fpAdd f e a b = (defaultNaN f, NV) ∧ fpSub f e a b = (defaultNaN f, NV) ∧ fpMul f e a b = (defaultNaN f, NV)
        ∧ fpDiv f e a b = (defaultNaN f, NV))
    ∧ (x.isSNaN = false → y.isSNaN = false → x.isNaN = true ∨ y.isNaN = true →
      fpAdd f e a b = (defaultNaN f, 0) ∧ fpSub f e a b = (defaultNaN f, 0) ∧ fpMul f e a b = (defaultNaN f, 0)
        ∧ fpDiv f e a b = (defaultNaN f, 0))
    ∧ (∀ n, x = .inf n → y = .inf (!n) → fpAdd f e a b = (defaultNaN f, NV))
    ∧ (∀ n, x = .inf n → y = .inf n → fpSub f e a b = (defaultNaN f, NV) ∧ fpDiv f e a b = (defaultNaN f, NV))
    ∧ (x.isZero = true → y.isInf = true → fpMul f e a b = (defaultNaN f, NV))
    ∧ (x.isZero = true → y.isZero = true → fpDiv f e a b = (defaultNaN f, NV))
    ∧ (∀ n m k, x = .fin n m k → m ≠ 0 → y.isZero = true → fpDiv f e a b = (infinity f (n != y.sign), DZ))
    ∧ (∀ n m k, x = .fin n m k → m ≠ 0 → n = true → fpSqrt f e a = (defaultNaN f, NV))
    ∧ (∀ m k, x = .fin true m k → m = 0 → fpSqrt f e a = (signBit f true, 0))

/-- R154-R158, R162-R166: conversions, scaling, exponents and mantissas, and the minifloat and census instructions complete
with the result of their operation and raise its flags; nothing else changes (mfunpk where its destinations exist). R155:
f2i answers an integer of its type: 0 with NV for a NaN, the type's end with NV for an infinity, and for a finite value its
rounding, clamped with NV where it falls outside. -/
def Obligations.FloatConversions : Prop :=
  (∀ (s : State) (c : Ctl) (d a b : RegF) (ty ti : Ty) (src : FpSrc) (sat daz : Bool) (rm : Rmo),
      let e := s.env rm
      let put (i : Instr) (t : Ty) (r : Nat × Flags) : Prop := Completes s i c (dstWords d (tyWords t r.1)) [] r.2
      let int := fpToInt ty (fmtOfSrc src) e (s.fsrc src.ty a)
      let raw := s.rdN ti a % 2 ^ intWidth ti
      put (.fcvt c d a ty src rm) ty (fpCvt (fmtOf ty) (fmtOfSrc src) e (s.fsrc src.ty a))
        ∧ put (.f2i c d a ty src rm) ty (wrap (tyWidth ty) int.1, int.2)
        ∧ put (.i2f c d a ty ti rm) ty
          (fpOfInt (fmtOf ty) e (if tySigned ti then sval (intWidth ti) raw else (raw : Int)))
        ∧ put (.fldx c d a b ty rm) ty (fpLdx (fmtOf ty) e (s.rdN ty a) (s.rd b).toInt)
        ∧ Completes s (.fexpo c d a ty) c (dstWords d [fpExpo (fmtOf ty) s.me.fpcsr.daz (s.rdN ty a)]) [] 0
        ∧ put (.fmant c d a ty) ty (fpMant (fmtOf ty) s.me.fpcsr.daz (s.rdN ty a))
        ∧ (let r := fpPack ty src e sat (s.rd b) (s.rdList a (ieeeRegs ty src))
          Completes s (.mfpack c d a b ty src sat rm) c (dstWords d [r.1]) [] r.2)
        ∧ (d = 248#8 ∨ d.toNat + ieeeRegs ty src ≤ 248 →
          Completes s (.mfunpk c d a b ty src) c (dstWords d (fpUnpack ty src (s.rd b) (s.rd a))) [] 0)
        ∧ Completes s (.popnz c d a ty daz) c (dstWords d [BitVec.ofNat 32 (fpPopnz ty daz (s.rd a).toNat)]) [] 0
        ∧ (let r := fpSpcomp ty daz (s.rd64 a).toNat
          Completes s (.spcomp c d a ty daz) c (dstWords d [r.1, r.2]) [] 0))
    ∧ ∀ (t : Ty) (src : Fmt) (e : Env) (a : Nat), t.isInt = true ∨ t.isNar = true →
      let r := fpToInt t src e a
      let lo := loInt (tySigned t) (intWidth t)
      let hi := hiInt (tySigned t) (intWidth t)
      lo ≤ r.1 ∧ r.1 ≤ hi
        ∧ ((fread src e.daz a).isNaN = true → r = (0, NV))
        ∧ (fread src e.daz a = .inf false → r = (hi, NV)) ∧ (fread src e.daz a = .inf true → r = (lo, NV))
        ∧ ∀ neg m k, fread src e.daz a = .fin neg m k →
            let n : Int := if neg then -(roundInt e.rm neg m k : Int) else roundInt e.rm neg m k
            (lo ≤ n → n ≤ hi → r.1 = n) ∧ (n < lo → r = (lo, NV)) ∧ (hi < n → r = (hi, NV))

/-- R159, R160: the special-function units complete with a word that they may deliver: for frcp, frsq, fex2, flg2, fsinpi and
fcospi at the sources of R160's special cases listed here, that case's word and flags. Whatever the unit delivers, frcp's
word is the reciprocal rounded toward zero or away from it, without FTZ. (The other units' bounds are stated by no clause.) -/
def Obligations.SpecialFunctions : Prop :=
  (∀ (s : State) (c : Ctl) (d a : RegF),
      let gives (i : Instr) (op : Nat) (f : Bool → Bool → Word → Word → Nat × Flags) : Prop :=
        let r := f s.me.fpcsr.daz s.me.fpcsr.ftz (Config.sfu op (s.rd a) s.me.fpcsr.daz s.me.fpcsr.ftz) (s.rd a)
        Completes s i c (dstWords d [BitVec.ofNat 32 r.1]) [] r.2
      (gives (.frcp c d a) 0 sfuRcp ∧ gives (.frsq c d a) 1 sfuRsq ∧ gives (.fex2 c d a) 2 sfuEx2
        ∧ gives (.flg2 c d a) 3 sfuLg2 ∧ gives (.fsinpi c d a) 4 sfuSin ∧ gives (.fcospi c d a) 5 sfuCos)
      ∧ ∀ (daz ftz : Bool) (v : Word),
        (∀ r ∈ [(0x00000000#32, 0x7F800000, DZ), (0x80000000#32, 0xFF800000, DZ), (0x7F800000#32, 0, 0),
            (0xFF800000#32, 0x80000000, 0), (0x7FC01234#32, 0x7FC00000, 0), (0x7F800001#32, 0x7FC00000, NV)],
          sfuRcp daz ftz v r.1 = r.2)
        ∧ (∀ r ∈ [(0x00000000#32, 0x7F800000, DZ), (0x80000000#32, 0xFF800000, DZ), (0x7F800000#32, 0, 0),
            (0xFF800000#32, 0x7FC00000, NV), (0xBF800000#32, 0x7FC00000, NV)], sfuRsq daz ftz v r.1 = r.2)
        ∧ (∀ r ∈ [(0x00000000#32, 0x3F800000, 0), (0x80000000#32, 0x3F800000, 0), (0x7F800000#32, 0x7F800000, 0),
            (0xFF800000#32, 0, 0), (0x43000000#32, 0x7F800000, OF ||| NX), (0xC3960000#32, 0, UF ||| NX)],
          sfuEx2 daz ftz v r.1 = r.2)
        ∧ (∀ r ∈ [(0x00000000#32, 0xFF800000, DZ), (0x80000000#32, 0xFF800000, DZ), (0x7F800000#32, 0x7F800000, 0),
            (0xFF800000#32, 0x7FC00000, NV), (0xBF800000#32, 0x7FC00000, NV), (0x3F800000#32, 0, 0)],
          sfuLg2 daz ftz v r.1 = r.2)
        ∧ (∀ r ∈ [(0x00000000#32, 0, 0), (0x80000000#32, 0x80000000, 0), (0x7F800000#32, 0x7FC00000, NV),
            (0xFF800000#32, 0x7FC00000, NV)], sfuSin daz ftz v r.1 = r.2)
        ∧ (∀ r ∈ [(0x00000000#32, 0x3F800000, 0), (0x80000000#32, 0x3F800000, 0), (0x7F800000#32, 0x7FC00000, NV),
            (0xFF800000#32, 0x7FC00000, NV)], sfuCos daz ftz v r.1 = r.2))
    ∧ ∀ (daz : Bool) (v a : Word),
      (sfuRcp daz false v a).1 ∈ [RM.rtz, .rup, .rdn].map fun rm => (fpRcp .f32 ⟨rm, daz, false⟩ a.toNat).1


-- Memory (class 5)

/-- R167: each check of the address that fails is an address fault with its SUB and the address: alignment, then the upper
bits and the peer windows of .g and the bounds of the other spaces; no access is made and no count changes. R175, R177, R379: an access whose page is absent (a load's that no line of the L1 can serve) parks with its counts
unchanged, its need joining an outstanding request of the page or, where the host is in reach, sent as a new one under a free
tag. preq of such a page
does not park: SCNT rises with the request; of any other page it only goes on. -/
def Obligations.AccessFaults : Prop :=
  (∀ (s : State) (c : Ctl) (d b : RegF) (m : MemOp) (w : LdW) (sw : StW) (v : LdV) (sv : StV),
      let a := s.ea m
      let faults (i : Instr) (count : Nat) (n sub : Nat) : Prop :=
        (if sub = 1 then a % n ≠ 0 else a % n = 0) → s.executes c i = true → s.memWait m.sp (some count) = none →
          ∃ t, exec i s = .next t ∧ TookFault s t 0x07 (tcauseWord sub (some a)) s.me.pc
      let both (sub : Nat) : Prop := faults (.ld c d m w v) 0 w.bytes sub ∧ faults (.st c m b sw sv) 1 sw.bytes sub
      s.me.ms.h = false →
      both 1
        ∧ (m.sp.isG = true → 2 ^ 57 ≤ a → both 2)
        ∧ (m.sp.isG = true → a < 2 ^ 57 → 2 ^ 56 ≤ a → both 6)
        ∧ (m.sp = .s → s.myBlk.shb < a + w.bytes → faults (.ld c d m w v) 0 w.bytes 3)
        ∧ (m.sp = .s → s.myBlk.shb < a + sw.bytes → faults (.st c m b sw sv) 1 sw.bytes 3)
        ∧ (m.sp = .l → recLocal s.myBlk.record < a + w.bytes → faults (.ld c d m w v) 0 w.bytes 4)
        ∧ (m.sp = .l → recLocal s.myBlk.record < a + sw.bytes → faults (.st c m b sw sv) 1 sw.bytes 4)
        ∧ (m.sp = .c → recPbytes s.myBlk.record < a + w.bytes → faults (.ld c d m w v) 0 w.bytes 5))
    ∧ ∀ (s x : State) (c : Ctl) (d b : RegF) (m : MemOp) (w : LdW) (v : LdV) (sw : StW) (sv : StV),
      let a := s.ea m
      let p := s.myBlk.pkg
      let cx := s.myBlk.ctx
      let same (q : PageReq) : Prop := q.pkg = p ∧ q.ctx = cx ∧ q.vpn = a / 4096
      let joins (kind : Nat) (q : PageReq) : Prop := same q ∧ (kind = 1 → q.kind = 1)
      let asks (u t : State) (kind : Nat) (who : List Who) (preqs : List (Nat × Nat)) : Prop :=
        (∀ tag, s.hostUp p = true → s.freeTag p = some tag → (∀ q ∈ s.coh.reqs, ¬joins kind q) →
          t.coh = { u.coh with reqs := s.coh.reqs ++ [⟨p, cx, tag, a / 4096, kind, false, who, preqs⟩] }
            ∧ t.pkg p = { s.pkg p with host := (s.pkg p).host ++
                [.pageRequest (BitVec.ofNat 64 (a / 4096 * 2 ^ 12 + kind * 2 ^ 10)) (BitVec.ofNat 64 ((s.pctx p cx).num * 2 ^ 48 + tag))] }
            ∧ ∀ q, q ≠ p → t.pkg q = s.pkg q)
        ∧ ((∃ q ∈ s.coh.reqs, joins kind q) → t.pkgs = s.pkgs
            ∧ ∃ q ∈ t.coh.reqs, joins kind q ∧ (∀ o ∈ who, o ∈ q.waiters) ∧ ∀ o ∈ preqs, o ∈ q.preqs)
      let parks (i : Instr) (count : Nat) (n : Nat) (wr : Bool) : Prop :=
        s.executes c i = true → s.memWait m.sp (some count) = none → a % n = 0 →
        s.tablesUp a → s.xlate p (coreUnits s.myBlk.core) cx a (!wr) wr = (x, .error .absent) →
          ∃ t, exec i s = .next t ∧ OnlyMe s { t with coh := s.coh, pkgs := s.pkgs }
            ∧ t.me = { s.me with st := .parked, pk := some (wr, BitVec.ofNat 64 a) }
            ∧ asks x t wr.toNat [.thread s.cur.1 s.cur.2] []
      m.sp.isG = true → a < 2 ^ 56 →
      ((∀ z ∈ (s.core p s.myBlk.core).l1, z.ctx = cx → z.vtag ≠ a / 128) → parks (.ld c d m w v) 0 w.bytes false)
        ∧ parks (.st c m b sw sv) 1 sw.bytes true
        ∧ (s.executes c (.preq c m) = true → s.memWait m.sp (some 1) = none →
          (s.fill p (dieOf s.myBlk.core) cx a = .error .absent →
            (s.hostUp p = true ∧ s.freeTag p ≠ none ∨ ∃ q ∈ s.coh.reqs, same q) →
            ∃ t, exec (.preq c m) s = .next t ∧ OnlyMe s { t with coh := s.coh, pkgs := s.pkgs }
              ∧ Went { s.me with scnt := s.me.scnt + 1 } t (s.me.pc + 8) ∧ asks s t 2 [] [s.cur])
          ∧ (s.fill p (dieOf s.myBlk.core) cx a ≠ .error .absent →
            ∃ t, exec (.preq c m) s = .next t ∧ Retired s t [] [] 0))

/-- R171, R172, R33: a load of shared, local or constant memory captures the bytes at its address, extended as its width
says, with their poison; LCNT rises, the result is on its way to the destination, and the thread goes on; an .acq load
also holds the thread's younger memory instructions. R355: of constant memory each byte is memory's or the one that the block's
constant cache holds; where a page is out of the context's reach or cut off nothing is said. (How the constant cache keeps its words
is the model's choice, log 55; so is the fault of an address in a peer window, log 80.) -/
def Obligations.PrivateLoads : Prop :=
  ∀ (s x y : State) (c : Ctl) (d : RegF) (m : MemOp) (w : LdW) (v : LdV) (xl yl : Xl),
    let a := s.ea m
    let n := w.bytes
    let va := ((recParam s.myBlk.record).toNat + a) % 2 ^ 57
    let k := 4096 - va % 4096
    let reaches (u : State) (va : Nat) (r : State) (l : Xl) : Prop :=
      u.tablesUp va ∧ u.xlate s.myBlk.pkg (coreUnits s.myBlk.core) s.myBlk.ctx va true false = (r, .ok l)
    let gives (i : Instr) (acq : Bool) (bs : List (Byte × Bool)) : Prop :=
      i.wellFormed = true → s.executes c i = true → s.memWait m.sp (some 0) = none → a % n = 0 →
        ∃ t, exec i s = .next t ∧ OnlyAccess s t
          ∧ Went { s.me with lcnt := s.me.lcnt + 1, hold := s.me.hold + acq.toNat } t (s.me.pc + 8)
          ∧ s.coh.Read t.coh { s.result (dstWords d (loadedWords w (leNat (bs.map (·.1))))) (bs.any (·.2)) with
              unhold := acq }
    let bytes (mem : Bytes) : List (Byte × Bool) := (List.range n).map fun i => mem.at (a + i)
    let const (mem : List (Byte × Bool)) : Prop :=
      (Instr.ld c d m w v).wellFormed = true → s.executes c (.ld c d m w v) = true → s.memWait m.sp (some 0) = none → a % n = 0 →
        ∃ (t : State) (bs : List (Byte × Bool)), exec (.ld c d m w v) s = .next t ∧ OnlyMine s { t with coh := s.coh }
          ∧ t.myBlk = { s.myBlk with threads := t.myBlk.threads, cwords := t.myBlk.cwords }
          ∧ Went { s.me with lcnt := s.me.lcnt + 1 } t (s.me.pc + 8)
          ∧ s.coh.Read t.coh (s.result (dstWords d (loadedWords w (leNat (bs.map (·.1))))) (bs.any (·.2))) ∧ bs.length = n
          ∧ ∀ i b, bs[i]? = some b → mem[i]? = some b ∨ (tget s.myBlk.cwords ((va + i) / 4))[(va + i) % 4]? = some b
    let open_ (u : State) (l : Xl) : Prop := u.barred l.pkg s.myBlk.ctx l.pa false = false
    (m.sp = .s → a + n ≤ s.myBlk.shb →
      gives (.ld c d m w v) false (bytes s.myBlk.shm) ∧ gives (.ldAcq c d m w) true (bytes s.myBlk.shm))
    ∧ (m.sp = .l → a + n ≤ recLocal s.myBlk.record → gives (.ld c d m w v) false (bytes s.me.loc))
    ∧ (m.sp = .c → a + n ≤ recPbytes s.myBlk.record → va + n ≤ 2 ^ 56 → n ≤ k → reaches s va x xl → open_ x xl →
      const (x.physRead xl.pkg xl.pa n))
    ∧ (m.sp = .c → a + n ≤ recPbytes s.myBlk.record → va + n ≤ 2 ^ 56 → k < n → reaches s va x xl → open_ x xl →
      reaches x (va + k) y yl → open_ y yl → const (x.physRead xl.pkg xl.pa k ++ y.physRead yl.pkg yl.pa (n - k)))
    ∧ (m.sp = .c → a + n ≤ recPbytes s.myBlk.record → 2 ^ 56 ≤ va → s.executes c (.ld c d m w v) = true →
      s.memWait m.sp (some 0) = none → a % n = 0 → s.me.ms.h = false →
      ∃ t, exec (.ld c d m w v) s = .next t ∧ TookFault s t 0x07 (tcauseWord 6 (some va)) s.me.pc)

/-- R169, R171, R172, R176: a load of global memory captures, for each byte, the thread's own latest outstanding store to it or
else memory's, and at scope .blk perhaps a leased copy's; LCNT rises and the thread goes on. ldnf does the same, and
gives zeros with RES cleared where its data is poisoned, or where no L1 line can serve it and its translation fails. (That
the load takes its bytes as it issues, and that an L1 line serves it without a translation, are the model's choices, logs 4 and
23.) -/
def Obligations.GlobalLoads : Prop :=
  ∀ (s x : State) (c : Ctl) (d : RegF) (m : MemOp) (w : LdW) (v : LdV) (xl : Xl) (dw : Bool) (e : XErr),
    let a := s.ea m
    let p := s.myBlk.pkg
    let who := Who.thread s.cur.1 s.cur.2
    let reaches (r : State) (z : Except XErr Xl) : Prop := s.tablesUp a ∧ s.xlate p (coreUnits s.myBlk.core) s.myBlk.ctx a true false = (r, z)
    let plain (n : Nat) : Prop :=
      a % n = 0 ∧ xl.pa % 4096 = a % 4096 ∧ s.physKey p xl.pa % 4096 = a % 4096 ∧ s.barred p s.myBlk.ctx xl.pa false = false ∧ s.cutOff p (xl.pa - a % 4) = false
        ∧ s.physKey p (xl.pa - a % 4) + a % 4 = s.physKey p xl.pa ∧ s.ownPending who (s.physKey p xl.pa) n = false
    let line (f : L1Entry → Prop) : Prop := ∀ z ∈ (s.core p s.myBlk.core).l1, z.ctx = s.myBlk.ctx → z.vtag = a / 128 → f z
    let gives (i : Instr) (acq : Bool) (n : Nat) (res : List (Byte × Bool) → Land) (near : Bool) : Prop :=
      i.wellFormed = true → s.executes c i = true → plain n →
        ∃ (t : State) (bs : List (Byte × Bool)), exec i s = .next t ∧ OnlyAccess s t
          ∧ Went { s.me with lcnt := s.me.lcnt + 1, hold := s.me.hold + acq.toNat } t (s.me.pc + 8)
          ∧ s.coh.Read t.coh (res bs) ∧ bs.length = n
          ∧ ∀ k b, bs[k]? = some b →
              if near then s.NearByte who (a + k) (s.physKey p xl.pa + k) b else b = s.homeByte who (s.physKey p xl.pa + k)
    let ld (bs : List (Byte × Bool)) : Land :=
      s.result (dstWords d (loadedWords w (leNat (bs.map (·.1))))) (bs.any (·.2))
    let zeros : Land := { s.result (dstWords d (if dw then [0, 0] else [0])) false with clrRes := true }
    let nf (bs : List (Byte × Bool)) : Land :=
      if bs.any (·.2) then zeros
      else s.result (dstWords d (loadedWords (if dw then .b64 else .b32) (leNat (bs.map (·.1))))) false
    m.sp.isG = true → a < 2 ^ 56 → s.memWait m.sp (some 0) = none → s.copiesOk = true →
    (reaches x (.ok xl) → line (fun z => z.line = s.physKey p xl.pa / 128) →
      gives (.ld c d m w v) false w.bytes ld (decide (m.sp.scope = .blk))
        ∧ gives (.ldAcq c d m w) true w.bytes
          (fun bs => { ld bs with unhold := true, clear := decide (m.sp.scope ≠ .blk) }) (decide (m.sp.scope = .blk))
        ∧ gives (.ldnf c d m dw) false (if dw then 8 else 4) nf (decide (m.sp.scope = .blk)))
    ∧ (reaches x (.error e) → line (fun _ => False) → (Instr.ldnf c d m dw).wellFormed = true → s.executes c (.ldnf c d m dw) = true →
      a % (if dw then 8 else 4) = 0 →
      ∃ t, exec (.ldnf c d m dw) s = .next t ∧ OnlyAccess s t
        ∧ Went { s.me with lcnt := s.me.lcnt + 1 } t (s.me.pc + 8) ∧ s.coh.Read t.coh zeros)

/-- R173, R174, R33: a store of shared or local memory puts the bytes of its source there, unpoisoned, and leaves every
other byte; its acknowledgement is on its way. A store of global memory sends its bytes to their home, no byte of memory
having changed yet, and every L1 of the basin that holds the line has its words pending. SCNT rises and the thread goes
on. st.rel, with LCNT and SCNT 0, does the same, after the core's lines of the context have gone at .die or wider. -/
def Obligations.Stores : Prop :=
  ∀ (s x : State) (c : Ctl) (m : MemOp) (b : RegF) (w : StW) (v : StV) (xl : Xl),
    let a := s.ea m
    let n := w.bytes
    let bl := s.myBlk
    let bytes : List Byte := (List.range n).map fun i => (s.rd (RegF.up b (i / 4))).extractLsb' (8 * (i % 4)) 8
    let wrote (old new : Bytes) : Prop :=
      ∀ k, new.at k = match bytes[k - a]? with
        | some z => if a ≤ k then (z, false) else old.at k
        | none => old.at k
    let acked (t : State) : Prop := t.coh = { s.coh with acks := s.coh.acks ++ [⟨s.cur.1, s.cur.2, [], none⟩] }
    let went (th : Thread) (t : State) : Prop := Went { th with scnt := s.me.scnt + 1 } t (s.me.pc + 8)
    let waits : Prop := s.memWait m.sp none = none ∧ s.countsHold s.cur.1 s.cur.2 0 0 31 m.sp.scope = true
    let runs (i : Instr) (after : State → Prop) : Prop :=
      i.wellFormed = true → s.executes c i = true → ∃ t, exec i s = .next t ∧ after t
    let shared (t : State) : Prop :=
      OnlyMine s { t with coh := s.coh } ∧ acked t ∧ went s.me t ∧ wrote bl.shm t.myBlk.shm
        ∧ t.myBlk = { bl with threads := t.myBlk.threads, shm := t.myBlk.shm }
    let glob (clear : Bool) (t : State) : Prop :=
      let op : HomeOp := ⟨bl.pkg, s.physKey bl.pkg xl.pa, a, .store bytes, .thread s.cur.1 s.cur.2, bl.ctx, bl.core, xl.gen, [],
        false, false, s.me.fpcsr.rm, s.me.fpcsr.daz, s.me.fpcsr.ftz, (s.core bl.pkg bl.core).oc, s.iw.serial⟩
      let kept (k : Nat) : List L1Entry :=
        (tget s.cores k).l1.filter fun e => !(clear && k = coreKey bl.pkg bl.core) || e.ctx ≠ bl.ctx
      OnlyAccess s t ∧ s.coh.Sent t.coh op ∧ went s.me t
        ∧ ∀ k, (tget t.cores k).l1 =
            if k ∈ (List.range 4).map fun i => coreKey bl.pkg (bl.core / 4 * 4 + i) then
              (kept k).map fun e =>
                if e.line = op.key / 128 then { e with pend := e.pend ||| wordMask (lineWords a n) } else e
            else kept k
    a % n = 0 →
    (s.memWait m.sp (some 1) = none →
      (m.sp = .s → a + n ≤ bl.shb → runs (.st c m b w v) shared)
      ∧ (m.sp = .l → a + n ≤ recLocal bl.record → runs (.st c m b w v) fun t =>
          OnlyMe s { t with coh := s.coh } ∧ acked t ∧ went { s.me with loc := t.me.loc } t ∧ wrote s.me.loc t.me.loc)
      ∧ (m.sp.isG = true → a < 2 ^ 56 → s.tablesUp a →
          s.xlate bl.pkg (coreUnits bl.core) bl.ctx a false true = (x, .ok xl) → runs (.st c m b w v) (glob false)))
    ∧ (waits → (m.sp = .s → a + n ≤ bl.shb → runs (.stRel c m b w) shared)
      ∧ (m.sp.isG = true → a < 2 ^ 56 → s.tablesUp a →
          s.xlate bl.pkg (coreUnits bl.core) bl.ctx a false true = (x, .ok xl) →
          runs (.stRel c m b w) (glob (decide (m.sp.scope ≠ .blk)))))

/-- R178-R181, R37: an atomic in shared memory puts its new value at the location, whose poison stays, and leaves every
other byte; atom and cas send the old value to the destination and count in LCNT, red only counts in SCNT; .sc also holds
the thread's younger memory instructions. With FPAG, every floating-point add is a determinism fault. -/
def Obligations.SharedAtomics : Prop :=
  ∀ (s : State) (c : Ctl) (d b : RegF) (m : MemOp) (w sc : Bool) (k : MinK),
    let a := s.ea m
    let bits (w : Bool) : Nat := if w then 64 else 32
    let size (w : Bool) : Nat := if w then 8 else 4
    let V (w : Bool) : Nat := s.myBlk.shm.num a (size w)
    let X (w : Bool) : Nat := if w then (s.rd64 b).toNat else (s.rd b).toNat
    let D (w : Bool) : Nat := if w then (s.rd64 d).toNat else (s.rd d).toNat
    let bad (w : Bool) : Bool := (List.range (size w)).any fun i => tget s.myBlk.shm.bad (a + i)
    let less (x y : Nat) : Prop := if k = .n32 then x < y else sval (bits k.is64) x < sval (bits k.is64) y
    let F (w : Bool) : Nat × Flags := fpAdd (if w then .f64 else .f32) (s.env .none) (V w) (X w)
    let puts (t : State) (w : Bool) (new : Nat) : Prop :=
      OnlyMine s { t with coh := s.coh } ∧ t.myBlk = { s.myBlk with threads := t.myBlk.threads, shm := t.myBlk.shm }
        ∧ t.myBlk.shm.num a (size w) = new % 2 ^ bits w
        ∧ (∀ i, i < size w → tget t.myBlk.shm.bad (a + i) = bad w)
        ∧ ∀ i, i < a ∨ a + size w ≤ i → t.myBlk.shm.at i = s.myBlk.shm.at i
    let ok (i : Instr) (count : Nat) (w sc : Bool) : Prop :=
      i.wellFormed = true ∧ s.executes c i = true ∧ s.memWait m.sp (some count) = none
        ∧ (sc = true → s.countsHold s.cur.1 s.cur.2 0 0 31 .blk = true) ∧ a % size w = 0 ∧ a + size w ≤ s.myBlk.shb
    let atom (i : Instr) (w : Bool) (new : Nat) (fl : Flags) (fp : Bool) : Prop := ok i 0 w sc →
      ∃ t, exec i s = .next t ∧ puts t w new
        ∧ Went { s.me with lcnt := s.me.lcnt + 1, hold := s.me.hold + sc.toNat } t (s.me.pc + 8)
        ∧ t.coh = { s.coh with lands := s.coh.lands ++
            [{ s.result (dstWords d (loadedWords (if w then .b64 else .b32) (V w))) (bad w) with
               flags := fl, flagOp := fp, unhold := sc }] }
    let red (i : Instr) (w : Bool) (new : Nat) : Prop := ok i 1 w false →
      ∃ t, exec i s = .next t ∧ puts t w new ∧ Went { s.me with scnt := s.me.scnt + 1 } t (s.me.pc + 8)
        ∧ t.coh = { s.coh with acks := s.coh.acks ++ [⟨s.cur.1, s.cur.2, [], none⟩] }
    let low (new : Nat) : Prop := (less (X k.is64) (V k.is64) → new = X k.is64) ∧ (¬less (X k.is64) (V k.is64) → new = V k.is64)
    let high (new : Nat) : Prop := (less (V k.is64) (X k.is64) → new = X k.is64) ∧ (¬less (V k.is64) (X k.is64) → new = V k.is64)
    (m.sp = .s →
      (atom (.atomAdd c d m b w sc) w (V w + X w) 0 false ∧ red (.redAdd c m b w) w (V w + X w))
        ∧ (∀ new, low new → atom (.atomMin c d m b k sc) k.is64 new 0 false ∧ red (.redMin c m b k) k.is64 new)
        ∧ (∀ new, high new → atom (.atomMax c d m b k sc) k.is64 new 0 false ∧ red (.redMax c m b k) k.is64 new)
        ∧ (atom (.atomAnd c d m b w sc) w (V w &&& X w) 0 false ∧ red (.redAnd c m b w) w (V w &&& X w))
        ∧ (atom (.atomOr c d m b sc) false (V false ||| X false) 0 false ∧ red (.redOr c m b) false (V false ||| X false))
        ∧ (atom (.atomXor c d m b sc) false (V false ^^^ X false) 0 false ∧ red (.redXor c m b) false (V false ^^^ X false))
        ∧ atom (.atomExch c d m b w sc) w (X w) 0 false
        ∧ atom (.cas c d m b w sc) w (if V w = D w then X w else V w) 0 false
        ∧ (s.myBlk.detcfg.getLsbD 0 = false →
          (atom (.atomAddF32 c d m b sc) false (F false).1 (F false).2 true ∧ red (.redAddF32 c m b) false (F false).1)
          ∧ (atom (.atomAddF64 c d m b sc) true (F true).1 (F true).2 true ∧ red (.redAddF64 c m b) true (F true).1)))
    ∧ (s.myBlk.detcfg.getLsbD 0 = true → s.me.ms.h = false →
        (∀ i ∈ [Instr.atomAddF32 c d m b false, .atomAddF64 c d m b false], s.executes c i = true →
          s.memWait m.sp (some 0) = none → ∃ t, exec i s = .next t ∧ TookFault s t 0x06 0 s.me.pc)
        ∧ ∀ i ∈ [Instr.redAddF32 c m b, .redAddF64 c m b], s.executes c i = true → s.memWait m.sp (some 1) = none →
          ∃ t, exec i s = .next t ∧ TookFault s t 0x06 0 s.me.pc)

/-- R178-R185, R348: an atomic of global memory, an exact accumulation, and a reading or clearing of a cell is sent to the home
of its address (at scope .pod or .sys of a peer window, to the peer), no byte of memory having changed yet; it carries the
operation, its operand and the member's rounding, and its words leave the core's L1 for an atomic. LCNT rises where a
result returns, SCNT otherwise. (That a reduction and an exact accumulation need no read permission is the model's
choice, log 23; so are the translation of a peer's address as the atomic issues, log 32, and that memory once named as a cell
stays one, log 71.) -/
def Obligations.HomeAtomics : Prop :=
  ∀ (s x : State) (c : Ctl) (d b : RegF) (m : MemOp) (w sc : Bool) (k : MinK) (f : XFmt) (xl : Xl),
    let a := s.ea m
    let bl := s.myBlk
    let f0 := s.me.fpcsr
    let X (w : Bool) : Dword := if w then s.rd64 b else (s.rd b).zeroExtend 64
    let D (w : Bool) : Dword := if w then s.rd64 d else (s.rd d).zeroExtend 64
    let op (kind : OpKind) (dst : List Nat) (sc clear : Bool) : HomeOp :=
      ⟨xl.pkg, s.physKey xl.pkg xl.pa, a, kind, .thread s.cur.1 s.cur.2, bl.ctx, bl.core, xl.gen, dst, sc, clear, f0.rm, f0.daz,
        f0.ftz, (s.core bl.pkg bl.core).oc, s.iw.serial⟩
    let ok (i : Instr) (count n : Nat) (rd wr sc : Bool) : Prop :=
      i.wellFormed = true ∧ s.executes c i = true ∧ s.memWait m.sp (some count) = none ∧ a % n = 0
        ∧ (sc = true → s.countsHold s.cur.1 s.cur.2 0 0 31 m.sp.scope = true)
        ∧ s.tablesUp a ∧ s.xlate bl.pkg (coreUnits bl.core) bl.ctx a rd wr = (x, .ok xl)
    let sent (t : State) (o : HomeOp) : Prop :=
      if a < 2 ^ 56 then s.coh.Sent t.coh o
      else t.coh = { s.coh with tlb := t.coh.tlb
                                remote := s.coh.remote ++ [⟨bl.pkg, peerNo a, peerOff a, o, s.ns, s.me.pc⟩] }
    let drops (t : State) (n : Nat) (clear : Bool) : Prop :=
      ∀ q, (tget t.cores q).l1 =
        if q = coreKey bl.pkg bl.core then
          ((tget s.cores q).l1.filter fun e => !clear || e.ctx ≠ bl.ctx).map fun e =>
            if e.line = s.physKey xl.pkg xl.pa / 128 then { e with mask := e.mask &&& ~~~wordMask (lineWords a n) } else e
        else (tget s.cores q).l1
    let home (i : Instr) (o : AOp) (w : Bool) (cmp : Dword) (dst : Option RegF) (sc : Bool) : Prop :=
      ok i (if dst.isSome then 0 else 1) (if w then 8 else 4) dst.isSome true sc →
      (a < 2 ^ 56 ∨ (a < 2 ^ 57 ∧ (m.sp.scope = .pod ∨ m.sp.scope = .sys))) →
      ∃ t, exec i s = .next t ∧ OnlyAccess s t
        ∧ sent t (op (.atom o w (X w) cmp dst.isSome) (dst.elim [] (many (if w then 2 else 1))) sc
            (decide (sc = true ∧ m.sp.scope ≠ .blk)))
        ∧ drops t (if w then 8 else 4) (decide (sc = true ∧ m.sp.scope ≠ .blk))
        ∧ Went (if dst.isSome then { s.me with lcnt := s.me.lcnt + 1, hold := s.me.hold + sc.toNat }
                else { s.me with scnt := s.me.scnt + 1 }) t (s.me.pc + 8)
    let cell (i : Instr) (kind : OpKind) (dst : List Nat) (rd wr load : Bool) (fl : Flags) : Prop :=
      ok i (if load then 0 else 1) 64 rd wr false → a < 2 ^ 56 →
      ∃ t, exec i s = .next t ∧ OnlyMe s { t with coh := s.coh }
        ∧ t.coh = Coh.withCell { s.coh with tlb := t.coh.tlb, ops := s.coh.ops ++ [op kind dst false false] }
            (s.physKey xl.pkg xl.pa / 64)
        ∧ Went { s.me with lcnt := s.me.lcnt + load.toNat, scnt := s.me.scnt + (!load).toNat
                           fpcsr := { f0 with flags := f0.flags ||| fl } } t (s.me.pc + 8)
    m.sp.isG = true →
      (home (.atomAdd c d m b w sc) .add w 0 (some d) sc ∧ home (.redAdd c m b w) .add w 0 none false)
        ∧ (home (.atomMin c d m b k sc) (if k = .n32 then .minU else .minS) k.is64 0 (some d) sc
          ∧ home (.redMin c m b k) (if k = .n32 then .minU else .minS) k.is64 0 none false)
        ∧ (home (.atomMax c d m b k sc) (if k = .n32 then .maxU else .maxS) k.is64 0 (some d) sc
          ∧ home (.redMax c m b k) (if k = .n32 then .maxU else .maxS) k.is64 0 none false)
        ∧ (home (.atomAnd c d m b w sc) .and w 0 (some d) sc ∧ home (.redAnd c m b w) .and w 0 none false)
        ∧ (home (.atomOr c d m b sc) .or false 0 (some d) sc ∧ home (.redOr c m b) .or false 0 none false)
        ∧ (home (.atomXor c d m b sc) .xor false 0 (some d) sc ∧ home (.redXor c m b) .xor false 0 none false)
        ∧ home (.atomExch c d m b w sc) .exch w 0 (some d) sc
        ∧ home (.cas c d m b w sc) .cas w (D w) (some d) sc
        ∧ (bl.detcfg.getLsbD 0 = false →
          (home (.atomAddF32 c d m b sc) .addF false 0 (some d) sc ∧ home (.redAddF32 c m b) .addF false 0 none false)
          ∧ (home (.atomAddF64 c d m b sc) .addF true 0 (some d) sc ∧ home (.redAddF64 c m b) .addF true 0 none false))
        ∧ (let n := toXacc (fmtOfX f) f0.daz ((s.rd b).toNat % 2 ^ (fmtOfX f).width)
          cell (.atomx c m b f) (.xadd n.1 n.2.1) [] false true false n.2.2)
        ∧ cell (.xrnd c d m w) (.xrnd w) (many (if w then 2 else 1) d) true false true 0
        ∧ cell (.xclr c m) .xclr [] false true false 0

-- Synchronisation and exchange (class 6)

/-- R186, R187: where the counts are low enough and every access that has left them is performed at the scope, waitcnt goes on,
at .die or wider with the core's L1 lines of the context gone; otherwise it waits on just that. R201, R202: rng gives the
low or the high half of ugen of the key in A and the counter in B: ten rounds of additions and rotations, the multiples of
two constants added to the key, and the key added at the end. -/
def Obligations.CountWaitsAndGenerator : Prop :=
  (∀ (s : State) (c : Ctl) (l st : BitVec 6) (e : BitVec 5) (scope : Scope),
      let th := s.me
      let me := Who.thread s.cur.1 s.cur.2
      let holds : Prop := th.lcnt ≤ l.toNat ∧ th.scnt ≤ st.toNat ∧ th.ecnt ≤ e.toNat
        ∧ (scope ≠ .blk → ∀ u ∈ s.coh.pushes, u.who = me → scope = .die ∧ u.dst ≠ dieOf s.myBlk.core)
      s.executes c (.waitcnt c l st e scope) = true →
      (holds → ∃ t, exec (.waitcnt c l st e scope) s = .next t ∧ OnlyMe s { t with cores := s.cores }
        ∧ Went th t (th.pc + 8)
        ∧ ∀ k, tget t.cores k = if scope ≠ .blk ∧ k = coreKey s.myBlk.pkg s.myBlk.core then
            { tget s.cores k with l1 := (tget s.cores k).l1.filter fun e => e.ctx ≠ s.myBlk.ctx } else tget s.cores k)
      ∧ (¬holds → ∃ t, exec (.waitcnt c l st e scope) s = .next t ∧ OnlyMe s t ∧ th.Moved t.me ∧ t.me.pc = th.pc
        ∧ t.me.wait = some (.counts l.toNat st.toNat e.toNat scope)))
    ∧ ∀ (s : State) (c : Ctl) (d a b : RegF) (x0 x1 x2 x3 : Nat → Word),
      let k0 := s.rd a
      let k1 := s.rd (RegF.up a 1)
      let ra : List Nat := [16, 8, 24, 12, 4, 20, 28, 16, 8, 12]
      let rb : List Nat := [8, 24, 12, 28, 20, 4, 16, 24, 12, 20]
      x0 0 = s.rd b → x1 0 = s.rd (RegF.up b 1) → x2 0 = s.rd (RegF.up b 2) → x3 0 = s.rd (RegF.up b 3) →
      (∀ r, r < 10 →
        x0 (r + 1) = x0 r + k0 + BitVec.ofNat 32 (r * 0x9E3779B9) + x1 r
          ∧ x3 (r + 1) = (x1 r).rotateLeft (ra.getD r 0) ^^^ x0 (r + 1)
          ∧ x2 (r + 1) = x2 r + k1 + BitVec.ofNat 32 (r * 0xBB67AE85) + x3 r
          ∧ x1 (r + 1) = (x3 r).rotateLeft (rb.getD r 0) ^^^ x2 (r + 1)) →
      Completes s (.rngLo c d a b) c (dstWords d [x0 10, x1 10]) [] 0
        ∧ Completes s (.rngHi c d a b) c (dstWords d [x2 10 + k0, x3 10 + k1]) [] 0

/-- R188: an arrival at a block barrier that fits its phase is counted: unless it completes the phase, bar.arv goes on and bar
waits; the arrival that completes it, every live thread having come or the arrivals having reached the target, empties the
barrier, and every waiter goes on at its next word. An arrival that does not fit is a barrier fault and is not counted. -/
def Obligations.BlockBarriers : Prop :=
  ∀ (s : State) (c : Ctl) (a : RegF) (id : BitVec 4) (arv : Bool),
    let i : Instr := if arv then .barArv c a id else .bar c a id
    let n := id.toNat
    let bl := s.myBlk
    let k := tget bl.bars n
    let whole : Prop := a = 248#8
    let T := (s.rd a).toNat
    let fits : Prop := if whole then k.kind ≠ .register else 1 ≤ T ∧ T ≤ bl.nthr ∧ k.kind ≠ .whole ∧ (k.kind = .register → k.target = T)
    let came : List Nat := s.cur.2 :: if k.kind = .idle then [] else k.came
    let arr : Nat := 1 + if k.kind = .idle then 0 else k.arr
    let full : Prop := if whole then ∀ j, j < bl.nthr → (s.thr s.cur.1 j).st ≠ .exited → j ∈ came else arr = T
    s.executes c i = true → s.me.hold = 0 → s.me.lcnt = 0 → s.me.scnt = 0 → s.me.ecnt ≤ 31 → s.me.wait = none →
    s.me.st ≠ .exited →
    (fits → ¬full → ∃ t, exec i s = .next t ∧ OnlyMine s t
      ∧ t.myBlk = { bl with threads := t.myBlk.threads, bars := t.myBlk.bars }
      ∧ (if arv then Went s.me t (s.me.pc + 8)
         else s.me.Owing t.me c.stall.toNat ∧ t.me.pc = s.me.pc ∧ t.me.wait = some (.barrier n))
      ∧ (tget t.myBlk.bars n).arr = arr ∧ (tget t.myBlk.bars n).came = came
      ∧ (tget t.myBlk.bars n).kind = (if whole then .whole else .register)
      ∧ ∀ j, j ≠ n → tget t.myBlk.bars j = tget bl.bars j)
    ∧ (fits → full → ∃ t, exec i s = .next t ∧ t = { s with blocks := t.blocks, issue := t.issue }
      ∧ (∀ b, b ≠ s.cur.1 → t.blk b = s.blk b)
      ∧ t.myBlk = { bl with threads := t.myBlk.threads, bars := t.myBlk.bars }
      ∧ Went (if arv then s.me else { s.me with owed := c.stall.toNat, met := false }) t (s.me.pc + 8)
      ∧ tget t.myBlk.bars n = ⟨.idle, 0, 0, []⟩ ∧ (∀ j, j ≠ n → tget t.myBlk.bars j = tget bl.bars j)
      ∧ ∀ j, j ≠ s.cur.2 →
          if (s.thr s.cur.1 j).wait = some (.barrier n) then
            (s.thr s.cur.1 j).Moved (t.thr s.cur.1 j) ∧ (t.thr s.cur.1 j).pc = (s.thr s.cur.1 j).pc + 8
              ∧ (t.thr s.cur.1 j).issuable = true
          else t.thr s.cur.1 j = s.thr s.cur.1 j)
    ∧ (¬whole → (T = 0 ∨ bl.nthr < T) → s.me.ms.h = false →
      ∃ t, exec i s = .next t ∧ TookFault s t 0x12 (tcauseWord 1 none) s.me.pc)
    ∧ (¬fits → (whole ∨ (1 ≤ T ∧ T ≤ bl.nthr)) → s.me.ms.h = false →
      ∃ t, exec i s = .next t ∧ TookFault s t 0x12 (tcauseWord 2 none) s.me.pc)

/-- R190-R194: barb.init puts INIT and ARR, barb.expect adds to PEND, barb.arrive lowers ARR and gives the phase bit; an
update that leaves ARR and PEND 0 flips PH and renews ARR (that it leaves the reserved bits 0 is the model's choice, log 27).
barb.wait goes on where PH is not the bit given, and waits otherwise. Each fault changes nothing but what a fault does. (This
first part is where no thread waits at the barb.) An update of a barb that flips its phase bit releases every thread that
waits there for the flip, at its next word; no other thread, nor any other block, changes; of a block that has halted no
thread changes (R352). barb.arrive waits for the thread's stores, and for no other access of it (that a poisoned dword marks its
result is the model's choice, log 74). -/
def Obligations.ByteBarriers : Prop :=
  (∀ (s : State) (c : Ctl) (d b : RegF) (m : MemOp),
      let a := s.ea m
      let v := (s.rd b).toNat
      let q : Dword := BitVec.ofNat 64 (s.myBlk.shm.num a 8)
      let bad : Bool := (List.range 8).any fun i => tget s.myBlk.shm.bad (a + i)
      let init : BitVec 11 := q.extractLsb' 42 11
      let arr : BitVec 11 := q.extractLsb' 31 11
      let pend : BitVec 24 := q.extractLsb' 0 24
      let ph := q.getLsbD 24
      let next (arr : BitVec 11) (pend : BitVec 24) : Dword :=
        if arr = 0 ∧ pend = 0 then 0#11 ++ init ++ init ++ 0#5 ++ BitVec.ofBool (q.getLsbD 25) ++ BitVec.ofBool (!ph) ++ 0#24
        else 0#11 ++ init ++ arr ++ 0#5 ++ BitVec.ofBool (q.getLsbD 25) ++ BitVec.ofBool ph ++ pend
      let puts (t : State) (z : Dword) (bad' : Bool) : Prop :=
        OnlyMine s { t with coh := s.coh } ∧ t.myBlk = { s.myBlk with threads := t.myBlk.threads, shm := t.myBlk.shm }
          ∧ t.myBlk.shm.num a 8 = z.toNat ∧ (∀ i, i < 8 → tget t.myBlk.shm.bad (a + i) = bad')
          ∧ ∀ i, i < a ∨ a + 8 ≤ i → t.myBlk.shm.at i = s.myBlk.shm.at i
      let stored (t : State) : Prop :=
        Went { s.me with scnt := s.me.scnt + 1 } t (s.me.pc + 8)
          ∧ t.coh = { s.coh with acks := s.coh.acks ++ [⟨s.cur.1, s.cur.2, [], none⟩] }
      let stores : Prop := ∃ o, (o ∈ s.coh.ops ∨ ∃ r ∈ s.coh.remote, o = r.op) ∧ o.who = .thread s.cur.1 s.cur.2
        ∧ ∃ bs, o.kind = .store bs
      let runs (i : Instr) (count : Option Nat) (after : State → Prop) : Prop :=
        i.wellFormed = true → s.executes c i = true → s.memWait .s count = none → ∃ t, exec i s = .next t ∧ after t
      let faults (i : Instr) (count : Option Nat) (sub : Nat) : Prop :=
        s.me.ms.h = false → runs i count fun t => TookFault s t 0x12 (tcauseWord sub none) s.me.pc
      m.sp = .s → a % 8 = 0 → a + 8 ≤ s.myBlk.shb →
      (∀ j ph, (s.thr s.cur.1 j).wait ≠ some (.barb a ph)) →
      (1 ≤ v → v ≤ 1024 → runs (.barbInit c m b) (some 1) fun t =>
        puts t (0#11 ++ BitVec.ofNat 11 v ++ BitVec.ofNat 11 v ++ 0#31) false ∧ stored t)
      ∧ (v = 0 ∨ 1024 < v → faults (.barbInit c m b) (some 1) 3)
      ∧ (pend.toInt + v ≤ 2 ^ 23 - 1 → v ≠ 0 → runs (.barbExpect c m b) (some 1) fun t =>
          puts t (next arr (pend + BitVec.ofNat 24 v)) bad ∧ stored t)
      ∧ (v = 0 → runs (.barbExpect c m b) (some 1) fun t =>
          OnlyMe s { t with coh := s.coh } ∧ stored t)
      ∧ (2 ^ 23 - 1 < pend.toInt + v → faults (.barbExpect c m b) (some 1) 4)
      ∧ (stores → runs (.barbArrive c d m) (some 0) fun t =>
          OnlyMe s t ∧ s.me.Moved t.me ∧ t.me.pc = s.me.pc ∧ t.me.wait = some .stores)
      ∧ (arr ≠ 0 → ¬stores → runs (.barbArrive c d m) (some 0) fun t =>
          puts t (next (arr - 1) pend) bad ∧ Went { s.me with lcnt := s.me.lcnt + 1 } t (s.me.pc + 8)
            ∧ t.coh = { s.coh with lands := s.coh.lands ++ [s.result (dstWords d [0#31 ++ BitVec.ofBool ph]) bad] })
      ∧ (arr = 0 → ¬stores → faults (.barbArrive c d m) (some 0) 5)
      ∧ (q.getLsbD 25 = false → ph ≠ (s.rd b).getLsbD 0 → runs (.barbWait c m b) none fun t =>
          OnlyMe s t ∧ Went s.me t (s.me.pc + 8))
      ∧ (q.getLsbD 25 = false → ph = (s.rd b).getLsbD 0 → runs (.barbWait c m b) none fun t =>
          OnlyMe s t ∧ s.me.Owing t.me c.stall.toNat ∧ t.me.pc = s.me.pc ∧ t.me.wait = some (.barb a ph))
      ∧ (q.getLsbD 25 = true → faults (.barbWait c m b) none 6))
    ∧ ∀ (s : State) (b off : Nat) (k : Barb) (bad : Bool),
      let t := s.barbPut b off k bad
      k.ph ≠ ((s.blk b).barbAt off).ph →
      (s.blockRuns (s.blk b) = false → ∀ x j, t.thr x j = s.thr x j)
      ∧ (k.err = false → s.blockRuns (s.blk b) = true → (∀ x, x ≠ b → t.blk x = s.blk x)
        ∧ ∀ j, if j < (s.blk b).nthr ∧ (s.thr b j).st ≠ .exited ∧ (s.thr b j).wait = some (.barb off !k.ph) then
            { s.thr b j with freed := some s.cycle }.Moved (t.thr b j) ∧ (t.thr b j).pc = (s.thr b j).pc + 8
              ∧ (t.thr b j).issuable = true
          else t.thr b j = s.thr b j)

/-- R196-R200, R257: a thread that reaches an exchange waits there, predicated off or not. When every live member of its group has, with nothing on
its way to what the exchange uses, one step makes it take effect for all: each executing member receives register A of its
source as it stood, or the vote of the executing members; a predicated-off member only goes on; nothing else changes. -/
def Obligations.Exchanges : Prop :=
  ∀ (s : State) (c : Ctl) (d a b : RegF) (k m : BitVec 2) (ty : Ty) (pd pa : PredF),
    let me := s.cur.2
    let q := quadOf me
    let f := furrowOf me
    let B (t : Nat) : Nat := (s.rdT s.cur.1 t b).toNat
    let words (t : Nat) : List Word := if ty.is64 then [s.rdT s.cur.1 t a, s.rdT s.cur.1 t (RegF.up a 1)] else [s.rdT s.cur.1 t a]
    let on (t : Nat) : Prop := s.rdPredT s.cur.1 t c.ps ≠ c.pn
    let live (t : Nat) : Prop := (s.thr s.cur.1 t).st ≠ .exited
    let yes (t : Nat) : Prop := s.rdPredT s.cur.1 t pa = true
    let arrives (i : Instr) : Prop :=
      s.executes c i = true ∨ s.skips c i = true → s.me.wait = none →
        ∃ t, exec i s = .next t ∧ OnlyMe s t ∧ s.me.Owing t.me c.stall.toNat ∧ t.me.pc = s.me.pc ∧ t.me.wait = some .exchange
    let meets (i : Instr) (g : List Nat) (ws : Nat → List (Nat × Word)) (ps : Nat → List (Nat × Bool)) : Prop :=
      i.wellFormed = true → s.me.wait = some .exchange → s.exReady s.cur.1 g s.me.pc c (usesOf i) = true →
      (∀ t ∈ g, ∀ r ∈ (usesOf i).srcs, tget (s.thr s.cur.1 t).marks r = false) →
        ∃ t, exec i s = .next t ∧ OnlyGroup s t (g.filter fun k => (s.thr s.cur.1 k).st ≠ .exited)
          ∧ (∀ k ∈ g, live k → on k → MemberRetired s t k (ws k) (ps k))
          ∧ ∀ k ∈ g, live k → ¬on k → MemberRetired s t k [] []
    let both (i : Instr) (g : List Nat) (src : Nat → Nat) : Prop :=
      arrives i ∧ meets i g (fun t => dstWords d (words (src t))) fun _ => []
    let vote (i : Instr) (v : Bool) : Prop := arrives i ∧ meets i f (fun _ => []) fun _ => (onep pd).map fun p => (p, v)
    both (.qxchIdx c d a b ty) q (fun t => t / 4 * 4 + B t % 4)
      ∧ both (.qxchX c d a k ty) q (fun t => t / 4 * 4 + (t % 4 ^^^ k.toNat))
      ∧ both (.qbcst c d a m ty) q (fun t => t / 4 * 4 + m.toNat)
      ∧ both (.fshflIdx c d a b ty) f (fun t => t / 32 * 32 + B t % 32)
      ∧ both (.fshflUp c d a b ty) f (fun t => t / 32 * 32 + if B t ≤ t % 32 then t % 32 - B t else t % 32)
      ∧ both (.fshflDown c d a b ty) f (fun t => t / 32 * 32 + if t % 32 + B t ≤ 31 then t % 32 + B t else t % 32)
      ∧ both (.fshflXor c d a b ty) f (fun t => t / 32 * 32 + (t % 32 ^^^ B t % 32))
      ∧ (∀ v, (v = true ↔ ∀ t ∈ f, live t → on t → yes t) → vote (.fvoteAll c pd pa) v)
      ∧ (∀ v, (v = true ↔ ∃ t ∈ f, live t ∧ on t ∧ yes t) → vote (.fvoteAny c pd pa) v)
      ∧ (∀ v, (v = true ↔ (∀ t ∈ f, live t → on t → yes t) ∨ ∀ t ∈ f, live t → on t → ¬yes t) → vote (.fvoteUni c pd pa) v)
      ∧ ∀ w : Word, (∀ i, i < 32 → (w.getLsbD i = true ↔
            live (me / 32 * 32 + i) ∧ on (me / 32 * 32 + i) ∧ yes (me / 32 * 32 + i))) →
          arrives (.fvoteBallot c d pa) ∧ meets (.fvoteBallot c d pa) f (fun _ => dstWords d [w]) fun _ => []

-- Matrix mode, handles, engines and launches (class 7)

/-- R31, R206-R209, R216, R217: mmode.m waits for its crew with MP set, and enters M mode in every crew thread at once, with its
crew number and window; with a crew thread that has exited the arriving thread faults (R297); mmode.v leaves it, waiting with VP set while a pass or a capture is outstanding; mgang names a
crew that the block has; mzero clears the window; mstat reads the progress; mcvt sends the window's elements converted (without
regard to DAZ, which is the model's choice, log 85). -/
def Obligations.MatrixModes : Prop :=
  ∀ (s : State) (c : Ctl) (d a : RegF) (ab : BitVec 5) (ty : Ty) (rm : Rmo) (g : Mgang),
    let th := s.me
    let bl := s.myBlk
    let v := s.rd a
    let F (k : Nat) : Nat := v.toNat / 2 ^ (5 * k) % 32
    let window : List (Nat × Word) := (List.range 64).flatMap fun i => dstWords (th.ms.abase + BitVec.ofNat 8 i) [0]
    let sends (i : Instr) (l : Land) : Prop := ∃ t, exec i s = .next t ∧ OnlyMe s { t with coh := s.coh }
      ∧ Went { th with lcnt := th.lcnt + 1 } t (th.pc + 8) ∧ t.coh = { s.coh with lands := s.coh.lands ++ [l] }
    (s.executes c (.mmodeM c ab) = true → th.wait = none → bl.inCrew s.cur.2 = true → th.ms.mode = false → th.ms.h = false →
      (∀ k ∈ bl.mgang.threads, (s.thr s.cur.1 k).st ≠ .exited) →
      ∃ t, exec (.mmodeM c ab) s = .next t ∧ OnlyMe s t
        ∧ ({ th with ms := { th.ms with mp := true } } : Thread).Owing t.me c.stall.toNat ∧ t.me.pc = th.pc
        ∧ t.me.wait = some (.crew bl.mgang.toWord))
    ∧ (s.executes c (.mmodeM c ab) = true → th.wait = none → bl.inCrew s.cur.2 = true → th.ms.mode = false → th.ms.h = false →
      (∃ k ∈ bl.mgang.threads, (s.thr s.cur.1 k).st = .exited) →
      ∃ t, exec (.mmodeM c ab) s = .next t ∧ TookFault s t 0x10 (tcauseWord 3 none) th.pc)
    ∧ (s.assembled g c (.mmodeM c ab) → ∃ t, exec (.mmodeM c ab) s = .next t ∧ t.myBlk = { bl with threads := t.myBlk.threads }
        ∧ CrewWent s t g fun i u => { u with ms := { u.ms with
            mode := true, mp := false, crew := BitVec.ofNat 7 i, abase := BitVec.ofNat 8 (8 * ab.toNat) } })
    ∧ (s.executes c (.mmodeV c) = true → th.ms.h = false →
        (th.ms.mode = false → ∃ t, exec (.mmodeV c) s = .next t ∧ OnlyMe s t ∧ Went th t (th.pc + 8))
        ∧ (th.ms.mode = true → bl.crew = none → bl.drain = none → ∃ t, exec (.mmodeV c) s = .next t ∧ OnlyMe s t
          ∧ Went { th with ms := { th.ms with mode := false, vp := false, crew := 0, abase := 0 } } t (th.pc + 8))
        ∧ (th.ms.mode = true → bl.crew ≠ none ∨ bl.drain ≠ none → ∃ t, exec (.mmodeV c) s = .next t ∧ OnlyMe s t
          ∧ ({ th with ms := { th.ms with vp := true } } : Thread).Moved t.me ∧ t.me.pc = th.pc ∧ t.me.wait = some .passes))
    ∧ (s.executes c (.mmodeV c) = true → th.ms.h = true → th.ms.mode = false →
        ∃ t, exec (.mmodeV c) s = .next t ∧ t.me.tframe1 = frameWord 0x10 th.pc true ∧ t.me.tcause = tcauseWord 1 none)
    ∧ (s.executes c (.mgang c a) = true → (∀ o ∈ bl.threads, o.2.ms.mode = false) →
        (v.getLsbD 31 = false → v.extractLsb' 20 11 = 0#11 → ∃ t, exec (.mgang c a) s = .next t ∧ OnlyMine s t ∧ Went th t (th.pc + 8)
          ∧ t.myBlk = { bl with threads := t.myBlk.threads, mgang := ⟨false, 0, 0, 0, 0⟩ })
        ∧ (v.getLsbD 31 = true → v.extractLsb' 20 11 = 0#11 →
          (∀ k, k < 4 → F k * 32 < bl.nthr ∧ bl.homePart (F k * 32) = k) →
          ∃ t, exec (.mgang c a) s = .next t ∧ OnlyMine s t ∧ Went th t (th.pc + 8)
          ∧ t.myBlk = { bl with threads := t.myBlk.threads, mgang :=
              ⟨true, BitVec.ofNat 5 (F 0), BitVec.ofNat 5 (F 1), BitVec.ofNat 5 (F 2), BitVec.ofNat 5 (F 3)⟩ })
        ∧ (th.ms.h = false →
          (v.extractLsb' 20 11 ≠ 0#11 ∨ v.getLsbD 31 = true ∧ ∃ k, k < 4 ∧ (bl.nthr ≤ F k * 32 ∨ bl.homePart (F k * 32) ≠ k)) →
          ∃ t, exec (.mgang c a) s = .next t ∧ TookFault s t 0x02 (tcauseWord 6 none) th.pc))
    ∧ (s.windowWait true none = none → th.ms.mode = true → Completes s (.mzero c) c window [] 0)
    ∧ (s.executes c (.mstat c d) = true → th.lcnt < 63 → sends (.mstat c d) (s.result (dstWords d
        [BitVec.ofBool (th.ms.mode && (bl.crew.isSome || bl.drain.isSome)) ++ BitVec.ofBool th.mprog.rsm ++ 0#1
          ++ th.mprog.depth ++ 0#3 ++ th.mprog.pass]) false))
    ∧ (s.executes c (.mcvt c d ty rm) = true → th.lcnt < 63 → bl.passesOut th = false → th.ms.mode = true →
        s.marked s.cur.1 s.cur.2 th.ms.window = false →
        let r := mcvtWords ty (s.env rm) ((List.range 64).map fun i => (s.rd (th.ms.abase + BitVec.ofNat 8 i)).toNat)
        sends (.mcvt c d ty rm) { s.result (dstWords d r.1) false with flags := r.2, flagOp := true })

/-- R206, R212-R215, R218: a thread that reaches mma, mmasp, mmad or mdrain in M mode waits for its crew. The assembled crew
of mma, mmasp or mmad retires together, its passes standing as outstanding from MPROG.DEPTH (under RSM) up to K, or with
MPROG cleared where nothing is left to run; that of mdrain waits for the capture of its tile, requested with its operands,
the core's L1 lines of the context gone. -/
def Obligations.MatrixPasses : Prop :=
  ∀ (s : State) (c : Ctl) (ha hb hc : HandleF) (k a b d : RegF) (ty : Ty) (acc : Acc) (g : Mgang) (m : MProg),
    let bk := s.cur.1
    let bl := s.myBlk
    let ts := g.threads
    let t0 := g.f0.toNat * 32
    let H (h : HandleF) : Handle := tget (s.thr bk t0).handles h.toNat
    let alike (h : HandleF) : Prop := (H h).valid = true ∧ ∀ j ∈ ts, (tget (s.thr bk j).handles h.toNat).value = (H h).value
    let pair (f : Nat → Word) : Prop := ∀ j ∈ ts, f j = f t0
    let arrives (i : Instr) (w : Option Wait) : Prop :=
      s.executes c i = true → s.me.wait = none → w = none → bl.inCrew s.cur.2 = true → s.me.ms.mode = true →
        (∀ k ∈ bl.mgang.threads, (s.thr bk k).st ≠ .exited) →
        ∃ t, exec i s = .next t ∧ OnlyMe s t ∧ s.me.Owing t.me c.stall.toNat ∧ t.me.pc = s.me.pc
          ∧ t.me.wait = some (.crew bl.mgang.toWord)
    let runs (i : Instr) (kind : RunKind) (hs : List HandleF) (A B : Handle) (K base : Nat) : Prop :=
      let k1 := if m.rsm then m.depth.toNat else 0
      let k0 := if kind = .mmasp then bl.skipFrom A.record K 128 k1 else k1
      arrives i (firstWait [s.holdWait, s.windowWait false (if kind = .mmad then some base else none)])
      ∧ (s.assembled g c i → bl.crew = none → (∀ j ∈ ts, (s.thr bk j).mprog = m) → (∀ h ∈ hs, alike h) →
        bl.panelRule kind ty A.record B.record K = none →
        ∃ t, exec i s = .next t
          ∧ CrewWent s t g (fun _ u => { u with
              ms := { u.ms with mp := false }
              mprog := if K ≤ k0 then ⟨false, 0, 0⟩ else if k0 = k1 then m else { m with depth := BitVec.ofNat 13 k0 } })
          ∧ t.myBlk = { bl with
              threads := t.myBlk.threads
              crew := if K ≤ k0 then none else some ⟨kind, s.me.pc, ty, K, base, A, B, s.me.fpcsr.rm, s.me.fpcsr.daz,
                s.me.fpcsr.ftz, s.cycle, 0, k0, [], false⟩ })
    let drains (i : Instr) (mode : DrainMode) : Prop :=
      let r := (H hc).record
      let ba := if b = 248#8 then none else some (s.rdT bk t0 b).toNat
      arrives i (firstWait [s.holdWait, s.limitWait 2, s.countWait 0 0 31 .pkg])
      ∧ (s.assembled g c i → (∀ j ∈ ts, (s.thr bk j).mprog = m) → alike hc → pair (fun j => s.rdT bk j a) →
        pair (fun j => s.rdT bk j (RegF.up a 1)) → pair (fun j => s.rdT bk j b) → recKind r = 2 →
        drainFits acc mode (recFcode r) = true → bl.barbBad ba = false → meetsPeer (recBase r) (shapeLast r) = false →
        (mode = .addf → bl.detcfg.getLsbD 1 = false) →
        ∃ t, exec i s = .next t ∧ OnlyMine s { t with cores := s.cores } ∧ t.me = s.me ∧ L1Cleared s t
          ∧ t.myBlk = { bl with drain := some ⟨s.me.pc, mode, acc, s.rdT bk t0 a, s.rdT bk t0 (RegF.up a 1), ba, H hc, d.toNat,
              s.me.fpcsr.rm, s.me.fpcsr.daz, s.me.fpcsr.ftz, s.cycle, 0, none⟩ })
    (pair (fun j => s.rdT bk j k) →
      runs (.mma c ha hb k ty) .mma [ha, hb] (H ha) (H hb) (s.rdT bk t0 k).toNat 0
      ∧ runs (.mmasp c ha hb k ty) .mmasp [ha, hb] (H ha) (H hb) (s.rdT bk t0 k).toNat 0)
    ∧ runs (.mmad c a hb ty) .mmad [hb] default (H hb) 64 a.toNat
    ∧ drains (.mdrainSt c d a b hc acc) .st ∧ drains (.mdrainAddf c d a b hc acc) .addf
    ∧ drains (.mdrainAddx c d a b hc acc) .addx

/-- R25, R220, R225-R227: seal clears the handle's tag and sends the status of the record it reads, with the handle when that
is 0 and status 13 when a byte is poisoned; hquery sends the word of a handle, 0 where its tag is clear; hdrop clears the
tag, waiting first for a seal to it. -/
def Obligations.Handles : Prop :=
  ∀ (s x : State) (c : Ctl) (hd : HandleF) (a b d : RegF) (xl : Xl),
    let th := s.me
    let key := s.physKey s.myBlk.pkg xl.pa
    let r := s.recordWords key 4
    let k := if s.recordPoison key 4 then 13 else sealStatus r s.myBlk.shb
    let h := tget th.handles hd.toNat
    let dropped (t : State) : Prop :=
      ∀ n, tget t.me.handles n = if n = hd.toNat then { h with valid := false } else tget th.handles n
    let w0 := dw h.record 0
    (s.executes c (.seal c hd a b) = true → s.memWait .gBlk (some 0) = none → s.recordReads x (s.rd64 a).toNat 4 xl →
      ∃ t, exec (.seal c hd a b) s = .next t ∧ OnlyAccess s t ∧ dropped t
        ∧ Went { th with lcnt := th.lcnt + 1, handles := t.me.handles } t (th.pc + 8)
        ∧ s.coh.Read t.coh { s.result (dstWords b [BitVec.ofNat 32 k]) false with
            handle := if k = 0 then some (hd.toNat, sealed r s.cur.1) else none, sealH := some hd.toNat })
    ∧ (s.executes c (.hquery c d hd) = true → th.lcnt < 63 → ∃ t, exec (.hquery c d hd) s = .next t
        ∧ OnlyMe s { t with coh := s.coh } ∧ Went { th with lcnt := th.lcnt + 1 } t (th.pc + 8)
        ∧ t.coh = { s.coh with lands := s.coh.lands ++ [s.result (dstWords d [if h.valid = false then 0
            else if w0.extractLsb' 0 8 = 1#8 then 1#1 ++ 0#11 ++ w0.extractLsb' 18 2 ++ 0#1 ++ w0.extractLsb' 16 1
              ++ w0.extractLsb' 0 16
            else 1#1 ++ 0#15 ++ w0.extractLsb' 0 16]) false] })
    ∧ (s.executes c (.hdrop c hd) = true → s.sealing hd = false → ∃ t, exec (.hdrop c hd) s = .next t ∧ OnlyMe s t ∧ dropped t
        ∧ Went { th with handles := t.me.handles } t (th.pc + 8))
    ∧ (s.executes c (.hdrop c hd) = true → s.sealing hd = true → ∃ t, exec (.hdrop c hd) s = .next t ∧ OnlyMe s t
        ∧ th.Moved t.me ∧ t.me.pc = th.pc ∧ t.me.wait = some (.sealEnd hd.toNat))

/-- R205, R228-R234, R306: an engine command whose operands pass its checks is forked with its group, barb, handle and seed as
they stand and nothing delivered; ECNT rises, the core's L1 lines of the context go, and the thread goes on. An operand
out of its range is an illegal-operand fault, and no command is issued. (That gath and scat check their whole ranges of shared
memory at issue, which R231 and R232 do not say, is the model's choice, log 15.) -/
def Obligations.EngineCommands : Prop :=
  ∀ (s : State) (c : Ctl) (d a b : RegF) (hc : HandleF) (srcS dstS : Bool),
    let th := s.me
    let bl := s.myBlk
    let G : List Word := (List.range 8).map fun i => s.rd (RegF.up a i)
    let barb : Option Nat := if b = 248#8 then none else some (s.rd b).toNat
    let h := tget th.handles hc.toNat
    let r := h.record
    let cmd (kind : EngKind) : EngCmd :=
      { (default : EngCmd) with
        id := s.nextCmd, kind := kind, pkg := bl.pkg, ctx := bl.ctx, blk := s.cur.1, tid := s.cur.2, tids := [s.cur.2]
        pc := th.pc, sreg := d.toNat, group := G, rm := th.fpcsr.rm, daz := th.fpcsr.daz, ftz := th.fpcsr.ftz
        oc := (s.core bl.pkg bl.core).oc }
    let forks (i : Instr) (sc : Scope) (k : EngCmd) : Prop :=
      s.executes c i = true → s.engWait sc = none →
        ∃ t, exec i s = .next t ∧ OnlyMe s { t with cores := s.cores, cmds := s.cmds, nextCmd := s.nextCmd } ∧ L1Cleared s t
          ∧ Went { th with ecnt := th.ecnt + 1 } t (th.pc + 8) ∧ t.cmds = s.cmds ++ [k] ∧ t.nextCmd = s.nextCmd + 1
    let faults (i : Instr) (sc : Scope) (cause sub : Nat) : Prop :=
      s.executes c i = true → s.engWait sc = none → th.ms.h = false →
        ∃ t, exec i s = .next t ∧ TookFault s t cause (tcauseWord sub none) th.pc
    let shaped (i : Instr) (fcs : List Nat) (bad : Prop) (k : EngCmd) : Prop :=
      (h.valid = false → faults i .pkg 0x11 0)
      ∧ (h.valid = true → recKind r ≠ 2 ∨ (fcs ≠ [] ∧ recFcode r ∉ fcs) → faults i .pkg 0x02 5)
      ∧ (h.valid = true → recKind r = 2 → (fcs = [] ∨ recFcode r ∈ fcs) →
          (bad ∨ meetsPeer (recBase r) (shapeLast r) = true → faults i .pkg 0x02 6)
          ∧ (¬bad → meetsPeer (recBase r) (shapeLast r) = false → forks i .pkg k))
    (bl.copyBad G srcS dstS barb = false →
      forks (.copy c d a b srcS dstS) (copyScope G srcS dstS) { cmd .copy with barb := barb, srcS := srcS, dstS := dstS })
    ∧ (bl.copyBad G srcS dstS barb = true → faults (.copy c d a b srcS dstS) (copyScope G srcS dstS) 0x02 6)
    ∧ shaped (.gath c d a b hc) [] (bl.rowsBad G (recNcol r * shapeBytes r) barb = true)
        { cmd .gath with barb := barb, handle := h }
    ∧ ((recFcode r = 0x0A → bl.detcfg.getLsbD 0 = false) →
        shaped (.scat c d a b hc) [0x0A, 0x42] (bl.rowsBad G (recNcol r * 4) barb = true)
          { cmd .scat with barb := barb, handle := h })
    ∧ (s.sampleFull = false → shaped (.sample c d a b hc) [0x0A, 0x0D] (sampleBad G r = true)
        { cmd .sample with handle := h, seed := s.rd64 b })
    ∧ (gaugeBad G = false → forks (.gauge c d a) .pkg (cmd .gauge))
    ∧ (gaugeBad G = true → faults (.gauge c d a) .pkg 0x02 6)

/-- R236, R237, R241, R315, R335: launch and launch.pod read their record and send an id and a status; qpost reads it and sends a
status. A status that is not 0 launches nothing. A launched grid stands in the dealing state with an id that no grid of the
context holds, as a child of the block; of a posted one the writes of its record and of TAIL wait at their home, and, where no entry of the host waits before
it, it stands in its queue; a pod launch is on its way to the headgate. (When an entry gets its
id, and that what the package posts waits at its home, are the model's choices, log 35; so is that a launch.pod on its way is no
child yet, log 81.) -/
def Obligations.Launches : Prop :=
  ∀ (s x : State) (c : Ctl) (d a b : RegF) (prio : BitVec 3) (xl : Xl),
    let th := s.me
    let bl := s.myBlk
    let p := bl.pkg
    let cx := bl.ctx
    let key := s.physKey p xl.pa
    let r := s.recordWords key 16
    let base := if s.recordPoison key 16 then 11 else s.recordStatus p cx r
    let st1 := if base = 0 ∧ 32 ≤ s.kidsLive s.cur.1 then 9 else base
    let st2 := if st1 = 0 ∧ s.podAnswers p cx = false then 10 else st1
    let n := (s.rd b).toNat
    let st3 := if base = 0 ∧ s.queueRoom p cx n = false then 9 else base
    let reads (i : Instr) (w : Option Wait) : Prop :=
      s.executes c i = true ∧ w = none ∧ s.recordReads x (s.rd64 a).toNat 16 xl
    let sent (t : State) (ws : List Word) : Prop :=
      s.coh.Read t.coh { s.result (dstWords d ws) false with ecnt := true }
    let went (t : State) : Prop := Went { th with ecnt := th.ecnt + 1 } t (th.pc + 8)
    let refuses (i : Instr) (ws : List Word) : Prop :=
      ∃ t, exec i s = .next t ∧ OnlyAccess s t ∧ went t ∧ sent t ws
    let id := nextGridId (s.heldIds cx) ((s.heldIds cx).length + 1) (s.pctx p cx).nextId
    let others (t : State) : Prop :=
      (∀ q, q ≠ p → t.pkg q = s.pkg q) ∧ (∀ q, q ≠ ctxKey p cx → tget t.ctxs q = tget s.ctxs q)
    let grid : Grid :=
      { (default : Grid) with id := id, ctx := cx, record := r, acc := (s.pkg p).nextAcc + 1, checked := true
                              todo := [(0, recClusters r)], total := vol (recGrid r), state := .dealing }
    (reads (.launch c d a prio) (firstWait [s.viewWait, s.engWait .pkg]) →
      (st1 ≠ 0 → refuses (.launch c d a prio) [0, BitVec.ofNat 32 st1])
      ∧ (st1 = 0 → ∃ t, exec (.launch c d a prio) s = .next t
          ∧ OnlyMine s { t with coh := s.coh, cores := s.cores, pkgs := s.pkgs, ctxs := s.ctxs } ∧ others t ∧ went t
          ∧ sent t [BitVec.ofNat 32 id, 0]
          ∧ t.myBlk = { bl with threads := t.myBlk.threads, kids := bl.kids ++ [(s.pkg p).nextAcc + 1] }
          ∧ t.pctx p cx = { s.pctx p cx with nextId := id }
          ∧ t.pkg p = { s.pkg p with
              grids := (s.pkg p).grids ++ [{ grid with prio := prio.toNat, parent := some s.cur.1 }]
              nextAcc := (s.pkg p).nextAcc + 1 }))
    ∧ (reads (.launchPod c d a prio) (firstWait [s.viewWait, s.engWait .pod]) →
      (st2 ≠ 0 → refuses (.launchPod c d a prio) [0, BitVec.ofNat 32 st2])
      ∧ (st2 = 0 → ∃ t, exec (.launchPod c d a prio) s = .next t ∧ OnlyAccess s { t with heads := s.heads } ∧ went t
          ∧ t.coh.lands = s.coh.lands
          ∧ (tget t.heads cx).main = { (tget s.heads cx).main with
              inbox := (tget s.heads cx).main.inbox ++ [⟨p, s.cur.1, s.cur.2, d.toNat, prio.toNat, r, .launch⟩] }
          ∧ (tget t.heads cx).mirror = (tget t.heads cx).main ∧ ∀ q, q ≠ cx → tget t.heads q = tget s.heads q))
    ∧ (reads (.qpost c d a b) (firstWait [s.viewWait, s.holdWait, s.limitWait 2]) → n ≤ 63 →
      (st3 ≠ 0 → refuses (.qpost c d a b) [BitVec.ofNat 32 st3])
      ∧ (st3 = 0 →
          let tail := s.queueTail p cx n
          let v := s.agentWrite p cx (s.ringPa p cx n tail) r
          ∃ t, exec (.qpost c d a b) s = .next t ∧ OnlyAccess s { t with pkgs := s.pkgs, ctxs := s.ctxs } ∧ others t ∧ went t
            ∧ t.coh.lands = s.coh.lands ++ [{ s.result (dstWords d [0]) false with ecnt := true }]
            ∧ (v.nextEntry p cx n = v.queueTail p cx n →
              t.coh = { s.coh with tlb := t.coh.tlb, lands := t.coh.lands, ops := (v.setTail p cx n (tail + 1)).coh.ops }
              ∧ t.pctx p cx = { s.pctx p cx with
                  nextId := id, taken := tset (s.pctx p cx).taken n ((tail + 1) % 2 ^ 32 + 1) }
              ∧ t.pkg p = { s.pkg p with
                  grids := (s.pkg p).grids ++ [{ grid with
                    queue := some (n, tail), poster := (s.findGrid p cx bl.grid).map (·.acc) }]
                  nextAcc := (s.pkg p).nextAcc + 1 })))
    ∧ (s.executes c (.qpost c d a b) = true → firstWait [s.viewWait, s.holdWait, s.limitWait 2] = none → 63 < n → th.ms.h = false →
      ∃ t, exec (.qpost c d a b) s = .next t ∧ TookFault s t 0x02 (tcauseWord 6 none) th.pc)

/-- R238-R240, R318: lwait waits for the block's other live threads and its children; the last arrival with no child
outstanding gives every live thread the word of the children and lets it go on. lcancel sends 1 for an unknown id, 2 for a
grid that has ended, 3 for one already cancelling, and 0 with the dealing to stop at the end of the cycle, under .kill with the
grid's resident blocks stopped; lstat sends the state and counts of a grid, or state 5. R347: behind an older message of the
package to the headgate both follow it there, for a pod grid. (What a pod grid's state and counts are at the headgate, how its
cancel travels, and that a grid of another package is not found, are the model's choices, logs 16, 40 and 82.) -/
def Obligations.GridControl : Prop :=
  ∀ (s : State) (c : Ctl) (d a : RegF) (kill : Bool) (g : Grid),
    let th := s.me
    let bl := s.myBlk
    let p := bl.pkg
    let id := (s.rd a).toNat
    let i : Instr := if kill then .lcancelKill c d a else .lcancel c d a
    let free : Prop := firstWait [s.holdWait, s.limitWait 2] = none
    let sends (i : Instr) (ws : List Word) : Prop := ∃ t, exec i s = .next t ∧ OnlyMe s { t with coh := s.coh }
      ∧ Went { th with ecnt := th.ecnt + 1 } t (th.pc + 8)
      ∧ t.coh = { s.coh with lands := s.coh.lands ++ [{ s.result (dstWords d ws) false with ecnt := true }] }
    let ks := bl.kids.map fun k => s.kidState p bl.ctx k
    let word : Word := BitVec.ofBool (ks.any (·.2.1)) ++ BitVec.ofBool (ks.any (·.2.2)) ++ 0#24 ++ BitVec.ofNat 6 (min ks.length 32)
    let words (state faults fin kld nst : Nat) : List Word :=
      [BitVec.ofNat 4 state ++ 0#12 ++ BitVec.ofNat 16 (min faults 0xFFFF), 0] ++ halves (BitVec.ofNat 64 fin)
        ++ halves (BitVec.ofNat 64 kld) ++ halves (BitVec.ofNat 64 nst)
    (s.executes c (.lwait c d) = true → free → th.wait = none → th.st ≠ .exited → th.ms.mode = false →
      ((∃ k, k < bl.nthr ∧ k ≠ s.cur.2 ∧ (s.thr s.cur.1 k).st ≠ .exited ∧ ∀ r, (s.thr s.cur.1 k).wait ≠ some (.lwait r)) →
        ∃ t, exec (.lwait c d) s = .next t ∧ OnlyMe s t
          ∧ ({ th with ecnt := th.ecnt + 1 } : Thread).Owing t.me c.stall.toNat ∧ t.me.pc = th.pc
          ∧ t.me.wait = some (.lwait d.toNat))
      ∧ (s.cur.2 < bl.nthr → (th.unready d.toNat s.cycle).isEmpty = true →
        (∀ k, k < bl.nthr → k ≠ s.cur.2 → (s.thr s.cur.1 k).st = .exited ∨ ∃ r, (s.thr s.cur.1 k).wait = some (.lwait r)) →
        s.kidsOver s.cur.1 = true →
        ∃ t, exec (.lwait c d) s = .next t ∧ t = { s with blocks := t.blocks, issue := t.issue }
          ∧ (∀ b, b ≠ s.cur.1 → t.blk b = s.blk b)
          ∧ t.myBlk = { bl with threads := t.myBlk.threads, tags := t.myBlk.tags, kids := bl.late, late := [] }
          ∧ Went { th with owed := c.stall.toNat, met := false, regs := t.me.regs, marks := t.me.marks } t (th.pc + 8)
          ∧ (∀ r, tget t.me.regs r = if d ≠ 248#8 ∧ r = d.toNat then word else tget th.regs r)
          ∧ ∀ k r, k < bl.nthr → k ≠ s.cur.2 → (s.thr s.cur.1 k).st ≠ .exited → (s.thr s.cur.1 k).wait = some (.lwait r) →
              (t.thr s.cur.1 k).pc = (s.thr s.cur.1 k).pc + 8 ∧ (t.thr s.cur.1 k).issuable = true
                ∧ (t.thr s.cur.1 k).ecnt = (s.thr s.cur.1 k).ecnt - 1
                ∧ (r ≠ 248 → ((s.thr s.cur.1 k).unready r s.cycle).isEmpty = true → tget (t.thr s.cur.1 k).regs r = word)))
    ∧ (s.executes c i = true → free → id < 2 ^ 31 →
      (s.findGrid p bl.ctx id = none → th.st ≠ .exited → sends i [1])
      ∧ (s.findGrid p bl.ctx id = some g → th.st ≠ .exited → g.state = .complete ∨ g.state = .cancelled → sends i [2])
      ∧ (s.findGrid p bl.ctx id = some g → th.st ≠ .exited → g.state = .cancelling → sends i [3])
      ∧ (s.findGrid p bl.ctx id = some g → g.state = .dealing ∨ g.state = .dealt → th.st ≠ .exited →
          bl.grid ≠ g.id ∨ kill = false →
          ∃ t, exec i s = .next t ∧ Went { th with ecnt := th.ecnt + 1 } t (th.pc + 8)
            ∧ t.coh = { s.coh with lands := s.coh.lands ++ [{ s.result (dstWords d [0]) false with ecnt := true }] }
            ∧ (∀ o ∈ (t.pkg p).grids, o.acc = g.acc → o.state = .cancelling ∧ o.kill = kill)
            ∧ (∀ o ∈ (t.pkg p).dealingEnds.grids, o.acc = g.acc → o.todo = [])
            ∧ (∀ l ∈ (t.pkg p).dealingEnds.lots, l.grid ≠ g.acc)
            ∧ (kill = true → ∀ b ∈ t.blocks, b.2.pkg = p → b.2.ctx = g.ctx → b.2.grid = g.id → b.2.place = .resident →
                ∀ o ∈ b.2.threads, o.2.st = .exited))
      ∧ (s.findGrid p bl.ctx id = some g → g.state = .dealing ∨ g.state = .dealt → kill = true → bl.grid = g.id →
          bl.place = .resident → th.wait = none →
          ∃ t, exec i s = .next t ∧ t.me.st = .exited ∧ t.me.ecnt = th.ecnt + 1 ∧ t.me.regs = th.regs
            ∧ t.coh = { s.coh with lands := s.coh.lands ++ [{ s.result (dstWords d [0]) false with ecnt := true }] }
            ∧ (∀ o ∈ (t.pkg p).grids, o.acc = g.acc → o.state = .cancelling ∧ o.kill = true)
            ∧ ∀ o ∈ (t.pkg p).dealingEnds.grids, o.acc = g.acc → o.todo = []))
    ∧ (s.podBehind p bl.ctx = true → free → 2 ^ 31 ≤ id →
      (∀ j ask, (j, ask) ∈ [(i, PodAsk.cancel id kill), (.lstat c d a, .stat id)] → s.executes c j = true →
        ∃ t, exec j s = .next t ∧ OnlyMe s { t with heads := s.heads } ∧ Went { th with ecnt := th.ecnt + 1 } t (th.pc + 8)
          ∧ (tget t.heads bl.ctx).main = { (tget s.heads bl.ctx).main with
              inbox := (tget s.heads bl.ctx).main.inbox ++ [⟨p, s.cur.1, s.cur.2, d.toNat, 0, [], ask⟩] }))
    ∧ (s.executes c i = true → free → 2 ^ 31 ≤ id → s.podBehind p bl.ctx = false → th.st ≠ .exited →
      (s.findPod bl.ctx id = none → sends i [1])
      ∧ ∀ q, s.findPod bl.ctx id = some q → (q.complete = true → sends i [2])
          ∧ (q.complete = false → q.cancel = true → sends i [3])
          ∧ (q.complete = false → q.cancel = false → ∃ t, exec i s = .next t
            ∧ OnlyMe s { t with coh := s.coh, heads := s.heads } ∧ Went { th with ecnt := th.ecnt + 1 } t (th.pc + 8)
            ∧ ∀ o ∈ (tget t.heads bl.ctx).main.grids, o.seq = q.seq → o.cancel = true ∧ o.kill = kill ∧ o.offer = none))
    ∧ (s.executes c (.lstat c d a) = true → free →
      (id < 2 ^ 31 → s.findGrid p bl.ctx id = none → sends (.lstat c d a) (words 5 0 0 0 0))
      ∧ (id < 2 ^ 31 → s.findGrid p bl.ctx id = some g → sends (.lstat c d a) (words
          (match g.state with
            | .dealing => 0
            | .dealt => 1
            | .complete => 2
            | .cancelling => 3
            | .cancelled => 4) g.faults g.fin g.kld g.notStarted))
      ∧ (2 ^ 31 ≤ id → s.podBehind p bl.ctx = false → s.findPod bl.ctx id = none → sends (.lstat c d a) (words 5 0 0 0 0))
      ∧ ∀ q, 2 ^ 31 ≤ id → s.podBehind p bl.ctx = false → s.findPod bl.ctx id = some q →
          sends (.lstat c d a) (words q.code q.faults q.fin q.kld q.notStarted))

-- Events

/-- R245-R250: at a picker's turn waits that are over end, and each free partition of the core with a candidate takes the one
that ranks first; of a bucket it takes up to 32 eligible loose threads of one block at one PC and in one mode, each in a
lane of its own, and only of a block that runs; the warps formed begin to issue, at most one a partition. A core whose cycle
DUTY withholds forms none (which cycles those are is the model's choice, log 17; so are the corners of ages and merges, log 24,
and the order of two exchanges that rank alike, log 73). (The last clause takes states whose blocks have numbers of their own, as every step keeps them.) Registers, predicates, handles, FPCSR and MSTATE of every thread and all of memory stay. -/
def Obligations.WarpsForm : Prop :=
  ∀ (s : State) (p c : Nat),
    let u := s.looked p c
    let k := u.core p c
    let stopped : Prop := (s.pkg p).power.duty < s.cycle % 64
    ∃ t new, exec (.warpForm p c) s = .next t
      ∧ t = { s with
          blocks := t.blocks, cores := t.cores, ctxs := t.ctxs, pkgs := t.pkgs, coh := t.coh, issue := s.issue ++ new
          nextWarp := t.nextWarp }
      ∧ (∀ b j, (t.thr b j).regs = (s.thr b j).regs ∧ (t.thr b j).marks = (s.thr b j).marks
        ∧ (t.thr b j).preds = (s.thr b j).preds ∧ (t.thr b j).handles = (s.thr b j).handles
        ∧ (t.thr b j).fpcsr = (s.thr b j).fpcsr ∧ (t.thr b j).ms = (s.thr b j).ms)
      ∧ (new.map (·.part)).Pairwise (· < ·)
      ∧ (∀ w ∈ new, w.pkg = p ∧ w.core = c ∧ w.start = s.cycle ∧ w.part < 4)
      ∧ (stopped → new = [])
      ∧ (∀ q, q < 4 → tget k.pickBusy q ≤ s.cycle → u.candidates p c q ≠ [] →
          ∃ y ∈ u.candidates p c q, (q, y.pick) ∈ u.choices p c ∧ ∀ z ∈ u.candidates p c q, keyLt z.key y.key = false)
      ∧ (¬stopped → s.blocksOk = true → ∀ q b pc mode, (q, Pick.bucket b pc mode) ∈ u.choices p c →
          u.blockRuns (u.blk b) = true ∧ ∃ w ∈ new, w.part = q ∧ w.lanes ≠ [] ∧ w.lanes.length ≤ 32 ∧ (w.lanes.map (·.2.2)).Nodup
            ∧ w.todo = w.lanes.map (fun l => (l.1, l.2.1))
            ∧ ∀ l ∈ w.lanes, l.1 = b ∧ l.2.2 < 32 ∧ ∃ th, (l.2.1, th) ∈ (u.blk b).threads
                ∧ th.issuable = true ∧ th.stallUntil ≤ s.cycle ∧ th.readySince < s.cycle ∧ th.pc = pc ∧ th.ms.mode = mode)

/-- R172, R173, R175, R259, R307, R347, R363-R367, R370: a result that lands puts its words and flags in its thread and lowers
its count (in an exited thread only a command's words are put; that R307 outranks R16 there is the model's choice, log 67); an acknowledgement lowers SCNT; of a peer's responses the oldest lands first. A home applies a waiting store, atomic or
reduction once it may, byte for byte, and sends the old value or the acknowledgement back, unless it refuses the operation or
the page holds code; a push renews its die copy; the L1's base moves on by each 2^20 ns that have passed, with what has expired gone; a lost view of
time empties the L1; a snoop waits at its home as a write. -/
def Obligations.HomesAndReturns : Prop :=
  ∀ (s : State) (k p c pa : Nat) (data : List Byte),
    (∀ l, s.coh.lands[k]? = some l → s.mayLand l.blk l.resp = true →
      let th := s.thr l.blk l.tid
      let bl := s.blk l.blk
      ∃ t, exec (.loadWriteback k) s = .next t ∧ OnlyBlk s { t with coh := s.coh, cores := s.cores, pkgs := s.pkgs } l.blk
        ∧ (l.resp = none → t.pkgs = s.pkgs)
        ∧ t.coh = { s.coh with lands := s.coh.lands.take k ++ s.coh.lands.drop (k + 1) }
        ∧ t.blk l.blk = { bl with threads := (t.blk l.blk).threads, tags := (t.blk l.blk).tags }
        ∧ (∀ j, j ≠ l.tid → t.thr l.blk j = s.thr l.blk j)
        ∧ (∀ q, (tget t.cores q).l1 = if l.clear = true ∧ q = coreKey bl.pkg bl.core then
            (tget s.cores q).l1.filter (fun e => e.ctx ≠ bl.ctx) else (tget s.cores q).l1)
        ∧ (t.thr l.blk l.tid).lcnt = (if l.ecnt then th.lcnt else th.lcnt - 1)
        ∧ (t.thr l.blk l.tid).ecnt = (if l.ecnt then th.ecnt - 1 else th.ecnt)
        ∧ (t.thr l.blk l.tid).pc = th.pc ∧ (t.thr l.blk l.tid).st = th.st ∧ (t.thr l.blk l.tid).preds = th.preds
        ∧ (th.st = .exited → (t.thr l.blk l.tid).fpcsr = th.fpcsr ∧ (l.ecnt = false → (t.thr l.blk l.tid).regs = th.regs))
        ∧ (th.st ≠ .exited ∨ l.ecnt = true → (l.regs.map (·.1)).Nodup → (∀ r ∈ l.regs, th.unready r.1 s.cycle = []) →
            ∀ r, tget (t.thr l.blk l.tid).regs r = (written l.regs r).getD (tget th.regs r)
              ∧ tget (t.thr l.blk l.tid).marks r = if (written l.regs r).isSome then l.marked else tget th.marks r)
        ∧ (th.st ≠ .exited → (t.thr l.blk l.tid).fpcsr = { th.fpcsr with flags := th.fpcsr.flags ||| l.flags }
            ∧ (t.thr l.blk l.tid).ms = (if l.clrRes then { th.ms with res := false } else th.ms)))
    ∧ (∀ a, s.coh.acks[k]? = some a → s.mayLand a.blk a.resp = true → ∃ t, exec (.storePerformed k) s = .next t
        ∧ OnlyBlk s { t with coh := s.coh, cores := s.cores, pkgs := s.pkgs } a.blk ∧ (a.resp = none → t.pkgs = s.pkgs)
        ∧ t.coh = { s.coh with acks := s.coh.acks.take k ++ s.coh.acks.drop (k + 1) }
        ∧ (∀ q, (tget t.cores q).l1 = (tget s.cores q).l1)
        ∧ t.blk a.blk = { s.blk a.blk with threads := (t.blk a.blk).threads }
        ∧ t.thr a.blk a.tid = { s.thr a.blk a.tid with scnt := (s.thr a.blk a.tid).scnt - 1 }
        ∧ ∀ j, j ≠ a.tid → t.thr a.blk j = s.thr a.blk j)
    ∧ (∀ o b j, s.coh.ops[k]? = some o → o.who = .thread b j → s.canApply k o = true →
        s.physKey o.pkg (s.paOf o.pkg o.key) = o.key → s.opBarred o = false → s.codeWrite o = false →
        s.inParts o = false →
        ∃ t, exec (.homeWriteApply k) s = .next t ∧ t.coh.ops = s.coh.ops.take k ++ s.coh.ops.drop (k + 1)
          ∧ (∀ b j, (t.thr b j) = s.thr b j)
          ∧ (∀ bs, o.kind = .store bs → Stored s t o.key (bs.map fun x => (x, false)) ∧ t.coh.lands = s.coh.lands
            ∧ (∃ vc r, t.coh.acks = s.coh.acks ++ [⟨b, j, vc, r⟩] ∧ (r = none ↔ (s.blk b).pkg = o.pkg))
            ∧ ∀ d ∈ s.coh.copies, d.pkg = o.pkg → d.die ≠ s.homeOf o.pkg o.key → d.sector ∈ o.sectors →
                ∃ q ∈ t.coh.pushes, q.pkg = o.pkg ∧ q.dst = d.die ∧ q.sector = d.sector ∧ q.who = o.who
                  ∧ ∀ i, i < 32 → q.bytes[i]? = some (t.byteAt (d.sector * 32 + i)))
          ∧ ∀ op w64 v cmp ret, o.kind = .atom op w64 v cmp ret →
              let n := if w64 then 8 else 4
              let old := leNat (tgets s.mem o.key n)
              let bad := (tgets s.bad o.key n).any id
              let r := atomNew op w64 ⟨rmOfCode o.rm, o.daz, o.ftz⟩ old v.toNat cmp.toNat
              Stored s t o.key ((leBytes n r.1).map fun x => (x, bad))
              ∧ (ret = false → t.coh.lands = s.coh.lands ∧ ∃ vc r, t.coh.acks = s.coh.acks ++ [⟨b, j, vc, r⟩])
              ∧ (ret = true → t.coh.acks = s.coh.acks ∧ ∃ l, t.coh.lands = s.coh.lands ++ [l] ∧ l.blk = b ∧ l.tid = j
                  ∧ l.regs = o.dst.zip (valueWords w64 old) ∧ l.marked = bad ∧ l.flags = r.2 ∧ l.unhold = o.sc))
    ∧ (∀ o, s.coh.ops[k]? = some o → s.canApply k o = false ∨ s.inParts o = true → exec (.homeWriteApply k) s = .next s)
    ∧ (∀ u, s.coh.pushes[k]? = some u → s.canPush k u = true → ∃ t, exec (.pushApply k) s = .next t
        ∧ t.coh = { s.coh with pushes := s.coh.pushes.take k ++ s.coh.pushes.drop (k + 1), copies := t.coh.copies }
        ∧ t.mem = s.mem ∧ t.bad = s.bad ∧ ((∀ c ∈ s.cmds, c.flown = []) → t = { s with coh := t.coh })
        ∧ t.coh.copies.length = s.coh.copies.length
        ∧ ∀ (i : Nat) d, s.coh.copies[i]? = some d → t.coh.copies[i]? =
            some (if d.pkg = u.pkg ∧ d.die = u.dst ∧ d.sector = u.sector then { d with bytes := u.bytes, vcs := u.vcs } else d))
    ∧ (∃ t, exec (.l1Rebase p c) s = .next t ∧ OnlyCore s t p c
        ∧ (s.gtime p < (s.core p c).lbase + 2 ^ 20 → t.core p c = s.core p c)
        ∧ ∀ n, (s.core p c).lbase + 2 ^ 20 * n ≤ s.gtime p → s.gtime p < (s.core p c).lbase + 2 ^ 20 * (n + 1) →
          t.core p c = { s.core p c with
            lbase := (s.core p c).lbase + 2 ^ 20 * n
            l1 := ((s.core p c).l1.filter fun e => 2 ^ 15 * n ≤ e.exp.toNat).map fun e =>
              { e with exp := BitVec.ofNat 16 (e.exp.toNat - 2 ^ 15 * n) } })
    ∧ (∃ t, exec (.timeViewLost p c) s = .next t ∧ OnlyCore s t p c
        ∧ t.core p c = { s.core p c with l1 := [], viewLost := true })
    ∧ (isXt pa = true → s.inMap p pa = true → s.cutOff p pa = false → ∃ t o, exec (.hostSnoop p pa data) s = .next t
        ∧ t = { s with coh := { s.coh with ops := s.coh.ops ++ [o] } } ∧ o.pkg = p ∧ o.who = .host
        ∧ o.key = s.physKey p pa / 128 * 128
        ∧ o.kind = .snoop (s.physKey p pa % 128) (data.take (128 - s.physKey p pa % 128)))

/-- R210-R213, R218, R289-R292: the arbiter of a core's outer-product grid grants the entry that ranks first, where the grid is
free and DUTY allows: a pass of its crew, or the capture of its tile. A granted pass reads its panels in the cycle of its grant
and the next, and commits at the end of the 7th cycle after its grant, for FP64 of the 9th: each
crew thread's window takes the accumulation of its elements, with their flags, and DEPTH and PASS move on, or MPROG is
cleared after the last; a pass that meets poison changes no window, sets RSM and stops. A capture ends after 16 cycles:
its tile is in the engine's command, which starts no granule where the block has halted, and its 128 threads go on. (The cycles that
GDUTY allows are the model's choice, log 17; so are what a stop on poison shows, log 19, and that each byte is read in the first
or in the second of the two cycles, log 51, that a poisoned window register is taken as it stands, log 76, and that an accumulator is captured
without regard to DAZ, log 85.) -/
def Obligations.GridPasses : Prop :=
  ∀ (s : State) (p c b : Nat),
    let kc := s.core p c
    let bl := s.blk b
    let ts := bl.mgang.threads
    let wins (y : Nat × Block) : Prop :=
      leastBy (fun z : Nat × Block => z.2.gridKey (s.pkg p) s.cycle) (s.gridEntries p c) = some y
    let free : Prop := kc.sliced = false ∧ kc.gridFree ≤ s.cycle ∧ kc.capUntil ≤ s.cycle
      ∧ s.cycle % 64 ≤ (s.pkg p).power.gduty ∧ (kc.lastCrew = some b ∨ s.gridEmpty p c = true)
    (s.gridEntries p c ≠ [] → ∃ y ∈ s.gridEntries p c, wins y ∧ ∀ z ∈ s.gridEntries p c,
      keyLt (z.2.gridKey (s.pkg p) s.cycle) (y.2.gridKey (s.pkg p) s.cycle) = false)
    ∧ (wins (b, bl) → free → ∃ t, exec (.gridGrant p c) s = .next t ∧ OnlyBlk s { t with cores := s.cores } b
        ∧ (∀ q, q ≠ coreKey p c → tget t.cores q = tget s.cores q)
        ∧ (∀ r, bl.crew = some r →
            t.core p c = { kc with lastCrew := some b, gridFree := s.cycle + (if r.ty = .f64 then 2 else 1) }
            ∧ t.blk b = { bl with crew := some { r with
                granted := r.granted ++ [⟨r.next, s.cycle, bl.shm, false⟩], lastGrant := s.cycle
                next := if r.kind = .mmasp then bl.skipFrom r.ha.record r.k 128 (r.next + passDepth r.ty r.kind)
                  else r.next + passDepth r.ty r.kind } })
        ∧ (∀ d, bl.crew = none → bl.drain = some d →
            t.core p c = { kc with lastCrew := some b, capUntil := s.cycle + 16 }
            ∧ t.blk b = { bl with drain := some { d with startCap := some s.cycle } }))
    ∧ (∀ r0 (i : Nat) g, bl.crew = some r0 → r0.granted[i]? = some g →
        ∃ g', (r0.reads s.tick s.cycle bl.shm).granted[i]? = some g' ∧ g'.depth = g.depth ∧ g'.at_ = g.at_
          ∧ (g.read = true ∨ s.cycle < g.at_ + 2 → g' = g)
          ∧ (g.read = false → g.at_ + 2 ≤ s.cycle → g'.read = true ∧ ∀ a, g'.shm.at a = g.shm.at a ∨ g'.shm.at a = bl.shm.at a))
    ∧ (∀ r0 r k0 t0 shm rd rest, bl.crew = some r0 → r = r0.reads s.tick s.cycle bl.shm → r.granted = ⟨k0, t0, shm, rd⟩ :: rest →
        ts.Nodup →
        (s.cycle ≤ t0 + (if r.ty = .f64 then 9 else 7) → ∃ t, exec (.passCommit b) s = .next t ∧ OnlyBlk s t b
            ∧ t.blk b = { bl with crew := some r })
        ∧ (t0 + (if r.ty = .f64 then 9 else 7) < s.cycle → ∃ t, exec (.passCommit b) s = .next t ∧ OnlyBlk s t b
            ∧ (∀ j, j ∉ ts → t.thr b j = s.thr b j)
            ∧ (∀ a, lowestBad (bl.passRows r k0 shm) = some a → (t.blk b).crew = none ∧ ∀ j ∈ ts,
                (t.thr b j).regs = (s.thr b j).regs ∧ (t.thr b j).mprog = { (s.thr b j).mprog with rsm := true }
                  ∧ ((s.thr b j).st ≠ .exited → (t.thr b j).panelStop = some (BitVec.ofNat 57 a)
                    ∧ (∀ w, bl.parts = [] → (s.thr b j).wait = some (.crew w) → (s.thr b j).ms.h = false → (t.thr b j).wait = none)))
            ∧ (lowestBad (bl.passRows r k0 shm) = none →
                let last : Prop := rest = [] ∧ r.k ≤ r.next
                (last → (t.blk b).crew = none) ∧ (¬last → (t.blk b).crew = some { r with granted := rest })
                ∧ (last → (t.blk b).drain = bl.drain.map fun d => { d with lastGrant := s.cycle - 1 })
                ∧ ∀ (i j : Nat), ts[i]? = some j →
                  let ab := (s.thr b j).ms.abase.toNat
                  let f64 : Bool := r.ty = .f64
                  let vals := (ownElems f64 i).map fun e =>
                    ((bl.passRows r k0 shm).1.getD e.1 default, (bl.passRows r k0 shm).2.getD e.2 default)
                  (∀ (n : Nat) v, vals[n]? = some v → f64 = false → tget (t.thr b j).regs (ab + n) = BitVec.ofNat 32 (if r.ints then
                      accumulateInt (bl.accAt false j n) (termsOf k0 v.1 v.2)
                    else (accumulate .f32 r.env (bl.accAt false j n) (termsOf k0 v.1 v.2)
                      (bothScales v.1.scale v.2.scale)).1))
                  ∧ (∀ (n : Nat) v, vals[n]? = some v → f64 = true → r.ints = false →
                      tget (t.thr b j).regs (ab + 2 * n + 1) ++ tget (t.thr b j).regs (ab + 2 * n)
                        = BitVec.ofNat 64 (accumulate .f64 r.env (bl.accAt true j n) (termsOf k0 v.1 v.2)
                          (bothScales v.1.scale v.2.scale)).1)
                  ∧ (∀ q, q < ab ∨ ab + 64 ≤ q → tget (t.thr b j).regs q = tget (s.thr b j).regs q)
                  ∧ (t.thr b j).pc = (s.thr b j).pc
                  ∧ (t.thr b j).fpcsr = { (s.thr b j).fpcsr with flags := (s.thr b j).fpcsr.flags
                      ||| (bl.passThread r k0 (bl.passRows r k0 shm).1 (bl.passRows r k0 shm).2 i j).2 }
                  ∧ (last → (t.thr b j).mprog = ⟨false, 0, 0⟩)
                  ∧ (¬last → (t.thr b j).mprog = { (s.thr b j).mprog with
                      pass := (s.thr b j).mprog.pass + 1
                      depth := BitVec.ofNat 13 ((rest.map (·.depth)).headD r.next) }))))
    ∧ (∀ d t0, bl.drain = some d → d.startCap = some t0 → t0 + 16 ≤ s.cycle → ts.Nodup →
        ∃ t k, exec (.drainCapture b) s = .next t ∧ OnlyBlk s { t with cmds := s.cmds, nextCmd := s.nextCmd } b
          ∧ t.cmds = s.cmds ++ [k] ∧ t.nextCmd = s.nextCmd + 1 ∧ (t.blk b).drain = none
          ∧ k.id = s.nextCmd ∧ k.kind = .drain ∧ k.blk = b ∧ k.tids = ts ∧ k.handle = d.hc ∧ k.barb = d.barb ∧ k.mode = d.mode
          ∧ k.acc = d.acc ∧ k.sreg = d.sreg ∧ k.done = [] ∧ k.shut = !s.blockRuns bl ∧ k.oc = (s.core bl.pkg bl.core).oc
          ∧ (∀ (i j n : Nat) e, ts[i]? = some j → (ownElems (d.acc = .f64) i)[n]? = some e →
              tget k.tile (e.1 * 64 + e.2) = BitVec.ofNat 64 (d.capture (bl.accAt (d.acc = .f64) j n)).1
                ∧ tget k.tileBad (e.1 * 64 + e.2) = bl.accBad (d.acc = .f64) j n)
          ∧ (∀ j, j ∉ ts → t.thr b j = s.thr b j)
          ∧ ∀ j ∈ ts, (t.thr b j).ecnt = (s.thr b j).ecnt + 1 ∧ (t.thr b j).pc = (s.thr b j).pc + 8
              ∧ (t.thr b j).issuable = true ∧ (t.thr b j).regs = (s.thr b j).regs)

/-- R195, R219, R228-R234, R302-R306, R350: a granule that can be performed moves its bytes: copy its source to its destination,
gath the row that its index names, as it was first fetched, or zeros and code 5 where there is none, scat its row added in FP32 at the row that its
index names, or in exact accumulation at its cells, drain its part of the captured tile, stored or added, with the poison of
its elements; then it is among the granules done, with code 4 for a poisoned source, once its writes have reached every copy. A
sample ends with its token and code, a gauge with the pages it rehashed; once all is delivered the status word is
written, in an exited thread too (R307), ECNT falls and the command is gone. A barb loses the bytes delivered. (That a granule
is one event which waits at its homes, and the corners of gath and scat, are the model's choices, logs 14, 29 and 30; so are that
R307 outranks R16, log 67, how a page of 64 KiB mapped in part counts, log 78, and that a poisoned index is used as it stands, log 85.) -/
def Obligations.EngineGranules : Prop :=
  ∀ (s y x : State) (g : Nat) (k : EngCmd) (xs : List (Piece × Xl)),
    let bl := s.blk k.blk
    let r := k.handle.record
    let i := s.indexOf k g
    let key (l : Xl) : Nat := x.physKey l.pkg l.pa
    let put (e : Piece × Xl) : Prop := writes xs = [e] ∧ x.barred e.2.pkg k.ctx e.2.pa true = false
    let keeps (t : State) : Prop := ∀ a, t.byteAt a = s.byteAt a
    let shm (t : State) (off : Nat) (bs : List (Byte × Bool)) : Prop :=
      bl.shm.Stored (t.blk k.blk).shm off bs ∧ ∀ b, b ≠ k.blk → t.blk b = s.blk b
    let blocks (t : State) : Prop := ∀ b, t.blk b = s.blk b
    let tell (bs : List (Byte × Bool)) : Nat := if bs.any (·.2) then 4 else 0
    (s.granReady y x .copy g k xs → k.barb = none →
      let q := (copyGrans k.group).getD g default
      let near := bl.shm.read q.src q.len
      let far := x.engRead k (reads xs)
      (k.srcS = false → k.dstS = true → ∃ t, exec (.copyGranule k.id g) s = .next t ∧ keeps t ∧ shm t q.dst far
        ∧ Delivered t k g (tell far) (some q.src))
      ∧ (k.srcS = true → k.dstS = true → ∃ t, exec (.copyGranule k.id g) s = .next t ∧ keeps t ∧ shm t q.dst near
        ∧ Delivered t k g (tell near) none)
      ∧ ∀ e, put e →
        (k.srcS = true → k.dstS = false → near.length ≤ e.1.len → ∃ t, exec (.copyGranule k.id g) s = .next t ∧ blocks t
          ∧ Stored s t (key e.2) near ∧ Delivered t k g (tell near) none)
        ∧ (k.srcS = false → k.dstS = false → far.length ≤ e.1.len → ∃ t, exec (.copyGranule k.id g) s = .next t ∧ blocks t
          ∧ Stored s t (key e.2) far ∧ Delivered t k g (tell far) (some q.src)))
    ∧ (s.granReady y x .gath g k xs → k.barb = none →
      let row := if tget k.rows i = [] then x.engRead k xs else tget k.rows i
      (i < recNrow r → ∃ t, exec (.gathPosition k.id g) s = .next t ∧ keeps t
        ∧ shm t (grp k.group 0 + g * gathRow r) row ∧ Delivered t k g (tell row) (some (shapeRow r i)))
      ∧ (recNrow r ≤ i → ∃ t, exec (.gathPosition k.id g) s = .next t ∧ keeps t
        ∧ shm t (grp k.group 0 + g * gathRow r) (List.replicate (gathRow r) (0, false)) ∧ Delivered t k g 5 none))
    ∧ (s.granReady y x .scat g k xs → k.barb = none →
      (recNrow r ≤ i → ∃ t, exec (.scatPosition k.id g) s = .next t ∧ keeps t ∧ blocks t ∧ Delivered t k g 5 none)
      ∧ (i < recNrow r → k.cover.contains g = true →
        ∃ t, exec (.scatPosition k.id g) s = .next t ∧ keeps t ∧ blocks t ∧ Delivered t k g 0 none)
      ∧ ∀ e, xs = [e] → e.1.len = 4 * recNcol r → x.barred e.2.pkg k.ctx e.2.pa true = false → recFcode r = 0x0A → i < recNrow r →
          k.cover.contains g = false → g < grp k.group 2 → (∀ p, p < grp k.group 2 → p ≠ g → s.indexOf k p ≠ i) →
          s.scatBad k g = false → (∀ n, n < 4 * recNcol r → (x.byteAt (key e.2 + n)).2 = false) →
          ∃ t, exec (.scatPosition k.id g) s = .next t ∧ blocks t ∧ Delivered t k g 0 none
            ∧ (∀ n, n < recNcol r → leNat (tgets t.mem (key e.2 + 4 * n) 4) =
                (fpAdd .f32 ⟨rmOfCode k.rm, k.daz, k.ftz⟩ (leNat (tgets s.mem (key e.2 + 4 * n) 4))
                  (bl.shm.num (grp k.group 0 + g * scatRow r + 4 * n) 4)).1)
            ∧ ∀ a, a < key e.2 ∨ key e.2 + 4 * recNcol r ≤ a → t.byteAt a = s.byteAt a)
    ∧ (s.granReady y x .scat g k xs → k.barb = none → recFcode r = 0x42 → i < recNrow r → k.cover.contains g = false →
      g < grp k.group 2 → ∀ e, xs = [e] → e.1.len = 64 * recNcol r → x.barred e.2.pkg k.ctx e.2.pa true = false →
      s.scatBad k g = false → ∃ t, exec (.scatPosition k.id g) s = .next t ∧ blocks t ∧ Delivered t k g 0 none
        ∧ Stored s t (key e.2) (addAll k 0x42 (shapeBytes r) (x.engRead k xs) (s.scatVals k g)))
    ∧ (s.granReady y x .drain g k xs → k.barb = none → ∀ e, put e →
      let q := k.drainGrans.getD g default
      let w := k.elemBytes
      let vs := (List.range (q.len / w)).map fun n => (tget k.tile (q.src + n)).toNat
      let bs := match k.mode with
        | .st => clean (vs.flatMap (leBytes w))
        | _ => addAll k (recFcode r) w (x.engRead k xs) vs
      let bad (n : Nat) : Bool := tget k.tileBad (q.src + n / w)
      bs.length ≤ e.1.len → ∃ t, exec (.drainGranule k.id g) s = .next t ∧ blocks t
        ∧ Stored s t (key e.2) (((List.range bs.length).zip bs).map fun b => (b.2.1, b.2.2 || bad b.1))
        ∧ Delivered t k g (if (List.range q.len).any bad then 4 else 0) none)
    ∧ (s.cmd? k.id = some k → k.kind = .sample → k.shut = false → k.waits = [] → k.dirty = false → k.stop = false →
      k.tids = [k.tid] → (∃ o ∈ (s.samplesOn k.pkg (dieOf bl.core)).take 2, o.id = k.id) →
      let v := grp k.group 1
      let w := shapeBytes r
      let th := s.thr k.blk k.tid
      let ends (code : Nat) (tok : Word) : Prop := ∃ t, exec (.sampleComplete k.id) s = .next t ∧ keeps t
        ∧ t.cmds = s.cmds.filter (fun o => o.id ≠ k.id) ∧ (t.thr k.blk k.tid).ecnt = th.ecnt - 1
        ∧ (k.sreg < 247 → th.unready k.sreg s.cycle = [] → th.unready (k.sreg + 1) s.cycle = [] →
            tget (t.thr k.blk k.tid).regs k.sreg = tok
              ∧ tget (t.thr k.blk k.tid).regs (k.sreg + 1) = BitVec.ofNat 32 code)
        ∧ ∀ b j, b ≠ k.blk ∨ j ≠ k.tid → t.thr b j = s.thr b j
      (∀ ys bs tok code, s.logitBytes k (pieces (shapeRow r (grp k.group 0)) (v * w) true false) = (x, .ok ys, bs) →
        sampleRow (if w = 4 then .f32 else .bf16) (elemsOf w bs) k.group k.seed = (tok, code) → code < 256 →
        ends code (BitVec.ofNat 32 tok))
      ∧ ∀ c va bs, k.code = 0 → c < 256 →
        s.logitBytes k (pieces (shapeRow r (grp k.group 0)) (v * w) true false) = (x, .fail c va, bs) → ends c 0xFFFFFFFF#32)
    ∧ (s.cmd? k.id = some k → k.kind = .gauge → k.stop = false → k.result = none → k.shut = false → k.waits = [] →
      let n := grp k.group 2
      let ps := (List.range n).filter fun p =>
        decide (grp k.group 3 = 1) || k.cover.contains p || s.pageMarked k.pkg k.ctx (grp64 k.group 0 + 65536 * p)
      let inner := changedNodes n ps
      let kids := (inner.flatMap fun m => [2 * m, 2 * m + 1]).eraseDups
      ∀ leaves code, s.leaves k ps = (y, leaves, code, none) →
        y.nodeXls k (grp64 k.group 4) (0 :: ps.map (n + ·) ++ inner ++ kids).eraseDups = (x, .ok xs) →
        (∀ e ∈ xs, x.mayWrite k.id 0 e.2.pkg e.2.pa 32 = true) →
        ∃ t c code', exec (.gaugeComplete k.id) s = .next t ∧ t.cmd? k.id = some c
          ∧ c.result = some (BitVec.ofNat 32 ps.length, code') ∧ blocks t
          ∧ (ps = [] → ∀ e, xs = [e] → e.1.va = grp64 k.group 4 → x.barred e.2.pkg k.ctx e.2.pa true = false →
              code' = 0 ∧ Stored s t (key e.2) ((leBytes 32 0).map fun b => (b, false))))
    ∧ (s.cmd? k.id = some k → k.kind ∈ [EngKind.copy, .gath, .scat, .drain] → k.barb = none →
      k.stop = true ∨ k.done.length = k.total → k.flown = [] → s.engPushes k.id = false → k.tids = [k.tid] →
      let th := s.thr k.blk k.tid
      ∃ t, exec (.engineStatusWrite k.id) s = .next t ∧ keeps t ∧ t.cmds = s.cmds.filter (fun o => o.id ≠ k.id)
        ∧ (t.thr k.blk k.tid).ecnt = th.ecnt - 1
        ∧ (k.code < 256 → k.sreg < 248 → th.unready k.sreg s.cycle = [] → tget (t.thr k.blk k.tid).regs k.sreg =
            BitVec.ofNat 24 (min k.done.length 0xFFFFFF) ++ BitVec.ofNat 8 k.code)
        ∧ (∀ b j, b ≠ k.blk ∨ j ≠ k.tid → t.thr b j = s.thr b j)
        ∧ (k.code = 0 → t.pkgs = s.pkgs)
        ∧ (k.code ≠ 0 → ∀ gr, s.findGrid k.pkg k.ctx bl.grid = some gr →
            ∃ gr', gr' ∈ (t.pkg k.pkg).grids ∧ gr'.acc = gr.acc ∧ gr'.faults = gr.faults + 1))
    ∧ ∀ (b off n : Nat) (p : Int), p = ((s.blk b).barbAt off).pend - n → -(2 ^ 23) ≤ p →
        p ≠ 0 ∨ ((s.blk b).barbAt off).arr ≠ 0 →
        ((s.barbSub b off n).blk b).barbAt off = { (s.blk b).barbAt off with pend := p }

/-- R111, R314-R316, R326, R379-R381: at its hold limit a join slot lets every waiter go on with its bit cleared. An answer to a page
request lets each parked waiter execute again, or faults it with cause 0x0A; one that names no outstanding
request is counted as late. A doorbell makes the next generation current, leaves no translation of the context (of the
page) and, once no write of it is outstanding, tells the host. The host's record and TAIL, and Runtime's dwords of a descriptor, as
they stand, or of a queue, with their reserved bits 0, wait at their homes as posted writes, TAIL behind its record; the checkgate
takes up new entries of a queue in use; the scheduling word keeps its fields, GDL clamped. (What waiters do at an answer is the
model's choice, log 34; so are that such writes are posted and in what order, which dwords they reach, and when an entry is
taken up, log 35.) -/
def Obligations.HostAndWaits : Prop :=
  ∀ (s : State) (b p x q n tag status : Nat) (page : Option VAddr) (rec : List Dword) (tail : Word) (v : Dword),
    let bl := s.blk b
    (bl.place = .resident → s.blockRuns bl = true → bl.joinDue n s.cycle = true →
      ∃ t, exec (.joinHoldExpiry b n) s = .next t ∧ OnlyBlk s t b
        ∧ t.blk b = { bl with threads := (t.blk b).threads, joins := (t.blk b).joins }
        ∧ (∀ j, j ∉ bl.joinWaiters n → t.thr b j = s.thr b j)
        ∧ (∀ j ∈ bl.joinWaiters n, (t.thr b j).issuable = true ∧ (t.thr b j).regs = (s.thr b j).regs
          ∧ (j < 1024 → (tget (t.blk b).joins n).getLsbD j = false)
          ∧ ((bl.joinWaiters n).Nodup → (t.thr b j).pc = (s.thr b j).pc + 8))
        ∧ ∀ m, m ≠ n → tget (t.blk b).joins m = tget bl.joins m)
    ∧ (bl.joinDue n s.cycle = false → exec (.joinHoldExpiry b n) s = .next s)
    ∧ (s.hostUp p = true →
        let ans : Instr := .pageAnswer p (s.pctx p x).num tag status
        let found (r : PageReq) : Prop := (s.coh.reqs.find? fun q => q.pkg = p && q.tag = tag) = some r
        ((∀ r ∈ s.coh.reqs, r.pkg = p → r.tag ≠ tag) → ∃ t, exec ans s = .next t ∧ OnlyPkg s t p
          ∧ t.pkg p = { s.pkg p with late := (s.pkg p).late + 1 })
        ∧ (∀ r, found r → r.ctx = x → (s.pctx p x).live = true → status = 0 →
          ∃ t, exec ans s = .next t ∧ (∀ a, t.byteAt a = s.byteAt a)
            ∧ (∀ o j va, Who.thread o j ∈ r.waiters → (s.thr o j).st = .parked → (s.thr o j).pk = some va →
                (s.thr o j).wait = none → (s.thr o j).Kept (t.thr o j) ∧ (t.thr o j).issuable = true ∧ (t.thr o j).pk = none)
            ∧ ∀ o j, r.preqs = [(o, j)] → r.waiters = [] →
                t.thr o j = { s.thr o j with scnt := (s.thr o j).scnt - 1 })
        ∧ ∀ r o j va wr, found r → r.ctx = x → (s.pctx p x).live = true → status ≠ 0 → r.preqs = [] →
          r.waiters = [.thread o j] → (s.thr o j).st = .parked → (s.thr o j).pk = some (wr, va) → (s.thr o j).wait = none →
          (s.thr o j).ms.h = false → ∃ t, exec ans s = .next t ∧ (∀ a, t.byteAt a = s.byteAt a)
            ∧ t.thr o j = { s.thr o j with
                tframe0 := frameWord 0x0A (s.thr o j).pc false, tcause := tcauseWord 0 none
                ms := { (s.thr o j).ms with h := true }, pc := tvecPc (s.thr o j).tvec, st := .handler, wait := none
                pk := none, via := some ⟨true, none⟩, readySince := max s.lastCycle (s.thr o j).issued })
    ∧ ((s.pctx p x).live = true → s.hostUp p = true → (s.pctx p x).bells = [] → (s.pctx p x).rung = [] →
        (s.pctx p x).shoots = [] → (∀ o ∈ s.coh.ops, o.pkg = p → o.ctx ≠ x) →
        (∀ r ∈ s.coh.remote, ¬(r.op.pkg = p ∧ r.op.ctx = x)) →
        ∃ t, exec (.invalidationDoorbell p x page) s = .next t ∧ t.blocks = s.blocks ∧ (∀ a, t.byteAt a = s.byteAt a)
          ∧ t.pctx p x = { s.pctx p x with
              gen := (s.pctx p x).gen + 1, xlat := if page = none then s.descDw p x 0 else (s.pctx p x).xlat }
          ∧ (t.pkg p).host = (s.pkg p).host ++ [.doorbell (s.pctx p x).num]
          ∧ (∀ e, e ∈ t.coh.tlb ↔ e ∈ s.coh.tlb ∧ ¬(e.pkg = p ∧ e.ctx = x
              ∧ ∀ a, page = some a → e.base ≤ a.toNat ∧ a.toNat < e.base + e.size))
          ∧ ∀ c, c < 512 → ∀ e ∈ (t.core p c).l1, e.ctx = x → ∃ a, page = some a ∧ e.vtag * 128 / e.page ≠ a.toNat / e.page)
    ∧ ((s.pctx p x).live = true → q < 64 → s.rootUp p = true →
        let ra := s.ringPa p x q (s.hostTail p x q)
        let ta := s.queuePa p x q + 12
        s.inMap p ra = true → s.inMap p ta = true → ∃ a e, exec (.hostTailWrite p x q rec tail) s =
            .next { s with coh := { s.coh with ops := s.coh.ops ++ [a, e] } }
          ∧ a.pkg = p ∧ a.who = .host ∧ a.key = s.physKey p ra
          ∧ a.kind = .posted (((List.range 16).map fun i => dw rec i).flatMap fun d => leBytes 8 d.toNat)
          ∧ e.pkg = p ∧ e.who = .host ∧ e.key = s.physKey p ta ∧ e.kind = .posted (leBytes 4 tail.toNat) ∧ s.behind e a = true)
    ∧ (q < 64 → (∀ m, m < q → s.queueOn p x m = false) → s.queueOn p x q = true →
        (∃ m, 0 < m ∧ m ≤ s.queueSize p x q ∧ s.queueTail p x q = (s.nextEntry p x q + m) % 2 ^ 32) →
        tget ((s.queuesOf p x).pctx p x).taken q = s.queueTail p x q + 1)
    ∧ (s.rootUp p = true →
        (n < 8 → ∃ t, exec (.runtimeRegisterWrite p (.scheduling n) v) s = .next t ∧ OnlyPkg s t p
          ∧ (∀ m, m ≠ n → tget (t.pkg p).parts m = tget (s.pkg p).parts m)
          ∧ tget (t.pkg p).parts n = { tget (s.pkg p).parts n with
              sched := 0#18 ++ BitVec.ofNat 14 (max 10 (min 10000 (v.extractLsb' 32 14).toNat)) ++ 0#4
                ++ v.extractLsb' 16 12 ++ v.extractLsb' 0 16 })
        ∧ (∃ t, exec (.runtimeRegisterWrite p .errorRing v) s = .next t ∧ OnlyPkg s t p
          ∧ t.pkg p = { s.pkg p with errBase := v })
        ∧ ((s.pctx p x).live = true → n < 16 → s.inMap p ((s.pctx p x).desc + 8 * n) = true →
          ∃ o, exec (.runtimeRegisterWrite p (.descriptor x n) v) s =
              .next { s with coh := { s.coh with ops := s.coh.ops ++ [o] } }
            ∧ o.pkg = p ∧ o.who = .host ∧ o.key = s.physKey p ((s.pctx p x).desc + 8 * n) ∧ o.kind = .posted (leBytes 8 v.toNat))
        ∧ ((s.pctx p x).live = true → q < 64 → n < 4 → n ≠ 1 → s.inMap p (s.queuePa p x q + 8 * n) = true →
          let w : Dword := if n = 0 then 0#7 ++ v.extractLsb' 0 57 else if n = 2 then 0#48 ++ v.extractLsb' 8 8 ++ 0#8 else 0
          ∃ o, exec (.runtimeRegisterWrite p (.queue x q n) v) s =
              .next { s with coh := { s.coh with ops := s.coh.ops ++ [o] } }
            ∧ o.pkg = p ∧ o.who = .host ∧ o.key = s.physKey p (s.queuePa p x q + 8 * n)
            ∧ o.kind = .posted (leBytes 8 w.toNat)))

/-- R43, R113, R318-R322, R332, R338-R340, R398, R413: a turnout places the unit that ranks first where it fits: each block of a new
cluster stands with its place in the grid and its threads as a placement leaves them, loose 8 cycles on; its grid has placed
that many more. Ageing closes a terrace for a refused head. A lot is up to 16 clusters of a grid in dealing. A block
whose threads have all exited, with nothing outstanding, retires and is counted; a grid whose blocks have all retired is
complete, or cancelled, with its report, and the completion dword of its entry, posted. A saved block is restored where its
turnout's cycle places it, as its image in memory says it; one whose image fails its checks ends its context. A block at lwait goes
on once its children have ended. (Where an image lies, and what one that was changed leaves unsaid, are the model's choices,
log 37; so are the posting of reports, log 35, and one turnout a die with its hash over the terraces, log 48.) -/
def Obligations.Scheduling : Prop :=
  ∀ (s : State) (p die b acc img c : Nat),
    let u := s.openQueues p
    let bl := s.blk b
    let now := s.cycle
    (∀ head rest a j, u.offers p die = head :: rest → (u.turnout p die).last ≤ now → head.work = .fresh j →
      u.findFit p head (u.terraceOrder p die head) = some a →
      let g := head.grid
      let r := g.record
      let N := recClusterSize r
      ∃ t, exec (.turnoutCycle p die) s = .next t ∧ t.mem = u.mem ∧ t.bad = u.bad
        ∧ (g.kill = false → ∀ o, o < u.nextBlk ∨ u.nextBlk + N ≤ o → t.blk o = s.blk o)
        ∧ (t.turnout p die).closed = none ∧ (t.turnout p die).last = now + 1
        ∧ (∀ o ∈ (u.pkg p).grids, o.acc = g.acc → ∃ o' ∈ (t.pkg p).grids, o'.acc = g.acc ∧ o'.placed = g.placed + N)
        ∧ ∀ (i : Nat) y, i < N → a[i]? = some y →
          let B := t.blk (u.nextBlk + i)
          B.place = .resident ∧ B.pkg = p ∧ B.core = y.1 ∧ B.part0 = y.2 ∧ B.ctx = g.ctx ∧ B.grid = g.id ∧ B.rank = i
            ∧ B.bid = blockXyz r j i ∧ B.record = r ∧ B.shm = default ∧ B.hold = 0x40#16 ∧ B.detcfg = recDeti r
            ∧ (g.kill = true → ∀ o ∈ B.threads, o.2.st = .exited)
            ∧ (g.kill = false → ∀ k, k < vol (recBlock r) → ∃ slot,
                let ro := (furrowRoles r).getD (k / 32) 0
                tget B.threads k = { (default : Thread) with
                  pc := recCode r + BitVec.ofNat 57 (8 * roleEntry r ro), st := .ready
                  ms := { (default : MState) with res := true }, sp := BitVec.ofNat 32 (recLocal r)
                  tvec := u.vector p g.ctx, chk := recChk r, readySince := now + 8, slot := slot, role := ro
                  allot := roleRegs r ro, prio := rolePrio r ro }))
    ∧ (u.offers p die = [] ∨ now < (u.turnout p die).last → exec (.turnoutCycle p die) s = .next u)
    ∧ (∀ head, u.offers p die = [head] → (u.turnout p die).last ≤ now →
        u.findFit p head (u.terraceOrder p die head) = none →
        ∃ t, exec (.turnoutCycle p die) s = .next t ∧ OnlyPkg u t p
          ∧ t.pkg p = { u.pkg p with turns := (t.pkg p).turns } ∧ ∃ since, (t.turnout p die).since head.id = some since)
    ∧ (∀ head rest tc, s.offers p die = head :: rest → s.findFit p head (s.terraceOrder p die head) = none →
        s.ageing p die head = some tc → ∃ t, exec (.terraceCloseAgeing p die) s = .next t ∧ OnlyPkg s t p
          ∧ t.turnout p die = { s.turnout p die with closed := some tc })
    ∧ (∀ g lo hi rest, (u.pkg p).grids = [g] → u.dealable p g = true → recOrd g.record = false → recDet g.record = false →
        (∀ l ∈ (u.pkg p).lots, ¬(l.die = die ∧ l.grid = g.acc)) → (u.partOf p g.ctx).terraces die ≠ [] →
        takeRange 16 g.todo = some ((lo, hi), rest) →
        hi ≤ lo + 16 ∧ ∃ t, exec (.checkgateLotRequest p die) s = .next t ∧ OnlyPkg u t p
          ∧ (t.pkg p).grids = [{ g with todo := rest }] ∧ (t.pkg p).lots = (u.pkg p).lots ++ [⟨die, g.acc, lo, hi⟩])
    ∧ (bl.place = .resident → bl.crew = none → bl.drain = none →
        (∀ o ∈ bl.threads, o.2.st = .exited ∧ o.2.lcnt = 0 ∧ o.2.scnt = 0 ∧ o.2.ecnt = 0) →
        ∃ t, exec (.blockRetire b) s = .next t ∧ (t.blk b).place = .retired ∧ (t.blk b).threads = []
          ∧ (∀ a, t.byteAt a = s.byteAt a)
          ∧ (∀ g, s.findGrid bl.pkg bl.ctx bl.grid = some g → ∃ g' ∈ (t.pkg bl.pkg).grids,
              g' = if g.kill then { g with kld := g.kld + 1 } else { g with fin := g.fin + 1 })
          ∧ ((s.pctx bl.pkg bl.ctx).pre = .running → OnlyBlk s { t with pkgs := s.pkgs } b))
    ∧ (∀ g, (s.pkg p).grids.find? (fun o => o.acc = acc) = some g →
        let deals : Prop := g.state = .cancelling ∧ (g.todo ≠ [] ∨ ∃ l ∈ (s.pkg p).lots, l.grid = g.acc)
        (g.pod = false → g.state = .dealt ∨ g.state = .cancelling → ¬deals → g.fin + g.kld = g.placed →
          let g' := { g with
            state := if g.state = .cancelling then .cancelled else .complete, nst := g.total - g.placed, tend := s.gtime p }
          ∃ t, exec (.gridComplete p acc) s = .next t ∧ t.blocks = s.blocks ∧ g' ∈ (t.pkg p).grids
            ∧ (let w := s.descDw p g.ctx 1
                let np := s.pkgCount p g.ctx
                let slot := reportSlot w np g.id
                let posted (a : Nat) (d : Dword) : Prop := ∃ o ∈ t.coh.ops, o.pkg = p ∧ o.ctx = g.ctx ∧ o.who = .agent
                  ∧ o.key = s.physKey p a ∧ o.kind = .posted (leBytes 8 d.toNat)
                (reportEn w = true → slot + 64 ≤ Config.hbmEnd →
                  posted slot (pair32 np g.id)
                    ∧ (∃ d : Dword, posted (slot + 8) d ∧ d.getLsbD 63 = true ∧ d.getLsbD 62 = decide (g.state = .cancelling))
                    ∧ posted (slot + 16) (BitVec.ofNat 64 g.fin) ∧ posted (slot + 24) (BitVec.ofNat 64 g.kld)
                    ∧ posted (slot + 32) (BitVec.ofNat 64 (g.total - g.placed))
                    ∧ posted (slot + 40) (BitVec.ofNat 64 (s.gtime p)))
                ∧ ∀ n e, reportEn w = false → g.queue = some (n, e) → g.id < 2 ^ 32 →
                  s.inMap p (s.ringPa p g.ctx n e + 56) = true →
                  ∃ d : Dword, posted (s.ringPa p g.ctx n e + 56) d ∧ d.getLsbD 63 = true
                    ∧ d.getLsbD 62 = decide (g.faults ≠ 0) ∧ d.getLsbD 61 = decide (g.state = .cancelling)
                    ∧ d.extractLsb' 32 8 = 0#8 ∧ d.extractLsb' 0 32 = BitVec.ofNat 32 g.id))
        ∧ (g.pod = false → (g.state ≠ .dealt ∧ g.state ≠ .cancelling) ∨ deals ∨ g.fin + g.kld ≠ g.placed →
          exec (.gridComplete p acc) s = .next s)
        ∧ ∀ h, g.pod = true → s.findPod g.ctx g.id = some h → h.complete = false → s.podOver g.ctx h = true →
          ∃ t, exec (.gridComplete p acc) s = .next t ∧ t.blocks = s.blocks ∧ ∃ h' ∈ (tget t.heads g.ctx).main.grids,
            h'.seq = h.seq ∧ h'.complete = true ∧ h'.nst = h.total - h.fin - h.kld)
    ∧ (s.kidsOver b = true →
        (bl.place = .saved .lwait → ∃ t, exec (.lwaitResume b) s = .next t ∧ OnlyBlk s t b ∧ t.blk b = { bl with back := true })
        ∧ (bl.place = .resident → s.ctxRuns bl.pkg bl.ctx = true → bl.lwaitAll = true →
          ∃ t, exec (.lwaitResume b) s = .next t ∧ OnlyBlk s t b ∧ (t.blk b).kids = bl.late
            ∧ ∀ j r, j < bl.nthr → (s.thr b j).st ≠ .exited → (s.thr b j).wait = some (.lwait r) →
                (t.thr b j).pc = (s.thr b j).pc + 8 ∧ (t.thr b j).issuable = true ∧ (t.thr b j).ecnt = (s.thr b j).ecnt - 1
                  ∧ (r ≠ 248 → (s.thr b j).unready r now = [] → tget (t.thr b j).regs r = s.lwaitWord b)))
    ∧ (let i := tget s.images img
        let w := s.openQueues i.pkg
        ∀ v d n i' p0, i.dwords ≠ [] → (w.turnout i.pkg (dieOf c)).last ≤ now →
          w.turnoutPick i.pkg (dieOf c) = (v, some d) → d.unit.work = .again [i.blk] → d.cores = [(c, p0)] →
          v.imageFor i.blk = some (n, i') →
          let r := v.imageRead i'
          let B := v.unpack i' r
          (r.fault = none → i'.reason ≠ .lwait → ∃ t, exec (.blockRestore img c) s = .next t
            ∧ OnlyBlk v { t with images := v.images, cmds := v.cmds, nextCmd := v.nextCmd, pkgs := v.pkgs } i.blk
            ∧ (t.blk i.blk).place = .resident ∧ (t.blk i.blk).core = c ∧ (t.blk i.blk).part0 = p0
            ∧ (t.blk i.blk).shm = B.1.shm ∧ (∀ j, (tget B.1.threads j).Kept (t.thr i.blk j))
            ∧ t.cmds = v.cmds ++ B.2.map EngCmd.again)
          ∧ (r.dwords = i'.dwords → B = (v.blk i.blk, i'.cmds))
          ∧ (r.dwords ≠ i'.dwords → B.1.hold = (r.dw 4).extractLsb' 0 16 ∧ B.1.detcfg = (r.dw 5).extractLsb' 32 3
            ∧ B.1.crew.isSome = (r.dw 0).getLsbD 4
            ∧ (∀ k, k < (v.blk i.blk).shb →
                tget B.1.shm.cells k = (r.dw (r.shm + k / 8)).extractLsb' (8 * (k % 8)) 8)
            ∧ ∀ e ∈ (v.blk i.blk).threads, ∃ e' ∈ B.1.threads,
                let d (n : Nat) : Dword := r.dw (r.thr + 32 * e.1 + n)
                e'.1 = e.1 ∧ e'.2.pc = (d 0).extractLsb' 10 54 ++ 0#3 ∧ e'.2.sp = (d 3).extractLsb' 32 32
                  ∧ e'.2.preds = (d 3).extractLsb' 24 7 ∧ e'.2.tvec = d 4 ∧ e'.2.tframe0 = d 5 ∧ e'.2.tframe1 = d 6
                  ∧ e'.2.tcause = d 7)
          ∧ ∀ f, r.fault = some f →
              ∃ t, exec (.blockRestore img c) s = .next t ∧ Ended v t i'.pkg i'.ctx)

/-- R334-R342: the headgate gives the oldest record of its inbox a fresh id, or a status, and sends it to every package of the
context, whose checkgates take it up; a cancel or an lstat that came behind it is answered there; clusters are dealt up to 64 at a time in order of index; a progress or final summary adds what its
package has not yet told; a cancel stops every package's dealing with the cycle; a standby goes on from the mirror, and once
both have stopped a record is answered with status 10. When a cancel on its way to a checkgate reaches it (before all that is sent
to it later) and when a launch.pod finds both gone are the model's choices (log entry 40), as are the states and counts that lstat
reads at the headgate and the records a summary sends (log entry 16), and the checks of a record (log entry 35). -/
def Obligations.PodGrids : Prop :=
  ∀ (s : State) (p x id : Nat) (kill : Bool),
    let H := tget s.heads x
    let gridOf (t : State) (q acc : Nat) (f : Grid → Prop) : Prop := ∃ g' ∈ (t.pkg q).grids, g'.acc = acc ∧ f g'
    let podOf (t : State) (seq : Nat) (f : PodGrid → Prop) : Prop :=
      (∃ h' ∈ (tget t.heads x).main.grids, h'.seq = seq ∧ f h') ∧ (tget t.heads x).mirror = (tget t.heads x).main
    (∀ l rest, H.main.inbox = l :: rest →
      let words (ws : List Word) : Land :=
        { (default : Land) with
          blk := l.blk, tid := l.tid, ecnt := true, regs := dstWords (BitVec.ofNat 8 l.reg) ws }
      let answer (n st : Nat) : Land := words [BitVec.ofNat 32 n, BitVec.ofNat 32 st]
      let held := (H.main.grids.filter fun g => !g.complete).map fun g => g.id % 2 ^ 31
      let n := nextSeq held (held.length + 2) H.main.seq
      let s2 := (s.modHead x fun h => { h with inbox := rest }).modHead x fun h => { h with seq := n }
      let st := s2.podStatus x l.record
      (l.ask = .launch → H.gone = true → ∃ t, exec (.podGridBroadcast x) s = .next t ∧ OnlyHead s { t with coh := s.coh } x
        ∧ (tget t.heads x).main = { H.main with inbox := rest }
        ∧ t.coh = { s.coh with lands := s.coh.lands ++ [answer 0 10] })
      ∧ (l.ask = .launch → H.gone = false → st ≠ 0 → ∃ t, exec (.podGridBroadcast x) s = .next t ∧ OnlyHead s { t with coh := s.coh } x
        ∧ (tget t.heads x).main = { H.main with inbox := rest, seq := n }
        ∧ t.coh = { s.coh with lands := s.coh.lands ++ [answer 0 st] })
      ∧ (l.ask = .launch → H.gone = false → st = 0 → ∃ t, exec (.podGridBroadcast x) s = .next t
        ∧ t.coh = { s.coh with lands := s.coh.lands ++ [answer (2 ^ 31 + n % 2 ^ 31) 0] }
        ∧ (tget t.heads x).main.inbox = rest ∧ (tget t.heads x).main.seq = n
        ∧ podOf t n (fun h => h.id = 2 ^ 31 + n % 2 ^ 31 ∧ h.record = l.record ∧ h.prio = l.prio ∧ h.src = l.src
            ∧ h.total = vol (recGrid l.record) ∧ h.next = 0 ∧ h.fin = 0 ∧ h.complete = false)
        ∧ (∀ q ∈ s.podPkgs x, ∃ g ∈ (t.pkg q).grids, g.id = 2 ^ 31 + n % 2 ^ 31 ∧ g.ctx = x ∧ g.pod = true ∧ g.checked = true
            ∧ g.record = l.record ∧ g.state = .dealing ∧ g.todo = [])
        ∧ (∀ q, q ∉ s.podPkgs x → q ≠ l.src → t.pkg q = s.pkg q) ∧ ∀ a, t.byteAt a = s.byteAt a)
      ∧ (∀ i kl, l.ask = .cancel i kl → s.opened = false →
        let st : Nat := match s.findPod x i with
          | none => 1
          | some h => if h.complete then 2 else if h.cancel then 3 else 0
        ∃ t, exec (.podGridBroadcast x) s = .next t ∧ OnlyHead s { t with coh := s.coh } x
          ∧ t.coh = { s.coh with lands := s.coh.lands ++ [words [BitVec.ofNat 32 st]] } ∧ (tget t.heads x).main.inbox = rest
          ∧ ∀ h, s.findPod x i = some h → st = 0 → podOf t h.seq fun h' => h'.cancel = true ∧ h'.kill = kl ∧ h'.ended = true)
      ∧ (∀ i, l.ask = .stat i → s.opened = false →
        ∃ t, exec (.podGridBroadcast x) s = .next t ∧ OnlyHead s { t with coh := s.coh } x
          ∧ t.coh = { s.coh with lands := s.coh.lands ++ [words (s.podStat x i)] }
          ∧ (tget t.heads x).main = { H.main with inbox := rest }))
    ∧ (∀ h g, s.findPod x id = some h → s.findGrid p x id = some g →
      let N := recClusters h.record
      let hi := min N (h.next + 64)
      let open_ : Prop := H.gone = false ∧ h.cancel = false ∧ h.ended = false ∧ h.next < N
      let moved (t : State) (n : Nat) : Prop := podOf t h.seq fun h' => h'.next = n ∧ (h'.ended = true ↔ N ≤ n)
      let told (q : Nat) : State := s.cancelsTo q x
      (open_ → recDet h.record = false → recOrd h.record = false → g.todo = [] → g.state = .dealing →
        ∃ t, exec (.podLotRequest p x id) s = .next t ∧ OnlyHead (told p) { t with pkgs := (told p).pkgs } x ∧ moved t hi
          ∧ gridOf t p g.acc (fun g' => g'.todo = [(h.next, hi)]) ∧ ∀ q, q ≠ p → s.headPkg p x ≠ some q → t.pkg q = s.pkg q)
      ∧ (open_ → recDet h.record = true → (∀ q, told q = s) →
        ∃ t, exec (.podLotRequest p x id) s = .next t ∧ OnlyHead s { t with pkgs := s.pkgs } x ∧ moved t hi
          ∧ ∀ j q gq, h.next ≤ j → j < hi → s.pkgAt x (j % s.pkgCount p x) = some q → s.findGrid q x id = some gq →
              gridOf t q gq.acc fun g' => (j, j + 1) ∈ g'.todo)
      ∧ (¬open_ → exec (.podLotRequest p x id) s = .next s)
      ∧ (open_ → recOrd h.record = true → recDet h.record = false →
        (∀ q ∈ s.podPkgs x, ∀ gq, s.findGrid q x id = some gq → gq.todo = []) →
        ((∀ q ∈ s.podPkgs x, s.couldPlace q x id h.next = false) → ∃ t, exec (.podOrdOffer x id) s = .next t ∧ OnlyHead s t x
          ∧ podOf t h.seq fun h' => h' = { h with offer := some h.next })
        ∧ ∀ q gq, (s.podPkgs x).find? (fun q => s.couldPlace q x id h.next) = some q → s.findGrid q x id = some gq →
            ∃ t, exec (.podOrdOffer x id) s = .next t ∧ OnlyHead (told q) { t with pkgs := (told q).pkgs } x ∧ moved t (h.next + 1)
              ∧ gridOf t q gq.acc (fun g' => (h.next, h.next + 1) ∈ g'.todo) ∧ ∀ r, r ≠ q → s.headPkg q x ≠ some r → t.pkg r = s.pkg r)
      ∧ (let summed (t : State) (final : Bool) : Prop := podOf t h.seq fun h' =>
            h'.fin = h.fin + (g.fin - g.sentFin) ∧ h'.kld = h.kld + (g.kld - g.sentKld)
              ∧ h'.faults = h.faults + (g.faults - g.sentFaults) ∧ (s.pkgNo p x, g.classes) ∈ h'.rows
              ∧ (final = true → s.pkgNo p x ∈ h'.finals) ∧ (final = false → h'.finals = h.finals)
         (g.pod = true → g.finalSent = false → (∃ b ∈ s.residentOf p x, b.2.grid = id) → g.sentAt ≤ s.ns →
            ∃ t, exec (.progressSummary p x id) s = .next t ∧ OnlyHead s { t with pkgs := s.pkgs } x ∧ summed t false
              ∧ gridOf t p g.acc (fun g' => g' = { g with
                  sentFin := g.fin, sentKld := g.kld, sentFaults := g.faults, sentFirst := g.first, sentAt := s.ns + 1000 }))
          ∧ (g.pod = true → g.finalSent = false → h.ended = true → g.todo = [] →
            (∀ l ∈ (s.pkg p).lots, l.grid ≠ g.acc) → g.fin + g.kld = g.placed → s.coh.pushes = [] →
            (h.cancel = true → g.state = .cancelling) →
            ∃ t, exec (.finalSummary p x id) s = .next t ∧ OnlyHead s { t with pkgs := s.pkgs } x ∧ summed t true
              ∧ gridOf t p g.acc (fun g' => g' = { g with
                  sentFin := g.fin, sentKld := g.kld, sentFaults := g.faults, sentFirst := g.first, finalSent := true
                  state := if g.state = .cancelling then .cancelled else .complete, nst := g.total - g.placed
                  tend := s.gtime p }))
          ∧ (h.ended = false ∨ g.fin + g.kld ≠ g.placed → exec (.finalSummary p x id) s = .next s)))
    ∧ (∀ h, s.findPod x id = some h → h.cancel = true → h.complete = false → h.kill = kill →
      ∃ t, exec (.podCancel x id kill) s = .next t ∧ t.heads = s.heads ∧ (∀ a, t.byteAt a = s.byteAt a)
        ∧ ∀ q ∈ s.podPkgs x, ∀ gq, s.findGrid q x id = some gq → gq.state = .dealing ∨ gq.state = .dealt →
            (∀ o ∈ H.main.grids, o.cancel = true → o.complete = false → ∀ g', s.findGrid q x o.id = some g' → g'.acc = gq.acc →
              o.kill = kill) →
            gridOf t q gq.acc (fun g' => g'.state = .cancelling ∧ g'.kill = kill)
              ∧ (∀ g' ∈ (t.pkg q).dealingEnds.grids, g'.acc = gq.acc → g'.todo = [])
              ∧ ∀ l ∈ (t.pkg q).dealingEnds.lots, l.grid ≠ gq.acc)
    ∧ (∀ h, s.findPod x id = some h → h.cancel = false ∨ h.complete = true ∨ h.kill ≠ kill → exec (.podCancel x id kill) s = .next s)
    ∧ (H.stopped = false → ∃ t, exec (.standbyTakeover x) s = .next t ∧ OnlyHead s t x
        ∧ tget t.heads x = { H with main := H.mirror, stopped := true })
    ∧ (H.stopped = true → ∃ t, exec (.standbyTakeover x) s = .next t ∧ OnlyHead s t x
        ∧ tget t.heads x = { H with gone := true })

/-- R343-R348, R367: a time message of the master, no older than the guard band, sets %gtime forward to it and never back; the
package is synchronised exactly where it then stands within the band, and a package that is not holds no L1 line. 100 µs
without one is a loss of synchronisation, and a package that is its own time master rejoins. A port goes down with the replay
that is its sixteenth in a row; a message delivered ends the row of one port. A remote atomic or reduction that arrives waits at
its home on the peer, and none arrives after 10 µs; a granule whose destination lies at another peer goes on there, one that the
peer holds on a page restarts its 10 µs; an atomic lost for 10 µs returns a poisoned 0 or an acknowledgement, counted in its grid, and a lost
granule stops its command with code 1, or 2 where its write was lost. The port that carries a message is a free value (log
entry 11); what a late message and an unsynchronised package do beyond R344 is the model's choice (log entry 41), and so are the
place where a remote transaction is translated and applied, and what an abandoned granule does (log entry 32). -/
def Obligations.TimeAndLinks : Prop :=
  ∀ (s : State) (p port k time : Nat),
    let quiet (t : State) : Prop := ∀ c, c < 512 → (t.core p c).l1 = []
    let seen (t : State) : Prop := ∀ c, c < 512 → t.core p c = { s.core p c with viewLost := false }
    let away (t : State) : Prop := ∀ q, q / 512 ≠ p → tget t.cores q = tget s.cores q
    (∀ m, s.master p = some m →
      (time ≤ s.gtime m → s.gtime m ≤ time + 256 → 0 ≤ (s.ns : Int) + (s.pkg p).goff →
        (s.ns : Int) + (s.pkg p).goff < 2 ^ 64 →
        ∃ t, exec (.timeMessage p time) s = .next t ∧ OnlyPkg (s.carried m p) { t with cores := s.cores } p ∧ away t
          ∧ t.gtime p = max (s.gtime p) time ∧ (t.pkg p).lastMsg = s.ns
          ∧ (∃ a, a < 18 ∧ ∀ q, tget (t.pkg p).replays q =
              if q = a ∧ (s.pkg p).portDown.getLsbD a = false then 0 else tget (s.pkg p).replays q)
          ∧ ((t.pkg p).unsync = false ↔ t.gtime p ≤ s.gtime m + 256)
          ∧ ((t.pkg p).unsync = false → seen t) ∧ ((t.pkg p).unsync = true → quiet t))
      ∧ (s.gtime m < time ∨ time + 256 < s.gtime m → exec (.timeMessage p time) s = .next (s.carried m p))
      ∧ ((s.pkg p).lastMsg + 100000 ≤ s.ns → ∃ t, exec (.gtimeUnsync p) s = .next t
          ∧ OnlyPkg s { t with cores := s.cores } p ∧ away t ∧ quiet t ∧ t.pkg p = { s.pkg p with unsync := true }))
    ∧ (s.master p = none → ∃ t, exec (.timeMessage p time) s = .next t ∧ OnlyPkg s { t with cores := s.cores } p
        ∧ t.pkg p = { s.pkg p with unsync := false } ∧ away t ∧ seen t)
    ∧ (s.ns < (s.pkg p).lastMsg + 100000 → exec (.gtimeUnsync p) s = .next s)
    ∧ (port < 18 →
      (∃ t, exec (.flitReplay p port) s = .next t ∧ OnlyPkg s t p
        ∧ t.pkg p = { s.pkg p with replays := (t.pkg p).replays, portDown := (t.pkg p).portDown }
        ∧ (∀ q, tget (t.pkg p).replays q = if q = port then tget (s.pkg p).replays q + 1 else tget (s.pkg p).replays q)
        ∧ ∀ q, q < 18 → (t.pkg p).portDown.getLsbD q =
            ((s.pkg p).portDown.getLsbD q || decide (q = port ∧ 16 ≤ tget (s.pkg p).replays port + 1)))
      ∧ (tget (s.pkg p).replays port < 16 → exec (.linkPortDown p port) s = .next s)
      ∧ (16 ≤ tget (s.pkg p).replays port → ∃ t, exec (.linkPortDown p port) s = .next t ∧ OnlyPkg s t p
        ∧ t.pkg p = { s.pkg p with portDown := (t.pkg p).portDown }
        ∧ ∀ q, q < 18 → (t.pkg p).portDown.getLsbD q = ((s.pkg p).portDown.getLsbD q || decide (q = port))))
    ∧ ∀ r, s.coh.remote[k]? = some r →
      let dropped := s.coh.remote.take k ++ s.coh.remote.drop (k + 1)
      (∀ q, s.mayArrive k r = true → s.lost r = false → s.pkgAt r.op.ctx r.peer = some q →
        let s' := s.carried r.src q
        (∀ b j, r.op.who = .thread b j → r.op.kind.onCell = false → ∃ t, exec (.remoteRequestArrival k) s = .next t
          ∧ t = { s' with coh := { s.coh with remote := dropped, ops := s.coh.ops ++ [{ r.op with va := r.off }] } })
        ∧ ∀ e c, r.op.who = .engine e → s.cmd? e = some c →
          (c.past r = true → exec (.remoteRequestArrival k) s = .next { s' with coh := { s.coh with remote := dropped } })
          ∧ (∀ n, c.past r = false → s'.nextLeg c r = some n →
            exec (.remoteRequestArrival k) s = .next { s' with coh := { s.coh with remote := dropped ++ [n] } })
          ∧ (c.past r = false → s'.nextLeg c r = none →
            let u := s'.granule c r.op.key
            let ends := (u.cmd? e).all fun d => d.past r
            (ends = true → exec (.remoteRequestArrival k) s = .next
              { u with coh := { u.coh with remote := u.coh.remote.take k ++ u.coh.remote.drop (k + 1) } })
            ∧ (ends = false → u.heldAt r = true → ∃ t, exec (.remoteRequestArrival k) s = .next t
              ∧ t = { u with coh := { u.coh with remote := t.coh.remote } } ∧ t.coh.remote.length = u.coh.remote.length
              ∧ ∀ j o, u.coh.remote[j]? = some o →
                  t.coh.remote[j]? = some (if j = k then { o with sent := u.ns } else o))
            ∧ (ends = false → u.heldAt r = false → exec (.remoteRequestArrival k) s = .next u)))
      ∧ (s.mayArrive k r = false ∨ s.lost r = true → exec (.remoteRequestArrival k) s = .next s)
      ∧ (s.ns < r.sent + 10000 → exec (.remoteTimeout k) s = .next s)
      ∧ (r.sent + 10000 ≤ s.ns →
        (∀ b j, r.op.who = .thread b j →
          let counted (t : State) : Prop := ∀ g, s.findGrid (s.blk b).pkg (s.blk b).ctx (s.blk b).grid = some g →
            ∃ g' ∈ (t.pkg (s.blk b).pkg).grids, g'.acc = g.acc ∧ g'.faults = g.faults + 1
          (∀ op w64 v cmp, r.op.kind = .atom op w64 v cmp true → ∃ t, exec (.remoteTimeout k) s = .next t
            ∧ t = { s with pkgs := t.pkgs, coh := { s.coh with remote := dropped, lands := s.coh.lands ++ [
                { (default : Land) with
                  blk := b, tid := j, regs := r.op.dst.map fun d => (d, (0 : Word)), marked := true
                  unhold := r.op.sc, clear := r.op.clear }] } } ∧ counted t)
          ∧ ∀ op w64 v cmp, r.op.kind = .atom op w64 v cmp false → ∃ t, exec (.remoteTimeout k) s = .next t
            ∧ t = { s with pkgs := t.pkgs, coh := { s.coh with remote := dropped, acks := s.coh.acks ++ [⟨b, j, [], none⟩] } }
            ∧ counted t)
        ∧ ∀ e c, r.op.who = .engine e → s.cmd? e = some c → s.heldAt r = false → c.past r = false → c.code = 0 →
            ∃ t c', exec (.remoteTimeout k) s = .next t ∧ t.coh = { s.coh with remote := dropped, ops := t.coh.ops }
              ∧ (∀ o, o ∈ t.coh.ops ↔ o ∈ s.coh.ops ∧ ¬(o.who = .engine e ∧ ∃ g n, o.kind = .grain g n)) ∧ t.cmd? e = some c'
              ∧ c'.stop = true ∧ c'.badAddr = some r.op.va
              ∧ c'.code = if (s.granPeers c r.op.key).any (fun w => w.va = r.op.va && w.wr) then 2 else 1)

/-- R327, R331, R350, R352, R390-R393, R399, R413: a graceful request marks its context pending; at its deadline, or by a forced
request, the sluice closes over it, with the blocks that a time slice took off their cores, unless every block is at its boundary
and can be saved there; without a shadow region the request is abandoned with every yield freed. A halt closes the blocks'
commands, dissolves their standing warps, and leaves the waiters of a phase completed in its cycle at barb.wait. A block that is to
be saved has its commands closed, and once its quiesce is complete it is saved: its image is made as laid out, with RSM set where
its crew's passes were stopped and each closed command cut to the prefix it delivered, its commands go with it, and what its
threads hold stays. A resumption lets the context run again, or waits for the save to end. At the end of its quantum a core halts
for the next of its group. Past the second deadline of a save or of a quantum's end, where an image does not fit, or by Runtime's
kill, the context ends. The place of an image in its region is the model's choice (log entry 37), and so are the two steps of a
quantum's end (log entry 39), its deadline SDL (log entry 69), and what becomes of a block under pre-emption that a slice took off
its core (log entry 70). -/
def Obligations.Preemption : Prop :=
  ∀ (s : State) (p x b pc : Nat),
    let c := s.pctx p x
    let q := s.partOf p x
    let here := s.residentOf p x
    let bl := s.blk b
    let due : Prop := c.pre = .pending ∧ c.t0 + 1300 * q.gdl ≤ s.cycle
      ∧ ((∃ o ∈ here ++ s.slicedOut p x, o.2.atBoundary = false) ∨ ∃ o ∈ here, s.overfull o.1 = true)
    let halted (t : State) (bs : List Nat) (was : Nat → Block) (cores : Tab Core) : Prop :=
      (∀ o, t.blk o = if bs.contains o then
          { was o with threads := (was o).threads.map fun u => (u.1, u.2.unfreed s.cycle) } else was o)
      ∧ (∀ k, tget t.cores k = { tget cores k with
          warps := (tget cores k).warps.filter fun w => w.lanes.all fun l => !bs.contains l.1 })
      ∧ t.cmds = s.cmds.map fun k => if bs.contains k.blk then k.close else k
    let pre (t : State) : PreState := (t.pctx p x).pre
    let closed (i : Instr) : Prop := here ≠ [] → ∃ t, exec i s = .next t
      ∧ OnlyCtx s { t with cmds := s.cmds, blocks := s.blocks, cores := s.cores } p x ∧ (t.pctx p x).tc = s.cycle
      ∧ halted t (here.map (·.1)) (fun o => if (s.blk o).pkg = p ∧ (s.blk o).ctx = x then (s.blk o).unslice else s.blk o) s.cores
      ∧ pre t = (if here.any (fun o => !o.2.parts.isEmpty) then .closing else .draining)
    let freed (t : State) : Prop := (∀ o j, ((s.blk o).pkg = p ∧ (s.blk o).ctx = x ∧ (s.thr o j).wait = some .yieldHold →
        (s.thr o j).Kept (t.thr o j) ∧ (t.thr o j).issuable = true)
      ∧ ((s.thr o j).wait ≠ some .yieldHold → t.thr o j = s.thr o j))
    let back (t : State) : Prop := ∀ o, (s.blk o).pkg = p → (s.blk o).ctx = x →
      (s.blk o).place = .saved .sluice ∨ (s.blk o).place = .saved .boundary → (t.blk o).back = true
    (c.live = true →
      let up : Prop := s.hostUp p = true
      (up → c.pre = .running → here ≠ [] → ∃ t, exec (.preemptGraceful p x) s = .next t ∧ OnlyCtx s t p x
        ∧ t.pctx p x = { c with pre := .pending, t0 := s.cycle })
      ∧ (up → c.pre = .running → here = [] → c.resume = false → (∀ o ∈ s.slicedOut p x, o.2.atBoundary = true) →
        ∃ t, exec (.preemptGraceful p x) s = .next t ∧ OnlyCtx s { t with blocks := s.blocks } p x
        ∧ pre t = .saved)
      ∧ (c.pre ≠ .running → exec (.preemptGraceful p x) s = .next s)
      ∧ (due → q.shsz ≠ 0 → closed (.gracefulDeadline p x))
      ∧ (due → q.shsz = 0 → ∃ t, exec (.gracefulDeadline p x) s = .next t
        ∧ pre t = .running ∧ freed t ∧ back t ∧ (up → (t.pkg p).host = (s.pkg p).host ++ [.aborted c.num])
        ∧ ∀ a, t.byteAt a = s.byteAt a)
      ∧ (¬due → exec (.gracefulDeadline p x) s = .next s)
      ∧ (up → c.pre = .running ∨ c.pre = .pending → q.shsz ≠ 0 → closed (.preemptForced p x))
      ∧ (q.shsz = 0 → exec (.preemptForced p x) s = .next s)
      ∧ (up → c.pre = .pending → ∃ t, exec (.resumeRequest p x) s = .next t ∧ pre t = .running ∧ freed t ∧ back t
        ∧ t.pkgs = s.pkgs ∧ ∀ a, t.byteAt a = s.byteAt a)
      ∧ (up → c.pre = .saved → ∃ t, exec (.resumeRequest p x) s = .next t ∧ pre t = .running ∧ back t ∧ t.pkgs = s.pkgs
        ∧ ∀ o j, t.thr o j = s.thr o j)
      ∧ (up → c.pre = .closing ∨ c.pre = .draining ∨ c.pre = .saving → ∃ t, exec (.resumeRequest p x) s = .next t
        ∧ OnlyCtx s t p x ∧ t.pctx p x = { c with resume := true })
      ∧ (let saving : Prop := c.pre = .closing ∨ c.pre = .draining ∨ c.pre = .saving
         let out (o : Nat × Block) : Prop := s.outgoing p o.2.core = true
         let ends : Prop := (saving ∧ c.tc + 1300 * q.sdl ≤ s.cycle)
           ∨ (∃ o ∈ here, out o ∧ (s.core p o.2.core).sliceAt + 1300 * q.sdl ≤ s.cycle)
           ∨ ∃ o ∈ here, (saving ∨ out o) ∧ s.overfull o.1 = true
         (ends → ∃ t, exec (.sluiceEscalation p x) s = .next t ∧ Ended s t p x)
         ∧ (¬ends → exec (.sluiceEscalation p x) s = .next s)))
    ∧ (∀ y, s.ctxs.find? (fun c => c.1 % 65536 = x && c.2.live && s.hostUp (c.1 / 65536)) = some y →
        ∃ t, exec (.contextKill x) s = .next t ∧ Ended s t (y.1 / 65536) x)
    ∧ ((∀ y ∈ s.ctxs, y.1 % 65536 = x → y.2.live = false) → exec (.contextKill x) s = .next s)
    ∧ (bl.place ≠ .resident → exec (.saveImage b) s = .next s)
    ∧ (bl.place = .resident → s.saveReason b = none →
      (s.blockRuns bl = true → exec (.saveImage b) s = .next { s with cmds := s.cmds.map fun k => if k.blk = b then k.reopen else k })
      ∧ (s.blockRuns bl = false → exec (.saveImage b) s = .next s))
    ∧ (∀ why, bl.place = .resident → s.saveReason b = some why →
        let s1 : State := { s with cmds := s.cmds.map fun k => if k.blk = b then k.close else k }
        let ready : Prop := s1.blockFits b why = true
          ∧ if why = .sluice then ∀ o ∈ s1.residentOf bl.pkg bl.ctx, s1.quiet o.1 = true else s1.quiet b = true
        let u := ((s1.dropBlocks [b]).modBlk b Block.stopRun).prefixCmds b
        (¬ready → exec (.saveImage b) s = .next s1)
        ∧ (ready → ∃ t, exec (.saveImage b) s = .next t ∧ ((why = .slice → bl.live ≠ []) → (t.blk b).place = .saved why)
          ∧ (∀ a, t.byteAt a = s.byteAt a) ∧ (∀ j, (s.thr b j).Kept (t.thr b j))
          ∧ ((∀ k ∈ s1.cmdsOf b, k.recount = 0) → (t.blk b).shm = bl.shm)
          ∧ (∀ k ∈ u.cmdsOf b, (k.kind = .copy ∨ k.kind = .gath ∨ k.kind = .drain) → k.done = List.range k.done.length)
          ∧ (bl.crew.isSome = true → ∀ j ∈ bl.mgang.threads, (t.thr b j).mprog = { (s.thr b j).mprog with rsm := true })
          ∧ (∀ o, o ≠ b → (s.blk o).place ≠ .saved .slice → (t.blk o).threads = (s.blk o).threads)
          ∧ (tget t.images s.nextImg).blk = b ∧ (tget t.images s.nextImg).reason = why
          ∧ (tget t.images s.nextImg).dwords = u.imageOf b why ∧ (tget t.images s.nextImg).cmds = u.cmdsOf b
          ∧ (tget t.images s.nextImg).base = u.imageBase bl.pkg bl.ctx why (8 * (u.imageOf b why).length)
          ∧ ∀ k ∈ t.cmds, k.blk ≠ b))
    ∧ (let d := s.imageOf b .sluice
       bl.nthr ≤ 1024 → (s.cmdsOf b).length < 65536 → (d.getD 0 0).extractLsb' 16 16 = 1#16 ∧ (d.getD 1 0).extractLsb' 0 8 = 1#8
         ∧ (bl.grid < 2 ^ 32 → (d.getD 1 0).extractLsb' 32 32 = BitVec.ofNat 32 bl.grid)
         ∧ (d.getD 4 0).extractLsb' 32 32 = bl.mgang.toWord ∧ (d.getD 4 0).extractLsb' 0 16 = bl.hold)
    ∧ (let cs := s.shareOf p pc
       let last := s.lastRun p cs
       let next := s.nextRun p cs last
       cs ≠ [] →
       ((s.core p last).sliced = false → s.cycle < (s.core p last).quantStart + 1300 * (s.partAt p last).quant →
          exec (.quantumExpiry p pc) s = .next s)
       ∧ ((s.core p last).sliced = false → (s.core p last).quantStart + 1300 * (s.partAt p last).quant ≤ s.cycle →
          (next = last → ∃ t, exec (.quantumExpiry p pc) s = .next t ∧ OnlyCore s t p last
            ∧ t.core p last = { s.core p last with quantStart := s.cycle })
          ∧ (next ≠ last → ∃ t, exec (.quantumExpiry p pc) s = .next t
            ∧ t = { s with cmds := t.cmds, blocks := t.blocks, cores := t.cores }
            ∧ halted t ((s.residents p last).map (·.1)) s.blk (tset s.cores (coreKey p last)
                { s.core p last with sliced := true, warps := [], sliceAt := s.cycle })))
       ∧ ((s.core p last).sliced = true → s.residents p last ≠ [] → exec (.quantumExpiry p pc) s = .next s)
       ∧ ((s.core p last).sliced = true → s.residents p last = [] →
          (∀ o ∈ s.blocks, o.2.place = .saved .slice → ¬(o.2.pkg = p ∧ o.2.core = next)) →
          ∃ t, exec (.quantumExpiry p pc) s = .next t ∧ OnlyCore s t p next
            ∧ t.core p next = { s.core p next with sliced := false, quantStart := s.cycle }))

/-- R121, R313, R325, R382, R383, R404-R407: Root creates a context under a free number, which lives with its translation word
read from its descriptor; it releases an object in no use, with a shootdown, and names why it refuses; it puts a partition or a
region record that passes its checks, every translation of the package gone after a region's, and refuses one that does not; it
attests with a fresh leaf, until none is left, and raises the minimum version on a command that verifies, and never lowers it. A
package reset ends the package's blocks, contexts, grids and commands and keeps its memory, its minimum version and its leaf; it
boots an image that verifies, else stops at stage 2; there one backup image may follow. Before boot is READY nothing is
answered. The numbers of replies that R10, R313, R382 and R383 leave out, the form of CONTEXT_CREATE's operand and the moment of
a release's and a record's effect are the model's choices (log entries 43, 79, 84), as are the cores on which boot puts the logical
ones (log entry 28) and what a reset leaves (log entry 45); whether an image or a command verifies is a free value (log entry 13). -/
def Obligations.RootAndBoot : Prop :=
  ∀ (s : State) (p x m n desc : Nat) (va : VAddr) (rec : List Dword) (remap : List (Nat × Word)) (sl : Dword)
    (nonce : List Dword) (svn : Word) (sig image : List Byte) (hbm links : Bool) (off : List Nat)
    (ranges : List (Nat × Nat × Nat × Nat)),
    let k := s.pkg p
    let told (t : State) (st : Nat) : Prop := (t.pkg p).host = k.host ++ [.mailbox st]
    let only (t : State) (st : Nat) : Prop := OnlyPkg s t p ∧ t.pkg p = { k with host := k.host ++ [.mailbox st] }
    let refuses (i : Instr) (st : Nat) : Prop := ∃ t, exec i s = .next t ∧ only t st
    (k.boot.ready = false → ∀ i ∈ [Instr.contextCreate p x n desc, .codeRelease p x va, .partitionConfigure p n rec remap sl,
        .regionDescriptorWrite p n rec, .attestRequest p nonce, .svnUpdate p svn sig], exec i s = .next s)
    ∧ (k.boot.ready = true → k.ucieDown ≠ 15#4 →
      (x < 65536 → m < 65536 → n < 8 → desc % 128 = 0 → desc + 128 ≤ Config.hbmEnd →
        (∀ y ∈ s.ctxs, y.1 / 65536 = p → y.2.live = true → y.1 % 65536 ≠ x ∧ y.2.num ≠ m) →
        ∃ t, exec (.contextCreate p (ctxOperand x m) n desc) s = .next t ∧ OnlyCtx s { t with heads := s.heads } p x
          ∧ t.pctx p x = { (default : PkgCtx) with
              live := true, part := n, desc := desc, pre := .running, num := m, xlat := s.read64 p desc }
          ∧ p ∈ (tget t.heads x).pkgs
          ∧ ((∀ y ∈ s.ctxs, y.1 % 65536 = x → y.2.live = false) → tget t.heads x = { (default : Head) with pkgs := [p] })
          ∧ ∀ y, y ≠ x → tget t.heads y = tget s.heads y)
      ∧ (x < 65536 → (∃ y ∈ s.ctxs, y.1 / 65536 = p ∧ y.2.live = true ∧ (y.1 % 65536 = x ∨ y.2.num = m)) →
        exec (.contextCreate p (ctxOperand x m) n desc) s = .next s)
      ∧ ((s.pctx p x).live = false → refuses (.codeRelease p x va) 1)
      ∧ ((s.pctx p x).live = true →
        ((∀ o ∈ (s.pctx p x).objs, o.base ≠ va) → refuses (.codeRelease p x va) 1)
        ∧ ∀ o, (s.pctx p x).objs.find? (fun o => o.base = va) = some o →
          (s.codeInUse p x o = true → refuses (.codeRelease p x va) 2)
          ∧ (s.codeInUse p x o = false → (s.pctx p x).shoots = [] → (∀ w ∈ s.coh.ops, w.pkg = p → w.ctx ≠ x) →
            (∀ w ∈ s.coh.remote, ¬(w.op.pkg = p ∧ w.op.ctx = x)) →
            ∃ t, exec (.codeRelease p x va) s = .next t ∧ told t 0 ∧ t.blocks = s.blocks
              ∧ (t.pctx p x).objs = (s.pctx p x).objs.filter (fun q => q.base ≠ va)
              ∧ (t.pctx p x).gen = (s.pctx p x).gen + 1 ∧ (t.pctx p x).shoots = []
              ∧ (∀ e ∈ t.coh.tlb, ¬(e.pkg = p ∧ e.ctx = x))
              ∧ ∀ c, c < 512 → ∀ e ∈ (t.core p c).l1, e.ctx ≠ x))
      ∧ (n < 8 →
        let r := (List.range 5).map fun i => dw rec i
        let map_ := remap.foldl (fun t e => if e.1 < 384 then tset t e.1 (remapWord e.2) else t) k.remap
        let bad : Prop := s.partRefused p n r map_ remap sl
        (bad → refuses (.partitionConfigure p n rec remap sl) 1)
        ∧ (¬bad → ∃ t, exec (.partitionConfigure p n rec remap sl) s = .next t ∧ OnlyPkg s { t with cores := s.cores } p
          ∧ t.pkg p = { k with parts := (t.pkg p).parts, remap := map_, host := k.host ++ [.mailbox 0] }
          ∧ (∀ i, i ≠ n → tget (t.pkg p).parts i = tget k.parts i) ∧ (tget (t.pkg p).parts n).record = r
          ∧ (tget (t.pkg p).parts n).sched = (tget k.parts n).sched
          ∧ bitsOf (tget (t.pkg p).parts n).sluice 63 23 = bitsOf sl 63 23
          ∧ bitsOf (tget (t.pkg p).parts n).sluice 22 16 = 0
          ∧ bitsOf (tget (t.pkg p).parts n).sluice 15 0 = max 100 (min 10000 (bitsOf sl 15 0))))
      ∧ (n < 64 →
        (regionRz rec = true → refuses (.regionDescriptorWrite p n rec) 1)
        ∧ (regionRz rec = false → s.writesOut p = false →
          ∃ t, exec (.regionDescriptorWrite p n rec) s = .next t ∧ OnlyPkg s { t with coh := s.coh } p
            ∧ t.coh = { s.coh with tlb := s.coh.tlb.filter fun e => e.pkg ≠ p }
            ∧ t.pkg p = { k with regions := (t.pkg p).regions, host := k.host ++ [.mailbox 0] }
            ∧ (∀ m, m ≠ n → tget (t.pkg p).regions m = tget k.regions m)
            ∧ tget (t.pkg p).regions n = (List.range 4).map fun i => dw rec i))
      ∧ (k.leaf < 2 ^ 40 → ∃ t, exec (.attestRequest p nonce) s = .next t ∧ OnlyPkg s t p
          ∧ t.pkg p = { k with
              leaf := k.leaf + 1
              host := k.host ++ [.attestation (k.attest p nonce) (signatureOf (k.attest p nonce) k.leaf)] }
          ∧ (signatureOf (k.attest p nonce) k.leaf).length = 3604
          ∧ (k.attest p nonce).take 4 = (List.range 4).map fun i => dw nonce i)
      ∧ (2 ^ 40 ≤ k.leaf → refuses (.attestRequest p nonce) 2)
      ∧ (Config.updateVerifies svn sig = true → k.svnMin.toNat < svn.toNat →
        ∃ t, exec (.svnUpdate p svn sig) s = .next t ∧ OnlyPkg s t p
          ∧ t.pkg p = { k with svnMin := svn, host := k.host ++ [.mailbox 0] })
      ∧ (Config.updateVerifies svn sig = false ∨ svn.toNat ≤ k.svnMin.toNat → refuses (.svnUpdate p svn sig) 1))
    ∧ (let good : Prop := Config.imageVerifies image = true ∧ image.length ≤ 262144
         ∧ k.svnMin.toNat ≤ (Config.imageSvn image).toNat
       let booted (t : State) (bkup : Bool) : Prop :=
         (hbm = true → links = true → (∃ c, c < 384 ∧ bootRemap off c ≠ 0) →
           (t.pkg p).boot = ⟨true, bkup, 0, 6, bkup⟩ ∧ (t.pkg p).svn = Config.imageSvn image ∧ (t.pkg p).rootHash = shaDws image
             ∧ ∀ c, c < 384 → tget (t.pkg p).remap c = bootRemap off c ∧ (t.pkg p).ranges = publish ranges)
         ∧ (hbm = false → (t.pkg p).boot = ⟨false, bkup, 3, 3, bkup⟩)
         ∧ (hbm = true → links = false → (∃ c, c < 384 ∧ bootRemap off c ≠ 0) → (t.pkg p).boot = ⟨false, bkup, 4, 5, bkup⟩)
       (∃ t, exec (.packageReset p image hbm links off ranges) s = .next t ∧ (∀ a, t.byteAt a = s.byteAt a)
          ∧ (∀ q, q ≠ p → t.pkg q = s.pkg q) ∧ (∀ o ∈ t.blocks, o.2.pkg ≠ p) ∧ (∀ y ∈ t.ctxs, y.1 / 65536 ≠ p)
          ∧ (∀ e ∈ t.coh.tlb, e.pkg ≠ p) ∧ (∀ c ∈ t.cmds, c.pkg ≠ p) ∧ (∀ w ∈ t.issue, w.pkg ≠ p) ∧ (t.pkg p).svnMin = k.svnMin ∧ (t.pkg p).leaf = k.leaf
          ∧ (t.pkg p).grids = [] ∧ t.clock p = 0 ∧ (t.pkg p).power = ⟨4600, 0, 63, 63, false⟩
          ∧ (good → booted t false) ∧ (¬good → (t.pkg p).boot.ready = false ∧ (t.pkg p).boot.stage = 2))
       ∧ (k.boot.stage = 2 → k.boot.tried = false → ∃ t, exec (.backupImage p image hbm links off ranges) s = .next t ∧ OnlyPkg s t p
          ∧ (good → booted t true) ∧ (¬good → (t.pkg p).boot = { k.boot with err := (t.pkg p).boot.err, tried := true }))
       ∧ (k.boot.stage ≠ 2 ∨ k.boot.tried = true → exec (.backupImage p image hbm links off ranges) s = .next s))

/-- R121, R313, R382, R383, R400-R402, R405-R412: a UCIe module, or a pool port, goes down, and retraining, once in 100 ms, brings the
modules back; a corrected error is counted, an uncorrectable one of data in memory poisons its 32 bytes there and in every die
copy, and a record goes to the ring that Runtime has named while the host is in reach; a fatal one leaves nothing running on the
package; once in 10 µs the power control lowers GDUTY to 15 and then DUTY while PWR exceeds PL, and raises DUTY and then
GDUTY at 98 % of it; PL stays within its bounds, which the coolant moves; over the thermal limit DUTY stays at 15 or
below; an access of the host to device memory waits at its home, unless the regions refuse it. Root serves each request that
passes its checks, and a reset, or a backup image that verifies, boots the package. Which unit an error strikes that has no address
(log entries 12, 46), when the control steps and what a flow below 4.0 L/min does (log entry 47), the ring of error records (log
entry 72), the form of a host access (log entry 44) and the cores that boot gives out (log entry 28) are the model's choices. -/
def Obligations.PackageEvents : Prop :=
  ∀ (s : State) (p m die pa pwr pl len : Nat) (hot : Bool) (data : List Byte),
    let k := s.pkg p
    let w := k.power
    let gives (i : Instr) (q : Pkg) : Prop := ∃ t, exec i s = .next t ∧ OnlyPkg s t p ∧ t.pkg p = q
    let sent (src sev : Nat) : List (Dword × Dword × Dword) :=
      if s.hostUp p = true ∧ k.errBase ≠ 0 then k.errRing ++ [(k.errBase, errRecord src die sev pa (s.gtime p))] else k.errRing
    (m < 4 → ∃ t, exec (.ucieModuleDown p m) s = .next t ∧ OnlyPkg s t p
      ∧ t.pkg p = { k with ucieDown := (t.pkg p).ucieDown }
      ∧ ∀ i, i < 4 → (t.pkg p).ucieDown.getLsbD i = (k.ucieDown.getLsbD i || decide (i = m)))
    ∧ (k.retrain < s.ns / 100000000 → ∃ t, exec (.ucieRetrain p) s = .next t ∧ t.blocks = s.blocks
      ∧ (t.pkg p).ucieDown = 0 ∧ (t.pkg p).retrain = s.ns / 100000000 ∧ ∀ a, t.byteAt a = s.byteAt a)
    ∧ (s.ns / 100000000 ≤ k.retrain → exec (.ucieRetrain p) s = .next s)
    ∧ (m < 2 → ∃ t, exec (.poolPortDown p m) s = .next t ∧ OnlyPkg s t p
      ∧ t.pkg p = { k with poolDown := (t.pkg p).poolDown }
      ∧ ∀ i, i < 2 → (t.pkg p).poolDown.getLsbD i = (k.poolDown.getLsbD i || decide (i = m)))
    ∧ gives (.scrub p) { k with scrubs := k.scrubs + 1 }
    ∧ (die < 4 → ∀ src, 1 ≤ src → src ≤ 7 →
        let here (o : Nat × Block) : Prop := o.2.place = .resident ∧ o.2.pkg = p ∧ dieOf o.2.core = die
        (∃ t, exec (.eccError p src die 0 pa) s = .next t ∧ OnlyPkg s t p
          ∧ tget (t.pkg p).errs (src * 4 + die) = tget k.errs (src * 4 + die) + 1
          ∧ (t.pkg p).errRing = if s.ns < tget k.lastCorr (src * 4 + die) then k.errRing else sent src 0)
        ∧ (∃ t, exec (.eccError p src die 1 pa) s = .next t ∧ (t.pkg p).errRing = sent src 1
          ∧ (src = 1 ∨ src = 2 ∨ pa = 0 → ∀ a, t.byteAt a = s.byteAt a))
        ∧ (let hits (f : Nat → Thread → Thread) : Prop := (∃ o ∈ s.blocks, here o) →
             ∃ t, exec (.eccError p src die 1 pa) s = .next t ∧ ∃ o ∈ s.blocks, here o ∧ ∃ j n,
               t.thr o.1 j = f n (s.thr o.1 j) ∧ ∀ b i, b ≠ o.1 ∨ i ≠ j → t.thr b i = s.thr b i
           (src = 1 ∨ (6 ≤ src ∧ pa = 0) → hits fun n th => { th with marks := tset th.marks n true })
           ∧ (3 ≤ src → src < 6 → pa = 0 →
               hits fun n th => { th with loc := { th.loc with bad := tset th.loc.bad n true } }))
        ∧ (src = 2 → pa ≠ 0 → ∃ t, exec (.eccError p src die 1 pa) s = .next t ∧ t.blocks = s.blocks
            ∧ ∀ c, (∀ e ∈ (s.core p c).l1, e.line ≠ s.physKey p pa / 128) → t.core p c = s.core p c)
        ∧ (3 ≤ src → pa ≠ 0 → pa < Config.hbmEnd → k.ranges = [] →
          let key := p * 2 ^ 52 + pa / 32 * 32
          ∃ t, exec (.eccError p src die 1 pa) s = .next t ∧ t.blocks = s.blocks
            ∧ Stored s t key ((tgets s.mem key 32).map fun b => (b, true))
            ∧ ∀ d ∈ t.coh.copies, d.pkg = p → d.sector = key / 32 → d.bytes.all (·.2) = true))
    ∧ (∃ t, exec (.fatalError p m die pa) s = .next t ∧ (∀ o ∈ t.blocks, o.2.pkg ≠ p) ∧ (∀ y ∈ t.ctxs, y.1 / 65536 ≠ p)
        ∧ (t.pkg p).boot.ready = false ∧ (t.pkg p).errRing = sent m 2)
    ∧ (k.ticked < s.ns / 10000 → 2 < k.boot.stage → pwr < 65536 →
        let ticks (v : Power) : Prop := gives (.powerControlTick p pwr) { k with
          power := v, ticked := s.ns / 10000
          gridPast := if v.gduty = w.gduty then k.gridPast else ((s.cycle + 1, w.gduty) :: k.gridPast).take 16 }
        (w.pl < pwr → 15 < w.gduty → ticks { w with pwr := pwr, gduty := w.gduty - 1 })
        ∧ (w.pl < pwr → w.gduty ≤ 15 → ticks { w with pwr := pwr, duty := w.duty - 1 })
        ∧ (pwr ≤ w.pl → w.pl * 98 < pwr * 100 → ticks { w with pwr := pwr })
        ∧ (pwr * 100 ≤ w.pl * 98 → w.duty < (if w.therm then 15 else 63) → ticks { w with pwr := pwr, duty := w.duty + 1 })
        ∧ (pwr * 100 ≤ w.pl * 98 → (if w.therm then 15 else 63) ≤ w.duty → w.gduty < 63 →
            ticks { w with pwr := pwr, gduty := w.gduty + 1 })
        ∧ (pwr * 100 ≤ w.pl * 98 → (if w.therm then 15 else 63) ≤ w.duty → 63 ≤ w.gduty → ticks { w with pwr := pwr }))
    ∧ (s.ns / 10000 ≤ k.ticked ∨ k.boot.stage ≤ 2 → exec (.powerControlTick p pwr) s = .next s)
    ∧ (s.rootUp p = true → 1500 ≤ pl → pl ≤ k.plMax → gives (.powerWordWrite p pl) { k with power := { w with pl := pl } })
    ∧ (s.rootUp p = true → pl < 1500 → gives (.powerWordWrite p pl) { k with power := { w with pl := 1500 } })
    ∧ (s.rootUp p = true → 1500 ≤ k.plMax → k.plMax < pl → gives (.powerWordWrite p pl) { k with power := { w with pl := k.plMax } })
    ∧ gives (.junctionOvertemp p hot)
        { k with power := { w with therm := hot, duty := if hot = true ∧ 15 < w.duty then 15 else w.duty } }
    ∧ (∀ inlet flow, 40 ≤ flow → 400 ≤ inlet → inlet ≤ 710 → gives (.coolantChange p inlet flow)
        { k with inlet10 := inlet, flow10 := flow, plMax := 4600 - 10 * (inlet - 400)
                 power := { w with pl := min w.pl (4600 - 10 * (inlet - 400)) } })
    ∧ (∀ inlet flow, flow < 40 → let m := max 1500 ((4600 - 10 * (inlet - 400)) * flow / 40)
        gives (.coolantChange p inlet flow) { k with
          inlet10 := inlet, flow10 := flow, plMax := m, power := { w with pl := min w.pl m } })
    ∧ (s.rootUp p = true → pa % 128 + data.length ≤ 128 → pa + data.length ≤ Config.hbmEnd → data ≠ [] →
        (s.hostRefused p pa true = false → ∃ t o, exec (.cxlMemAccess p pa data len) s = .next t
          ∧ t = { s with coh := { s.coh with ops := s.coh.ops ++ [o] } } ∧ o.pkg = p ∧ o.key = s.physKey p pa ∧ o.who = .host
          ∧ o.kind = .hostStore data)
        ∧ (s.hostRefused p pa true = true → exec (.cxlMemAccess p pa data len) s = .next s))
    ∧ (s.rootUp p = true → 0 < len → pa % 128 + len ≤ 128 → pa + len ≤ Config.hbmEnd →
        (s.hostRefused p pa false = false → ∃ t o, exec (.cxlMemAccess p pa [] len) s = .next t
          ∧ t = { s with coh := { s.coh with ops := s.coh.ops ++ [o] } } ∧ o.pkg = p ∧ o.key = s.physKey p pa ∧ o.who = .host
          ∧ o.kind = .hostLoad len)
        ∧ (s.hostRefused p pa false = true → gives (.cxlMemAccess p pa [] len)
            { k with host := k.host ++ [.read (List.replicate len (0, true))] }))
    ∧ (∀ (x n : Nat) (va : VAddr) (rec nonce : List Dword) (remap : List (Nat × Word)) (sl : Dword) (svn : Word)
        (sig image : List Byte) (off : List Nat) (ranges : List (Nat × Nat × Nat × Nat)),
      let answers (i : Instr) (msg : HostMsg) : Prop := ∃ t, exec i s = .next t ∧ (t.pkg p).host = k.host ++ [msg]
      let up : Prop := k.boot.ready = true ∧ s.hostUp p = true
      (up → x < 65536 → m < 65536 → n < 8 → pa % 128 = 0 → pa + 128 ≤ Config.hbmEnd →
        (∀ y ∈ s.ctxs, y.1 / 65536 = p → y.2.live = true → y.1 % 65536 ≠ x ∧ y.2.num ≠ m) →
        ∃ t, exec (.contextCreate p (ctxOperand x m) n pa) s = .next t ∧ (t.pctx p x).live = true ∧ (t.pctx p x).part = n)
      ∧ (up → (s.pctx p x).live = true → (s.pctx p x).shoots = [] → (∀ w ∈ s.coh.ops, w.pkg = p → w.ctx ≠ x) →
        (∀ w ∈ s.coh.remote, ¬(w.op.pkg = p ∧ w.op.ctx = x)) →
        ∀ o, (s.pctx p x).objs.find? (fun o => o.base = va) = some o → s.codeInUse p x o = false →
        answers (.codeRelease p x va) (.mailbox 0))
      ∧ (up → n < 8 →
        ¬s.partRefused p n ((List.range 5).map fun i => dw rec i)
          (remap.foldl (fun t e => if e.1 < 384 then tset t e.1 (remapWord e.2) else t) k.remap) remap sl →
        answers (.partitionConfigure p n rec remap sl) (.mailbox 0))
      ∧ (up → n < 64 → regionRz rec = false → s.writesOut p = false →
        answers (.regionDescriptorWrite p n rec) (.mailbox 0))
      ∧ (up → k.leaf < 2 ^ 40 → ∃ t, exec (.attestRequest p nonce) s = .next t ∧ (t.pkg p).leaf = k.leaf + 1)
      ∧ (up → Config.updateVerifies svn sig = true → k.svnMin.toNat < svn.toNat →
        answers (.svnUpdate p svn sig) (.mailbox 0))
      ∧ (Config.imageVerifies image = true → image.length ≤ 262144 → k.svnMin.toNat ≤ (Config.imageSvn image).toNat →
        (∃ c, c < 384 ∧ bootRemap off c ≠ 0) →
        (∃ t, exec (.packageReset p image true true off ranges) s = .next t ∧ (t.pkg p).boot = ⟨true, false, 0, 6, false⟩)
        ∧ (k.boot.stage = 2 → k.boot.tried = false →
          ∃ t, exec (.backupImage p image true true off ranges) s = .next t ∧ (t.pkg p).boot = ⟨true, true, 0, 6, true⟩)))
end

