-- ==== Sys2Proof/Laws/Tab.lean ====
section
/-! SUPPORT. The laws of sparse tables: reading after a write, and the canonical form kept by every operation. -/

namespace Sys2Proof.Machine

variable {α : Type} [Inhabited α] [DecidableEq α]

theorem tget_terase_same (t : Tab α) (k : Nat) : tget (terase t k) k = default := by
  induction t with
  | nil => rfl
  | cons e t ih =>
    obtain ⟨j, v⟩ := e
    by_cases h : j = k
    · simp [terase, h, ih]
    · simp [terase, tget, h, ih]

theorem tget_terase_ne (t : Tab α) {k j : Nat} (h : j ≠ k) : tget (terase t k) j = tget t j := by
  induction t with
  | nil => rfl
  | cons e t ih =>
    obtain ⟨i, v⟩ := e
    by_cases hk : i = k
    · have : ¬i = j := fun hj => h (hj ▸ hk)
      simp [terase, tget, hk, ih, show ¬k = j from fun e => h e.symm]
    · simp [terase, tget, hk, ih]

theorem tget_tinsert_same (t : Tab α) (k : Nat) (v : α) : tget (tinsert t k v) k = v := by
  induction t with
  | nil => simp [tinsert, tget]
  | cons e t ih =>
    obtain ⟨j, w⟩ := e
    by_cases h1 : k < j
    · simp [tinsert, tget, h1]
    · by_cases h2 : k = j
      · simp [tinsert, tget, h2]
      · simp [tinsert, tget, h1, h2, show ¬j = k from fun e => h2 e.symm, ih]

theorem tget_tinsert_ne (t : Tab α) {k j : Nat} (v : α) (h : j ≠ k) : tget (tinsert t k v) j = tget t j := by
  have hk : ¬k = j := fun e => h e.symm
  induction t with
  | nil => simp [tinsert, tget, hk]
  | cons e t ih =>
    obtain ⟨i, w⟩ := e
    by_cases h1 : k < i
    · simp [tinsert, tget, h1, hk]
    · by_cases h2 : k = i
      · have : ¬i = j := fun e => hk (h2.trans e)
        simp [tinsert, tget, h2, this]
      · simp [tinsert, tget, h1, h2, ih]

/-- Reading the key that was written. -/
@[simp] theorem tget_tset_same (t : Tab α) (k : Nat) (v : α) : tget (tset t k v) k = v := by
  unfold tset
  split
  · next h => rw [h]; exact tget_terase_same t k
  · exact tget_tinsert_same t k v

/-- Reading another key. -/
theorem tget_tset_ne (t : Tab α) {k j : Nat} (v : α) (h : j ≠ k) : tget (tset t k v) j = tget t j := by
  unfold tset
  split
  · exact tget_terase_ne t h
  · exact tget_tinsert_ne t v h

/-- Reading any key after a write. -/
theorem tget_tset (t : Tab α) (k j : Nat) (v : α) : tget (tset t k v) j = if j = k then v else tget t j := by
  split
  · next h => rw [h]; exact tget_tset_same t k v
  · next h => exact tget_tset_ne t v h

@[simp] theorem tget_tmod_same (t : Tab α) (k : Nat) (f : α → α) : tget (tmod t k f) k = f (tget t k) :=
  tget_tset_same t k _

theorem tget_tmod_ne (t : Tab α) {k j : Nat} (f : α → α) (h : j ≠ k) : tget (tmod t k f) j = tget t j :=
  tget_tset_ne t _ h

theorem twfFrom_mono {lo lo' : Nat} {t : Tab α} (hl : lo' ≤ lo) (h : twfFrom lo t = true) : twfFrom lo' t = true := by
  cases t with
  | nil => rfl
  | cons e t =>
    obtain ⟨j, v⟩ := e
    simp only [twfFrom, Bool.and_eq_true, decide_eq_true_eq] at h ⊢
    exact ⟨⟨Nat.le_trans hl h.1.1, h.1.2⟩, h.2⟩

theorem twfFrom_terase {lo : Nat} {t : Tab α} (k : Nat) (h : twfFrom lo t = true) : twfFrom lo (terase t k) = true := by
  induction t generalizing lo with
  | nil => rfl
  | cons e t ih =>
    obtain ⟨j, v⟩ := e
    simp only [twfFrom, Bool.and_eq_true, decide_eq_true_eq] at h
    unfold terase
    split
    · exact twfFrom_mono (by omega) (ih h.2)
    · simp only [twfFrom, Bool.and_eq_true, decide_eq_true_eq]
      exact ⟨h.1, ih h.2⟩

theorem twfFrom_tinsert {lo : Nat} {t : Tab α} {k : Nat} {v : α} (hk : lo ≤ k) (hv : v ≠ default)
    (h : twfFrom lo t = true) : twfFrom lo (tinsert t k v) = true := by
  induction t generalizing lo with
  | nil => simp [tinsert, twfFrom, hk, hv]
  | cons e t ih =>
    obtain ⟨j, w⟩ := e
    simp only [twfFrom, Bool.and_eq_true, decide_eq_true_eq] at h
    unfold tinsert
    split
    · simp only [twfFrom, Bool.and_eq_true, decide_eq_true_eq]
      exact ⟨⟨hk, hv⟩, ⟨⟨by omega, h.1.2⟩, h.2⟩⟩
    · split
      · next h1 h2 =>
        subst h2
        simp only [twfFrom, Bool.and_eq_true, decide_eq_true_eq]
        exact ⟨⟨hk, hv⟩, h.2⟩
      · next h1 h2 =>
        simp only [twfFrom, Bool.and_eq_true, decide_eq_true_eq]
        exact ⟨h.1, ih (by omega) h.2⟩

/-- A write keeps the canonical form. -/
theorem twf_tset {t : Tab α} (k : Nat) (v : α) (h : twf t = true) : twf (tset t k v) = true := by
  unfold tset
  split
  · exact twfFrom_terase k h
  · next hv => exact twfFrom_tinsert (Nat.zero_le k) hv h

/-- Several writes keep the canonical form. -/
theorem twf_tsets {t : Tab α} (k : Nat) (vs : List α) (h : twf t = true) : twf (tsets t k vs) = true := by
  induction vs generalizing t k with
  | nil => exact h
  | cons v vs ih => exact ih (k + 1) (twf_tset k v h)

/-- Reading outside the keys written. -/
theorem tget_tsets_out (t : Tab α) (k j : Nat) (vs : List α) (h : j < k ∨ k + vs.length ≤ j) :
    tget (tsets t k vs) j = tget t j := by
  induction vs generalizing t k with
  | nil => rfl
  | cons v vs ih =>
    simp only [List.length_cons] at h
    rw [tsets, ih _ _ (by omega), tget_tset_ne]
    omega

/-- Reading one of the keys written. -/
theorem tget_tsets_in (t : Tab α) (k i : Nat) (vs : List α) (h : i < vs.length) :
    tget (tsets t k vs) (k + i) = vs[i] := by
  induction vs generalizing t k i with
  | nil => simp at h
  | cons v vs ih =>
    cases i with
    | zero => rw [tsets, tget_tsets_out _ _ _ _ (by omega)]; simp
    | succ i =>
      have := ih (tset t k v) (k + 1) i (by simpa using h)
      rw [tsets, show k + (i + 1) = k + 1 + i by omega, this]
      rfl

end Sys2Proof.Machine
end

