-- ==== Sys2Proof/Laws/State.lean ====
section
/-! SUPPORT. What each named update of the state leaves: one lemma per field and update, and what reading the part it
changes gives. -/

namespace Sys2Proof.Machine

variable (s : State)

@[simp] theorem modPkg_cycle (p : Nat) (f : Pkg → Pkg) : (s.modPkg p f).cycle = s.cycle := rfl
@[simp] theorem modPkg_tick (p : Nat) (f : Pkg → Pkg) : (s.modPkg p f).tick = s.tick := rfl
@[simp] theorem modPkg_cur (p : Nat) (f : Pkg → Pkg) : (s.modPkg p f).cur = s.cur := rfl
@[simp] theorem modPkg_issue (p : Nat) (f : Pkg → Pkg) : (s.modPkg p f).issue = s.issue := rfl
@[simp] theorem modPkg_agenda (p : Nat) (f : Pkg → Pkg) : (s.modPkg p f).agenda = s.agenda := rfl
@[simp] theorem modPkg_ctxs (p : Nat) (f : Pkg → Pkg) : (s.modPkg p f).ctxs = s.ctxs := rfl
@[simp] theorem modPkg_cores (p : Nat) (f : Pkg → Pkg) : (s.modPkg p f).cores = s.cores := rfl
@[simp] theorem modPkg_blocks (p : Nat) (f : Pkg → Pkg) : (s.modPkg p f).blocks = s.blocks := rfl
@[simp] theorem modPkg_mem (p : Nat) (f : Pkg → Pkg) : (s.modPkg p f).mem = s.mem := rfl
@[simp] theorem modPkg_bad (p : Nat) (f : Pkg → Pkg) : (s.modPkg p f).bad = s.bad := rfl
@[simp] theorem modPkg_coh (p : Nat) (f : Pkg → Pkg) : (s.modPkg p f).coh = s.coh := rfl
@[simp] theorem modPkg_cmds (p : Nat) (f : Pkg → Pkg) : (s.modPkg p f).cmds = s.cmds := rfl
@[simp] theorem modPkg_heads (p : Nat) (f : Pkg → Pkg) : (s.modPkg p f).heads = s.heads := rfl
@[simp] theorem modPkg_images (p : Nat) (f : Pkg → Pkg) : (s.modPkg p f).images = s.images := rfl
@[simp] theorem modPkg_nextBlk (p : Nat) (f : Pkg → Pkg) : (s.modPkg p f).nextBlk = s.nextBlk := rfl
@[simp] theorem modPkg_nextCmd (p : Nat) (f : Pkg → Pkg) : (s.modPkg p f).nextCmd = s.nextCmd := rfl
@[simp] theorem modPkg_nextWarp (p : Nat) (f : Pkg → Pkg) : (s.modPkg p f).nextWarp = s.nextWarp := rfl
@[simp] theorem modPkg_nextImg (p : Nat) (f : Pkg → Pkg) : (s.modPkg p f).nextImg = s.nextImg := rfl

@[simp] theorem modCore_cycle (p c : Nat) (f : Core → Core) : (s.modCore p c f).cycle = s.cycle := rfl
@[simp] theorem modCore_tick (p c : Nat) (f : Core → Core) : (s.modCore p c f).tick = s.tick := rfl
@[simp] theorem modCore_cur (p c : Nat) (f : Core → Core) : (s.modCore p c f).cur = s.cur := rfl
@[simp] theorem modCore_issue (p c : Nat) (f : Core → Core) : (s.modCore p c f).issue = s.issue := rfl
@[simp] theorem modCore_agenda (p c : Nat) (f : Core → Core) : (s.modCore p c f).agenda = s.agenda := rfl
@[simp] theorem modCore_pkgs (p c : Nat) (f : Core → Core) : (s.modCore p c f).pkgs = s.pkgs := rfl
@[simp] theorem modCore_ctxs (p c : Nat) (f : Core → Core) : (s.modCore p c f).ctxs = s.ctxs := rfl
@[simp] theorem modCore_blocks (p c : Nat) (f : Core → Core) : (s.modCore p c f).blocks = s.blocks := rfl
@[simp] theorem modCore_mem (p c : Nat) (f : Core → Core) : (s.modCore p c f).mem = s.mem := rfl
@[simp] theorem modCore_bad (p c : Nat) (f : Core → Core) : (s.modCore p c f).bad = s.bad := rfl
@[simp] theorem modCore_coh (p c : Nat) (f : Core → Core) : (s.modCore p c f).coh = s.coh := rfl
@[simp] theorem modCore_cmds (p c : Nat) (f : Core → Core) : (s.modCore p c f).cmds = s.cmds := rfl
@[simp] theorem modCore_heads (p c : Nat) (f : Core → Core) : (s.modCore p c f).heads = s.heads := rfl
@[simp] theorem modCore_images (p c : Nat) (f : Core → Core) : (s.modCore p c f).images = s.images := rfl
@[simp] theorem modCore_nextBlk (p c : Nat) (f : Core → Core) : (s.modCore p c f).nextBlk = s.nextBlk := rfl
@[simp] theorem modCore_nextCmd (p c : Nat) (f : Core → Core) : (s.modCore p c f).nextCmd = s.nextCmd := rfl
@[simp] theorem modCore_nextWarp (p c : Nat) (f : Core → Core) : (s.modCore p c f).nextWarp = s.nextWarp := rfl
@[simp] theorem modCore_nextImg (p c : Nat) (f : Core → Core) : (s.modCore p c f).nextImg = s.nextImg := rfl

@[simp] theorem modCtx_cycle (p x : Nat) (f : PkgCtx → PkgCtx) : (s.modCtx p x f).cycle = s.cycle := rfl
@[simp] theorem modCtx_tick (p x : Nat) (f : PkgCtx → PkgCtx) : (s.modCtx p x f).tick = s.tick := rfl
@[simp] theorem modCtx_cur (p x : Nat) (f : PkgCtx → PkgCtx) : (s.modCtx p x f).cur = s.cur := rfl
@[simp] theorem modCtx_issue (p x : Nat) (f : PkgCtx → PkgCtx) : (s.modCtx p x f).issue = s.issue := rfl
@[simp] theorem modCtx_agenda (p x : Nat) (f : PkgCtx → PkgCtx) : (s.modCtx p x f).agenda = s.agenda := rfl
@[simp] theorem modCtx_pkgs (p x : Nat) (f : PkgCtx → PkgCtx) : (s.modCtx p x f).pkgs = s.pkgs := rfl
@[simp] theorem modCtx_cores (p x : Nat) (f : PkgCtx → PkgCtx) : (s.modCtx p x f).cores = s.cores := rfl
@[simp] theorem modCtx_blocks (p x : Nat) (f : PkgCtx → PkgCtx) : (s.modCtx p x f).blocks = s.blocks := rfl
@[simp] theorem modCtx_mem (p x : Nat) (f : PkgCtx → PkgCtx) : (s.modCtx p x f).mem = s.mem := rfl
@[simp] theorem modCtx_bad (p x : Nat) (f : PkgCtx → PkgCtx) : (s.modCtx p x f).bad = s.bad := rfl
@[simp] theorem modCtx_coh (p x : Nat) (f : PkgCtx → PkgCtx) : (s.modCtx p x f).coh = s.coh := rfl
@[simp] theorem modCtx_cmds (p x : Nat) (f : PkgCtx → PkgCtx) : (s.modCtx p x f).cmds = s.cmds := rfl
@[simp] theorem modCtx_heads (p x : Nat) (f : PkgCtx → PkgCtx) : (s.modCtx p x f).heads = s.heads := rfl
@[simp] theorem modCtx_images (p x : Nat) (f : PkgCtx → PkgCtx) : (s.modCtx p x f).images = s.images := rfl
@[simp] theorem modCtx_nextBlk (p x : Nat) (f : PkgCtx → PkgCtx) : (s.modCtx p x f).nextBlk = s.nextBlk := rfl
@[simp] theorem modCtx_nextCmd (p x : Nat) (f : PkgCtx → PkgCtx) : (s.modCtx p x f).nextCmd = s.nextCmd := rfl
@[simp] theorem modCtx_nextWarp (p x : Nat) (f : PkgCtx → PkgCtx) : (s.modCtx p x f).nextWarp = s.nextWarp := rfl
@[simp] theorem modCtx_nextImg (p x : Nat) (f : PkgCtx → PkgCtx) : (s.modCtx p x f).nextImg = s.nextImg := rfl

@[simp] theorem modBlk_cycle (b : Nat) (f : Block → Block) : (s.modBlk b f).cycle = s.cycle := rfl
@[simp] theorem modBlk_tick (b : Nat) (f : Block → Block) : (s.modBlk b f).tick = s.tick := rfl
@[simp] theorem modBlk_cur (b : Nat) (f : Block → Block) : (s.modBlk b f).cur = s.cur := rfl
@[simp] theorem modBlk_issue (b : Nat) (f : Block → Block) : (s.modBlk b f).issue = s.issue := rfl
@[simp] theorem modBlk_agenda (b : Nat) (f : Block → Block) : (s.modBlk b f).agenda = s.agenda := rfl
@[simp] theorem modBlk_pkgs (b : Nat) (f : Block → Block) : (s.modBlk b f).pkgs = s.pkgs := rfl
@[simp] theorem modBlk_ctxs (b : Nat) (f : Block → Block) : (s.modBlk b f).ctxs = s.ctxs := rfl
@[simp] theorem modBlk_cores (b : Nat) (f : Block → Block) : (s.modBlk b f).cores = s.cores := rfl
@[simp] theorem modBlk_mem (b : Nat) (f : Block → Block) : (s.modBlk b f).mem = s.mem := rfl
@[simp] theorem modBlk_bad (b : Nat) (f : Block → Block) : (s.modBlk b f).bad = s.bad := rfl
@[simp] theorem modBlk_coh (b : Nat) (f : Block → Block) : (s.modBlk b f).coh = s.coh := rfl
@[simp] theorem modBlk_cmds (b : Nat) (f : Block → Block) : (s.modBlk b f).cmds = s.cmds := rfl
@[simp] theorem modBlk_heads (b : Nat) (f : Block → Block) : (s.modBlk b f).heads = s.heads := rfl
@[simp] theorem modBlk_images (b : Nat) (f : Block → Block) : (s.modBlk b f).images = s.images := rfl
@[simp] theorem modBlk_nextBlk (b : Nat) (f : Block → Block) : (s.modBlk b f).nextBlk = s.nextBlk := rfl
@[simp] theorem modBlk_nextCmd (b : Nat) (f : Block → Block) : (s.modBlk b f).nextCmd = s.nextCmd := rfl
@[simp] theorem modBlk_nextWarp (b : Nat) (f : Block → Block) : (s.modBlk b f).nextWarp = s.nextWarp := rfl
@[simp] theorem modBlk_nextImg (b : Nat) (f : Block → Block) : (s.modBlk b f).nextImg = s.nextImg := rfl

@[simp] theorem modThr_cycle (b t : Nat) (f : Thread → Thread) : (s.modThr b t f).cycle = s.cycle := rfl
@[simp] theorem modThr_tick (b t : Nat) (f : Thread → Thread) : (s.modThr b t f).tick = s.tick := rfl
@[simp] theorem modThr_cur (b t : Nat) (f : Thread → Thread) : (s.modThr b t f).cur = s.cur := rfl
@[simp] theorem modThr_issue (b t : Nat) (f : Thread → Thread) : (s.modThr b t f).issue = s.issue := rfl
@[simp] theorem modThr_agenda (b t : Nat) (f : Thread → Thread) : (s.modThr b t f).agenda = s.agenda := rfl
@[simp] theorem modThr_pkgs (b t : Nat) (f : Thread → Thread) : (s.modThr b t f).pkgs = s.pkgs := rfl
@[simp] theorem modThr_ctxs (b t : Nat) (f : Thread → Thread) : (s.modThr b t f).ctxs = s.ctxs := rfl
@[simp] theorem modThr_cores (b t : Nat) (f : Thread → Thread) : (s.modThr b t f).cores = s.cores := rfl
@[simp] theorem modThr_mem (b t : Nat) (f : Thread → Thread) : (s.modThr b t f).mem = s.mem := rfl
@[simp] theorem modThr_bad (b t : Nat) (f : Thread → Thread) : (s.modThr b t f).bad = s.bad := rfl
@[simp] theorem modThr_coh (b t : Nat) (f : Thread → Thread) : (s.modThr b t f).coh = s.coh := rfl
@[simp] theorem modThr_cmds (b t : Nat) (f : Thread → Thread) : (s.modThr b t f).cmds = s.cmds := rfl
@[simp] theorem modThr_heads (b t : Nat) (f : Thread → Thread) : (s.modThr b t f).heads = s.heads := rfl
@[simp] theorem modThr_images (b t : Nat) (f : Thread → Thread) : (s.modThr b t f).images = s.images := rfl
@[simp] theorem modThr_nextBlk (b t : Nat) (f : Thread → Thread) : (s.modThr b t f).nextBlk = s.nextBlk := rfl
@[simp] theorem modThr_nextCmd (b t : Nat) (f : Thread → Thread) : (s.modThr b t f).nextCmd = s.nextCmd := rfl
@[simp] theorem modThr_nextWarp (b t : Nat) (f : Thread → Thread) : (s.modThr b t f).nextWarp = s.nextWarp := rfl
@[simp] theorem modThr_nextImg (b t : Nat) (f : Thread → Thread) : (s.modThr b t f).nextImg = s.nextImg := rfl

@[simp] theorem modMe_cycle (f : Thread → Thread) : (s.modMe f).cycle = s.cycle := rfl
@[simp] theorem modMe_tick (f : Thread → Thread) : (s.modMe f).tick = s.tick := rfl
@[simp] theorem modMe_cur (f : Thread → Thread) : (s.modMe f).cur = s.cur := rfl
@[simp] theorem modMe_issue (f : Thread → Thread) : (s.modMe f).issue = s.issue := rfl
@[simp] theorem modMe_agenda (f : Thread → Thread) : (s.modMe f).agenda = s.agenda := rfl
@[simp] theorem modMe_pkgs (f : Thread → Thread) : (s.modMe f).pkgs = s.pkgs := rfl
@[simp] theorem modMe_ctxs (f : Thread → Thread) : (s.modMe f).ctxs = s.ctxs := rfl
@[simp] theorem modMe_cores (f : Thread → Thread) : (s.modMe f).cores = s.cores := rfl
@[simp] theorem modMe_mem (f : Thread → Thread) : (s.modMe f).mem = s.mem := rfl
@[simp] theorem modMe_bad (f : Thread → Thread) : (s.modMe f).bad = s.bad := rfl
@[simp] theorem modMe_coh (f : Thread → Thread) : (s.modMe f).coh = s.coh := rfl
@[simp] theorem modMe_cmds (f : Thread → Thread) : (s.modMe f).cmds = s.cmds := rfl
@[simp] theorem modMe_heads (f : Thread → Thread) : (s.modMe f).heads = s.heads := rfl
@[simp] theorem modMe_images (f : Thread → Thread) : (s.modMe f).images = s.images := rfl
@[simp] theorem modMe_nextBlk (f : Thread → Thread) : (s.modMe f).nextBlk = s.nextBlk := rfl
@[simp] theorem modMe_nextCmd (f : Thread → Thread) : (s.modMe f).nextCmd = s.nextCmd := rfl
@[simp] theorem modMe_nextWarp (f : Thread → Thread) : (s.modMe f).nextWarp = s.nextWarp := rfl
@[simp] theorem modMe_nextImg (f : Thread → Thread) : (s.modMe f).nextImg = s.nextImg := rfl

@[simp] theorem modMyBlk_cycle (f : Block → Block) : (s.modMyBlk f).cycle = s.cycle := rfl
@[simp] theorem modMyBlk_tick (f : Block → Block) : (s.modMyBlk f).tick = s.tick := rfl
@[simp] theorem modMyBlk_cur (f : Block → Block) : (s.modMyBlk f).cur = s.cur := rfl
@[simp] theorem modMyBlk_issue (f : Block → Block) : (s.modMyBlk f).issue = s.issue := rfl
@[simp] theorem modMyBlk_agenda (f : Block → Block) : (s.modMyBlk f).agenda = s.agenda := rfl
@[simp] theorem modMyBlk_pkgs (f : Block → Block) : (s.modMyBlk f).pkgs = s.pkgs := rfl
@[simp] theorem modMyBlk_ctxs (f : Block → Block) : (s.modMyBlk f).ctxs = s.ctxs := rfl
@[simp] theorem modMyBlk_cores (f : Block → Block) : (s.modMyBlk f).cores = s.cores := rfl
@[simp] theorem modMyBlk_mem (f : Block → Block) : (s.modMyBlk f).mem = s.mem := rfl
@[simp] theorem modMyBlk_bad (f : Block → Block) : (s.modMyBlk f).bad = s.bad := rfl
@[simp] theorem modMyBlk_coh (f : Block → Block) : (s.modMyBlk f).coh = s.coh := rfl
@[simp] theorem modMyBlk_cmds (f : Block → Block) : (s.modMyBlk f).cmds = s.cmds := rfl
@[simp] theorem modMyBlk_heads (f : Block → Block) : (s.modMyBlk f).heads = s.heads := rfl
@[simp] theorem modMyBlk_images (f : Block → Block) : (s.modMyBlk f).images = s.images := rfl
@[simp] theorem modMyBlk_nextBlk (f : Block → Block) : (s.modMyBlk f).nextBlk = s.nextBlk := rfl
@[simp] theorem modMyBlk_nextCmd (f : Block → Block) : (s.modMyBlk f).nextCmd = s.nextCmd := rfl
@[simp] theorem modMyBlk_nextWarp (f : Block → Block) : (s.modMyBlk f).nextWarp = s.nextWarp := rfl
@[simp] theorem modMyBlk_nextImg (f : Block → Block) : (s.modMyBlk f).nextImg = s.nextImg := rfl

@[simp] theorem modCoh_cycle (f : Coh → Coh) : (s.modCoh f).cycle = s.cycle := rfl
@[simp] theorem modCoh_tick (f : Coh → Coh) : (s.modCoh f).tick = s.tick := rfl
@[simp] theorem modCoh_cur (f : Coh → Coh) : (s.modCoh f).cur = s.cur := rfl
@[simp] theorem modCoh_issue (f : Coh → Coh) : (s.modCoh f).issue = s.issue := rfl
@[simp] theorem modCoh_agenda (f : Coh → Coh) : (s.modCoh f).agenda = s.agenda := rfl
@[simp] theorem modCoh_pkgs (f : Coh → Coh) : (s.modCoh f).pkgs = s.pkgs := rfl
@[simp] theorem modCoh_ctxs (f : Coh → Coh) : (s.modCoh f).ctxs = s.ctxs := rfl
@[simp] theorem modCoh_cores (f : Coh → Coh) : (s.modCoh f).cores = s.cores := rfl
@[simp] theorem modCoh_blocks (f : Coh → Coh) : (s.modCoh f).blocks = s.blocks := rfl
@[simp] theorem modCoh_mem (f : Coh → Coh) : (s.modCoh f).mem = s.mem := rfl
@[simp] theorem modCoh_bad (f : Coh → Coh) : (s.modCoh f).bad = s.bad := rfl
@[simp] theorem modCoh_cmds (f : Coh → Coh) : (s.modCoh f).cmds = s.cmds := rfl
@[simp] theorem modCoh_heads (f : Coh → Coh) : (s.modCoh f).heads = s.heads := rfl
@[simp] theorem modCoh_images (f : Coh → Coh) : (s.modCoh f).images = s.images := rfl
@[simp] theorem modCoh_nextBlk (f : Coh → Coh) : (s.modCoh f).nextBlk = s.nextBlk := rfl
@[simp] theorem modCoh_nextCmd (f : Coh → Coh) : (s.modCoh f).nextCmd = s.nextCmd := rfl
@[simp] theorem modCoh_nextWarp (f : Coh → Coh) : (s.modCoh f).nextWarp = s.nextWarp := rfl
@[simp] theorem modCoh_nextImg (f : Coh → Coh) : (s.modCoh f).nextImg = s.nextImg := rfl

@[simp] theorem modIw_cycle (f : IssueWarp → IssueWarp) : (s.modIw f).cycle = s.cycle := by unfold State.modIw; split <;> rfl
@[simp] theorem modIw_tick (f : IssueWarp → IssueWarp) : (s.modIw f).tick = s.tick := by unfold State.modIw; split <;> rfl
@[simp] theorem modIw_cur (f : IssueWarp → IssueWarp) : (s.modIw f).cur = s.cur := by unfold State.modIw; split <;> rfl
@[simp] theorem modIw_agenda (f : IssueWarp → IssueWarp) : (s.modIw f).agenda = s.agenda := by unfold State.modIw; split <;> rfl
@[simp] theorem modIw_pkgs (f : IssueWarp → IssueWarp) : (s.modIw f).pkgs = s.pkgs := by unfold State.modIw; split <;> rfl
@[simp] theorem modIw_ctxs (f : IssueWarp → IssueWarp) : (s.modIw f).ctxs = s.ctxs := by unfold State.modIw; split <;> rfl
@[simp] theorem modIw_cores (f : IssueWarp → IssueWarp) : (s.modIw f).cores = s.cores := by unfold State.modIw; split <;> rfl
@[simp] theorem modIw_blocks (f : IssueWarp → IssueWarp) : (s.modIw f).blocks = s.blocks := by unfold State.modIw; split <;> rfl
@[simp] theorem modIw_mem (f : IssueWarp → IssueWarp) : (s.modIw f).mem = s.mem := by unfold State.modIw; split <;> rfl
@[simp] theorem modIw_bad (f : IssueWarp → IssueWarp) : (s.modIw f).bad = s.bad := by unfold State.modIw; split <;> rfl
@[simp] theorem modIw_coh (f : IssueWarp → IssueWarp) : (s.modIw f).coh = s.coh := by unfold State.modIw; split <;> rfl
@[simp] theorem modIw_cmds (f : IssueWarp → IssueWarp) : (s.modIw f).cmds = s.cmds := by unfold State.modIw; split <;> rfl
@[simp] theorem modIw_heads (f : IssueWarp → IssueWarp) : (s.modIw f).heads = s.heads := by unfold State.modIw; split <;> rfl
@[simp] theorem modIw_images (f : IssueWarp → IssueWarp) : (s.modIw f).images = s.images := by unfold State.modIw; split <;> rfl
@[simp] theorem modIw_nextBlk (f : IssueWarp → IssueWarp) : (s.modIw f).nextBlk = s.nextBlk := by unfold State.modIw; split <;> rfl
@[simp] theorem modIw_nextCmd (f : IssueWarp → IssueWarp) : (s.modIw f).nextCmd = s.nextCmd := by unfold State.modIw; split <;> rfl
@[simp] theorem modIw_nextWarp (f : IssueWarp → IssueWarp) : (s.modIw f).nextWarp = s.nextWarp := by unfold State.modIw; split <;> rfl
@[simp] theorem modIw_nextImg (f : IssueWarp → IssueWarp) : (s.modIw f).nextImg = s.nextImg := by unfold State.modIw; split <;> rfl

@[simp] theorem event_cycle : s.event.cycle = s.cycle := modIw_cycle s _
@[simp] theorem event_tick : s.event.tick = s.tick := modIw_tick s _
@[simp] theorem event_cur : s.event.cur = s.cur := modIw_cur s _
@[simp] theorem event_agenda : s.event.agenda = s.agenda := modIw_agenda s _
@[simp] theorem event_pkgs : s.event.pkgs = s.pkgs := modIw_pkgs s _
@[simp] theorem event_ctxs : s.event.ctxs = s.ctxs := modIw_ctxs s _
@[simp] theorem event_cores : s.event.cores = s.cores := modIw_cores s _
@[simp] theorem event_blocks : s.event.blocks = s.blocks := modIw_blocks s _
@[simp] theorem event_mem : s.event.mem = s.mem := modIw_mem s _
@[simp] theorem event_bad : s.event.bad = s.bad := modIw_bad s _
@[simp] theorem event_coh : s.event.coh = s.coh := modIw_coh s _
@[simp] theorem event_cmds : s.event.cmds = s.cmds := modIw_cmds s _
@[simp] theorem event_heads : s.event.heads = s.heads := modIw_heads s _
@[simp] theorem event_images : s.event.images = s.images := modIw_images s _
@[simp] theorem event_nextBlk : s.event.nextBlk = s.nextBlk := modIw_nextBlk s _
@[simp] theorem event_nextCmd : s.event.nextCmd = s.nextCmd := modIw_nextCmd s _
@[simp] theorem event_nextWarp : s.event.nextWarp = s.nextWarp := modIw_nextWarp s _
@[simp] theorem event_nextImg : s.event.nextImg = s.nextImg := modIw_nextImg s _

-- Reading what was changed

@[simp] theorem modPkg_pkg (p : Nat) (f : Pkg → Pkg) : (s.modPkg p f).pkg p = f (s.pkg p) := tget_tmod_same _ _ _
theorem modPkg_pkg_ne {p q : Nat} (f : Pkg → Pkg) (h : q ≠ p) : (s.modPkg p f).pkg q = s.pkg q := tget_tmod_ne _ _ h
@[simp] theorem modCore_core (p c : Nat) (f : Core → Core) : (s.modCore p c f).core p c = f (s.core p c) :=
  tget_tmod_same _ _ _
@[simp] theorem modCtx_pctx (p x : Nat) (f : PkgCtx → PkgCtx) : (s.modCtx p x f).pctx p x = f (s.pctx p x) :=
  tget_tmod_same _ _ _
@[simp] theorem modBlk_blk (b : Nat) (f : Block → Block) : (s.modBlk b f).blk b = f (s.blk b) := tget_tmod_same _ _ _
theorem modBlk_blk_ne {b k : Nat} (f : Block → Block) (h : k ≠ b) : (s.modBlk b f).blk k = s.blk k :=
  tget_tmod_ne _ _ h
@[simp] theorem modThr_thr (b t : Nat) (f : Thread → Thread) : (s.modThr b t f).thr b t = f (s.thr b t) := by
  simp [State.modThr, State.thr, Block.modThr]
theorem modThr_thr_ne {b t k : Nat} (f : Thread → Thread) (h : k ≠ t) : (s.modThr b t f).thr b k = s.thr b k := by
  simp [State.modThr, State.thr, Block.modThr, tget_tmod_ne _ _ h]
theorem modThr_blk (b t : Nat) (f : Thread → Thread) :
    (s.modThr b t f).blk b = { s.blk b with threads := tmod (s.blk b).threads t f } := by
  simp [State.modThr, Block.modThr]
theorem modThr_blk_ne {b t k : Nat} (f : Thread → Thread) (h : k ≠ b) : (s.modThr b t f).blk k = s.blk k :=
  modBlk_blk_ne s _ h
@[simp] theorem modMe_me (f : Thread → Thread) : (s.modMe f).me = f s.me := modThr_thr s _ _ f
@[simp] theorem modMyBlk_myBlk (f : Block → Block) : (s.modMyBlk f).myBlk = f s.myBlk := modBlk_blk s _ f
@[simp] theorem modCoh_coh (f : Coh → Coh) : (s.modCoh f).coh = f s.coh := rfl

-- What reads the blocks alone does not see an update elsewhere

theorem blk_of_blocks {s t : State} (h : t.blocks = s.blocks) (b : Nat) : t.blk b = s.blk b := by
  simp [State.blk, h]
theorem thr_of_blocks {s t : State} (h : t.blocks = s.blocks) (b k : Nat) : t.thr b k = s.thr b k := by
  simp [State.thr, State.blk, h]
@[simp] theorem modIw_me (f : IssueWarp → IssueWarp) : (s.modIw f).me = s.me := by
  simp [State.me, State.thr, State.blk]
@[simp] theorem modIw_blk (f : IssueWarp → IssueWarp) (b : Nat) : (s.modIw f).blk b = s.blk b := by
  simp [State.blk]
@[simp] theorem modIw_myBlk (f : IssueWarp → IssueWarp) : (s.modIw f).myBlk = s.myBlk := by simp [State.myBlk]
@[simp] theorem modIw_thr (f : IssueWarp → IssueWarp) (b t : Nat) : (s.modIw f).thr b t = s.thr b t := by
  simp [State.thr]
@[simp] theorem event_me : s.event.me = s.me := modIw_me s _
@[simp] theorem event_blk (b : Nat) : s.event.blk b = s.blk b := modIw_blk s _ b
@[simp] theorem event_myBlk : s.event.myBlk = s.myBlk := modIw_myBlk s _
@[simp] theorem modCoh_me (f : Coh → Coh) : (s.modCoh f).me = s.me := rfl
@[simp] theorem modCoh_blk (f : Coh → Coh) (b : Nat) : (s.modCoh f).blk b = s.blk b := rfl
@[simp] theorem modCoh_myBlk (f : Coh → Coh) : (s.modCoh f).myBlk = s.myBlk := rfl
@[simp] theorem modPkg_blk (p : Nat) (f : Pkg → Pkg) (b : Nat) : (s.modPkg p f).blk b = s.blk b := rfl
@[simp] theorem modPkg_me (p : Nat) (f : Pkg → Pkg) : (s.modPkg p f).me = s.me := rfl

end Sys2Proof.Machine
end

