-- ==== Sys2Proof/Laws/Ops.lean ====
section
/-! SUPPORT. What the shared operations on the executing thread do, each said once: how an instruction begins, the
writes of registers and predicates, moving on, waiting, and taking an exception. -/

namespace Sys2Proof.Machine

-- How an instruction begins

/-- Under `executes` an instruction does what its own wait lets it do: it waits, or its body runs. -/
theorem enterG_executes {s : State} {c : Ctl} {i : Instr} (h : s.executes c i = true) (wait : State → Option Wait)
    (off body : State → State) :
    s.enterG c (usesOf i) wait off body = match wait s with
      | some w => s.waitMe w
      | none => body s := by
  unfold State.executes at h
  simp only [Bool.and_eq_true, decide_eq_true_eq, Bool.not_eq_true', Bool.or_eq_true] at h
  obtain ⟨⟨⟨⟨⟨h2, h3⟩, h4⟩, h5⟩, h6⟩, h7⟩ := h
  have e2 : ((usesOf i).regs.any fun r => decide (s.me.allot ≤ r)) = false := by
    rw [List.any_eq_false]
    rw [List.all_eq_true] at h2
    intro r hr
    have := h2 r hr
    simp only [decide_eq_true_eq] at this ⊢
    omega
  have e3 : (s.stallSub (usesOf i)) = none := Option.isNone_iff_eq_none.mp h6
  unfold State.enterG
  simp only [e2, h3, h4, h5, e3, h7, Bool.false_eq_true, if_false] <;> (cases wait s <;> rfl)

theorem enter_executes {s : State} {c : Ctl} {i : Instr} (h : s.executes c i = true) (body : State → State) :
    s.enter c (usesOf i) body = body s := enterG_executes h _ _ _

theorem run_executes {s : State} {c : Ctl} {i : Instr} (h : s.executes c i = true) (body : State → State) :
    s.run c i body = .next (body s) := by
  unfold State.run
  rw [enter_executes h]

theorem runW_executes {s : State} {c : Ctl} {i : Instr} (h : s.executes c i = true) {wait : State → Option Wait}
    (hw : wait s = none) (body : State → State) : s.runW c i wait body = .next (body s) := by
  unfold State.runW State.enterW
  rw [enterG_executes h, hw]

theorem runW_waits {s : State} {c : Ctl} {i : Instr} (h : s.executes c i = true) {wait : State → Option Wait} {w : Wait}
    (hw : wait s = some w) (body : State → State) : s.runW c i wait body = .next (s.waitMe w) := by
  unfold State.runW State.enterW
  rw [enterG_executes h, hw]

-- Only the executing thread

theorem OnlyMe.cur {s t : State} (h : OnlyMe s t) : t.cur = s.cur := by rw [h.1]

theorem OnlyMe.refl (s : State) : OnlyMe s s := ⟨rfl, fun _ _ => rfl, rfl, fun _ _ => rfl⟩

theorem OnlyMe.trans {s t u : State} (h : OnlyMe s t) (k : OnlyMe t u) : OnlyMe s u := by
  have hc := h.cur
  obtain ⟨h1, h2, h3, h4⟩ := h
  obtain ⟨k1, k2, k3, k4⟩ := k
  rw [hc] at k2 k4
  refine ⟨by rw [k1, h1], fun b hb => (k2 b hb).trans (h2 b hb), ?_, fun n hn => (k4 n hn).trans (h4 n hn)⟩
  rw [k3, h3]

theorem onlyMe_modMe (s : State) (f : Thread → Thread) : OnlyMe s (s.modMe f) := by
  refine ⟨rfl, fun b hb => modThr_blk_ne s f hb, ?_, fun k hk => modThr_thr_ne s f hk⟩
  have h : (s.modMe f).myBlk = { s.myBlk with threads := tmod s.myBlk.threads s.cur.2 f } := modThr_blk s _ _ f
  rw [h]

theorem onlyMe_modIw (s : State) (f : IssueWarp → IssueWarp) : OnlyMe s (s.modIw f) := by
  refine ⟨?_, fun b _ => modIw_blk s f b, ?_, fun k _ => modIw_thr s f _ k⟩
  · unfold State.modIw
    split <;> rfl
  · simp

-- Writing

/-- The registers, predicates and flags listed have been written, and nothing else has changed. -/
def Wrote (s t : State) (ws : List (Nat × Word)) (ps : List (Nat × Bool)) (fl : BitVec 5) : Prop :=
  OnlyMe s t
    ∧ t.me = { s.me with regs := t.me.regs, marks := t.me.marks, preds := t.me.preds, fpcsr := t.me.fpcsr
                         fresh := t.me.fresh }
    ∧ (∀ r, tget t.me.regs r = (written ws r).getD (tget s.me.regs r))
    ∧ (∀ r, tget t.me.marks r = if (written ws r).isSome then false else tget s.me.marks r)
    ∧ (∀ p, t.me.preds.getLsbD p = ((ps.find? fun q => q.1 = p).map (·.2)).getD (s.me.preds.getLsbD p))
    ∧ t.me.fpcsr = { s.me.fpcsr with flags := s.me.fpcsr.flags ||| fl }

theorem wrote_refl (s : State) : Wrote s s [] [] 0 :=
  ⟨OnlyMe.refl s, rfl, fun _ => rfl, fun _ => rfl, fun _ => rfl, by simp⟩

theorem written_cons (r : Nat) (v : Word) (ws : List (Nat × Word)) (k : Nat) :
    written ((r, v) :: ws) k = if r = k then some v else written ws k := by
  unfold written
  by_cases h : r = k <;> simp [h]

theorem Wrote.congr {s t : State} {ws ws' : List (Nat × Word)} {ps : List (Nat × Bool)} {fl : BitVec 5}
    (h : Wrote s t ws ps fl) (e : ∀ r, written ws' r = written ws r) : Wrote s t ws' ps fl := by
  obtain ⟨h1, h2, h3, h4, h5, h6⟩ := h
  exact ⟨h1, h2, fun r => by rw [e]; exact h3 r, fun r => by rw [e]; exact h4 r, h5, h6⟩

theorem wrT_eq (s : State) (b t : Nat) {r : RegF} (v : Word) (L : Nat) (h : r ≠ 248#8) :
    s.wrT b t r v L =
      (s.modThr b t fun th => th.put r.toNat v (s.lastCycle + L) s.iw.serial s.nowCycle).modIw
        fun w => { w with wrote := (b, t, r.toNat) :: w.wrote } := by
  unfold State.wrT
  rw [if_neg h]

/-- A write of vz is discarded (R17). -/
@[simp] theorem wr_vz (s : State) (v : Word) (L : Nat) : s.wr 248#8 v L = s := rfl

theorem Wrote.wr {s t : State} {ws : List (Nat × Word)} {ps : List (Nat × Bool)} {fl : BitVec 5}
    (h : Wrote s t ws ps fl) {r : RegF} (v : Word) (L : Nat) (hr : r ≠ 248#8) :
    Wrote s (t.wr r v L) ((r.toNat, v) :: ws) ps fl := by
  obtain ⟨h1, h2, h3, h4, h5, h6⟩ := h
  have e : (t.wr r v L).me = t.me.put r.toNat v (t.lastCycle + L) t.iw.serial t.nowCycle := by
    unfold State.wr
    rw [wrT_eq _ _ _ _ _ hr, modIw_me]
    exact modMe_me t _
  refine ⟨?_, ?_, ?_, ?_, ?_, ?_⟩
  · unfold State.wr
    rw [wrT_eq _ _ _ _ _ hr]
    exact (h1.trans (onlyMe_modMe t _)).trans (onlyMe_modIw _ _)
  · rw [e]
    simp only [Thread.put, Thread.note]
    rw [h2]
  · intro k
    rw [e, written_cons]
    simp only [Thread.put, Thread.note]
    by_cases hk : r.toNat = k
    · subst hk; simp
    · rw [tget_tset_ne _ _ (fun x => hk x.symm), if_neg hk, h3]
  · intro k
    rw [e, written_cons]
    simp only [Thread.put, Thread.note]
    by_cases hk : r.toNat = k
    · subst hk; simp
    · rw [tget_tset_ne _ _ (fun x => hk x.symm), if_neg hk, h4]
  · intro p
    rw [e]
    exact h5 p
  · rw [e]
    exact h6

/-- A write of any register, vz among them: its list has the register, or for vz nothing. -/
theorem Wrote.wr_one {s t : State} {ws : List (Nat × Word)} {ps : List (Nat × Bool)} {fl : BitVec 5}
    (h : Wrote s t ws ps fl) (r : RegF) (v : Word) (L : Nat) :
    Wrote s (t.wr r v L) (dstWords r [v] ++ ws) ps fl := by
  by_cases hr : r = 248#8
  · subst hr
    simpa [dstWords, many] using h
  · simpa [dstWords, many, hr, List.range_succ] using h.wr v L hr

theorem up_ne {r : RegF} {n : Nat} (h : r ≠ 248#8) (hn : r.toNat + n < 248) : RegF.up r n ≠ 248#8 := by
  unfold RegF.up
  rw [if_neg h]
  intro e
  have := congrArg BitVec.toNat e
  simp only [BitVec.toNat_add, BitVec.toNat_ofNat] at this
  omega

theorem up_toNat {r : RegF} {n : Nat} (h : r ≠ 248#8) (hn : r.toNat + n < 248) : (RegF.up r n).toNat = r.toNat + n := by
  unfold RegF.up
  rw [if_neg h]
  simp only [BitVec.toNat_add, BitVec.toNat_ofNat]
  omega

/-- A list of words written to consecutive registers. -/
theorem Wrote.wrs {s : State} {ps : List (Nat × Bool)} {fl : BitVec 5} {r : RegF} (h : r ≠ 248#8) (L : Nat) :
    ∀ (l : List (Nat × Word)) (t : State) (ws : List (Nat × Word)), Wrote s t ws ps fl →
      (∀ p ∈ l, r.toNat + p.1 < 248) →
      Wrote s (l.foldl (fun s p => s.wr (RegF.up r p.1) p.2 L) t) ((l.map fun p => (r.toNat + p.1, p.2)).reverse ++ ws)
        ps fl
  | [], _, _, hw, _ => hw
  | p :: l, t, ws, hw, hp => by
    have h1 := hw.wr p.2 L (up_ne h (hp p (by simp)))
    rw [up_toNat h (hp p (by simp))] at h1
    have h2 := Wrote.wrs h L l _ _ h1 fun q hq => hp q (List.mem_cons_of_mem _ hq)
    simpa using h2

theorem written_append (ws us : List (Nat × Word)) (r : Nat) :
    written (ws ++ us) r = (written ws r).or (written us r) := by
  unfold written
  rw [List.find?_append]
  cases List.find? _ ws <;> rfl

/-- Where no register stands twice, the order of a list does not matter. -/
theorem written_reverse : ∀ (ws : List (Nat × Word)), (ws.map (·.1)).Nodup → ∀ r, written ws.reverse r = written ws r
  | [], _, _ => rfl
  | (k, v) :: ws, h, r => by
    simp only [List.map_cons, List.nodup_cons] at h
    rw [List.reverse_cons, written_append, written_reverse ws h.2, written_cons]
    by_cases hk : k = r
    · subst hk
      have : written ws k = none := by
        unfold written
        rw [Option.map_eq_none_iff, List.find?_eq_none]
        intro p hp e
        apply h.1
        rw [List.mem_map]
        exact ⟨p, hp, by simpa using e⟩
      simp [this, written_cons]
    · simp [written_cons, hk, written]

theorem range_zip_map (r : Nat) : ∀ (vs : List Word),
    ((List.range vs.length).zip vs).map (fun p => (r + p.1, p.2))
      = ((List.range vs.length).map fun i => r + i).zip vs := by
  intro vs
  rw [List.zip_map_left]
  rfl

/-- Words at a field's registers, the lowest first; vz takes none (R17, R161). -/
theorem Wrote.wrList {s t : State} {ws : List (Nat × Word)} {ps : List (Nat × Bool)} {fl : BitVec 5}
    (h : Wrote s t ws ps fl) (r : RegF) (vs : List Word) (L : Nat) (hr : r = 248#8 ∨ r.toNat + vs.length ≤ 248) :
    Wrote s (t.wrList r vs L) (dstWords r vs ++ ws) ps fl := by
  unfold State.wrList
  by_cases hz : r = 248#8
  · subst hz
    have : ∀ (l : List (Nat × Word)) (t : State),
        l.foldl (fun s p => s.wr (RegF.up 248#8 p.1) p.2 L) t = t := by
      intro l
      induction l with
      | nil => intro t; rfl
      | cons p l ih => intro t; simp only [List.foldl_cons]; rw [ih]; rfl
    rw [this]
    simpa [dstWords, many] using h
  · have hr := hr.resolve_left hz
    have := Wrote.wrs hz L ((List.range vs.length).zip vs) t ws h (by
      intro p hp
      have := (List.of_mem_zip hp).1
      simp at this
      omega)
    refine this.congr fun k => ?_
    rw [written_append, written_append, written_reverse]
    · congr 1
      simp [dstWords, many, hz, range_zip_map]
    · rw [range_zip_map, List.map_fst_zip (by simp)]
      exact List.pairwise_map.mpr (List.nodup_range.imp fun h e => h (by omega))

theorem wr64_eq (s : State) (r : RegF) (v : Dword) (L : Nat) : s.wr64 r v L = s.wrList r (halves v) L := by
  unfold State.wr64 State.wr64T State.wrList State.wr halves
  have e : RegF.up r 0 = r := by
    unfold RegF.up
    split
    · rfl
    · simp
  have c : (s.wrT s.cur.1 s.cur.2 r (v.truncate 32) L).cur = s.cur := by
    unfold State.wrT
    split <;> simp
  simp [List.range_succ, e, c]

/-- A predicate written; pt takes nothing (R24). -/
theorem Wrote.wrPred {s t : State} {ws : List (Nat × Word)} {fl : BitVec 5} (h : Wrote s t ws [] fl) (p : PredF)
    (v : Bool) (L : Nat) : Wrote s (t.wrPred p v L) ws ((onep p).map fun k => (k, v)) fl := by
  by_cases hp : p = 7#3
  · subst hp
    simpa [onep, State.wrPred, State.wrPredT] using h
  · obtain ⟨h1, h2, h3, h4, h5, h6⟩ := h
    have e0 : t.wrPred p v L = t.modMe fun th => th.putPred p.toNat v (t.lastCycle + L) t.iw.serial t.nowCycle := by
      unfold State.wrPred State.wrPredT
      rw [if_neg hp]
      rfl
    have e : (t.wrPred p v L).me = t.me.putPred p.toNat v (t.lastCycle + L) t.iw.serial t.nowCycle := by
      rw [e0, modMe_me]
    have hlt : p.toNat < 7 := by
      have := p.isLt
      have : p.toNat ≠ 7 := fun e => hp (BitVec.eq_of_toNat_eq e)
      omega
    refine ⟨?_, ?_, ?_, ?_, ?_, ?_⟩
    · rw [e0]
      exact h1.trans (onlyMe_modMe t _)
    · rw [e]
      simp only [Thread.putPred, Thread.note]
      rw [h2]
    · intro k; rw [e]; exact h3 k
    · intro k; rw [e]; exact h4 k
    · intro k
      rw [e]
      have h5 := h5 k
      simp only [List.find?_nil, Option.map_none, Option.getD_none] at h5
      simp only [Thread.putPred, Thread.note, onep, hp, if_false, List.map_cons, List.map_nil, List.find?_cons,
        List.find?_nil]
      unfold predSet
      by_cases hk : p.toNat = k
      · subst hk
        cases v <;> simp [hlt]
      · have hk' : ¬ k = p.toNat := fun e => hk e.symm
        have hs : (1#7 <<< p.toNat).getLsbD k = false := by
          rw [BitVec.getLsbD_shiftLeft]
          by_cases h1 : k < p.toNat
          · simp [h1]
          · have h2 : (1#7 : BitVec 7).getLsbD (k - p.toNat) = false := by
              rw [BitVec.getLsbD_one]
              simp
              omega
            simp [h2]
        cases v
        · simp only [Bool.false_eq_true, if_false, hk, decide_false, Option.map_none, Option.getD_none]
          rw [BitVec.getLsbD_and, BitVec.getLsbD_not, hs, h5]
          by_cases hk7 : k < 7
          · simp [hk7]
          · have : s.me.preds.getLsbD k = false := BitVec.getLsbD_of_ge _ _ (by omega)
            simp [this]
        · simp only [if_true, hk, decide_false, Option.map_none, Option.getD_none]
          rw [BitVec.getLsbD_or, hs, h5]
          simp
    · rw [e]
      exact h6

/-- Flags raised (R30). -/
theorem Wrote.raiseMe {s t : State} {ws : List (Nat × Word)} {ps : List (Nat × Bool)} {fl : BitVec 5}
    (h : Wrote s t ws ps fl) (f : BitVec 5) : Wrote s (t.raiseMe f) ws ps (fl ||| f) := by
  obtain ⟨h1, h2, h3, h4, h5, h6⟩ := h
  have e : (t.raiseMe f).me = t.me.raise f := modMe_me t _
  refine ⟨h1.trans (onlyMe_modMe t _), ?_, ?_, ?_, ?_, ?_⟩
  · rw [e]
    unfold Thread.raise
    rw [h2]
  · intro k; rw [e]; exact h3 k
  · intro k; rw [e]; exact h4 k
  · intro k; rw [e]; exact h5 k
  · rw [e]
    simp only [Thread.raise, h6, BitVec.or_assoc]

-- Moving on

/-- A thread that goes on can issue. -/
theorem goto_issuable (th : Thread) (pc : VAddr) (moved : Bool) (stall last : Nat) :
    (th.goto pc moved stall last).issuable = true := by
  unfold Thread.goto Thread.issuable Thread.ready
  cases th.ms.h <;> rfl

/-- The executing thread retires after its writes. -/
theorem Wrote.advance {s t : State} {ws : List (Nat × Word)} {ps : List (Nat × Bool)} {fl : BitVec 5}
    (h : Wrote s t ws ps fl) (c : Ctl) : Retired s (t.advance c) ws ps fl := by
  obtain ⟨h1, h2, h3, h4, h5, h6⟩ := h
  have e : (t.advance c).me = t.me.goto (t.me.pc + 8) false c.stall.toNat t.lastCycle := modMe_me t _
  refine ⟨h1.trans (onlyMe_modMe t _), ?_, ?_, ?_, ?_, ?_, ?_, ?_⟩
  · rw [e]
    unfold Thread.goto Thread.Data
    rw [h2]
  · rw [e]
    show t.me.pc + 8 = _
    rw [h2]
  · rw [e]
    exact goto_issuable _ _ _ _ _
  · intro k; rw [e]; exact h3 k
  · intro k; rw [e]; exact h4 k
  · intro k; rw [e]; exact h5 k
  · rw [e]; exact h6

theorem Retired.congr {s t : State} {ws ws' : List (Nat × Word)} {ps : List (Nat × Bool)} {fl : BitVec 5}
    (h : Retired s t ws ps fl) (e : ∀ r, written ws' r = written ws r) : Retired s t ws' ps fl := by
  obtain ⟨h1, h2, h3, h0, h4, h5, h6, h7⟩ := h
  exact ⟨h1, h2, h3, h0, fun r => by rw [e]; exact h4 r, fun r => by rw [e]; exact h5 r, h6, h7⟩

-- Waiting

@[simp] theorem waitMe_me (s : State) (w : Wait) :
    (s.waitMe w).me = { s.me with wait := some w, st := if s.me.ms.h then .handler else .waiting } := by
  simp [State.waitMe]

theorem onlyMe_waitMe (s : State) (w : Wait) : OnlyMe s (s.waitMe w) :=
  (onlyMe_modMe s _).trans (onlyMe_modIw _ _)

/-- A wait leaves the executing thread all it had but its state. -/
theorem waitMe_moved (s : State) (w : Wait) : s.me.Moved (s.waitMe w).me := by
  rw [waitMe_me]
  rfl

end Sys2Proof.Machine
end

