-- ==== Sys2Proof/Laws/Control.lean ====
section
/-! SUPPORT. Going on at an address, and what changes of the executing thread's block leave alone. -/

namespace Sys2Proof.Machine

/-- A thread that has gone on at an address has gone there. -/
theorem went_goto {th : Thread} {pc : VAddr} {mv : Bool} {st l : Nat} {t : State} (h : t.me = th.goto pc mv st l) :
    Went th t pc := by
  refine ⟨?_, ?_, ?_⟩
  · rw [h]; rfl
  · rw [h]; rfl
  · rw [h]; exact goto_issuable _ _ _ _ _

theorem onlyMe_jump (s : State) (c : Ctl) (pc : VAddr) : OnlyMe s (s.jump c pc) :=
  (onlyMe_modMe s _).trans (onlyMe_modIw _ _)
theorem jump_me (s : State) (c : Ctl) (pc : VAddr) : (s.jump c pc).me = s.me.goto pc true c.stall.toNat s.lastCycle := by
  unfold State.jump; rw [modIw_me, modMe_me]
theorem advance_me (s : State) (c : Ctl) : (s.advance c).me = s.me.goto (s.me.pc + 8) false c.stall.toNat s.lastCycle :=
  modMe_me s _

/-- An address relative to the pc (R51, R102). -/
theorem rel_eq (pc : VAddr) (imm : BitVec 28) (k : Nat) : pc + imm.signExtend 57 * BitVec.ofNat 57 k = BitVec.ofInt 57 (pc.toNat + k * imm.toInt) := by
  rw [BitVec.ofInt_add, BitVec.ofInt_mul]
  have h1 : BitVec.ofInt 57 (pc.toNat : Int) = pc := by simp
  have h2 : BitVec.ofInt 57 (k : Int) = BitVec.ofNat 57 k := by simp
  rw [h1, h2, BitVec.mul_comm]
  rfl

theorem branchTarget_eq (pc : VAddr) (imm : BitVec 28) : branchTarget pc imm = BitVec.ofInt 57 (pc.toNat + 8 * imm.toInt) := rel_eq pc imm 8
theorem literalAddr_eq (pc : VAddr) (imm : BitVec 28) : literalAddr pc imm = BitVec.ofInt 57 (pc.toNat + 4 * imm.toInt) := rel_eq pc imm 4

/-- What changes the executing thread alone changes its block alone. -/
theorem OnlyMe.mine {s t : State} (h : OnlyMe s t) : OnlyMine s t := ⟨h.1, h.2.1, h.2.2.2⟩
theorem OnlyMine.cur {s t : State} (h : OnlyMine s t) : t.cur = s.cur := by rw [h.1]
theorem OnlyMine.refl (s : State) : OnlyMine s s := ⟨rfl, fun _ _ => rfl, fun _ _ => rfl⟩
theorem OnlyMine.trans {s t u : State} (h : OnlyMine s t) (k : OnlyMine t u) : OnlyMine s u := by
  have hc := h.cur
  obtain ⟨h1, h2, h4⟩ := h
  obtain ⟨k1, k2, k4⟩ := k
  rw [hc] at k2 k4
  exact ⟨by rw [k1, h1], fun b hb => (k2 b hb).trans (h2 b hb), fun n hn => (k4 n hn).trans (h4 n hn)⟩
/-- A change of the block that leaves every other thread as it is. -/
theorem onlyMine_modMyBlk (s : State) (f : Block → Block) (hf : ∀ k, k ≠ s.cur.2 → tget (f s.myBlk).threads k = tget s.myBlk.threads k) :
    OnlyMine s (s.modMyBlk f) := by
  refine ⟨rfl, fun b hb => modBlk_blk_ne s f hb, fun k hk => ?_⟩
  show tget ((s.modMyBlk f).blk s.cur.1).threads k = _
  have : (s.modMyBlk f).blk s.cur.1 = f s.myBlk := modMyBlk_myBlk s f
  rw [this]
  exact hf k hk
/-- A change of the block that leaves its threads. -/
theorem modMyBlk_me (s : State) (f : Block → Block) (hf : (f s.myBlk).threads = s.myBlk.threads) : (s.modMyBlk f).me = s.me := by
  unfold State.me State.thr
  have : (s.modMyBlk f).blk (s.modMyBlk f).cur.1 = f s.myBlk := modMyBlk_myBlk s f
  rw [this, hf]; rfl
theorem OnlyMe.blk {s t : State} (h : OnlyMe s t) : t.myBlk = { s.myBlk with threads := t.myBlk.threads } := h.2.2.1

end Sys2Proof.Machine
end

