-- ==== Sys2Proof/Laws/Mem.lean ====
section
/-! SUPPORT. Memory, said once: little-endian numbers, a read after a write, what a write leaves alone, and the canonical
form it keeps. -/

namespace Sys2Proof.Machine

theorem leBytes_length : ∀ (n v : Nat), (leBytes n v).length = n
  | 0, _ => rfl
  | n + 1, v => by simp [leBytes, leBytes_length n]

/-- The number that n little-endian bytes of a number hold. -/
theorem leNat_leBytes : ∀ (n v : Nat), leNat (leBytes n v) = v % 256 ^ n
  | 0, v => by simp [leBytes, leNat, Nat.mod_one]
  | n + 1, v => by
    rw [leBytes, leNat, leNat_leBytes n, BitVec.toNat_ofNat, Nat.pow_succ 256 n, Nat.mul_comm (256 ^ n) 256,
      Nat.mod_mul]

theorem tgets_length {α : Type} [Inhabited α] (t : Tab α) : ∀ (k n : Nat), (tgets t k n).length = n
  | _, 0 => rfl
  | k, n + 1 => by simp [tgets, tgets_length t (k + 1) n]

/-- Reading n keys gives the value at each. -/
theorem tgets_eq_map {α : Type} [Inhabited α] (t : Tab α) : ∀ (k n : Nat),
    tgets t k n = (List.range' k n).map (tget t)
  | _, 0 => rfl
  | k, n + 1 => by simp [tgets, List.range'_succ, tgets_eq_map t (k + 1) n]

/-- Reading what has just been written. -/
theorem tgets_tsets {α : Type} [Inhabited α] [DecidableEq α] (t : Tab α) (k : Nat) (vs : List α) :
    tgets (tsets t k vs) k vs.length = vs := by
  apply List.ext_getElem
  · rw [tgets_length]
  · intro i h1 h2
    simp only [tgets_eq_map, List.getElem_map, List.getElem_range', Nat.one_mul]
    exact tget_tsets_in t k i vs h2

/-- Reading elsewhere than what has been written. -/
theorem tgets_tsets_out {α : Type} [Inhabited α] [DecidableEq α] (t : Tab α) (k j n : Nat) (vs : List α)
    (h : j + n ≤ k ∨ k + vs.length ≤ j) : tgets (tsets t k vs) j n = tgets t j n := by
  simp only [tgets_eq_map]
  apply List.map_congr_left
  intro i hi
  have := List.mem_range'_1.mp hi
  exact tget_tsets_out _ _ _ _ (by omega)

theorem clean_fst (bs : List Byte) : (clean bs).map (·.1) = bs := by
  simp [clean, Function.comp_def]
theorem clean_length (bs : List Byte) : (clean bs).length = bs.length := by simp [clean]

/-- A number read back from a private memory. -/
theorem num_write (m : Bytes) (a n v : Nat) : (m.write a (clean (leBytes n v))).num a n = v % 256 ^ n := by
  unfold Bytes.num Bytes.write
  simp only [clean_fst]
  have := tgets_tsets m.cells a (leBytes n v)
  rw [leBytes_length] at this
  rw [this, leNat_leBytes]

/-- A write to a private memory leaves every other byte. -/
theorem at_write_out (m : Bytes) (a i : Nat) (bs : List (Byte × Bool)) (h : i < a ∨ a + bs.length ≤ i) :
    (m.write a bs).at i = m.at i := by
  unfold Bytes.at Bytes.write
  rw [tget_tsets_out _ _ _ _ (by simpa using h), tget_tsets_out _ _ _ _ (by simpa using h)]

/-- A write to a private memory as each byte reads after it. -/
theorem at_write_in (m : Bytes) (a i : Nat) (bs : List (Byte × Bool)) (h : i < bs.length) :
    (m.write a bs).at (a + i) = bs[i] := by
  unfold Bytes.at Bytes.write
  have h1 := tget_tsets_in m.cells a i (bs.map (·.1)) (by simpa using h)
  have h2 := tget_tsets_in m.bad a i (bs.map (·.2)) (by simpa using h)
  simp only at h1 h2 ⊢
  rw [h1, h2]
  simp

/-- A physical write keeps the canonical form. -/
theorem memOk_physWrite (s : State) (p pa : Nat) (bs : List (Byte × Bool)) (h : s.memOk = true) :
    (s.physWrite p pa bs).memOk = true := by
  unfold State.physWrite
  split
  · exact h
  · unfold State.memOk Memory.wf at *
    simp only [Bool.and_eq_true] at *
    exact ⟨twf_tsets _ _ h.1, twf_tsets _ _ h.2⟩

/-- A physical write leaves every other byte. -/
theorem byteAt_physWrite_out (s : State) (p pa k : Nat) (bs : List (Byte × Bool))
    (h : k < s.physKey p pa ∨ s.physKey p pa + bs.length ≤ k) : (s.physWrite p pa bs).byteAt k = s.byteAt k := by
  unfold State.physWrite
  split
  · rfl
  · unfold State.byteAt
    rw [tget_tsets_out _ _ _ _ (by simpa using h), tget_tsets_out _ _ _ _ (by simpa using h)]

theorem zip_map_fst_snd {α β : Type} : ∀ (l : List (α × β)), (l.map (·.1)).zip (l.map (·.2)) = l
  | [] => rfl
  | (_, _) :: l => by simp [zip_map_fst_snd l]

/-- A physical read of what has just been written, where the range is not cut off. -/
theorem physRead_physWrite (s : State) (p pa : Nat) (bs : List (Byte × Bool)) (h : s.cutOff p pa = false) :
    (s.physWrite p pa bs).physRead p pa bs.length = bs := by
  unfold State.physWrite
  rw [if_neg (by simp [h])]
  unfold State.physRead
  have hk : State.physKey { s with mem := tsets s.mem (s.physKey p pa) (bs.map (·.1)), bad := tsets s.bad (s.physKey p pa) (bs.map (·.2)) } p pa
      = s.physKey p pa := rfl
  have hc : State.cutOff { s with mem := tsets s.mem (s.physKey p pa) (bs.map (·.1)), bad := tsets s.bad (s.physKey p pa) (bs.map (·.2)) } p pa
      = false := h
  simp only [hk, hc, Bool.false_eq_true, if_false]
  have h1 := tgets_tsets s.mem (s.physKey p pa) (bs.map (·.1))
  have h2 := tgets_tsets s.bad (s.physKey p pa) (bs.map (·.2))
  rw [List.length_map] at h1 h2
  rw [h1, h2, zip_map_fst_snd]

end Sys2Proof.Machine
end

