-- ==== Sys2Proof/Laws/Operands.lean ====
section
/-! SUPPORT. The operands of a well-formed instruction, and the writes of typed operands. -/

namespace Sys2Proof.Machine

/-- A register operand of a well-formed instruction is vz, or all its registers are v0 to v247. -/
theorem wf_operand {i : Instr} (h : i.wellFormed = true) {o : Operand} (ho : o ∈ i.operands) :
    o.field = 248#8 ∨ (o.field.toNat < 248 ∧ o.field.toNat % o.align = 0) := by
  unfold Instr.wellFormed at h
  simp only [Bool.and_eq_true, List.all_eq_true] at h
  have h1 := h.1.2 o ho
  have h2 := h.2 o ho
  unfold Operand.legal at h1
  unfold Operand.aligned at h2
  simp only [decide_eq_true_eq, Bool.or_eq_true] at h1 h2
  by_cases hf : o.field = 248#8
  · exact .inl hf
  · refine .inr ⟨?_, h2.resolve_left hf⟩
    have : o.field.toNat ≠ 248 := fun e => hf (BitVec.eq_of_toNat_eq e)
    omega

theorem wf_span {i : Instr} (h : i.wellFormed = true) (r : Role) (f : RegF) (n : Nat) {m : Nat}
    (ho : (⟨r, f, n, m⟩ : Operand) ∈ i.operands) (hm : 248 % m = 0) (hn : n ≤ m) :
    f = 248#8 ∨ f.toNat + n ≤ 248 := by
  rcases wf_operand h ho with h | ⟨h1, h2⟩
  · exact .inl h
  · refine .inr ?_
    simp only at h1 h2
    have a := Nat.div_add_mod f.toNat m
    have b := Nat.div_add_mod 248 m
    have hlt : f.toNat / m < 248 / m := by
      by_cases hz : m = 0
      · subst hz; simp at hm
      · apply Nat.lt_of_mul_lt_mul_left (a := m)
        omega
    have : m * (f.toNat / m) + m ≤ m * (248 / m) := by
      have := Nat.mul_le_mul_left m hlt
      rw [Nat.mul_succ] at this
      exact this
    omega

theorem regs_bound (ty : Ty) : 248 % ty.regs = 0 := by
  unfold Ty.regs
  split <;> rfl

/-- A typed destination of a well-formed instruction lies in the register file. -/
theorem wf_tD {i : Instr} (h : i.wellFormed = true) {ty : Ty} {d : RegF} (ho : tD ty d ∈ i.operands) :
    d = 248#8 ∨ d.toNat + ty.regs ≤ 248 :=
  wf_span h .dst d ty.regs ho (regs_bound ty) (Nat.le_refl _)
theorem wf_pD {i : Instr} (h : i.wellFormed = true) {d : RegF} (ho : pD d ∈ i.operands) :
    d = 248#8 ∨ d.toNat + 2 ≤ 248 :=
  wf_span h .dst d 2 ho rfl (Nat.le_refl _)

theorem halves_length (d : Dword) : (halves d).length = 2 := rfl
theorem tyWords_length (ty : Ty) (n : Nat) : (tyWords ty n).length = ty.regs := by
  unfold tyWords Ty.regs
  split <;> rfl

/-- A pair written, the low word first (R17). -/
theorem Wrote.wr64 {s t : State} {ws : List (Nat × Word)} {ps : List (Nat × Bool)} {fl : BitVec 5}
    (h : Wrote s t ws ps fl) (r : RegF) (v : Dword) (L : Nat) (hr : r = 248#8 ∨ r.toNat + 2 ≤ 248) :
    Wrote s (t.wr64 r v L) (dstWords r (halves v) ++ ws) ps fl := by
  rw [wr64_eq]
  exact h.wrList r _ L hr

/-- A typed result put (R87). -/
theorem Wrote.putN {s t : State} {ws : List (Nat × Word)} {ps : List (Nat × Bool)} {fl : BitVec 5}
    (h : Wrote s t ws ps fl) (ty : Ty) (r : RegF) (n L : Nat) (hr : r = 248#8 ∨ r.toNat + ty.regs ≤ 248) :
    Wrote s (t.putN ty r n L) (dstWords r (tyWords ty n) ++ ws) ps fl := by
  unfold State.putN tyWords
  unfold Ty.regs at hr
  split
  · next e => rw [if_pos e] at hr; exact h.wr64 r _ L hr
  · exact h.wr_one r _ L

/-- An instruction without a wait of its own that only writes completes. -/
theorem completes_run {s : State} {i : Instr} {c : Ctl} {ws : List (Nat × Word)} {ps : List (Nat × Bool)} {fl : BitVec 5}
    {body : State → State} (he : exec i s = s.run c i body)
    (h : i.wellFormed = true → Retired s (body s) ws ps fl) : Completes s i c ws ps fl := fun wf ex =>
  ⟨_, by rw [he, run_executes ex], h wf⟩

/-- An instruction that puts one typed result completes. -/
theorem completes_putN {s : State} {i : Instr} {c : Ctl} {ty : Ty} {d : RegF} {n L : Nat} {body : State → State}
    (he : exec i s = s.run c i body) (hb : body s = (s.putN ty d n L).advance c) (hd : tD ty d ∈ i.operands) :
    Completes s i c (dstWords d (tyWords ty n)) [] 0 :=
  completes_run he fun wf => by
    rw [hb]
    simpa using ((wrote_refl s).putN ty d n L (wf_tD wf hd)).advance c

/-- A row of R89 completes with its exact value clamped and wrapped. -/
theorem completes_intPut {s : State} {i : Instr} {c : Ctl} {ty : Ty} {d : RegF} {sat : Bool} {x : Int} {L : Nat}
    {body : State → State} (he : exec i s = s.run c i body) (hb : body s = s.intPut c ty d sat x L)
    (hd : tD ty d ∈ i.operands) :
    Completes s i c
      (dstWords d (tyWords ty (wrap (tyWidth ty) (if sat then clampInt (tySigned ty) (tyWidth ty) x else x)))) [] 0 :=
  completes_putN he hb hd

/-- A row of R89 without .sat. -/
theorem completes_intWrap {s : State} {i : Instr} {c : Ctl} {ty : Ty} {d : RegF} {x : Int} {L : Nat}
    {body : State → State} (he : exec i s = s.run c i body) (hb : body s = s.intPut c ty d false x L)
    (hd : tD ty d ∈ i.operands) :
    Completes s i c (dstWords d (tyWords ty (wrap (tyWidth ty) x))) [] 0 :=
  completes_intPut (sat := false) (x := x) he hb hd

/-- An instruction that writes one word completes. -/
theorem completes_wr {s : State} {i : Instr} {c : Ctl} {d : RegF} {v : Word} {L : Nat} {body : State → State}
    (he : exec i s = s.run c i body) (hb : body s = (s.wr d v L).advance c) :
    Completes s i c (dstWords d [v]) [] 0 :=
  completes_run he fun _ => by
    rw [hb]
    simpa using ((wrote_refl s).wr_one d v L).advance c

/-- An instruction that writes one pair completes. -/
theorem completes_wr64 {s : State} {i : Instr} {c : Ctl} {d : RegF} {v : Dword} {L : Nat} {body : State → State}
    (he : exec i s = s.run c i body) (hb : body s = (s.wr64 d v L).advance c) (hd : pD d ∈ i.operands) :
    Completes s i c (dstWords d (halves v)) [] 0 :=
  completes_run he fun wf => by
    rw [hb]
    simpa using ((wrote_refl s).wr64 d v L (wf_pD wf hd)).advance c

/-- An instruction that writes consecutive words completes. -/
theorem completes_wrList {s : State} {i : Instr} {c : Ctl} {d : RegF} {vs : List Word} {L : Nat} {body : State → State}
    (he : exec i s = s.run c i body) (hb : body s = (s.wrList d vs L).advance c)
    (hd : i.wellFormed = true → d = 248#8 ∨ d.toNat + vs.length ≤ 248) : Completes s i c (dstWords d vs) [] 0 :=
  completes_run he fun wf => by
    rw [hb]
    simpa using ((wrote_refl s).wrList d vs L (hd wf)).advance c

/-- An instruction that writes one predicate completes. -/
theorem completes_wrPred {s : State} {i : Instr} {c : Ctl} {p : PredF} {v : Bool} {L : Nat} {body : State → State}
    (he : exec i s = s.run c i body) (hb : body s = (s.wrPred p v L).advance c) :
    Completes s i c [] ((onep p).map fun k => (k, v)) 0 :=
  completes_run he fun _ => by
    rw [hb]
    exact ((wrote_refl s).wrPred p v L).advance c

/-- A floating-point instruction completes: one typed result, and the flags it raises. -/
theorem completes_fputT {s : State} {i : Instr} {c : Ctl} {ty : Ty} {d : RegF} {r : Res} {L : Nat} {body : State → State}
    (he : exec i s = s.run c i body) (hb : body s = ((s.putN ty d r.1 L).raiseMe r.2).advance c)
    (hd : tD ty d ∈ i.operands) : Completes s i c (dstWords d (tyWords ty r.1)) [] r.2 :=
  completes_run he fun wf => by
    rw [hb]
    simpa using (((wrote_refl s).putN ty d r.1 L (wf_tD wf hd)).raiseMe r.2).advance c

/-- The same of a 32-bit result. -/
theorem completes_fput {s : State} {i : Instr} {c : Ctl} {d : RegF} {v : Word} {f : BitVec 5} {L : Nat}
    {body : State → State} (he : exec i s = s.run c i body) (hb : body s = ((s.wr d v L).raiseMe f).advance c) :
    Completes s i c (dstWords d [v]) [] f :=
  completes_run he fun _ => by
    rw [hb]
    simpa using (((wrote_refl s).wr_one d v L).raiseMe f).advance c

end Sys2Proof.Machine
end

