-- ==== Sys2Proof/Laws/Xlat.lean ====
section
/-! SUPPORT. Translation, said once: it changes the TLBs alone, and what a thread reads of the rest stays. -/

namespace Sys2Proof.Machine

/-- A translation changes what the TLBs hold, and nothing else (R376). -/
theorem onlyTlb_xlate (s : State) (p x va : Nat) (us : List Nat) (rd wr : Bool) : OnlyTlb s (s.xlate p us x va rd wr).1 := by
  have key : ∀ (s : State) p us x va rd wr, OnlyTlb s (s.xlateAt p us x va rd wr).1 := by
    intro s p us x va rd wr
    unfold State.xlateAt
    simp only
    split
    · rfl
    · split <;> rfl
  unfold State.xlate
  split
  · split
    · rfl
    · split
      · rfl
      · exact key ..
  · exact key ..

theorem tlb_trans {s t u : State} (h : OnlyTlb s t) (k : OnlyTlb t u) : OnlyTlb s u := by
  unfold OnlyTlb at *; rw [k, h]
theorem tlb_rd {s t : State} (h : OnlyTlb s t) (a : RegF) : t.rd a = s.rd a := by rw [h]; rfl
theorem tlb_marked {s t : State} (h : OnlyTlb s t) (p x a : Nat) : t.dataMarked p x a = s.dataMarked p x a := by rw [h]; rfl
theorem tlb_myBlk {s t : State} (h : OnlyTlb s t) : t.myBlk = s.myBlk := by rw [h]; rfl
theorem tlb_me {s t : State} (h : OnlyTlb s t) : t.me = s.me := by rw [h]; rfl

/-- Where the tables are in reach, a translation for the executing thread counts nothing. -/
theorem reachMe_up {s : State} {va : Nat} (u : s.tablesUp va) (rd wr : Bool) :
    s.reachMe va rd wr = s.xlate s.myBlk.pkg (coreUnits s.myBlk.core) s.myBlk.ctx va rd wr := by
  unfold State.tablesUp at u
  unfold State.reachMe State.countWalk
  rw [u]; rfl

/-- An access whose translation succeeds goes on at its physical address. -/
theorem translated_ok {s x : State} {va : Nat} {rd wr : Bool} {xl : Xl} (body : State → Xl → State) (u : s.tablesUp va)
    (h : s.xlate s.myBlk.pkg (coreUnits s.myBlk.core) s.myBlk.ctx va rd wr = (x, .ok xl)) :
    s.translated va rd wr body = body x xl := by
  unfold State.translated State.translatedOr; rw [reachMe_up u]; simp only [h]

/-- What changes only the executing thread after a translation changes only it and what coherence holds. -/
theorem onlyMe_tlb {s u t : State} (h : OnlyTlb s u) (k : OnlyMe u { t with coh := u.coh }) :
    OnlyMe s { t with coh := s.coh } := by
  unfold OnlyTlb at h
  generalize u.coh.tlb = z at h
  subst h
  exact ⟨congrArg (fun x : State => { x with coh := s.coh }) k.1, k.2.1, k.2.2.1, k.2.2.2⟩

theorem tlb_cores {s t : State} (h : OnlyTlb s t) : t.cores = s.cores := by rw [h]

/-- An access that leaves the cores is one of `OnlyAccess`. -/
theorem onlyAccess_of {s t : State} (h : OnlyMe s { t with coh := s.coh }) (hc : t.cores = s.cores) : OnlyAccess s t := by
  refine ⟨?_, fun k => by rw [hc]⟩
  have e : ({ t with coh := s.coh, cores := s.cores } : State) = { t with coh := s.coh } := by rw [← hc]
  rw [e]; exact h

end Sys2Proof.Machine
end

