-- ==== Sys2Proof/Laws/Access.lean ====
section
/-! SUPPORT. Accesses of global memory, said once: what a read below the L1 may change, and the bytes it gives. -/

namespace Sys2Proof.Machine

/-- Only leases, die copies, L1 entries and observed clocks have changed. -/
def Leased (s t : State) : Prop :=
  t = { s with coh := { s.coh with lx := t.coh.lx, copies := t.coh.copies }, cores := t.cores }
    ∧ ∀ k, tget t.cores k = { tget s.cores k with l1 := (tget t.cores k).l1, oc := (tget t.cores k).oc }

theorem leased_refl (s : State) : Leased s s := ⟨rfl, fun _ => rfl⟩
theorem leased_trans {s t u : State} (h : Leased s t) (k : Leased t u) : Leased s u := by
  refine ⟨?_, fun j => ?_⟩
  · rw [k.1, h.1]
  · rw [k.2, h.2]

theorem leased_coh (s : State) (lx : Tab Nat) (cs : List Copy) :
    Leased s { s with coh := { s.coh with lx := lx, copies := cs } } := ⟨rfl, fun _ => rfl⟩

theorem leased_modCore (s : State) (p c : Nat) (f : Core → Core)
    (hf : ∀ k, f k = { k with l1 := (f k).l1, oc := (f k).oc }) : Leased s (s.modCore p c f) := by
  refine ⟨rfl, fun j => ?_⟩
  by_cases e : coreKey p c = j
  · subst e
    simp only [State.modCore, tget_tmod_same]
    exact hf _
  · have h : tget (s.modCore p c f).cores j = tget s.cores j := tget_tmod_ne _ f (Ne.symm e)
    rw [h]

theorem leased_sawClock (s : State) (p c : Nat) (vc : List Nat) : Leased s (s.sawClock p c vc) := by
  unfold State.sawClock
  split
  · exact leased_refl s
  · exact leased_modCore s _ _ _ fun _ => rfl

theorem leased_modBasin (s : State) (p c : Nat) (f : L1Entry → Option L1Entry) : Leased s (s.modBasin p c f) := by
  unfold State.modBasin
  generalize List.range 4 = l
  induction l generalizing s with
  | nil => exact leased_refl s
  | cons i l ih => exact leased_trans (leased_modCore s _ _ _ fun _ => rfl) (ih _)

theorem leased_l1Fill (s : State) (p c x va gt e line page : Nat) (sh xt : Bool) (ws : List (Nat × Word)) :
    Leased s (s.l1Fill p c x va gt e line page sh xt ws) :=
  leased_trans (leased_modBasin s _ _ _) (leased_modCore _ _ _ _ fun _ => rfl)

theorem leased_takeWindow (s : State) (p d pa sec e : Nat) : Leased s (s.takeWindow p d pa sec e) := by
  unfold State.takeWindow
  split
  · exact leased_refl s
  · exact leased_coh s _ _

theorem leased_readBelow (s : State) (p c pa n : Nat) (sh near le : Bool) : Leased s (s.readBelow p c pa n sh near le).1 := by
  unfold State.readBelow
  simp only
  split
  · exact leased_sawClock s _ _ _
  · split
    · exact leased_sawClock s _ _ _
    · split
      · exact leased_trans (leased_sawClock s _ _ _) (leased_trans (leased_coh _ _ _) (leased_takeWindow _ _ _ _ _ _))
      · split
        · exact leased_trans (leased_sawClock s _ _ _) (leased_coh _ _ _)
        · exact leased_sawClock s _ _ _

/-- A load of global memory below the L1 changes nothing but leases, die copies, L1 entries and observed clocks. -/
theorem leased_loadG (s : State) (who : Who) (p c x va : Nat) (xl : Xl) (n : Nat) (near cg : Bool) :
    Leased s (s.loadG who p c x va xl n near cg).1 := by
  unfold State.loadG
  simp only
  generalize hr : (if s.homeRefuses p x xl.pa false = true then
      (s, ⟨s.freeBytes (s.physKey p xl.pa - va % 4) (4 * (lineWords va n).length), none⟩)
    else s.readBelow p c (xl.pa - va % 4) (4 * (lineWords va n).length) xl.short near (!cg)) = r
  have h : Leased s r.1 := by
    rw [← hr]
    split
    · exact leased_refl s
    · exact leased_readBelow ..
  refine leased_trans h ?_
  split
  · split
    · exact leased_l1Fill _ _ _ _ _ _ _ _ _ _ _ _
    · exact leased_refl _
  · exact leased_refl _

/-- An entry that serves a load stands in the core's L1 under the load's line, and is live (R356). -/
theorem l1Hit_some {s : State} {p c x va n : Nat} {near cg : Bool} {e : L1Entry} (h : s.l1Hit p c x va n near cg = some e) :
    e ∈ (s.core p c).l1 ∧ e.ctx = x ∧ e.vtag = va / 128 ∧ e.live (s.core p c).lbase (s.gtime p) = true
      ∧ near = true := by
  unfold State.l1Hit at h
  simp only [Option.filter_eq_some_iff] at h
  obtain ⟨⟨hf, hs⟩, -⟩ := h
  have hm := List.mem_of_find?_eq_some hf
  have hp := List.find?_some hf
  simp only [Bool.and_eq_true, decide_eq_true_eq, L1Entry.serves] at hp hs
  exact ⟨hm, hp.1, hp.2, hs.2.1, hs.1.1⟩

/-- The same clocks, memory, threads and waiting operations are read after it. -/
theorem leased_physRead {s t : State} (h : Leased s t) (p pa n : Nat) : t.physRead p pa n = s.physRead p pa n := by
  rw [h.1]; rfl
theorem leased_ops {s t : State} (h : Leased s t) : t.coh.ops = s.coh.ops := by rw [h.1]
theorem leased_me {s t : State} (h : Leased s t) : t.me = s.me := by rw [h.1]; rfl
theorem leased_myBlk {s t : State} (h : Leased s t) : t.myBlk = s.myBlk := by rw [h.1]; rfl

/-- What changes only the executing thread after a lease changes only it, what coherence holds and the L1s. -/
theorem onlyAccess_leased {s u t : State} (h : Leased s u) (k : OnlyMe u { t with coh := u.coh }) (hc : t.cores = u.cores) :
    OnlyAccess s t := by
  obtain ⟨h1, h2⟩ := h
  refine ⟨?_, fun j => by rw [hc]; exact h2 j⟩
  generalize u.coh.lx = lx at h1
  generalize u.coh.copies = cs at h1
  generalize hz : u.cores = cz at h1 hc h2
  subst h1
  have e := congrArg (fun x : State => { x with coh := s.coh, cores := s.cores }) k.1
  exact ⟨e, k.2.1, k.2.2.1, k.2.2.2⟩

end Sys2Proof.Machine
end

