-- ==== Sys2Proof/Laws/Faults.lean ====
section
/-! SUPPORT. Taking an exception, said once: what a precise fault of the executing thread changes outside handler mode
(R387). -/

namespace Sys2Proof.Machine

/-- Counting an event changes at most the grids of one package (R341). -/
theorem countEvent_eq (s : State) (p x g cls : Nat) (e : EvRec) :
    ∃ f : Pkg → Pkg, (∀ q, f q = { q with grids := (f q).grids }) ∧ s.countEvent p x g cls e = s.modPkg p f ∨ s.countEvent p x g cls e = s := by
  unfold State.countEvent
  cases s.findGrid p x g with
  | none => exact ⟨id, .inr rfl⟩
  | some h => exact ⟨_, .inl ⟨fun _ => rfl, rfl⟩⟩

/-- An event of R253 moves no cycle. -/
theorem event_lastCycle (s : State) : s.event.lastCycle = s.lastCycle := by
  unfold State.lastCycle State.nowCycle State.event State.modIw State.iw
  cases h : s.issue <;> simp [h]

theorem onlyMe_event (s : State) : OnlyMe s s.event := onlyMe_modIw s _

theorem eventOf_cases (s : State) (b t : Nat) : s.eventOf b t = s.event ∨ s.eventOf b t = s := by
  unfold State.eventOf; split
  · exact .inl rfl
  · exact .inr rfl
theorem eventOf_lastCycle (s : State) (b t : Nat) : (s.eventOf b t).lastCycle = s.lastCycle := by
  rcases eventOf_cases s b t with h | h <;> rw [h]
  exact event_lastCycle s
theorem onlyMe_eventOf (s : State) (b t : Nat) : OnlyMe s (s.eventOf b t) := by
  rcases eventOf_cases s b t with h | h <;> rw [h]
  · exact onlyMe_event s
  · exact OnlyMe.refl s

/-- A thread changed as R387 says after the event is counted has taken the exception. -/
theorem took_of (s v : State) (hv : v = s.event ∨ v = s) (cause : Nat) (tc : Dword) (pc : VAddr) (F : Thread → Thread)
    (hF : F s.me = { s.me with
        tframe0 := frameWord cause pc false, tcause := tc, ms := { s.me.ms with h := true }, pc := tvecPc s.me.tvec
        st := .handler, wait := none, pk := none, via := some ⟨true, none⟩, readySince := max s.lastCycle s.me.issued })
    (u : State) (hu : u = v ∨ ∃ f : Pkg → Pkg, (∀ q, f q = { q with grids := (f q).grids }) ∧ u = v.modPkg s.myBlk.pkg f) :
    TookFault s (u.modThr s.cur.1 s.cur.2 F) cause tc pc := by
  have key : OnlyMe s (v.modMe F) := by
    rcases hv with rfl | rfl
    · exact (onlyMe_event s).trans (onlyMe_modMe _ _)
    · exact onlyMe_modMe _ _
  have hc : v.cur = s.cur := by rcases hv with rfl | rfl <;> simp
  have hp : v.pkgs = s.pkgs := by rcases hv with rfl | rfl <;> simp
  have hm : (v.modMe F).me = F s.me := by rcases hv with rfl | rfl <;> simp
  have hmp : (v.modMe F).pkgs = s.pkgs := by rcases hv with rfl | rfl <;> simp
  rcases hu with rfl | ⟨f, hf, rfl⟩
  · have e : u.modThr s.cur.1 s.cur.2 F = u.modMe F := by unfold State.modMe; rw [hc]
    rw [e]
    refine ⟨?_, fun p _ => ?_, ?_, ?_⟩
    · rw [← hmp]; exact key
    · unfold State.pkg; rw [hmp]
    · unfold State.pkg; rw [hmp]
    · rw [hm, hF]
  · have e : (v.modPkg s.myBlk.pkg f).modThr s.cur.1 s.cur.2 F = { v.modMe F with pkgs := (s.modPkg s.myBlk.pkg f).pkgs } := by
      unfold State.modMe State.modPkg State.modThr State.modBlk; simp only [hc, hp]
    rw [e]
    refine ⟨?_, fun p hq => ?_, ?_, ?_⟩
    · show OnlyMe s { v.modMe F with pkgs := s.pkgs }
      rw [← hmp]; exact key
    · exact modPkg_pkg_ne s f hq
    · show (s.modPkg _ f).pkg _ = { s.pkg s.myBlk.pkg with grids := ((s.modPkg s.myBlk.pkg f).pkg s.myBlk.pkg).grids }
      rw [modPkg_pkg s s.myBlk.pkg f]
      exact hf (s.pkg s.myBlk.pkg)
    · show (v.modMe F).me = _
      rw [hm, hF]

/-- Outside handler mode a fault of the executing thread is taken (R387). -/
theorem took_faultW (s : State) (cause : Nat) (tc : Dword) (pc : VAddr) (h : s.me.ms.h = false) :
    TookFault s (s.faultW s.cur.1 s.cur.2 cause tc pc) cause tc pc := by
  have h' : (s.thr s.cur.1 s.cur.2).ms.h = false := h
  unfold State.faultW
  simp only [h', Bool.false_eq_true, if_false]
  have hv := eventOf_cases s s.cur.1 s.cur.2
  have hl := eventOf_lastCycle s s.cur.1 s.cur.2
  generalize s.eventOf s.cur.1 s.cur.2 = v at hv hl ⊢
  obtain ⟨f, hu⟩ := countEvent_eq v (s.blk s.cur.1).pkg (s.blk s.cur.1).ctx (s.blk s.cur.1).grid (causeClass cause) (v.threadEvent s.cur.1 s.cur.2 (frameWord cause pc false) tc 0)
  apply took_of s v hv
  · rcases hu with ⟨-, hu⟩ | hu <;> rw [hu]
    · have e : (v.modPkg (s.blk s.cur.1).pkg f).lastCycle = v.lastCycle := rfl
      simp only [e, hl, Thread.since]
    · simp only [hl, Thread.since]
  · rcases hu with ⟨hf, hu⟩ | hu
    · exact .inr ⟨f, hf, hu⟩
    · exact .inl hu

/-- The same of a precise fault at the instruction. -/
theorem took_faultMe (s : State) (cause sub : Nat) (addr : Option Nat) (h : s.me.ms.h = false) :
    TookFault s (s.faultMe cause sub addr) cause (tcauseWord sub addr) s.me.pc := took_faultW s _ _ _ h

end Sys2Proof.Machine
end

