-- ==== Sys2Proof/Laws/Reports.lean ====
section
/-! SUPPORT. What reports and the early end of a context change: reports write memory and grids only, and an ended
context no longer lives, its blocks retired (R339, R399). -/

namespace Sys2Proof.Machine

/-- The blocks, the contexts and the executing thread have not changed. -/
def Keeps (s t : State) : Prop := t.blocks = s.blocks ∧ t.ctxs = s.ctxs ∧ t.cur = s.cur

theorem Keeps.refl (s : State) : Keeps s s := ⟨rfl, rfl, rfl⟩
theorem Keeps.trans {s t u : State} (h : Keeps s t) (k : Keeps t u) : Keeps s u :=
  ⟨k.1.trans h.1, k.2.1.trans h.2.1, k.2.2.trans h.2.2⟩
theorem keeps_modPkg (s : State) (p) (f : Pkg → Pkg) : Keeps s (s.modPkg p f) := ⟨rfl, rfl, rfl⟩
theorem keeps_modHead (s : State) (x) (f) : Keeps s (s.modHead x f) := ⟨rfl, rfl, rfl⟩
theorem keeps_physWrite (s : State) (p pa bs) : Keeps s (s.physWrite p pa bs) := by
  unfold State.physWrite; split <;> exact ⟨rfl, rfl, rfl⟩
theorem keeps_writeDws (p : Nat) : ∀ (ds : List Dword) (s : State) (pa : Nat), Keeps s (s.writeDws p pa ds)
  | [], s, _ => Keeps.refl s
  | _ :: ds, s, pa => (keeps_physWrite s p pa _).trans (keeps_writeDws p ds _ _)
theorem keeps_post (s : State) (p x pa who bs) : Keeps s (s.post p x pa who bs) ∧ (s.post p x pa who bs).heads = s.heads := by
  unfold State.post; split <;> exact ⟨⟨rfl, rfl, rfl⟩, rfl⟩
theorem agentWrite_keeps (p x : Nat) : ∀ (ds : List Dword) (s : State) (pa : Nat),
    Keeps s (s.agentWrite p x pa ds) ∧ (s.agentWrite p x pa ds).heads = s.heads
  | [], s, _ => ⟨Keeps.refl s, rfl⟩
  | d :: ds, s, pa =>
    have h := keeps_post s p x pa .agent (leBytes 8 d.toNat)
    have k := agentWrite_keeps p x ds (s.post p x pa .agent (leBytes 8 d.toNat)) (pa + 8)
    ⟨h.1.trans k.1, k.2.trans h.2⟩
theorem keeps_agentWrite (s : State) (p x pa ds) : Keeps s (s.agentWrite p x pa ds) := (agentWrite_keeps p x ds s pa).1
theorem keeps_carried (s : State) (p q) : Keeps s (s.carried p q) := by
  unfold State.carried; simp only; split <;> exact ⟨rfl, rfl, rfl⟩
theorem keeps_writeReport (s : State) (p x m) : Keeps s (s.writeReport p x m) := by
  unfold State.writeReport; simp only; split
  · exact keeps_agentWrite ..
  · exact Keeps.refl s
theorem keeps_completeEntry (s : State) (p x n e d) : Keeps s (s.completeEntry p x n e d) :=
  (keeps_agentWrite ..).trans (keeps_post ..).1
theorem keeps_sendSummary (s : State) (q x id f) : Keeps s (s.sendSummary q x id f) := by
  unfold State.sendSummary
  split
  · exact ((keeps_modHead ..).trans (keeps_carried ..)).trans (keeps_modPkg ..)
  · exact Keeps.refl s
theorem keeps_foldl {α : Type} (f : State → α → State) (h : ∀ s a, Keeps s (f s a)) : ∀ (l : List α) (s : State), Keeps s (l.foldl f s)
  | [], s => Keeps.refl s
  | a :: l, s => (h s a).trans (keeps_foldl f h l _)
/-- The end of a context's grids changes no block, no context and not who executes. -/
theorem keeps_killGrids (s : State) (p x) : Keeps s (s.killGrids p x) := by
  unfold State.killGrids
  simp only
  refine (keeps_modPkg s p _).trans (keeps_foldl _ ?_ _ _)
  intro s g
  split
  · split
    · exact (keeps_modPkg ..).trans (keeps_sendSummary ..)
    · split
      · exact (keeps_modPkg ..).trans (keeps_writeReport ..)
      · exact ((keeps_modPkg ..).trans (keeps_writeReport ..)).trans (keeps_completeEntry ..)
  · exact Keeps.refl s

theorem killOn_blocks (s : State) (p x : Nat) : (s.killOn p x).blocks = s.blocks.map fun (b : Nat × Block) =>
    if b.2.pkg = p && b.2.ctx = x && b.2.place ≠ Place.retired then (b.1, b.2.kill s.cycle) else b := by
  have h := (keeps_killGrids s p x).1
  unfold State.killOn
  generalize s.killGrids p x = u at h ⊢
  rw [← h]
  rfl
theorem killOn_ctxs (s : State) (p x : Nat) : (s.killOn p x).ctxs = tmod s.ctxs (ctxKey p x) fun c => { c with live := false, pre := .running } := by
  have h := (keeps_killGrids s p x).2.1
  unfold State.killOn
  generalize s.killGrids p x = u at h ⊢
  rw [← h]
  rfl
theorem killOn_cur (s : State) (p x : Nat) : (s.killOn p x).cur = s.cur := by
  have h := (keeps_killGrids s p x).2.2
  unfold State.killOn
  generalize s.killGrids p x = u at h ⊢
  rw [← h]
  rfl

theorem killOn_live (s : State) (p q x : Nat) (h : p = q ∨ (s.pctx p x).live = false) : ((s.killOn q x).pctx p x).live = false := by
  unfold State.pctx at h ⊢
  rw [killOn_ctxs]
  by_cases e : ctxKey p x = ctxKey q x
  · rw [e, tget_tmod_same]
  · rw [tget_tmod_ne _ _ e]
    rcases h with rfl | h
    · exact absurd rfl e
    · exact h

/-- After every package has ended its part the context lives on none of them. -/
theorem kills_live (p x : Nat) : ∀ (l : List Nat) (s : State), p ∈ l ∨ (s.pctx p x).live = false →
    ((l.foldl (fun s q => s.killOn q x) s).pctx p x).live = false
  | [], s, h => h.resolve_left (by simp)
  | q :: l, s, h => by
    apply kills_live p x l
    rcases h with h | h
    · rcases List.mem_cons.mp h with rfl | h
      · exact .inr (killOn_live s p p x (.inl rfl))
      · exact .inl h
    · exact .inr (killOn_live s p q x (.inr h))

/-- Every block of a context on a package has retired. -/
def AllRetired (s : State) (p x : Nat) : Prop := ∀ b ∈ s.blocks, b.2.pkg = p → b.2.ctx = x → b.2.place = .retired

theorem killOn_ended (s : State) (p q x : Nat) (h : p = q ∨ AllRetired s p x) : AllRetired (s.killOn q x) p x := by
  intro b hb h1 h2
  rw [killOn_blocks] at hb
  obtain ⟨o, ho, rfl⟩ := List.mem_map.mp hb
  split at h1
  · next hc => rw [if_pos hc]; rfl
  · next hc =>
    rw [if_neg hc] at h2 ⊢
    rcases h with rfl | h
    · simp only [h1, h2, decide_true, Bool.true_and, decide_eq_true_eq] at hc
      exact Classical.not_not.mp hc
    · exact h o ho h1 h2

/-- After that every block of the context on them has retired. -/
theorem kills_ended (p x : Nat) : ∀ (l : List Nat) (s : State), p ∈ l ∨ AllRetired s p x →
    AllRetired (l.foldl (fun s q => s.killOn q x) s) p x
  | [], s, h => h.resolve_left (by simp)
  | q :: l, s, h => by
    apply kills_ended p x l
    rcases h with h | h
    · rcases List.mem_cons.mp h with rfl | h
      · exact .inr (killOn_ended s p p x (.inl rfl))
      · exact .inl h
    · exact .inr (killOn_ended s p q x (.inr h))

/-- A property that a map of entries keeps holds of the value read after it. -/
theorem tget_map_prop {α : Type} [Inhabited α] (P : α → Prop) (f : Nat × α → Nat × α) (hf : ∀ b, (f b).1 = b.1)
    (hp : ∀ b, P b.2 → P (f b).2) : ∀ (l : Tab α) (k : Nat), P (tget l k) → P (tget (l.map f) k)
  | [], _, h => h
  | (j, v) :: l, k, h => by
    have e := hf (j, v)
    simp only [List.map_cons]
    unfold tget at h ⊢
    cases hfv : f (j, v) with
    | mk j' v' =>
      rw [hfv] at e
      simp only at e
      subst e
      simp only
      split at h
      · next hj => rw [if_pos hj]; have := hp (j', v) h; rw [hfv] at this; exact this
      · next hj => rw [if_neg hj]; exact tget_map_prop P f hf hp l k h

/-- A thread's saved frames and TCAUSE. -/
def Framed (th : Thread) (f0 f1 tc : Dword) : Prop := th.tframe0 = f0 ∧ th.tframe1 = f1 ∧ th.tcause = tc

theorem killOn_framed (s : State) (q x b t : Nat) (f0 f1 tc : Dword) (h : Framed (s.thr b t) f0 f1 tc) :
    Framed ((s.killOn q x).thr b t) f0 f1 tc := by
  unfold State.thr State.blk at h ⊢
  rw [killOn_blocks]
  refine tget_map_prop (fun bl : Block => Framed (tget bl.threads t) f0 f1 tc) _ ?_ ?_ s.blocks b h
  · intro o; split <;> rfl
  · intro o ho
    split
    · show Framed (tget (o.2.threads.map fun t => (t.1, { t.2 with st := TState.exited, wait := none, via := none })) t) f0 f1 tc
      refine tget_map_prop (fun th => Framed th f0 f1 tc) _ ?_ ?_ _ _ ho
      · intro _; rfl
      · intro _ h; exact h
    · exact ho

/-- The end of a context leaves a thread its frames. -/
theorem kills_framed (x b t : Nat) (f0 f1 tc : Dword) : ∀ (l : List Nat) (s : State), Framed (s.thr b t) f0 f1 tc →
    Framed ((l.foldl (fun s q => s.killOn q x) s).thr b t) f0 f1 tc
  | [], _, h => h
  | q :: l, s, h => kills_framed x b t f0 f1 tc l _ (killOn_framed s q x b t f0 f1 tc h)
theorem kills_cur (x : Nat) : ∀ (l : List Nat) (s : State), (l.foldl (fun s q => s.killOn q x) s).cur = s.cur
  | [], _ => rfl
  | q :: l, s => (kills_cur x l _).trans (killOn_cur s q x)

/-- The end of a context: the record is written, each package of the context ends its part, and nothing after that changes
a block or a context. -/
theorem killContext_does (s : State) (p x : Nat) (r : List Dword) : ∃ u : State, ∃ v : State,
    Keeps s u ∧ u.heads = s.heads ∧ v = (u.ctxPkgs p x).foldl (fun s q => s.killOn q x) u ∧ Keeps v (s.killContext p x r) := by
  unfold State.killContext
  simp only
  refine ⟨if (s.partOf p x).shsz = 0 then s else s.agentWrite p x (s.partOf p x).shbase r, _, ?_, ?_, rfl, ?_⟩
  · split
    · exact Keeps.refl s
    · exact keeps_agentWrite ..
  · split
    · rfl
    · exact (agentWrite_keeps ..).2
  · refine (keeps_modHead _ x fun h => { h with inbox := [] }).trans ?_
    apply keeps_foldl
    intro s g
    split
    · exact Keeps.refl s
    · split
      · exact (keeps_modHead ..).trans (keeps_writeReport ..)
      · exact keeps_modHead ..

end Sys2Proof.Machine
end

