-- ==== Sys2Proof/Tests/Slice0.lean ====
section
/-! SUPPORT. The model's own tests: words of the spec decoded, ill-formed terms refused, and for each statement states
and operands that meet its hypotheses, with what the spec says of the result. The machine of a test is `State.loaded`:
one context, one block, one thread at slot 2 of its object, 0x40000010, about to issue. -/

set_option Elab.async false

namespace Sys2Proof.Tests

open Sys2Proof.Machine

/-- STALL 0, guard pt. -/
def c0 : Ctl := ⟨0, false, 7⟩
/-- The loaded machine. -/
def base : State := State.reset.loaded 0
/-- With the thread changed, the block changed, registers set. -/
def me (f : Thread → Thread) : State := base.modMe f
def bl (f : Block → Block) : State := base.modMyBlk f
def withRegs (rs : List (Nat × Word)) (th : Thread) : Thread :=
  { th with regs := rs.foldl (fun t r => tset t r.1 r.2) th.regs }
def regs (rs : List (Nat × Word)) : State := me (withRegs rs)

/-- An outcome is a next state with a property. -/
def goes (o : Out) (f : State → Bool) : Bool := match o with | .next t => f t | _ => false
/-- The hypotheses of the statements of results hold, and the next state has a property. -/
def runs (s : State) (i : Instr) (f : State → Bool) (c : Ctl := c0) : Bool :=
  i.wellFormed && s.executes c i && goes (exec i s) f
/-- A register of the executing thread in the next state; the thread has gone on. -/
def gives (s : State) (i : Instr) (rs : List (Nat × Word)) (fl : BitVec 5 := 0) : Bool :=
  runs s i fun t => (rs.all fun r => tget t.me.regs r.1 = r.2) && t.me.pc = s.me.pc + 8 && t.me.fpcsr.flags = fl
/-- A fault with its TCAUSE. -/
def faults (s : State) (i : Instr) (cause sub : Nat) (addr : Option Nat := none) (pc : VAddr := 0x40000010) : Bool :=
  s.executes c0 i && !s.me.ms.h && goes (exec i s) fun t => t.me.ms.h && t.me.tframe0 = frameWord cause pc false
    && t.me.tcause = tcauseWord sub addr && t.me.st = .handler

/-- A dword put into memory. -/
def State.with64 (s : State) (pa : Nat) (v : Dword) (pkg : Nat := 0) : State := s.write64 pkg pa v
/-- Three pages of 4 KiB from 0x80000000 on, at the physical addresses from 0x90000 on. -/
def paged (s : State) : State :=
  [(0x3010, pteWord 0x4000 false), (0x4000, pteWord 0x5000 false), (0x5000, pteWord 0x90000 true),
    (0x5008, pteWord 0x91000 true), (0x5010, pteWord 0x92000 true)].foldl (fun s p => s.write64 0 p.1 p.2) s
/-- The block with n threads, all like thread 0, each at what a function makes of it. -/
def crowd (n : Nat) (f : Nat → Thread → Thread) : State :=
  bl fun b => { b with
    record := b.record.set 2 (0x0111000000400800#64 + BitVec.ofNat 64 n)
    threads := (List.range n).map fun k => (k, f k base.me) }
-- Decoding: words as the spec prints them (spec/02 to spec/08), and one written from R44-R52 for the other families

theorem test_decode_printed :
    decodeTableWord 64 0x0044A040405F8000 = some (.iadd ⟨1, true, 2⟩ 4 4 5 .i32 false)
      ∧ decodeTableWord 64 0x0148706020304021 = some (.imad ⟨2, false, 7⟩ 6 2 3 4 .n32 true)
      ∧ decodeTableWord 64 0x2480709F8F800000 = some (.movi c0 9 0xF800000)
      ∧ decodeTableWord 64 0x40407F883FFFFFF8 = some (.bra c0 true 3 0xFFFFFF8)
      ∧ decodeTableWord 64 0x40402F8810000003 = some (.bra ⟨0, false, 2⟩ true 1 3)
      ∧ decodeTableWord 64 0x41807F801F8F8000 = some (.join c0 1)
      ∧ decodeTableWord 64 0x40007F8F8F8F8000 = some (.nop c0)
      ∧ decodeTableWord 64 0x4340708F8F8F8010 = some (.rdsr c0 8 0x10)
      ∧ decodeTableWord 64 0x44007F808F8F8001 = some (.tlbiPage c0 8) := by decide +kernel
theorem test_decode_float :
    decodeTableWord 64 0x6208B010203F820A = some (.fcmp ⟨2, true, 3⟩ 1 2 3 .lt .f32)
      ∧ decodeTableWord 64 0x60D070A04050604A = some (.ffma ⟨4, false, 7⟩ 10 4 5 6 .f32 .rtz)
      ∧ decodeTableWord 64 0x834471211F8F800A = some (.frsq ⟨1, false, 7⟩ 18 17)
      ∧ decodeTableWord 64 0x85D07140CF8F800E = some (.spcomp ⟨4, false, 7⟩ 20 12 .e4m3 false) := by decide +kernel
theorem test_decode_memory :
    decodeTableWord 64 0xA5C07080AF810040 = some (.ldAcq c0 8 ⟨10, .gDie, 0x40⟩ .b64)
      ∧ decodeTableWord 64 0xA40070502F800000 = some (.ld c0 5 ⟨2, .gBlk, 0⟩ .b32 .dflt)
      ∧ decodeTableWord 64 0xB7C0706020430008 = some (.atomAddF32 c0 6 ⟨2, .gPod, 8⟩ 4 true)
      ∧ decodeTableWord 64 0xB6C0701020420000 = some (.atomExch c0 1 ⟨2, .gPkg, 0⟩ 4 false true)
      ∧ decodeTableWord 64 0xB8007F80E0640100 = some (.redAdd c0 ⟨14, .gSys, 0x100⟩ 6 false)
      ∧ decodeTableWord 64 0xAF007F8020420000 = some (.atomx c0 ⟨2, .gPkg, 0⟩ 4 .f32)
      ∧ decodeTableWord 64 0xBC0070502F820000 = some (.xrnd c0 5 ⟨2, .gPkg, 0⟩ false) := by decide +kernel
theorem test_decode_sync :
    decodeTableWord 64 0xC0007F8F803FF900 = some (.waitcnt c0 0 63 31 .die)
      ∧ decodeTableWord 64 0xC100119F8F854000 = some (.barbArrive ⟨0, false, 1⟩ 25 ⟨248, .s, 0x4000⟩)
      ∧ decodeTableWord 64 0xC1407F8F8F854000 = some (.barbWait c0 ⟨248, .s, 0x4000⟩ 248)
      ∧ decodeTableWord 64 0xC2007080309F8008 = some (.fshflIdx c0 8 3 9 .b32)
      ∧ decodeTableWord 64 0xC28070A0204F8000 = some (.rngLo c0 10 2 4) := by decide +kernel
theorem test_decode_class7 :
    decodeTableWord 64 0xE0C07F802032860D = some (.mma c0 2 3 40 .bf16)
      ∧ decodeTableWord 64 0xE0C07F801020E613 = some (.mma c0 1 2 14 .mxfp8)
      ∧ decodeTableWord 64 0xE0007F8F8F8F8011 = some (.mmodeM c0 8)
      ∧ decodeTableWord 64 0xE1C071C0CF803102 = some (.mdrainAddx c0 28 12 248 3 .f32)
      ∧ decodeTableWord 64 0xE4007011808F8800 = some (.seal c0 1 24 8)
      ∧ decodeTableWord 64 0xE6000181008F8001 = some (.copy ⟨0, false, 0⟩ 24 16 8 false true)
      ∧ decodeTableWord 64 0xE6C0718101A01100 = some (.sample c0 24 16 26 1)
      ∧ decodeTableWord 64 0xE80000602F8F8001 = some (.launchPod ⟨0, false, 0⟩ 6 2 0)
      ∧ decodeTableWord 64 0xE90070C0206F8000 = some (.qpost c0 12 2 6) := by decide +kernel

-- Well-formedness: one ill-formed term for each check of R84, refused

theorem test_ill_formed :
    (Instr.iadd c0 4 4 5 .f32 false).wellFormed = false ∧ (Instr.icmp c0 1 4 5 .un .i32).wellFormed = false
      ∧ (Instr.ldAcq c0 8 ⟨10, .l, 0⟩ .b64).wellFormed = false ∧ (Instr.mmodeM c0 24).wellFormed = false
      ∧ (Instr.iadd c0 249 4 5 .i32 false).wellFormed = false ∧ (Instr.iadd c0 5 4 8 .i64 false).wellFormed = false
      ∧ (Instr.copy c0 1 12 2 false true).wellFormed = false ∧ (Instr.warpForm 0 0).wellFormed = false
      ∧ (Instr.iadd c0 248 248 248 .i64 false).wellFormed = true := by decide +kernel
/-- Why the decoder refuses a word. -/
def refusal (w : Dword) : Option (Nat × Nat) := match decode w with | .error e => some e | .ok _ => none
/-- Each check of R84 that a word can fail, with its SUB (Examples 1 and 2 of spec/03 among them). -/
theorem test_decode_refuses :
    refusal 0 = some (1, 1) ∧ refusal 0x4003000000000000 = some (1, 2) ∧ refusal 0x40007F8F8F8F8001 = some (1, 2)
      ∧ refusal 0x40007F0F8F8F8000 = some (1, 3) ∧ refusal 0xA5C07080AF860040 = some (1, 4)
      ∧ refusal 0x6208B010203F824A = some (1, 4) ∧ refusal 0x6208B010203F890A = some (1, 4)
      ∧ refusal 0x0044AF94045F8000 = some (2, 1) ∧ refusal 0xE0C07F802032820D = some (2, 2)
      ∧ refusal 0x0044A050405F8002 = some (2, 3) := by decide +kernel
/-- R79, R84: opcodes 0x2B7 and 0x2F3, reserved slots, are reserved bits, SUB 2; a reserved W or V fails as the value of a code, SUB 4. -/
theorem test_decode_reserved :
    refusal ((0x2B7 : Dword) <<< 54 ||| 0x00007F8F8F8F8000) = some (1, 2) ∧ refusal ((0x2F3 : Dword) <<< 54 ||| 0x00007F8F8F8F8000) = some (1, 2)
      ∧ refusal ((0x29C : Dword) <<< 54 ||| 0x00007F8F8F8F8000) = some (1, 4)
      ∧ refusal ((0x2A3 : Dword) <<< 54 ||| 0x00007F8F8F8F8000) = some (1, 4) := by decide +kernel

-- Integer arithmetic, logic, bits, compares and moves: the corner values of R87-R103

theorem test_iadd : gives (regs [(4, 0x7FFFFFFF), (5, 1)]) (.iadd c0 6 4 5 .i32 false) [(6, 0x80000000)] = true := by
  decide +kernel
theorem test_iadd_sat : gives (regs [(4, 0x7FFFFFFF), (5, 1)]) (.iadd c0 6 4 5 .i32 true) [(6, 0x7FFFFFFF)] = true := by
  decide +kernel
/-- R17: a write to vz is discarded. -/
theorem test_iadd_vz : gives (regs [(4, 3)]) (.iadd c0 248 4 4 .i64 false) [(248, 0), (249, 0)] = true := by decide +kernel
theorem test_isub : gives (regs [(4, 0), (5, 1)]) (.isub c0 4 4 5 .n32 true) [(4, 0)] = true := by decide +kernel
theorem test_isub_pair : gives (regs [(4, 0), (5, 1), (6, 1)]) (.isub c0 8 4 6 .i64 false) [(8, 0xFFFFFFFF), (9, 0)] = true := by
  decide +kernel
theorem test_imul : gives (regs [(4, 0xFFFFFFFF), (5, 3)]) (.imul c0 6 4 5 .i32) [(6, 0xFFFFFFFD)] = true := by decide +kernel
theorem test_imulh : gives (regs [(4, 0xFFFFFFFF), (5, 3)]) (.imulh c0 6 4 5 .i32) [(6, 0xFFFFFFFF)] = true := by decide +kernel
theorem test_imulh_unsigned : gives (regs [(4, 0xFFFFFFFF), (5, 3)]) (.imulh c0 6 4 5 .n32) [(6, 2)] = true := by decide +kernel
/-- Example 1 of R90: 2^32 + 5 saturates. -/
theorem test_imad : gives (regs [(2, 0x10000), (3, 0x10000), (4, 5)]) (.imad c0 6 2 3 4 .n32 true) [(6, 0xFFFFFFFF)] = true := by
  decide +kernel
theorem test_imadw : gives (regs [(4, 0xFFFFFFFF), (5, 2), (8, 1)]) (.imadw c0 6 4 5 8 .i32) [(6, 0xFFFFFFFF), (7, 0xFFFFFFFF)] = true := by
  decide +kernel
theorem test_imin : gives (regs [(4, 0x80000000), (5, 1)]) (.imin c0 6 4 5 .i32) [(6, 0x80000000)] = true := by decide +kernel
theorem test_imax : gives (regs [(4, 0x80000000), (5, 1)]) (.imax c0 6 4 5 .n32) [(6, 0x80000000)] = true := by decide +kernel
theorem test_iabs : gives (regs [(4, 0x80000000)]) (.iabs c0 6 4 .i32 true) [(6, 0x7FFFFFFF)] = true := by decide +kernel
theorem test_ineg : gives (regs [(4, 0x80000000)]) (.ineg c0 6 4 .i32 false) [(6, 0x80000000)] = true := by decide +kernel
theorem test_lea : gives (regs [(4, 0x10), (8, 0xFFFFFFFF)]) (.lea c0 6 4 8 3 .i32) [(6, 8), (7, 0)] = true := by decide +kernel
theorem test_lea_unsigned : gives (regs [(4, 0x10), (8, 0xFFFFFFFF)]) (.lea c0 6 4 8 3 .n32) [(6, 8), (7, 8)] = true := by
  decide +kernel
theorem test_shl : gives (regs [(4, 1), (5, 32)]) (.shl c0 6 4 5 .b32) [(6, 0)] = true := by decide +kernel
theorem test_shr : gives (regs [(4, 0), (5, 1), (8, 32)]) (.shr c0 6 4 8 .b64) [(6, 1), (7, 0)] = true := by decide +kernel
theorem test_sar : gives (regs [(4, 0x80000000), (5, 33)]) (.sar c0 6 4 5 .i32) [(6, 0xFFFFFFFF)] = true := by decide +kernel
theorem test_fshL : gives (regs [(4, 0x12345678), (5, 0x9ABCDEF0), (8, 8)]) (.fshL c0 6 4 5 8) [(6, 0x3456789A)] = true := by
  decide +kernel
theorem test_fshR : gives (regs [(4, 0x12345678), (5, 0x9ABCDEF0), (8, 40)]) (.fshR c0 6 4 5 8) [(6, 0x12345678)] = true := by
  decide +kernel
theorem test_and : gives (regs [(4, 0xF0), (5, 0x3C)]) (.andB c0 6 4 5 .b32) [(6, 0x30)] = true := by decide +kernel
theorem test_or : gives (regs [(4, 0xF0), (5, 0x3C)]) (.orB c0 6 4 5 .b32) [(6, 0xFC)] = true := by decide +kernel
theorem test_xor : gives (regs [(4, 0xF0), (5, 0x3C)]) (.xorB c0 6 4 5 .b32) [(6, 0xCC)] = true := by decide +kernel
theorem test_not : gives (regs [(4, 0xF0)]) (.notB c0 8 4 .b64) [(8, 0xFFFFFF0F), (9, 0xFFFFFFFF)] = true := by decide +kernel
/-- LUT 0x96 is the exclusive-or of the three; 0x02 is A and neither B nor C. -/
theorem test_lop3 : gives (regs [(4, 0xF0), (5, 0xCC), (8, 0xAA)]) (.lop3 c0 6 4 5 8 0x96) [(6, 0x96)]
    && gives (regs [(4, 0xF0), (5, 0xCC), (8, 0xAA)]) (.lop3 c0 6 4 5 8 0x02) [(6, 0x10)] = true := by decide +kernel
theorem test_bfx : gives (regs [(4, 0x80), (5, 0x0404)]) (.bfx c0 6 4 5 .i32) [(6, 0xFFFFFFF8)]
    && gives (regs [(4, 0xF0000000), (5, 0xFF1C)]) (.bfx c0 6 4 5 .n32) [(6, 0xF)] = true := by decide +kernel
theorem test_bfi : gives (regs [(4, 0xFF), (5, 0), (8, 0x081C)]) (.bfi c0 6 4 5 8) [(6, 0xF0000000)] = true := by decide +kernel
theorem test_popc : gives (regs [(4, 3), (5, 0x80000000)]) (.popc c0 6 4 .b64) [(6, 3)] = true := by decide +kernel
theorem test_clz : gives base (.clz c0 6 4 .b64) [(6, 64)] && gives (regs [(4, 1)]) (.clz c0 6 4 .b32) [(6, 31)] = true := by
  decide +kernel
theorem test_brev : gives (regs [(4, 1)]) (.brev c0 6 4 .b64) [(6, 0), (7, 0x80000000)] = true := by decide +kernel
theorem test_ffs : gives base (.ffs c0 6 4 .b32) [(6, 0xFFFFFFFF)]
    && gives (regs [(4, 0x50)]) (.ffs c0 6 4 .b32) [(6, 4)] = true := by decide +kernel
/-- pt in C selects A. -/
theorem test_isel : gives (regs [(4, 1), (5, 2)]) (.isel c0 6 4 5 7 .b32) [(6, 1)]
    && gives (regs [(4, 1), (5, 2)]) (.isel c0 6 4 5 0 .b32) [(6, 2)] = true := by decide +kernel
theorem test_icmp : runs (regs [(4, 0xFFFFFFFF)]) (.icmp c0 1 4 248 .lt .i32) (fun t => t.me.preds = 2)
    && runs (regs [(4, 0xFFFFFFFF)]) (.icmp c0 1 4 248 .lt .n32) (fun t => t.me.preds = 0) = true := by decide +kernel
/-- The example of R99: 0x88 is the conjunction of p1 and p2. -/
theorem test_plop : runs (me fun th => { th with preds := 0b110 }) (.plop c0 3 1 2 7 0x88) (fun t => t.me.preds = 0b1110) = true := by
  decide +kernel
theorem test_mov : gives (regs [(4, 7), (5, 9)]) (.mov c0 6 4 .b64) [(6, 7), (7, 9)] = true := by decide +kernel
/-- Example 2 of R101. -/
theorem test_movi : gives base (.movi c0 1 0xFFFFFFD) [(1, 0xFFFFFFFD)] = true := by decide +kernel
theorem test_movh : gives (regs [(1, 0xFFFFFFFD)]) (.movh c0 1 1 0x1234) [(1, 0x1234FFFD)] = true := by decide +kernel

-- Exceptions, control flow and the system registers (R14, R26-R43, R102-R121, R387-R389)

/-- The words of Example 1 of R389. -/
theorem test_frame_words : frameWord 0x07 0x40000200 false = 0x8380000010000080
    ∧ tcauseWord 1 (some 0x100000002) = 0x8200000100000002 := by decide +kernel
/-- An exception of the loaded machine's thread: TVEC 0x40000040, and a grid that counts it. -/
def withGrid (s : State) : State := s.modPkg 0 fun q => { q with grids := [{ (default : Grid) with checked := true }] }
theorem test_exception_entry :
    let s := withGrid (me fun th => { th with tvec := 0x40000040 })
    let t := s.faultMe 0x07 1 (some 2)
    s.me.ms.h = false ∧ (s.findGrid 0 0 0).isSome ∧ t.me.tframe0 = 0x8380000010000004
      ∧ t.me.tcause = 0x8200000000000002 ∧ t.me.pc = 0x40000040 ∧ t.me.ms.h = true
      ∧ (t.pkg 0).grids.map (·.faults) = [1] := by decide +kernel
theorem test_double_fault :
    let s := me fun th => { th with ms := { th.ms with h := true }, tframe0 := 5 }
    let t := s.faultMe 0x14 0 none
    s.me.ms.h = true ∧ 0 ∈ s.ctxPkgs 0 0 ∧ t.me.tframe1 = frameWord 0x14 0x40000010 true ∧ t.me.tframe0 = 5
      ∧ (t.pctx 0 0).live = false ∧ (t.blk 0).place = .retired := by decide +kernel
theorem test_trap : goes (exec (.trap c0 9) base) (fun t => base.executes c0 (.trap c0 9)
    && t.me.tframe0 = frameWord 0x14 0x40000018 false && t.me.tcause = 9 && t.me.ms.h) = true := by decide +kernel
theorem test_bkpt : goes (exec (.bkpt c0 9) base) (fun t => base.executes c0 (.bkpt c0 9)
    && t.me.tframe0 = frameWord 0x15 0x40000010 false && t.me.tcause = 9 && t.me.ms.h) = true := by decide +kernel
/-- A thread in handler mode whose frame names 0x40000200. -/
def inHandler : State := me fun th =>
  { th with ms := { th.ms with h := true }, st := .handler, tframe0 := frameWord 0x07 0x40000200 false }
theorem test_reth : runs inHandler (.reth c0) (fun t => t.me.pc = 0x40000200 && !t.me.ms.h && t.me.st = .ready
    && t.me.tframe0 = 0x0380000010000080) = true := by decide +kernel
/-- R115, R116: double faults. -/
theorem test_trap_handler :
    let ends (i : Instr) (s : State) (cause : Nat) (pc : VAddr) (tc : Dword) : Bool := runs s i fun t =>
      t.me.tframe1 = frameWord cause pc true && t.me.tcause = tc && !(t.pctx 0 0).live
    ends (.trap c0 9) inHandler 0x14 0x40000018 9 && ends (.bkpt c0 9) inHandler 0x15 0x40000010 9
      && ends (.reth c0) (inHandler.modMe fun th => { th with tframe0 := 0 }) 0x10 0x40000010 (5 <<< 57) = true := by decide +kernel
theorem test_reth_outside : faults base (.reth c0) 0x13 0 = true := by decide +kernel
/-- R374, R375: the loaded machine's tables map the first and second GiB to themselves. -/
theorem test_walk : (match base.walk 0 0 0x7FFFFFFF with
    | .ok l => l.size = 0x40000000 && l.base = 0x40000000 && l.pa = 0x40000000
    | _ => false) = true := by decide +kernel

-- Literals: slot 0 of the object is data-marked
theorem test_ldlit32 : gives (State.with64 base 0x40000000 0x1122334455667788) (.ldlit32 c0 6 0xFFFFFFD) [(6, 0x11223344)] = true := by
  decide +kernel
theorem test_ldlit64 : gives (State.with64 base 0x40000000 0x1122334455667788) (.ldlit64 c0 6 0xFFFFFFC)
    [(6, 0x55667788), (7, 0x11223344)] = true := by decide +kernel
theorem test_ldlit32_fault : faults base (.ldlit32 c0 6 0) 0x09 1 (some 0x40000010) = true := by decide +kernel
theorem test_ldlit64_faults : faults base (.ldlit64 c0 6 0) 0x09 1 (some 0x40000010)
    && faults base (.ldlit64 c0 6 0xFFFFFFD) 0x09 2 (some 0x40000004) = true := by decide +kernel
theorem test_shapeq :
    let s := bl fun b => { b with tags := [(4, .affine 1 1), (5, .general)] }
    gives s (.shapeq c0 6 4) [(6, 1)] && gives s (.shapeq c0 6 5) [(6, 2)] && gives s (.shapeq c0 6 7) [(6, 0)]
      && gives s (.shapeq c0 6 248) [(6, 0)] = true := by decide +kernel
theorem test_reshape :
    runs (crowd 32 fun k th => { th with regs := tset [] 4 (BitVec.ofNat 32 (5 + 3 * k)) }) (.reshape c0 4)
      (fun t => tget t.myBlk.tags 4 = .affine 5 3 && tget (t.endIssue.core 0 0).pickBusy 0 = t.iw.start + 3)
    && gives base (.reshape c0 248) [] = true := by decide +kernel

-- Control flow
theorem test_nop : gives base (.nop c0) [] = true := by decide +kernel
theorem test_pad : gives base (.pad c0 0xC5) [] = true := by decide +kernel
/-- Example 2 of R51: 8 dwords back. -/
theorem test_bra : runs base (.bra c0 true 3 0xFFFFFF8) (fun t => t.me.pc = 0x3FFFFFD0 && t.me.issuable
    && tget t.myBlk.joins 3 = 1) && runs base (.bra c0 false 0 2) (fun t => t.me.pc = 0x40000020 && t.myBlk.joins = []) = true := by
  decide +kernel
theorem test_bra_off : base.skips ⟨0, false, 0⟩ (.bra ⟨0, false, 0⟩ true 3 2) = true
    ∧ goes (exec (.bra ⟨0, false, 0⟩ true 3 2) base) (fun t => t.me.pc = 0x40000018 && tget t.myBlk.joins 3 = 1) = true := by decide +kernel
/-- R53: p0 is false. -/
theorem test_predicated_off :
    let c : Ctl := ⟨0, false, 0⟩
    let i : Instr := .iadd c 4 5 5 .i32 false
    aloneGuard i = some c ∧ (regs [(5, 1)]).skips c i = true
      ∧ goes (exec i (regs [(5, 1)])) (fun t => tget t.me.regs 4 = 0 && t.me.pc = 0x40000018) = true := by decide +kernel
theorem test_call : runs base (.call c0 4) (fun t => t.me.sp = 248 && t.me.loc.num 248 8 = 0x40000018 && t.me.pc = 0x40000030)
    && faults (me fun th => { th with sp := 0 }) (.call c0 4) 0x08 1 = true := by decide +kernel
theorem test_ret :
    let s := me fun th => { th with sp := 248, loc := th.loc.write 248 (clean (leBytes 8 0x40000100)) }
    runs s (.ret c0) (fun t => t.me.pc = 0x40000100 && t.me.sp = 256) && faults base (.ret c0) 0x08 2 = true := by
  decide +kernel
/-- A table as in Example 4 of R63, its header in slot 511 of an object and its entries on the next page: index 1 goes to
slot 1,024, index 31 to the default, slot 1,025, both pads on the third page. -/
def jumps (idx : Word) : State :=
  let s := (paged (me fun th => { withRegs [(0, idx)] th with pc := 0x80000FC0 })).modCtx 0 0 fun c =>
    { c with objs := [⟨0x80000000, 2048, [(511, 2)]⟩] }
  let s := (s.write64 0 0x90FF8 0x00C5000000000003).write64 0 0x91000 0x0000020100000202
  [0x92000, 0x92008].foldl (fun s p => s.write64 0 p (encode (.pad c0 0xC5))) s
theorem test_brx : runs (jumps 1) (.brx c0 0 7) (fun t => t.me.pc = 0x80002000)
    && runs (jumps 31) (.brx c0 0 7) (fun t => t.me.pc = 0x80002008) = true := by decide +kernel
/-- With its pad gone, the target is a landing-pad fault with SUB 1. -/
theorem test_brx_fault : faults ((jumps 1).write64 0 0x92000 (encode (.nop c0))) (.brx c0 0 7) 0x04 1
    (some 0x80002000) 0x80000FC0 = true := by decide +kernel
theorem test_callx : runs (jumps 31) (.callx c0 0 7) (fun t => t.me.pc = 0x80002008 && t.me.sp = 248
    && t.me.loc.num 248 8 = 0x80000FC8) = true := by decide +kernel
/-- The premises of JumpTables, one by one. -/
theorem test_jump_premises :
    let s := jumps 1
    let t (s : State) (va : Nat) := s.xlate 0 (coreUnits 0) 0 va true false
    let s1 := (t s 0x80000FF8).1
    let s2 := (t s1 0x80001004).1
    let is (r : State × Except XErr Xl) (pa : Nat) : Bool := match r.2 with | .ok x => x = ⟨0, pa, 0, false, 4096⟩ | _ => false
    (s.dataMarked 0 0 0x80000FF8 && is (t s 0x80000FF8) 0x90FF8 && s.dataMarked 0 0 0x80001004 && is (t s1 0x80001004) 0x91004
      && !s.dataMarked 0 0 0x80002000 && is (t s2 0x80002000) 0x92000
      && (match decode ((t s2 0x80002000).1.read64 0 0x92000) with | .ok (.pad _ l) => l = 0xC5 | _ => false)) = true := by
  decide +kernel

-- Joins: two threads, slot 1
theorem test_join :
    let s := crowd 2 fun _ th => th
    let armed := s.modMyBlk fun b => { b with joins := [(1, 3)] }
    let last := armed.modThr 0 1 fun th => { th with wait := some (.join 1 99), st := .waiting }
    runs s (.join c0 1) (fun t => t.me.pc = 0x40000018 && t.me.issuable)
      && runs (last.modMyBlk fun b => { b with hold := 0 }) (.join c0 1) (fun t => t.me.pc = 0x40000018
        && (t.thr 0 1).issuable && t.myBlk.joins = [])
      && runs armed (.join ⟨3, false, 7⟩ 1) (fun t => t.me.wait = some (.join 1 1024) && t.me.owed = 3) ⟨3, false, 7⟩
      && runs last (.join c0 1) (fun t => t.me.pc = 0x40000018 && t.me.issuable && (t.thr 0 1).pc = 0x40000018
        && (t.thr 0 1).issuable && t.myBlk.joins = []) = true := by decide +kernel
theorem test_yield :
    runs base (.yield c0) (fun t => t.me.pc = 0x40000018 && t.me.issuable)
      && runs (base.modCtx 0 0 fun c => { c with pre := .pending }) (.yield c0)
        (fun t => t.me.pc = 0x40000018 && t.me.wait = some .yieldHold) = true := by decide +kernel
theorem test_exit :
    runs (bl fun b => { b with joins := [(2, 3)] }) (.exit c0) (fun t => t.me.st = .exited && t.myBlk.joins = [(2, 2)])
      && runs (me fun th => { th with lcnt := 1 }) (.exit c0) (fun t => t.me.wait = some .exitLoads)
      && faults (me fun th => { th with ms := { th.ms with mode := true } }) (.exit c0) 0x10 1 = true := by decide +kernel

-- Special and control registers
theorem test_rdsr :
    let s := { (bl fun b => { b with bid := ⟨4, 5, 6⟩, core := 17 }) with cycle := 13 }
    gives s (.rdsr c0 6 0x04) [(6, 4)] && gives s (.rdsr c0 6 0x10) [(6, 17)] && gives s (.rdsr c0 6 0x11) [(6, 256)]
      && gives s (.rdsr c0 6 0x08) [(6, 1)] && gives s (.rdsr c0 6 0x14) [(6, 13), (7, 0)]
      && gives s (.rdsr c0 6 0x16) [(6, 10), (7, 0)] = true := by decide +kernel
/-- R29, R31, R33, R34: the fields in their places. -/
theorem test_csrr :
    let s := me fun th => { th with
      fpcsr := ⟨1, true, false, 0b10001⟩, lcnt := 63, scnt := 2, ecnt := 31, mprog := ⟨true, 5, 7⟩, tcause := 0x8200000000000002
      ms := { th.ms with abase := 64, crew := 3 } }
    gives s (.csrr c0 6 0x000) [(6, 0x311)] 0b10001 && gives s (.csrr c0 6 0x001) [(6, 0x40060100)] 0b10001
      && gives s (.csrr c0 6 0x002) [(6, 0x1F0BF)] 0b10001 && gives s (.csrr c0 6 0x003) [(6, 0x80050007)] 0b10001
      && gives s (.csrr c0 6 0x103) [(6, 2), (7, 0x82000000)] 0b10001 = true := by decide +kernel
theorem test_csrw :
    runs (regs [(4, 0xFFFFFFFF)]) (.csrw c0 4 0x011) (fun t => t.myBlk.hold = 0xFFFF && t.me.pc = 0x40000018)
      && runs (regs [(4, 0xFF)]) (.csrw c0 4 0x004) (fun t => t.me.sp = 0xF8)
      && runs base (.csrw c0 4 0x001) (fun t => !t.me.ms.res)
      && runs (regs [(4, 7)]) (.csrw c0 4 0x012) (fun t => t.myBlk.detcfg = 7)
      && runs (inHandler.modMe (withRegs [(4, 0xFFFFFFFF), (5, 0xFFFFFFFF)])) (.csrw c0 4 0x100)
        (fun t => t.me.tvec = 0x01FFFFFFFFFFFFF8) = true := by decide +kernel
theorem test_csrwFpcsr : runs (regs [(4, 0x8FF)]) (.csrwFpcsr c0 4) (fun t => t.me.fpcsr = ⟨4, false, true, 31⟩)
    && faults (regs [(4, 0xA00)]) (.csrwFpcsr c0 4) 0x02 6 = true := by decide +kernel
theorem test_csrwMprog :
    let s := me fun th => { withRegs [(4, 0x80000000)] th with mprog := ⟨true, 5, 7⟩ }
    runs s (.csrwMprog c0 4) (fun t => t.me.mprog = ⟨false, 0, 0⟩) && runs s (.csrwMprog c0 5) (fun t => t.me.mprog = ⟨true, 5, 7⟩) = true := by
  decide +kernel
theorem test_privilege :
    ([.csrw c0 4 0x100, .csrw c0 4 0x101, .csrw c0 4 0x106, .csrw c0 4 0x002, .csrw c0 4 0x010, .csrw c0 4 0x102,
      .csrw c0 4 0x103, .csrw c0 4 0x104, .csrw c0 4 0x105, .tlbiCtx c0, .tlbiPage c0 4, .codereg c0 6 4].all fun i =>
        faults base i 0x13 0) = true := by decide +kernel
theorem test_timing_guard :
    ([.rdsr c0 6 0x0E, .rdsr c0 6 0x0F, .rdsr c0 6 0x14, .rdsr c0 6 0x16, .shapeq c0 6 4].all fun i =>
        faults (bl fun b => { b with detcfg := 4 }) i 0x06 0) = true := by decide +kernel
/-- A translation of each of two GiB and an L1 line of the context on core 3. -/
def shot : State :=
  let e (b : Nat) : TlbEntry := { (default : TlbEntry) with base := b, size := 0x40000000 }
  { inHandler with
    coh := { inHandler.coh with tlb := [e 0, e 0x40000000] }
    cores := [(3, { (default : Core) with l1 := [default] })] }
theorem test_tlbiCtx : runs shot (.tlbiCtx c0) (fun t => t.coh.tlb = [] && t.me.pc = 0x40000018 && (t.pctx 0 0).gen = 1
    && (t.core 0 3).l1 = []) = true := by decide +kernel
theorem test_tlbiPage : runs (shot.modMe (withRegs [(4, 0x123)])) (.tlbiPage c0 4) (fun t => t.coh.tlb.map (·.base) = [0x40000000]
    && (t.pctx 0 0).gen = 1) = true := by decide +kernel
/-- An object of 4 dwords at 0x10000; then one that overlaps it. -/
def twoObjects : State :=
  [(0x10000, 0x000000014F474C55#64), (0x10008, 4#64), (0x10018, 0x000000014F474C55#64), (0x10020, 4#64)].foldl
    (fun s p => s.write64 0 p.1 p.2) (inHandler.modMe (withRegs [(4, 0x10000), (8, 0x10004), (10, 0x10018), (12, 0x80000000)]))
theorem test_codereg :
    runs twoObjects (.codereg c0 6 4) (fun t => tget t.me.regs 6 = 0 && t.me.pc = 0x40000018
      && (t.pctx 0 0).objs.map (·.base) = [0x40000000, 0x10000])
    && runs (twoObjects.modMe (withRegs [(6, 9)])) (.codereg c0 6 8) (fun t => tget t.me.regs 6 = 6)
    && runs (twoObjects.modCtx 0 0 fun c => { c with objs := [⟨0x10000, 4, []⟩] }) (.codereg c0 6 10)
      (fun t => tget t.me.regs 6 = 5)
    && runs twoObjects (.codereg c0 6 12) (fun t => t.me.wait = some (.codePage 6)) = true := by decide +kernel

-- Floating point and conversion: the examples and tables of spec/06

/-- The environment of a thread: rounding mode, DAZ, FTZ. -/
def env (rm : BitVec 3) (daz ftz : Bool) (rs : List (Nat × Word)) : State :=
  me fun th => { withRegs rs th with fpcsr := ⟨rm, daz, ftz, 0⟩ }
/-- 1 + 2^-24 is a tie: RNE goes to even, RUP up. -/
theorem test_fadd : gives (regs [(4, 0x3F800000), (5, 0x33800000)]) (.fadd c0 6 4 5 .f32 .none) [(6, 0x3F800000)] NX
    && gives (env 2 false false [(4, 0x3F800000), (5, 0x33800000)]) (.fadd c0 6 4 5 .f32 .none) [(6, 0x3F800001)] NX = true := by
  decide +kernel
theorem test_fsub : gives (regs [(4, 0x7F800000)]) (.fsub c0 6 4 4 .f32 .none) [(6, 0x7FC00000)] NV
    && gives (regs [(4, 0x3C00)]) (.fsub c0 6 4 4 .f16 .rdn) [(6, 0x8000)] 0 = true := by decide +kernel
theorem test_fmul : gives (regs [(4, 0x80000000), (5, 0x7F800000)]) (.fmul c0 6 4 5 .f32 .none) [(6, 0x7FC00000)] NV
    && gives (env 0 false true [(4, 0x00800000), (5, 0x3F000000)]) (.fmul c0 6 4 5 .f32 .none) [(6, 0)] (UF ||| NX) = true := by
  decide +kernel
/-- Example 1 of R148. -/
theorem test_ffma : gives (regs [(4, 0x3F800800), (5, 0x3F800800), (6, 0xBF800000)]) (.ffma c0 10 4 5 6 .f32 .rtz)
    [(10, 0x3A000400)] 0 = true := by decide +kernel
theorem test_fdiv : gives (regs [(4, 0xBF800000)]) (.fdiv c0 6 4 248 .none) [(6, 0xFF800000)] DZ
    && gives (regs [(4, 0x3F800000), (5, 0x40400000)]) (.fdiv c0 6 4 5 .rup) [(6, 0x3EAAAAAB)] NX = true := by decide +kernel
theorem test_fsqrt : gives (regs [(4, 0x40800000)]) (.fsqrt c0 6 4 .none) [(6, 0x40000000)] 0
    && gives (regs [(4, 0xBF800000)]) (.fsqrt c0 6 4 .none) [(6, 0x7FC00000)] NV
    && gives (regs [(4, 0x80000000)]) (.fsqrt c0 6 4 .none) [(6, 0x80000000)] 0 = true := by decide +kernel
/-- Example 2 of R150, row by row. -/
def minMax (s : State) (r : List Word) (fl : BitVec 5) : Bool :=
  gives s (.fmin c0 6 4 5 .f32) [(6, r.getD 0 0)] fl && gives s (.fminn c0 6 4 5 .f32) [(6, r.getD 1 0)] fl
    && gives s (.fmax c0 6 4 5 .f32) [(6, r.getD 2 0)] fl && gives s (.fmaxn c0 6 4 5 .f32) [(6, r.getD 3 0)] fl
theorem test_fmin_fmax :
    minMax (regs [(4, 0), (5, 0x80000000)]) [0x80000000, 0x80000000, 0, 0] 0
      && minMax (regs [(4, 0x7FC01234), (5, 0x40000000)]) [0x7FC00000, 0x40000000, 0x7FC00000, 0x40000000] 0 = true := by decide +kernel
theorem test_fminn_fmaxn :
    minMax (regs [(4, 0x7F800001), (5, 0x40000000)]) [0x7FC00000, 0x40000000, 0x7FC00000, 0x40000000] NV
      && minMax (env 0 true false [(4, 0x80000001)]) [0x80000000, 0x80000000, 0, 0] 0
      && minMax (regs [(4, 0x80000001)]) [0x80000001, 0x80000001, 0, 0] 0 = true := by decide +kernel
/-- A quiet NaN raises NV under .lt and not under .ne; a write to pt is discarded and its NV raised. -/
theorem test_fcmp :
    let s := regs [(4, 0x7FC00000)]
    runs s (.fcmp c0 1 4 5 .lt .f32) (fun t => t.me.preds = 0 && t.me.fpcsr.flags = NV)
      && runs s (.fcmp c0 1 4 5 .ne .f32) (fun t => t.me.preds = 2 && t.me.fpcsr.flags = 0)
      && runs s (.fcmp c0 7 4 5 .ge .f32) (fun t => t.me.preds = 0 && t.me.fpcsr.flags = NV) = true := by decide +kernel
theorem test_fclass : gives (regs [(4, 0x7F800001)]) (.fclass c0 6 4 .f32) [(6, 0x100)] 0
    && gives (regs [(4, 0x8001)]) (.fclass c0 6 4 .f16) [(6, 4)] 0 = true := by decide +kernel
theorem test_frnd : gives (regs [(4, 0x40200000)]) (.frnd c0 6 4 .f32 .none) [(6, 0x40000000)] NX
    && gives (regs [(4, 0xBF000000)]) (.frnd c0 6 4 .f32 .none) [(6, 0x80000000)] NX = true := by decide +kernel
theorem test_hadd2 : gives (regs [(4, 0x3C007C00), (5, 0x3C00FC00)]) (.hadd2 c0 6 4 5 .f16 .none) [(6, 0x40007E00)] NV = true := by
  decide +kernel
theorem test_hmul2 : gives (regs [(4, 0x40003F80), (5, 0x40004040)]) (.hmul2 c0 6 4 5 .bf16 .none) [(6, 0x40804040)] 0 = true := by
  decide +kernel
theorem test_hfma2 : gives (regs [(4, 0x3C003C00), (5, 0x3C003C00), (8, 0x3C00BC00)]) (.hfma2 c0 6 4 5 8 .f16 .none)
    [(6, 0x40000000)] 0 = true := by decide +kernel
theorem test_dadd : gives (regs [(5, 0x3FF00000), (7, 0x3CA00000)]) (.dadd c0 8 4 6 .none) [(8, 0), (9, 0x3FF00000)] NX = true := by
  decide +kernel
theorem test_dmul : gives (regs [(5, 0x40000000), (7, 0xC0080000)]) (.dmul c0 8 4 6 .none) [(8, 0), (9, 0xC0180000)] 0 = true := by
  decide +kernel
theorem test_dfma : gives (regs [(5, 0x40000000), (7, 0x40080000), (11, 0xC0180000)]) (.dfma c0 8 4 6 10 .none) [(8, 0), (9, 0)] 0 = true := by
  decide +kernel
theorem test_ddiv : gives (regs [(5, 0x3FF00000), (7, 0x40080000)]) (.ddiv c0 8 4 6 .none) [(8, 0x55555555), (9, 0x3FD55555)] NX = true := by
  decide +kernel
theorem test_dsqrt : gives (regs [(5, 0x40000000)]) (.dsqrt c0 8 4 .none) [(8, 0x667F3BCD), (9, 0x3FF6A09E)] NX = true := by decide +kernel
theorem test_drcp : gives (regs [(5, 0x80000000)]) (.drcp c0 8 4 .none) [(8, 0), (9, 0xFFF00000)] DZ = true := by decide +kernel
theorem test_fcvt : gives (regs [(4, 0x477FF000)]) (.fcvt c0 6 4 .f16 .f32 .none) [(6, 0x7C00)] (OF ||| NX)
    && gives (regs [(4, 0x3C00)]) (.fcvt c0 6 4 .f64 .f16 .none) [(6, 0), (7, 0x3FF00000)] 0 = true := by decide +kernel
/-- Example 3 of R155. -/
theorem test_f2i :
    ([(0x40200000#32, Ty.i32, Rmo.none, 2#32, NX), (0x40200000, .i32, .rna, 3, NX), (0xC0200000, .i32, .rdn, 0xFFFFFFFD, NX),
      (0x4F32D05E, .i32, .none, 0x7FFFFFFF, NV), (0x4F32D05E, .n32, .none, 0xB2D05E00, 0), (0xBF000000, .n32, .none, 0, NX),
      (0xBF000000, .n32, .rdn, 0, NV), (0x43960000, .i8, .none, 0x7F, NV), (0xC0700000, .i8, .rtz, 0xFFFFFFFD, NX),
      (0x7FC00000, .i64, .none, 0, NV)].all fun r =>
        gives (regs [(4, r.1)]) (.f2i c0 6 4 r.2.1 .f32 r.2.2.1) [(6, r.2.2.2.1)] r.2.2.2.2) = true := by decide +kernel
theorem test_i2f : gives (regs [(4, 0xFFFFFFFF)]) (.i2f c0 6 4 .f32 .n32 .none) [(6, 0x4F800000)] NX
    && gives (regs [(4, 0xFFF0)]) (.i2f c0 6 4 .f16 .i8 .none) [(6, 0xCC00)] 0 = true := by decide +kernel
theorem test_fldx : gives (regs [(4, 0x3F800000), (5, 0xFFFFFF6B)]) (.fldx c0 6 4 5 .f32 .none) [(6, 1)] 0
    && gives (regs [(4, 0x3F800000), (5, 128)]) (.fldx c0 6 4 5 .f32 .none) [(6, 0x7F800000)] (OF ||| NX) = true := by decide +kernel
theorem test_fexpo : gives (regs [(4, 1)]) (.fexpo c0 6 4 .f32) [(6, 0xFFFFFF6B)] 0
    && gives base (.fexpo c0 6 4 .f64) [(6, 0x80000000)] 0 = true := by decide +kernel
theorem test_fmant : gives (regs [(4, 0xC0400000)]) (.fmant c0 6 4 .f32) [(6, 0xBFC00000)] 0
    && gives (regs [(4, 1)]) (.fmant c0 6 4 .f32) [(6, 0x3F800000)] 0 = true := by decide +kernel
/-- The special values of R160. -/
theorem test_sfu_zero :
    gives (regs [(4, 0x80000000)]) (.frcp c0 6 4) [(6, 0xFF800000)] DZ && gives base (.frsq c0 6 4) [(6, 0x7F800000)] DZ
      && gives base (.fex2 c0 6 4) [(6, 0x3F800000)] 0 && gives base (.flg2 c0 6 4) [(6, 0xFF800000)] DZ
      && gives (regs [(4, 0x80000000)]) (.fsinpi c0 6 4) [(6, 0x80000000)] 0
      && gives base (.fcospi c0 6 4) [(6, 0x3F800000)] 0 = true := by decide +kernel
/-- The exact cases of R160: powers of two, integers and half-integers. -/
theorem test_sfu_exact :
    gives (regs [(4, 0xC0000000)]) (.frcp c0 6 4) [(6, 0xBF000000)] 0 && gives (regs [(4, 0x40800000)]) (.frsq c0 6 4) [(6, 0x3F000000)] 0
      && gives (regs [(4, 0xC3150000)]) (.fex2 c0 6 4) [(6, 1)] 0 && gives (regs [(4, 1)]) (.flg2 c0 6 4) [(6, 0xC3150000)] 0
      && gives (regs [(4, 0x3FC00000)]) (.fsinpi c0 6 4) [(6, 0xBF800000)] 0
      && gives (regs [(4, 0x3F800000)]) (.fcospi c0 6 4) [(6, 0xBF800000)] 0 = true := by decide +kernel
/-- Example 4 of R163. -/
theorem test_mfpack : gives (regs [(2, 0x81), (16, 0x40800000), (17, 0xC0C00000), (18, 0x3F800000), (19, 0x41C80000),
    (21, 0x40400000), (22, 0xBF666666), (23, 0x7FC00000)]) (.mfpack c0 30 16 2 .mxfp4 .f32 false .none) [(30, 0x082070B2)]
    (NV ||| UF ||| NX) = true := by decide +kernel
theorem test_mfunpk : gives (regs [(4, 0x0820_70B2)]) (.mfunpk c0 8 4 248 .e2m1 .bf16)
    [(8, 0xBFC03F80), (9, 0x40C00000), (10, 0x3F800000), (11, 0x00008000)] 0 = true := by decide +kernel
/-- Example 5 of R166. -/
theorem test_spcomp :
    let s := regs [(12, 0x003800C0), (13, 0x48013C00)]
    gives s (.spcomp c0 20 12 .e4m3 false) [(20, 0x483C38C0), (21, 0x800000D8)]
      && gives s (.spcomp c0 20 12 .e4m3 true) [(20, 0x483C38C0), (21, 0xD8)] = true := by decide +kernel
theorem test_popnz : gives (regs [(13, 0x48013C00)]) (.popnz c0 5 13 .e4m3 false) [(5, 3)]
    && gives (regs [(13, 0x48013C00)]) (.popnz c0 5 13 .e4m3 true) [(5, 2)] = true := by decide +kernel

-- Rounding and special cases: inputs that meet each clause of Rounding and FloatSpecialCases
theorem test_rnd : ([RM.rtz, .rup, .rdn, .rne, .rna].map fun rm => rnd rm false 5 2) = [2, 3, 2, 2, 3]
    ∧ ([RM.rtz, .rup, .rdn, .rne, .rna].map fun rm => rnd rm true 5 2) = [2, 2, 3, 2, 3] := by decide +kernel
theorem test_special_values :
    (fread .f32 false 0x7F800001).isSNaN = true ∧ (fread .f32 false 0x7FC00000).isNaN = true
      ∧ (fread .f32 false 0x7FC00000).isSNaN = false ∧ fread .f32 false 0x7F800000 = .inf false
      ∧ fread .f32 false 0xFF800000 = .inf true ∧ (fread .f32 true 1).isZero = true
      ∧ (match fread .f32 false 0x3F800000 with | .fin false m _ => m ≠ 0 | _ => false) = true
      ∧ (match fread .f32 false 0x80000000 with | .fin true 0 _ => true | _ => false) = true
      ∧ fpDiv .f32 ⟨.rne, false, false⟩ 0xFF800000 0x7F800000 = (0x7FC00000, NV)
      ∧ fpDiv .f32 ⟨.rne, true, false⟩ 1 0x80000001 = (0x7FC00000, NV)
      ∧ fpSqrt .f32 ⟨.rne, false, false⟩ 0x80000000 = (0x80000000, 0) := by decide +kernel

-- Memory (R167-R177)

/-- The loaded machine with the address in the pair v2:v3 (for .g) or in v2, and a value in v4:v5. -/
def addr (a : Dword) (v : Dword := 0) : State :=
  regs [(2, a.truncate 32), (3, (a >>> 32).truncate 32), (4, v.truncate 32), (5, (v >>> 32).truncate 32)]
def mo (sp : Spsc) : MemOp := ⟨2, sp, 0⟩
/-- Each check of R167: alignment, the upper bits, the bounds, the peer windows. -/
theorem test_address_faults :
    faults (addr 2) (.ld c0 6 (mo .gDie) .b32 .dflt) 7 1 (some 2)
      && faults (addr (1 <<< 57)) (.ld c0 6 (mo .gDie) .b32 .dflt) 7 2 (some (2 ^ 57))
      && faults (addr (1 <<< 56)) (.st c0 (mo .gDie) 4 .b32 .dflt) 7 6 (some (2 ^ 56))
      && faults (addr 4096) (.ld c0 6 (mo .s) .b32 .dflt) 7 3 (some 4096)
      && faults (addr 4096) (.st c0 (mo .s) 4 .b32 .dflt) 7 3 (some 4096)
      && faults (addr 256) (.ld c0 6 (mo .l) .b32 .dflt) 7 4 (some 256)
      && faults (addr 256) (.st c0 (mo .l) 4 .b32 .dflt) 7 4 (some 256)
      && faults (addr 64) (.ld c0 6 (mo .c) .b32 .dflt) 7 5 (some 64) = true := by decide +kernel
theorem test_address_premises : (addr 2).memWait .gDie (some 0) = none ∧ (addr 2).memWait .s (some 1) = none := by decide +kernel
/-- R175, R379: page 0x80000 is not mapped; its record to the host bears tag 0 and kind 1 for a write. -/
theorem test_park :
    runs (addr 0x80000000) (.ld c0 6 (mo .gDie) .b32 .dflt) (fun t => t.me.st = .parked && t.me.lcnt = 0
        && (t.pkg 0).host = [.pageRequest 0x80000000 0] && t.coh.reqs.map (·.waiters) = [[.thread 0 0]])
      && runs (addr 0x80000000) (.st c0 (mo .gDie) 4 .b32 .dflt) (fun t => t.me.st = .parked && t.me.scnt = 0
        && (t.pkg 0).host = [.pageRequest 0x80000400 0])
      && (match ((addr 0x80000000).xlate 0 (coreUnits 0) 0 0x80000000 true false).2 with | .error .absent => true | _ => false)
      = true := by decide +kernel
/-- A second need of the page joins the first request. -/
theorem test_park_joins :
    let s := addr 0x80000000
    runs { s with coh := { s.coh with reqs := [⟨0, 0, 0, 0x80000, 0, false, [.thread 0 7], []⟩] } }
      (.ld c0 6 (mo .gDie) .b32 .dflt) (fun t => t.me.st = .parked && (t.pkg 0).host = []
        && t.coh.reqs.map (·.waiters) = [[.thread 0 7, .thread 0 0]]) = true := by decide +kernel
theorem test_preq :
    runs (addr 0x80000001) (.preq c0 (mo .gDie)) (fun t => t.me.scnt = 1 && t.me.pc = 0x40000018
        && (t.pkg 0).host = [.pageRequest 0x80000800 0] && t.coh.reqs.map (·.preqs) = [[(0, 0)]])
      && gives (addr 0x1000) (.preq c0 (mo .gDie)) [] = true := by decide +kernel

/-- A load counts in LCNT and its words are on their way. -/
def loads (s : State) (i : Instr) (ws : List (Nat × Word)) : Bool :=
  runs s i fun t => t.me.lcnt = 1 && t.me.pc = 0x40000018 && t.coh.lands.map (fun l => (l.regs, l.marked)) = [(ws, false)]
def shmAt (a : Nat) (v : Dword) (s : State) : State :=
  s.modMyBlk fun b => { b with shm := b.shm.write a (clean (leBytes 8 v.toNat)) }
theorem test_ld :
    let s := shmAt 8 0xFEDCBA9876543210 (addr 8)
    loads s (.ld c0 6 (mo .s) .b64 .dflt) [(6, 0x76543210), (7, 0xFEDCBA98)]
      && loads s (.ld c0 6 ⟨2, .s, 7⟩ .i8 .dflt) [(6, 0xFFFFFFFE)] && loads s (.ld c0 6 ⟨2, .s, 6⟩ .n16 .dflt) [(6, 0xFEDC)]
      && loads (me fun th => { withRegs [(2, 252)] th with loc := th.loc.write 252 (clean [1, 2, 3, 4]) }) (.ld c0 6 (mo .l) .b32 .dflt)
        [(6, 0x04030201)] = true := by decide +kernel
/-- Constant memory, the 16 bytes across two pages that lie apart. -/
def param : State :=
  let s := (paged (addr 0)).modMyBlk fun b => { b with record := b.record.set 4 0x80000FF8 }
  (s.write64 0 0x90FF8 0x1111111122222222).write64 0 0x91000 0x3333333344444444
theorem test_ld_constant : loads param (.ld c0 8 (mo .c) .b128 .dflt) [(8, 0x22222222), (9, 0x11111111), (10, 0x44444444), (11, 0x33333333)]
    && loads param (.ld c0 8 (mo .c) .b64 .dflt) [(8, 0x22222222), (9, 0x11111111)] = true := by decide +kernel
theorem test_ldAcq :
    let s := (addr 0x8000).write64 0 0x8000 0x1122334455667788
    runs s (.ldAcq c0 6 (mo .gDie) .b64) (fun t => t.me.lcnt = 1 && t.me.hold = 1
        && t.coh.lands.map (fun l => (l.regs, l.unhold, l.clear)) = [([(6, 0x55667788), (7, 0x11223344)], true, true)])
      && runs (shmAt 8 5 (addr 8)) (.ldAcq c0 6 (mo .s) .b32) (fun t => t.me.hold = 1
        && t.coh.lands.map (fun l => (l.regs, l.unhold)) = [([(6, 5)], true)]) = true := by decide +kernel
/-- A global load returns memory's bytes, or those of the thread's own store still on its way (R169). -/
theorem test_ld_global :
    let s := (addr 0x8000).write64 0 0x8000 0x1122334455667788
    let own : HomeOp := { (default : HomeOp) with key := 0x8000, va := 0x8000, kind := .store [9, 9], who := .thread 0 0 }
    loads s (.ld c0 6 (mo .gDie) .b32 .dflt) [(6, 0x55667788)] && loads s (.ld c0 6 (mo .gSys) .b32 .cg) [(6, 0x55667788)]
      && loads s (.ld c0 6 (mo .gBlk) .b32 .dflt) [(6, 0x55667788)]
      && loads { s with coh := { s.coh with ops := [own] } } (.ld c0 6 (mo .gDie) .b32 .dflt) [(6, 0x55660909)] = true := by decide +kernel
/-- The premises of GlobalLoads for the state above. -/
theorem test_global_premises :
    let s := (addr 0x8000).write64 0 0x8000 0x1122334455667788
    (match (s.xlate 0 (coreUnits 0) 0 0x8000 true false).2 with | .ok x => x.pa = 0x8000 && x.pkg = 0 | _ => false) = true
      ∧ s.physKey 0 0x8000 = 0x8000 ∧ s.cutOff 0 0x8000 = false ∧ s.ownPending (.thread 0 0) 0x8000 16 = false
      ∧ s.copiesOk = true ∧ s.memOk = true := by decide +kernel
/-- R176: a probe of a page that is not there gives 0, and its landing clears RES. -/
theorem test_ldnf :
    runs (addr 0x80000000) (.ldnf c0 6 (mo .gDie) false) (fun t => t.me.lcnt = 1
        && t.coh.lands.map (fun l => (l.regs, l.clrRes)) = [([(6, 0)], true)])
      && runs ((addr 0x8000).write64 0 0x8000 7) (.ldnf c0 6 (mo .gDie) true) (fun t =>
        t.coh.lands.map (fun l => (l.regs, l.clrRes)) = [([(6, 7), (7, 0)], false)]) = true := by decide +kernel
theorem test_st :
    runs (shmAt 8 0xFFFFFFFFFFFFFFFF (addr 8 0x0102030405060708)) (.st c0 (mo .s) 4 .b16 .dflt) (fun t => t.me.scnt = 1
        && t.myBlk.shm.num 8 8 = 0xFFFFFFFFFFFF0708 && t.coh.acks.length = 1)
      && runs (addr 8 0x0102030405060708) (.st c0 (mo .l) 4 .b64 .dflt) (fun t => t.me.loc.num 8 8 = 0x0102030405060708)
      && runs (addr 0x8000 0x0102030405060708) (.st c0 (mo .gBlk) 4 .b64 .cs) (fun t => t.me.scnt = 1 && t.mem = (addr 0x8000 0).mem
        && t.coh.ops.map (fun o => (o.key, o.kind)) = [(0x8000, .store [8, 7, 6, 5, 4, 3, 2, 1])]) = true := by decide +kernel
theorem test_stRel :
    runs (addr 8 5) (.stRel c0 (mo .s) 4 .b32) (fun t => t.myBlk.shm.num 8 4 = 5)
      && runs (addr 0x8000 5) (.stRel c0 (mo .gPkg) 4 .b32) (fun t => t.coh.ops.map (·.kind) = [.store [5, 0, 0, 0]])
      && (addr 8 5).countsHold 0 0 0 0 31 .pkg = true := by decide +kernel

-- Atomics (R178-R185)

/-- An atomic in shared memory: the location's new value; the old one is on its way, under .sc holding what is younger. -/
def atomS (i : Instr) (old v new : Dword) (w64 : Bool := false) : Bool :=
  runs (shmAt 8 old (addr 8 v)) i fun t => t.myBlk.shm.num 8 8 = new.toNat && t.me.lcnt = 1
    && t.coh.lands.map (·.regs) = [if w64 then [(6, old.truncate 32), (7, (old >>> 32).truncate 32)] else [(6, old.truncate 32)]]
def redS (i : Instr) (old v new : Dword) : Bool :=
  runs (shmAt 8 old (addr 8 v)) i fun t => t.myBlk.shm.num 8 8 = new.toNat && t.me.scnt = 1 && t.coh.acks.length = 1
/-- An atomic of global memory on its way to its home: what it does there. -/
def atomG (i : Instr) (kind : OpKind) (ret : Bool) : Bool :=
  runs (addr 0x8000 0x40490FDB) i fun t => t.coh.ops.map (fun o => (o.key, o.kind)) = [(0x8000, kind)]
    && t.me.lcnt = ret.toNat && t.me.scnt = (!ret).toNat && t.mem = (addr 0x8000 0).mem

theorem test_atomAdd : atomS (.atomAdd c0 6 (mo .s) 4 true true) 0xFFFFFFFF 1 0x100000000 true
    && atomG (.atomAdd c0 6 (mo .gPkg) 4 false true) (.atom .add false 0x40490FDB 0 true) true = true := by decide +kernel
theorem test_redAdd : redS (.redAdd c0 (mo .s) 4 false) 0xFFFFFFFF 1 0
    && atomG (.redAdd c0 (mo .gSys) 4 false) (.atom .add false 0x40490FDB 0 false) false = true := by decide +kernel
theorem test_atomMin : atomS (.atomMin c0 6 (mo .s) 4 .i32 false) 1 0xFFFFFFFF 0xFFFFFFFF
    && atomS (.atomMin c0 6 (mo .s) 4 .n32 false) 1 0xFFFFFFFF 1
    && atomG (.atomMin c0 6 (mo .gDie) 4 .n32 false) (.atom .minU false 0x40490FDB 0 true) true = true := by decide +kernel
theorem test_redMin : redS (.redMin c0 (mo .s) 4 .i64) 1 0xFFFFFFFFFFFFFFFF 0xFFFFFFFFFFFFFFFF
    && atomG (.redMin c0 (mo .gDie) 4 .i32) (.atom .minS false 0x40490FDB 0 false) false = true := by decide +kernel
theorem test_atomMax : atomS (.atomMax c0 6 (mo .s) 4 .i32 false) 1 0xFFFFFFFF 1
    && atomG (.atomMax c0 6 (mo .gDie) 4 .n32 false) (.atom .maxU false 0x40490FDB 0 true) true = true := by decide +kernel
theorem test_redMax : redS (.redMax c0 (mo .s) 4 .n32) 1 0xFFFFFFFF 0xFFFFFFFF
    && atomG (.redMax c0 (mo .gDie) 4 .i32) (.atom .maxS false 0x40490FDB 0 false) false = true := by decide +kernel
theorem test_atomAnd : atomS (.atomAnd c0 6 (mo .s) 4 false false) 0xF0 0x3C 0x30
    && atomG (.atomAnd c0 6 (mo .gDie) 4 false false) (.atom .and false 0x40490FDB 0 true) true = true := by decide +kernel
theorem test_redAnd : redS (.redAnd c0 (mo .s) 4 true) 0xF0 0x3C 0x30
    && atomG (.redAnd c0 (mo .gDie) 4 false) (.atom .and false 0x40490FDB 0 false) false = true := by decide +kernel
theorem test_atomOr : atomS (.atomOr c0 6 (mo .s) 4 false) 0xF0 0x3C 0xFC
    && atomG (.atomOr c0 6 (mo .gDie) 4 false) (.atom .or false 0x40490FDB 0 true) true = true := by decide +kernel
theorem test_redOr : redS (.redOr c0 (mo .s) 4) 0xF0 0x3C 0xFC
    && atomG (.redOr c0 (mo .gDie) 4) (.atom .or false 0x40490FDB 0 false) false = true := by decide +kernel
theorem test_atomXor : atomS (.atomXor c0 6 (mo .s) 4 false) 0xF0 0x3C 0xCC
    && atomG (.atomXor c0 6 (mo .gDie) 4 false) (.atom .xor false 0x40490FDB 0 true) true = true := by decide +kernel
theorem test_redXor : redS (.redXor c0 (mo .s) 4) 0xF0 0x3C 0xCC
    && atomG (.redXor c0 (mo .gDie) 4) (.atom .xor false 0x40490FDB 0 false) false = true := by decide +kernel
theorem test_atomExch : atomS (.atomExch c0 6 (mo .s) 4 false true) 0xF0 0x3C 0x3C
    && atomG (.atomExch c0 6 (mo .gDie) 4 false false) (.atom .exch false 0x40490FDB 0 true) true = true := by decide +kernel
/-- The comparand is the destination as it stands, 0 here. -/
theorem test_cas : atomS (.cas c0 6 (mo .s) 4 false true) 0 0x3C 0x3C && atomS (.cas c0 6 (mo .s) 4 true false) 1 0x3C 1 true
    && atomG (.cas c0 6 (mo .gDie) 4 false false) (.atom .cas false 0x40490FDB 0 true) true = true := by decide +kernel
theorem test_atomAddF32 : atomS (.atomAddF32 c0 6 (mo .s) 4 false) 0x3F800000 0x3F800000 0x40000000
    && atomG (.atomAddF32 c0 6 (mo .gDie) 4 false) (.atom .addF false 0x40490FDB 0 true) true = true := by decide +kernel
theorem test_redAddF32 : redS (.redAddF32 c0 (mo .s) 4) 0x3F800000 0x3F800000 0x40000000
    && atomG (.redAddF32 c0 (mo .gDie) 4) (.atom .addF false 0x40490FDB 0 false) false = true := by decide +kernel
theorem test_atomAddF64 : atomS (.atomAddF64 c0 6 (mo .s) 4 false) 0x3FF0000000000000 0x3FF0000000000000 0x4000000000000000 true
    && atomG (.atomAddF64 c0 6 (mo .gDie) 4 false) (.atom .addF true 0x40490FDB 0 true) true = true := by decide +kernel
theorem test_redAddF64 : redS (.redAddF64 c0 (mo .s) 4) 0x3FF0000000000000 0x3FF0000000000000 0x4000000000000000
    && atomG (.redAddF64 c0 (mo .gDie) 4) (.atom .addF true 0x40490FDB 0 false) false = true := by decide +kernel
/-- R37: with FPAG every floating-point add is a determinism fault. -/
theorem test_fpag :
    let s := (addr 8).modMyBlk fun b => { b with detcfg := 1 }
    ([.atomAddF32 c0 6 (mo .s) 4 false, .atomAddF64 c0 6 (mo .s) 4 false, .redAddF32 c0 (mo .s) 4, .redAddF64 c0 (mo .s) 4].all
      fun i => faults s i 6 0) = true := by decide +kernel
/-- A pod of two packages, the second like the first but for its numbers (R313, R379). -/
def twoPackages (s : State) : State :=
  State.with64 (pkg := 1) (pa := 40) (v := 1 <<< 51) { s with
    pkgs := s.pkgs ++ [(1, s.pkg 0)], ctxs := s.ctxs ++ [(65536, { s.pctx 0 0 with num := 1 })]
    mem := s.mem ++ s.mem.map fun c => (c.1 + 2 ^ 52, c.2)
    heads := [(0, { (default : Head) with pkgs := [0, 1] })] }
/-- R348: an add at .pod scope of a peer window is on its way to package 1, at offset 0x8000 of its space. -/
theorem test_atom_peer :
    runs (twoPackages (addr (2 ^ 56 + 2 ^ 43 + 0x8000) 5)) (.atomAdd c0 6 (mo .gPod) 4 false false) (fun t => t.me.lcnt = 1
      && t.coh.ops = [] && t.coh.remote.map (fun r => (r.src, r.peer, r.off, r.op.pkg, r.op.va % 2 ^ 43)) = [(0, 1, 0x8000, 1, 0x8000)])
      = true := by decide +kernel
/-- R182-R185: 1.0 joins a cell as 2^160 units of 2^-160; a cell read counts in LCNT, a cleared one in SCNT. -/
theorem test_atomx : runs (addr 0x8000 0x3F800000) (.atomx c0 (mo .gPkg) 4 .f32) (fun t => t.me.scnt = 1
    && t.coh.ops.map (fun o => match o.kind with | .xadd n st => (o.key, n, st) | _ => (0, 0, 0)) = [(0x8000, 2 ^ 160, 0)]) = true := by
  decide +kernel
theorem test_xrnd : runs (addr 0x8000) (.xrnd c0 6 (mo .gPkg) true) (fun t => t.me.lcnt = 1
    && t.coh.ops.map (fun o => (o.kind, o.dst)) = [(.xrnd true, [6, 7])]) = true := by decide +kernel
theorem test_xclr : runs (addr 0x8000) (.xclr c0 (mo .gPkg)) (fun t => t.me.scnt = 1 && t.coh.ops.map (·.kind) = [.xclr]) = true := by
  decide +kernel

-- Synchronisation and exchange (R186-R203)

/-- waitcnt goes on with the core's L1 lines of the context gone, or waits on its counts. -/
theorem test_waitcnt :
    let s := me fun th => { th with lcnt := 2 }
    let s := { s with cores := [(0, { (default : Core) with l1 := [default] })] }
    runs s (.waitcnt c0 2 0 31 .die) (fun t => t.me.pc = 0x40000018 && (t.core 0 0).l1 = [])
      && runs s (.waitcnt c0 1 0 31 .die) (fun t => t.me.pc = 0x40000010 && t.me.wait = some (.counts 1 0 31 .die))
      && s.coh.pushes.isEmpty = true := by decide +kernel
/-- R203 and Example 5 of R202. -/
theorem test_rngLo : gives base (.rngLo c0 10 2 4) [(10, 0x36F3AE1C), (11, 0x30D9E902)]
    && gives (regs [(2, 7), (4, 12), (5, 1)]) (.rngLo c0 10 2 4) [(10, 0xA04F03B3), (11, 0x95412F57)] = true := by decide +kernel
theorem test_rngHi : gives base (.rngHi c0 12 2 4) [(12, 0x90324B21), (13, 0x10801205)]
    && gives (regs [(2, 7), (4, 12), (5, 1)]) (.rngHi c0 12 2 4) [(12, 0x667D14B5), (13, 0x850924C0)] = true := by decide +kernel

-- Block barriers: three threads, barrier 1

def three (w1 w2 : Option Wait) (bar : Barrier) (v : Word := 0) : State :=
  (crowd 3 fun k th => { withRegs [(4, v)] th with wait := if k = 1 then w1 else if k = 2 then w2 else none }).modMyBlk fun b =>
    { b with bars := tset b.bars 1 bar }
/-- The first arrival of a whole-block phase waits; the last releases the others. -/
theorem test_bar :
    runs (three none none default) (.bar c0 248 1) (fun t => t.me.wait = some (.barrier 1) && t.me.pc = 0x40000010
        && tget t.myBlk.bars 1 = ⟨.whole, 0, 1, [0]⟩)
      && runs (three (some (.barrier 1)) (some (.barrier 1)) ⟨.whole, 0, 2, [1, 2]⟩) (.bar c0 248 1) (fun t =>
        t.me.pc = 0x40000018 && t.me.issuable && (t.thr 0 1).pc = 0x40000018 && (t.thr 0 2).issuable && t.myBlk.bars = []) = true := by
  decide +kernel
/-- A register target of 2: the arrival goes on; the second completes the phase. -/
theorem test_barArv :
    runs (three none none default 2) (.barArv c0 4 1) (fun t => t.me.wait = none && t.me.pc = 0x40000018
        && tget t.myBlk.bars 1 = ⟨.register, 2, 1, [0]⟩)
      && runs (three (some (.barrier 1)) none ⟨.register, 2, 1, [1]⟩ 2) (.barArv c0 4 1) (fun t => (t.thr 0 1).pc = 0x40000018
        && t.me.pc = 0x40000018 && t.myBlk.bars = []) = true := by decide +kernel
/-- The bounds of a target, a target that is not the phase's, and a phase of the other kind. -/
theorem test_bar_faults :
    faults (three none none default 0) (.bar c0 4 1) 0x12 1 && faults (three none none default 4) (.barArv c0 4 1) 0x12 1
      && faults (three none none ⟨.register, 2, 1, [1]⟩ 3) (.bar c0 4 1) 0x12 2
      && faults (three none none ⟨.register, 2, 1, [1]⟩ 2) (.bar c0 248 1) 0x12 2
      && faults (three none none ⟨.whole, 0, 1, [1]⟩ 3) (.bar c0 4 1) 0x12 2 = true := by decide +kernel

-- Byte-counting barriers: Example 3 of R195, the barb at shared offset 8

def barb (d : Dword) (v : Word := 0) : State := shmAt 8 d (addr 8 (v.zeroExtend 64))
theorem test_barbInit : runs (barb 0 32) (.barbInit c0 (mo .s) 4) (fun t => t.myBlk.shm.num 8 8 = 0x0000801000000000 && t.me.scnt = 1)
    && runs (barb 0 1024) (.barbInit c0 (mo .s) 4) (fun t => t.me.scnt = 1)
    && faults (barb 0 0) (.barbInit c0 (mo .s) 4) 0x12 3 && faults (barb 0 1025) (.barbInit c0 (mo .s) 4) 0x12 3 = true := by
  decide +kernel
theorem test_barbExpect :
    runs (barb 0x0000801000000000 4096) (.barbExpect c0 (mo .s) 4) (fun t => t.myBlk.shm.num 8 8 = 0x0000801000001000 && t.me.scnt = 1)
      && runs (barb 0x0000801000000000 0) (.barbExpect c0 (mo .s) 4) (fun t => t.myBlk.shm.num 8 8 = 0x0000801000000000)
      && faults (barb 0x0000801000000001 0x7FFFFF) (.barbExpect c0 (mo .s) 4) 0x12 4 = true := by decide +kernel
/-- An arrival, and the one that completes the phase; one too many faults. -/
theorem test_barbArrive :
    runs (barb 0x0000801000001000) (.barbArrive c0 6 (mo .s)) (fun t => t.myBlk.shm.num 8 8 = 0x0000800F80001000
        && t.coh.lands.map (·.regs) = [[(6, 0)]] && t.me.lcnt = 1)
      && runs (barb 0x0000800080000000) (.barbArrive c0 6 (mo .s)) (fun t => t.myBlk.shm.num 8 8 = 0x0000801001000000)
      && faults (barb 0x0000800000001000) (.barbArrive c0 6 (mo .s)) 0x12 5 = true := by decide +kernel
/-- R193: with a store of the thread outstanding the arrival waits. -/
theorem test_barbArrive_waits :
    let s := (barb 0x0000801000001000).modCoh fun h => { h with ops := [{ (default : HomeOp) with kind := .store [1], who := .thread 0 0 }] }
    s.memWait .s none = none ∧ runs s (.barbArrive c0 6 (mo .s)) (fun t => t.me.pc = 0x40000010 && t.me.wait = some .stores) = true := by
  decide +kernel
theorem test_barbWait :
    runs (barb 0x0000801001000000) (.barbWait c0 (mo .s) 4) (fun t => t.me.pc = 0x40000018 && t.me.wait = none)
      && runs (barb 0x0000801000000000) (.barbWait c0 (mo .s) 4) (fun t => t.me.pc = 0x40000010 && t.me.wait = some (.barb 8 false))
      && faults (barb 0x0000801002000000) (.barbWait c0 (mo .s) 4) 0x12 6 = true := by decide +kernel
/-- The flip releases the thread that waits for it and no other. -/
theorem test_barb_release :
    let s := crowd 3 fun k th => { th with wait := if k = 1 then some (.barb 8 false) else if k = 2 then some (.barb 16 false) else none }
    let t := s.barbPut 0 8 (Barb.ofDword 0x0000801001000000) false
    (t.thr 0 1).pc = 0x40000018 ∧ (t.thr 0 1).issuable = true ∧ (t.thr 0 2).wait = some (.barb 16 false) ∧ (t.thr 0 0).pc = 0x40000010 := by
  decide +kernel

-- Exchanges: Example 4 of R199, thread 5 exited with v3 = 105

def furrow (on : Nat → Bool := fun _ => true) : State :=
  crowd 32 fun i th => { withRegs [(3, BitVec.ofNat 32 (100 + i)), (9, BitVec.ofNat 32 ((i + 1) % 32))] th with
    preds := if on i then 3 else 2
    st := if i = 5 then .exited else .waiting, wait := if i = 5 then none else some .exchange }
/-- Thread i's registers after an exchange that its group's first thread issues. -/
def meets (s : State) (i : Instr) (f : State → Bool) : Bool :=
  i.wellFormed && s.me.wait = some .exchange && goes (exec i s) f
def v8 (t : State) (i : Nat) : Nat := (tget (t.thr 0 i).regs 8).toNat
theorem test_fshflIdx : meets (furrow) (.fshflIdx c0 8 3 9 .b32) (fun t => v8 t 0 = 101 && v8 t 4 = 105 && v8 t 31 = 100 && v8 t 5 = 0
    && (t.thr 0 31).pc = 0x40000018 && (t.thr 0 31).issuable) = true := by decide +kernel
/-- A thread that reaches the exchange alone waits there. -/
theorem test_exchange_waits : runs (crowd 32 fun _ th => th) (.fshflIdx c0 8 3 9 .b32) (fun t => t.me.wait = some .exchange
    && t.me.pc = 0x40000010) = true := by decide +kernel
theorem test_fshflUp : meets furrow (.fshflUp c0 8 3 9 .b32) (fun t => v8 t 3 = 103 && v8 t 31 = 131) = true := by decide +kernel
theorem test_fshflDown : meets furrow (.fshflDown c0 8 3 9 .b32) (fun t => v8 t 3 = 107 && v8 t 31 = 131) = true := by decide +kernel
theorem test_fshflXor : meets furrow (.fshflXor c0 8 3 9 .b32) (fun t => v8 t 3 = 107 && v8 t 0 = 101) = true := by decide +kernel
theorem test_qxchIdx : meets furrow (.qxchIdx c0 8 3 9 .b32) (fun t => v8 t 0 = 101 && v8 t 3 = 100 && v8 t 4 = 0) = true := by decide +kernel
theorem test_qxchX : meets furrow (.qxchX c0 8 3 2 .b32) (fun t => v8 t 0 = 102 && v8 t 3 = 101) = true := by decide +kernel
theorem test_qbcst : meets furrow (.qbcst c0 8 3 3 .b32) (fun t => v8 t 0 = 103 && v8 t 3 = 103) = true := by decide +kernel
/-- p0 is true in threads 0-15 only; p1 in every thread. The exited thread is no member. -/
theorem test_fvoteAll : meets (furrow (· < 16)) (.fvoteAll c0 2 0) (fun t => (t.thr 0 0).preds = 3)
    && meets furrow (.fvoteAll c0 2 0) (fun t => (t.thr 0 0).preds = 7) = true := by decide +kernel
theorem test_fvoteAny : meets (furrow (· < 16)) (.fvoteAny c0 2 0) (fun t => (t.thr 0 20).preds = 6) = true := by decide +kernel
theorem test_fvoteUni : meets (furrow (· < 16)) (.fvoteUni c0 2 0) (fun t => (t.thr 0 20).preds = 2)
    && meets (furrow fun _ => false) (.fvoteUni c0 2 0) (fun t => (t.thr 0 20).preds = 6) = true := by decide +kernel
theorem test_fvoteBallot : meets (furrow (· < 16)) (.fvoteBallot c0 8 0) (fun t => v8 t 0 = 0xFFDF && v8 t 5 = 0) = true := by decide +kernel
theorem test_exchange_ready : (furrow).exReady 0 (furrowOf 0) 0x40000010 c0 (usesOf (.fshflIdx c0 8 3 9 .b32)) = true := by decide +kernel

-- Matrix mode (R204-R218)

def gang : Mgang := ⟨true, 0, 1, 2, 3⟩
/-- 128 threads that wait at a crew instruction, in M mode or not, each changed by a function. -/
def crew (mode : Bool) (f : Thread → Thread) : State :=
  (crowd 128 fun _ th => f { th with
    ms := { th.ms with mode := mode, abase := if mode then 64 else 0 }, st := .waiting, wait := some (.crew gang.toWord) }).modMyBlk
      fun b => { b with mgang := gang }
/-- The first thread of that crew at the instruction, before the others. -/
def lone (mode : Bool) (f : Thread → Thread := id) : State :=
  (crowd 128 fun k th => if k = 0 then f { th with ms := { th.ms with mode := mode, abase := if mode then 64 else 0 } } else th).modMyBlk
    fun b => { b with mgang := gang }
/-- The same with the crew's other threads exited. -/
def widow (mode : Bool) : State :=
  (me fun th => { th with ms := { th.ms with mode := mode, abase := if mode then 64 else 0 } }).modMyBlk fun b => { b with mgang := gang }
/-- The hypotheses of an assembled crew, but for those over its threads. -/
theorem test_crew_assembled : gang.toWord = 0x80018820 ∧ gang.threads.Nodup ∧ (crew true id).myBlk.drain = none
    ∧ (crew true id).me.wait = some (.crew gang.toWord) ∧ (lone true).myBlk.inCrew 0 = true := by decide +kernel
theorem test_crew_waits : (gang.threads.all fun k => ((crew true id).thr 0 k).wait = some (.crew gang.toWord)
    && ((crew true id).thr 0 k).pc = 0x40000010) = true := by decide +kernel
theorem test_mmodeM_waits : runs (lone false) (.mmodeM c0 8) (fun t => t.me.ms.mp && t.me.wait = some (.crew 0x80018820)) = true := by
  decide +kernel
/-- R297: with a crew thread exited, an illegal-mode fault with SUB 3. -/
theorem test_crew_exited : faults (widow false) (.mmodeM c0 8) 0x10 3 && faults (widow true) (.mma c0 2 3 40 .bf16) 0x10 3
    && (widow false).myBlk.inCrew 0 && gang.threads.contains 1 && decide (((widow false).thr 0 1).st = .exited) = true := by decide +kernel
theorem test_mmodeM : goes (exec (.mmodeM c0 8) (crew false id)) (fun t => (t.thr 0 127).ms.mode && (t.thr 0 127).ms.crew = 127
    && (t.thr 0 127).ms.abase = 64 && (t.thr 0 127).pc = 0x40000018 && t.me.issuable) = true := by decide +kernel
def aRun : CrewRun := { (default : CrewRun) with ty := .bf16, k := 4 }
theorem test_mmodeV :
    runs (lone true) (.mmodeV c0) (fun t => !t.me.ms.mode && t.me.ms.abase = 0 && t.me.pc = 0x40000018)
      && runs base (.mmodeV c0) (fun t => t.me.pc = 0x40000018)
      && runs ((lone true).modMyBlk fun b => { b with crew := some aRun }) (.mmodeV c0) (fun t => t.me.ms.vp && t.me.wait = some .passes)
      = true := by decide +kernel
/-- R207: in handler mode, a double fault with SUB 1. -/
theorem test_mmodeV_handler : runs inHandler (.mmodeV c0) (fun t => t.me.tframe1 = frameWord 0x10 0x40000010 true
    && t.me.tcause = 0x0200000000000000) = true := by decide +kernel
theorem test_mgang :
    runs (crowd 128 fun _ th => withRegs [(4, 0x80018820)] th) (.mgang c0 4) (fun t => t.myBlk.mgang = gang)
      && runs (lone false) (.mgang c0 4) (fun t => t.myBlk.mgang = ⟨false, 0, 0, 0, 0⟩) = true := by decide +kernel
theorem test_mgang_faults :
    faults (crowd 128 fun _ th => withRegs [(4, 0x80018802)] th) (.mgang c0 4) 2 6
      && faults (regs [(4, 0x80018820)]) (.mgang c0 4) 2 6
      && faults (crowd 128 fun _ th => withRegs [(4, 0x80118820)] th) (.mgang c0 4) 2 6 = true := by decide +kernel
theorem test_mzero : runs (lone true (withRegs [(63, 1), (64, 2), (127, 3), (128, 4)])) (.mzero c0) (fun t =>
    t.me.regs = [(63, 1), (128, 4)] && t.me.pc = 0x40000018) = true := by decide +kernel
/-- BUSY is set while a pass is outstanding; RSM stands in bit 30, DEPTH from bit 16 on. -/
theorem test_mstat : runs ((lone true fun th => { th with mprog := ⟨true, 8, 2⟩ }).modMyBlk fun b => { b with crew := some aRun }) (.mstat c0 6)
    (fun t => t.coh.lands.map (·.regs) = [[(6, 0xC0080002)]] && t.me.lcnt = 1) = true := by decide +kernel
theorem test_mcvt : runs (lone true (withRegs [(64, 0x3F800000), (65, 0xC0000000), (127, 0x40400000)])) (.mcvt c0 8 .f16 .none)
    (fun t => t.me.lcnt = 1 && t.coh.lands.map (fun l => (l.regs.head?, l.regs.getLast?)) = [(some (8, 0xC0003C00), some (39, 0x42000000))])
    = true := by decide +kernel

-- Passes: panels of BF16 of one pass of depth 4, of E4M3 for mmasp and mmad
def panel (fc : Nat) (side sp : Bool) : Handle :=
  ⟨true, BitVec.ofNat 64 fc, [BitVec.ofNat 64 (fc * 256 + 1 + side.toNat * 2 ^ 18 + sp.toNat * 2 ^ 19), 64 * 2 ^ 32, 0,
    if sp then 0xFFFFFFFF else 0], 1⟩
def armed (hs : Tab Handle) (k : Word) : Bool → (Thread → Thread) := fun _ th => { withRegs [(40, k), (12, 0), (13, 0)] th with handles := hs }
theorem test_mma :
    runs (lone true) (.mma c0 2 3 40 .bf16) (fun t => t.me.wait = some (.crew 0x80018820))
      && goes (exec (.mma c0 2 3 40 .bf16) (crew true (armed [(2, panel 0xD false false), (3, panel 0xD true false)] 4 true))) (fun t =>
        (t.thr 0 127).pc = 0x40000018 && t.me.issuable
        && t.myBlk.crew.any fun r => r.kind = .mma && r.k = 4 && r.next = 0 && r.ha.value = 0xD) = true := by decide +kernel
theorem test_mmasp :
    goes (exec (.mmasp c0 2 3 40 .e4m3) (crew true (armed [(2, panel 0xE false true), (3, panel 0xE true false)] 32 true))) (fun t =>
      (t.thr 0 127).pc = 0x40000018 && t.myBlk.crew.any fun r => r.kind = .mmasp && r.k = 32 && r.next = 0)
      && runs (lone true) (.mmasp c0 2 3 40 .e4m3) (fun t => t.me.wait = some (.crew 0x80018820)) = true := by decide +kernel
theorem test_mmad :
    goes (exec (.mmad c0 128 3 .e4m3) (crew true (armed [(3, panel 0xE true false)] 0 true))) (fun t =>
      (t.thr 0 127).pc = 0x40000018 && t.myBlk.crew.any fun r => r.kind = .mmad && r.k = 64 && r.mbase = 128)
      && runs (lone true) (.mmad c0 128 3 .e4m3) (fun t => t.me.wait = some (.crew 0x80018820)) = true := by decide +kernel
/-- R213: resumed at depth K under RSM nothing is left to run, and MPROG is cleared. -/
theorem test_mma_resumed :
    goes (exec (.mma c0 2 3 40 .bf16) (crew true fun th => { armed [(2, panel 0xD false false), (3, panel 0xD true false)] 4 true th with
      mprog := ⟨true, 4, 1⟩ })) (fun t => t.myBlk.crew = none && (t.thr 0 127).mprog = ⟨false, 0, 0⟩) = true := by decide +kernel
/-- A shape: KIND 2, its format, 4 rows of 4 columns at 0x8000, a stride of 256 bytes. -/
def shape (fc : Nat) : Handle := ⟨true, BitVec.ofNat 64 fc, [BitVec.ofNat 64 (fc * 256 + 2), 0x8000, 0x0000000400000004, 256], 0⟩
def drains (i : Instr) (mode : DrainMode) (fc : Nat) : Bool :=
  goes (exec i (crew true (armed [(3, shape fc)] 0 true))) fun t => t.me.wait = some (.crew 0x80018820)
    && t.myBlk.drain.any fun d => d.mode = mode && d.hc.value = BitVec.ofNat 64 fc && d.barb = none && d.sreg = 28
/-- The last hypothesis of an assembled crew (R58, R258), that each of its threads executes the instruction, at three of its
threads, which are all alike. -/
def allExecute (s : State) (i : Instr) : Bool :=
  [0, 63, 127].all fun k => ({ s with cur := (s.cur.1, k) } : State).executes c0 i
theorem test_crew_executes :
    allExecute (crew false id) (.mmodeM c0 8)
      && allExecute (crew true (armed [(2, panel 0xD false false), (3, panel 0xD true false)] 4 true)) (.mma c0 2 3 40 .bf16)
      && allExecute (crew true (armed [(2, panel 0xE false true), (3, panel 0xE true false)] 32 true)) (.mmasp c0 2 3 40 .e4m3)
      && allExecute (crew true (armed [(3, panel 0xE true false)] 0 true)) (.mmad c0 128 3 .e4m3) = true := by decide +kernel
theorem test_drain_executes :
    ([.mdrainSt c0 28 12 248 3 .f32, .mdrainAddf c0 28 12 248 3 .f32, .mdrainAddx c0 28 12 248 3 .f32].all fun i =>
      allExecute (crew true (armed [(3, shape 0xD)] 0 true)) i) = true := by decide +kernel
theorem test_mdrainSt : drains (.mdrainSt c0 28 12 248 3 .f32) .st 0xD && drains (.mdrainSt c0 28 12 248 3 .i32) .st 0 = true := by decide +kernel
theorem test_mdrainAddf : drains (.mdrainAddf c0 28 12 248 3 .f32) .addf 0xA = true := by decide +kernel
theorem test_mdrainAddx : drains (.mdrainAddx c0 28 12 248 3 .f32) .addx 0x42
    && runs (lone true) (.mdrainAddx c0 28 12 248 3 .f32) (fun t => t.me.wait = some (.crew 0x80018820)) = true := by decide +kernel

-- Handles: the records of R221 to R226
def records (ds : List Dword) : State := (addr 0x8000).writeDws 0 0x8000 ds
/-- A panel record is sealed with status 0; KIND 3 is status 7; a poisoned byte 13. -/
theorem test_seal :
    runs (records (panel 0xD false false).record) (.seal c0 1 2 8) (fun t => t.me.lcnt = 1 && !(tget t.me.handles 1).valid
        && t.coh.lands.map (fun l => (l.regs, l.handle.map (·.2.record), l.sealH)) = [([(8, 11)], none, some 1)])
      && runs (records (shape 0xA).record) (.seal c0 1 2 8) (fun t =>
        t.coh.lands.map (fun l => (l.regs, l.handle.map (·.2.record))) = [([(8, 0)], some (shape 0xA).record)])
      && runs (records [3]) (.seal c0 1 2 8) (fun t => t.coh.lands.map (·.regs) = [[(8, 7)]])
      && runs { (records [3]) with bad := [(0x8005, true)] } (.seal c0 1 2 8) (fun t => t.coh.lands.map (·.regs) = [[(8, 13)]]) = true := by
  decide +kernel
theorem test_hquery :
    let s := me fun th => { th with handles := [(1, panel 0xD true false), (2, shape 0xA), (3, { shape 0xA with valid := false })] }
    let q (h : HandleF) (v : Word) : Bool := runs s (.hquery c0 6 h) fun t => t.coh.lands.map (·.regs) = [[(6, v)]] && t.me.lcnt = 1
    q 1 0x80040D01 && q 2 0x80000A02 && q 3 0 = true := by decide +kernel
theorem test_hdrop :
    runs (me fun th => { th with handles := [(2, shape 0xA)] }) (.hdrop c0 2) (fun t => !(tget t.me.handles 2).valid && t.me.pc = 0x40000018)
      && runs { base with coh := { base.coh with lands := [{ (default : Land) with sealH := some 2 }] } } (.hdrop c0 2)
        (fun t => t.me.wait = some (.sealEnd 2)) = true := by decide +kernel

-- Engine commands: the group in v16 to v23
def engine (g : List Word) (h : Handle := default) : State :=
  me fun th => { withRegs ((List.range 8).zip g |>.map fun p => (16 + p.1, p.2)) th with handles := tset [] 1 h }
/-- The command is forked, ECNT rises. -/
def forks (s : State) (i : Instr) (k : EngKind) : Bool :=
  runs s i fun t => t.me.ecnt = 1 && t.me.pc = 0x40000018 && t.cmds.map (fun c => (c.kind, c.tids, c.done)) = [(k, [0], [])]
/-- copy: 256 bytes from 0x8000 of .g to 0 of .s, one row; a length of 3 is out of range, and so is a barb at 4. -/
def copyG (len : Word) : List Word := [0, 0, 0x8000, 0, len, 1, 0, 0]
theorem test_copy : forks (engine (copyG 256)) (.copy c0 24 16 248 false true) .copy
    && faults (engine (copyG 0)) (.copy c0 24 16 248 false true) 2 6
    && faults ((engine (copyG 256)).modMe (withRegs [(8, 4)])) (.copy c0 24 16 8 false true) 2 6 = true := by decide +kernel
/-- gath: two rows by the index list at 0 of .s; a shape without a valid tag, one of another KIND. -/
def rowsG : List Word := [0, 1024, 2, 0, 0, 0, 0, 0]
theorem test_gath : forks (engine rowsG (shape 0xA)) (.gath c0 24 16 248 1) .gath
    && faults (engine rowsG) (.gath c0 24 16 248 1) 0x11 0 && faults (engine rowsG (panel 0xD true false)) (.gath c0 24 16 248 1) 2 5
    && faults (engine [0, 1024, 0xFFFFF, 0, 0, 0, 0, 0] (shape 0xA)) (.gath c0 24 16 248 1) 2 6 = true := by decide +kernel
theorem test_scat : forks (engine rowsG (shape 0xA)) (.scat c0 24 16 248 1) .scat
    && faults (engine rowsG) (.scat c0 24 16 248 1) 0x11 0 && faults (engine rowsG (shape 0xD)) (.scat c0 24 16 248 1) 2 5
    && faults (engine [0, 1024, 0xFFFFF, 0, 0, 0, 0, 0] (shape 0xA)) (.scat c0 24 16 248 1) 2 6 = true := by decide +kernel

/-- sample: row 0 of a vocabulary of 4, inverse temperature 1; a row that does not exist, BF16 in a gath's KIND. -/
def sampleG (row : Word) : List Word := [row, 4, 0x3F800000, 0, 0, 0, 0, 0]
theorem test_sample : forks (engine (sampleG 0) (shape 0xD)) (.sample c0 24 16 8 1) .sample
    && (engine (sampleG 0)).sampleFull = false && faults (engine (sampleG 4) (shape 0xA)) (.sample c0 24 16 8 1) 2 6
    && faults (engine (sampleG 0) (shape 0x42)) (.sample c0 24 16 8 1) 2 5
    && faults (engine (sampleG 0)) (.sample c0 24 16 8 1) 0x11 0 = true := by decide +kernel
/-- gauge: two pages from 0x10000, the tree at 0x30000; a base that is no multiple of 64 KiB. -/
theorem test_gauge : forks (engine [0x10000, 0, 2, 0, 0x30000, 0, 0, 0]) (.gauge c0 24 16) .gauge
    && faults (engine [0x11000, 0, 2, 0, 0x30000, 0, 0, 0]) (.gauge c0 24 16) 2 6 = true := by decide +kernel

-- Launch and queues (R235-R241)

/-- Partition 0 over terrace 0 of die 0, each of its eight cores served. -/
def served (s : State) : State :=
  s.modPkg 0 fun q =>
    { q with
      parts := tset q.parts 0 { tget q.parts 0 with record := [3, 0, 0, 0, 2] }
      remap := (List.range 8).map fun c => (c, 0x80000000#32 + BitVec.ofNat 32 c) }
/-- A grid of n blocks of 32 threads: shared memory 4,096, local 256, one furrow of 248 registers from slot 2. -/
def gridRec (n : Nat) : List Dword :=
  [0x0000000100000000#64 + BitVec.ofNat 64 n, 0x0000100000000001, 0x0111000000400820, 0x40000000, 0, 0x0000004000000100, 0, 0,
    0x000000020001F800, 0, 0, 0, 0, 0, 0, 0]
/-- The context's descriptor at 0x6000, its queue table at 0x7000: queue 0 with a ring of 16 entries at 0x9000, at
priority 3; dword 5 as given, reports at 0xA000. -/
def described (d5 : Dword) (s : State) : State :=
  (((s.modCtx 0 0 fun c => { c with desc := 0x6000 }).writeDws 0 0x6010 [0x7001, 0, 0, d5]).writeDws 0 0x7000 [0x9000, 0, 0x4B00])
/-- The record at 0x8000, named by the pair v2:v3. -/
def recorded (r : List Dword) : State := described 0 ((served (addr 0x8000)).writeDws 0 0x8000 r)
def landed (t : State) (ws : List (Nat × Word)) : Bool := t.me.ecnt = 1 && t.me.pc = 0x40000018 && t.coh.lands.map (·.regs) = [ws]
theorem test_launch :
    runs (recorded (gridRec 4)) (.launch c0 6 2 3) (fun t => landed t [(6, 1), (7, 0)] && t.myBlk.kids = [1]
        && (t.pkg 0).grids.map (fun g => (g.id, g.prio, g.parent)) = [(1, 3, some 0)]
        && (t.pkg 0).grids.map (fun g => (g.todo, g.total, g.record)) = [([(0, 4)], 4, gridRec 4)])
      && runs (recorded ((gridRec 4).set 6 1)) (.launch c0 6 2 3) (fun t => landed t [(6, 0), (7, 1)] && (t.pkg 0).grids = [])
      = true := by decide +kernel
theorem test_launchPod :
    let s := described 1 (recorded (gridRec 4))
    runs s (.launchPod c0 6 2 3) (fun t => t.coh.lands = [] && t.me.ecnt = 1
        && (tget t.heads 0).main.inbox = [⟨0, 0, 0, 6, 3, gridRec 4, .launch⟩] && (tget t.heads 0).mirror = (tget t.heads 0).main)
      && runs (recorded (gridRec 4)) (.launchPod c0 6 2 3) (fun t => landed t [(6, 0), (7, 10)]) = true := by decide +kernel
theorem test_qpost :
    runs (recorded (gridRec 4)) (.qpost c0 6 2 248) (fun t => landed t [(6, 0)] && t.queueTail 0 0 0 = 1
        && t.coh.ops.map (fun o => (o.key, o.who, o.kind)) = (gridRec 4).mapIdx (fun k d => (0x9000 + 8 * k, .agent, .posted (leBytes 8 d.toNat)))
          ++ [(0x700C, .agent, .posted [1, 0, 0, 0])]
        && (t.pkg 0).grids.map (fun g => (g.queue, g.parent, g.total)) = [(some (0, 0), none, 4)])
      && runs ((recorded (gridRec 4)).modMe (withRegs [(9, 1)])) (.qpost c0 6 2 9) (fun t => landed t [(6, 9)])
      && faults ((recorded (gridRec 4)).modMe (withRegs [(9, 64)])) (.qpost c0 6 2 9) 2 6 = true := by decide +kernel

/-- A grid of the context in a state, with two blocks finished, one killed and one fault, of eight. -/
def grid (st : GState) (id : Nat := 3) : Grid :=
  { (default : Grid) with
    id := id, acc := 5, checked := true, record := gridRec 8, state := st, todo := [(4, 8)], placed := 4, total := 8, fin := 2, kld := 1
    faults := 1, nst := 4 }
def oneGrid (g : Grid) (s : State) : State := s.modPkg 0 fun q => { q with grids := [g] }
/-- One thread of two waits for the other; the last to arrive frees both, with F set for a child that faulted. -/
theorem test_lwait :
    let s := oneGrid (grid .complete) ((crowd 2 fun k th => if k = 1 then { th with wait := some (.lwait 9), st := .waiting, ecnt := 1 } else th).modMyBlk
      fun b => { b with kids := [5] })
    runs (crowd 2 fun _ th => th) (.lwait c0 6) (fun t => t.me.wait = some (.lwait 6) && t.me.ecnt = 1 && t.me.pc = 0x40000010)
      && runs s (.lwait c0 6) (fun t => tget t.me.regs 6 = 0x80000001 && tget (t.thr 0 1).regs 9 = 0x80000001
        && t.me.pc = 0x40000018 && (t.thr 0 1).pc = 0x40000018 && (t.thr 0 1).ecnt = 0 && t.me.issuable && (t.thr 0 1).issuable
        && t.myBlk.kids = []) = true := by decide +kernel
theorem test_lwait_mode : faults (me fun th => { th with ms := { th.ms with mode := true } }) (.lwait c0 6) 0x10 1 = true := by decide +kernel

def asked (id : Word) (g : Grid) : State := oneGrid g (regs [(8, id)])
/-- A pod grid with sequence 7 of the context, in its headgate. -/
def podGrid : PodGrid :=
  { (default : PodGrid) with id := 2 ^ 31 + 7, seq := 7, record := gridRec 8, total := 8, next := 4, fin := 2, kld := 1, faults := 1 }
def headed (g : PodGrid) (s : State) : State :=
  let h : HeadState := ⟨7, [g], []⟩
  { s with heads := [(0, { (default : Head) with main := h, mirror := h, pkgs := [0] })] }
def cancels (i : Instr) (kill : Bool) : Bool :=
  runs (asked 4 (grid .dealing)) i (fun t => landed t [(6, 1)]) && runs (asked 3 (grid .complete)) i (fun t => landed t [(6, 2)])
    && runs (asked 3 (grid .cancelling)) i (fun t => landed t [(6, 3)])
    && runs (asked 3 (grid .dealing)) i (fun t => landed t [(6, 0)]
      && (t.pkg 0).dealingEnds.grids.map (fun g => (g.state, g.kill, g.todo)) = [(.cancelling, kill, [])])
    && runs (headed podGrid (regs [(8, 0x80000007)])) i (fun t => landed t [(6, 0)]
      && (tget t.heads 0).main.grids.map (fun g => (g.cancel, g.kill)) = [(true, kill)])
    && runs (headed { podGrid with cancel := true } (regs [(8, 0x80000007)])) i (fun t => landed t [(6, 3)])
    && runs (headed { podGrid with complete := true } (regs [(8, 0x80000007)])) i (fun t => landed t [(6, 2)])
    && runs (headed podGrid (regs [(8, 0x80000008)])) i (fun t => landed t [(6, 1)])
theorem test_lcancel : cancels (.lcancel c0 6 8) false = true := by decide +kernel
/-- Killing its own grid, a thread stops. -/
theorem test_lcancelKill : cancels (.lcancelKill c0 6 8) true
    && runs ((asked 3 (grid .dealt)).modMyBlk fun b => { b with grid := 3 }) (.lcancelKill c0 6 8) (fun t =>
      t.me.st = .exited && t.me.ecnt = 1 && t.coh.lands.map (·.regs) = [[(6, 0)]]) = true := by decide +kernel
def stat (a b c d : Word) : List (Nat × Word) := [(16, a), (17, 0), (18, b), (19, 0), (20, c), (21, 0), (22, d), (23, 0)]
theorem test_lstat :
    runs (asked 3 (grid .dealing)) (.lstat c0 16 8) (fun t => landed t (stat 0x00000001 2 1 4))
      && runs (asked 4 (grid .dealing)) (.lstat c0 16 8) (fun t => landed t (stat 0x50000000 0 0 0))
      && runs (headed podGrid (regs [(8, 0x80000007)])) (.lstat c0 16 8) (fun t => landed t (stat 0x00000001 2 1 4))
      && runs (headed podGrid (regs [(8, 0x80000008)])) (.lstat c0 16 8) (fun t => landed t (stat 0x50000000 0 0 0)) = true := by
  decide +kernel

-- Events of cores and homes

/-- Between instructions, ten cycles on; an event takes place and leaves a state with a property. -/
def idle (s : State) : State := { s with issue := [], cycle := 10 }
def after (i : Instr) (s : State) (f : State → Bool) : Bool := goes (exec i (idle s)) f
/-- Of three threads two stand at one pc and become a warp of the turn; a thread that waits is in none, and one whose wait is over
is. -/
def fourThreads (w : Wait := .lwait 9) : State := crowd 4 fun k th => if k = 3 then { th with wait := some w, st := .waiting } else
  { th with pc := if k = 1 then 0x40000020 else th.pc }
theorem test_warpForm : after (.warpForm 0 0) fourThreads (fun t =>
    t.issue.map (fun w => (w.part, w.start, w.lanes)) = [(0, 10, [(0, 0, 0), (0, 2, 2)])] && t.issue.all (·.pc = 0x40000010))
    && after (.warpForm 0 0) (fourThreads .passes) (fun t => t.issue.map (·.lanes) = [[(0, 0, 0), (0, 2, 2), (0, 3, 3)]]) = true := by decide +kernel
theorem test_warpForm_stopped :
    after (.warpForm 0 0) ((fourThreads).modCore 0 0 fun k => { k with sliced := true }) (fun t => t.issue = [])
      && after (.warpForm 0 0) ((fourThreads).modPkg 0 fun q => { q with power := { q.power with duty := 9 } }) (fun t => t.issue = [])
      && after (.warpForm 0 0) ((fourThreads).modPkg 0 fun q => { q with power := { q.power with duty := 10 } }) (fun t => t.issue ≠ [])
      = true := by decide +kernel
theorem test_warpForm_premises : let u := (idle fourThreads).looked 0 0
    (u.candidates 0 0 0).length = 2 ∧ tget ((idle fourThreads).core 0 0).pickBusy 0 ≤ (idle fourThreads).cycle
      ∧ (u.choices 0 0).map (·.1) = [0] ∧ (idle fourThreads).blocksOk = true := by decide +kernel

/-- A standing warp of a taken branch dissolves where a loose thread stood at its target in the branch's last cycle, and stands
where one came there later (R254, R255). -/
def standing (since : Nat) : State :=
  (idle (crowd 2 fun k th => { th with readySince := if k = 1 then since else 5 })).modCore 0 0 fun k =>
    { k with warps := [⟨0, 0, [(0, 0, 0)], 5, true⟩] }
theorem test_merge : ((standing 5).mergeWarps 0 0).cores = [] ∧ (((standing 6).mergeWarps 0 0).core 0 0).warps = [⟨0, 0, [(0, 0, 0)], 5, false⟩] := by
  decide +kernel

/-- A result lands; one for a thread that has exited lowers its count and writes nothing. -/
def landing (l : Land) (f : Thread → Thread := id) : State :=
  (me fun th => f { th with lcnt := 2, ecnt := 2, scnt := 2, hold := 1 }).modCoh fun h => { h with lands := [l] }
theorem test_loadWriteback :
    let l : Land := { (default : Land) with regs := [(6, 5)], flags := 3, clrRes := true, unhold := true }
    after (.loadWriteback 0) (landing l) (fun t => tget (t.thr 0 0).regs 6 = 5 && (t.thr 0 0).lcnt = 1 && (t.thr 0 0).ecnt = 2
        && (t.thr 0 0).fpcsr.flags = 3 && !(t.thr 0 0).ms.res && (t.thr 0 0).hold = 0 && t.coh.lands = [])
      && after (.loadWriteback 0) (landing { l with ecnt := true, marked := true }) (fun t => (t.thr 0 0).ecnt = 1
        && (t.thr 0 0).lcnt = 2 && tget (t.thr 0 0).marks 6)
      && after (.loadWriteback 0) (landing l fun th => { th with st := .exited }) (fun t => (t.thr 0 0).regs = [] && (t.thr 0 0).lcnt = 1
        && (t.thr 0 0).fpcsr.flags = 0)
      && after (.loadWriteback 0) (landing { l with ecnt := true } fun th => { th with st := .exited }) (fun t => tget (t.thr 0 0).regs 6 = 5
        && (t.thr 0 0).ecnt = 1) = true := by decide +kernel
theorem test_storePerformed : after (.storePerformed 0) ((landing default).modCoh fun h => { h with acks := [⟨0, 0, [], none⟩] })
    (fun t => (t.thr 0 0).scnt = 1 && t.coh.acks = []) = true := by decide +kernel
/-- A store of 4 bytes, and an add of 2 that returns, at 0x8004 from the executing thread; a lease until 1,000 ns. -/
def op (k : OpKind) : HomeOp := { (default : HomeOp) with key := 0x8004, kind := k, who := .thread 0 0, dst := [6] }
def waiting (k : OpKind) : State := (base.write64 0 0x8000 0x1122334455667788).modCoh fun h => { h with ops := [op k] }
def copied : List (Byte × Bool) := List.replicate 32 (9, false)
theorem test_homeWriteApply :
    after (.homeWriteApply 0) ((waiting (.store [1, 2, 3, 4])).modCoh fun h => { h with copies := [⟨0, 1, 0x400, copied, 5, []⟩] })
      (fun t => t.read64 0 0x8000 = 0x0403020155667788 && t.coh.ops = [] && t.coh.acks.length = 1
        && t.coh.pushes.map (fun u => (u.dst, u.sector, u.bytes.take 8 |>.map (·.1))) = [(1, 0x400, [0x88, 0x77, 0x66, 0x55, 1, 2, 3, 4])])
      && after (.homeWriteApply 0) (waiting (.atom .add false 2 0 true)) (fun t => t.read64 0 0x8000 = 0x1122334655667788
        && t.coh.acks = [] && t.coh.lands.map (·.regs) = [[(6, 0x11223344)]])
      && after (.homeWriteApply 0) (waiting (.atom .add false 2 0 false)) (fun t => t.coh.lands = [] && t.coh.acks.length = 1)
      && after (.homeWriteApply 0) ((waiting (.store [1, 2, 3, 4])).modCoh fun h => { h with lx := [(0x400, 1000)] }) (fun t =>
        t.coh.ops.length = 1 && t.read64 0 0x8000 = 0x1122334455667788) = true := by decide +kernel
theorem test_homeWriteApply_premises : (idle (waiting (.store [1, 2, 3, 4]))).canApply 0 (op (.store [1, 2, 3, 4])) = true
    ∧ (idle (waiting .xclr)).physKey 0 ((idle (waiting .xclr)).paOf 0 0x8004) = 0x8004
    ∧ (idle (waiting .xclr)).cutOff 0 0x8004 = false := by decide +kernel
theorem test_pushApply : after (.pushApply 0) (base.modCoh fun h =>
    { h with copies := [⟨0, 1, 0x400, copied, 5, []⟩, ⟨0, 2, 0x400, copied, 5, []⟩]
             pushes := [⟨0, 0, 1, 1, [1, 0, 0, 0], 0x400, List.replicate 32 (7, false), [], copied, [], .host⟩] })
    (fun t => t.coh.pushes = [] && t.coh.copies.map (fun c => (c.die, c.bytes.head?)) = [(1, some (7, false)), (2, some (9, false))])
    = true := by decide +kernel
def entry (exp : BitVec 16) : L1Entry := { (default : L1Entry) with exp := exp, vtag := 33, page := 0x1000 }
theorem test_l1Rebase :
    after (.l1Rebase 0 0) ((base.modPkg 0 fun q => { q with goff := 2 ^ 20 }).modCore 0 0 fun k => { k with l1 := [entry 0x7FFF, entry 0x8001] })
      (fun t => (t.core 0 0).lbase = 2 ^ 20 && (t.core 0 0).l1.map (·.exp) = [1])
      && after (.l1Rebase 0 0) base (fun t => (t.core 0 0).lbase = 0) = true := by decide +kernel
theorem test_timeViewLost : after (.timeViewLost 0 0) (base.modCore 0 0 fun k => { k with l1 := [entry 1] })
    (fun t => (t.core 0 0).l1 = [] && (t.core 0 0).viewLost) = true := by decide +kernel
/-- A pool device at 2^40. -/
def pooled (s : State) : State := s.modPkg 0 fun q => { q with ranges := [⟨2 ^ 40, 2 ^ 40 + 0xFFFF, 3, 0⟩] }
theorem test_hostSnoop : after (.hostSnoop 0 (2 ^ 40 + 130) [1, 2]) (pooled base) (fun t =>
    t.coh.ops.map (fun o => (o.key, o.kind)) = [((8192 + 3) * 2 ^ 52 + 128, .snoop 2 [1, 2])])
    && isXt (2 ^ 40 + 130) && (pooled base).inMap 0 (2 ^ 40 + 130) = true := by decide +kernel

-- The outer-product grid

/-- A pass over BF16 panels that share their rows; 2.0 stands at depth 0 of row 0. -/
def run0 (granted : List Granted) : CrewRun :=
  { (default : CrewRun) with
    kind := .mma, ty := .bf16, k := 8, ha := panel 0xD false false, hb := panel 0xD true false, granted := granted
    next := 4 * granted.length }
def rows2 (bad : Tab Bool := []) : Bytes := ⟨[(1, 0x40)], bad⟩
def running (granted : List Nat) (bad : Tab Bool := []) : State :=
  (crew true fun th => { th with st := .waiting, wait := none }).modMyBlk fun b =>
    { b with crew := some (run0 (granted.map fun c => ⟨0, c, rows2 bad, false⟩)), shm := rows2 bad }
theorem test_gridGrant :
    after (.gridGrant 0 0) (running []) (fun t => (t.core 0 0).lastCrew = some 0 && (t.core 0 0).gridFree = 11
        && (t.blk 0).crew.map (fun r => (r.granted, r.next)) = some ([⟨0, 10, rows2, false⟩], 4)) = true := by decide +kernel
theorem test_gridGrant_premises :
    let s := idle (running [])
    ((s.gridEntries 0 0).map (·.1) = [0]) ∧ s.gridEmpty 0 0 = true ∧ (s.core 0 0).gridFree ≤ s.cycle
      ∧ s.cycle % 64 ≤ (s.pkg 0).power.gduty := by decide +kernel
/-- R211, R289: after the end of the 7th cycle after its grant the pass adds 2.0 times 2.0 to element 0 of crew thread 0, and PASS moves on; a
cycle earlier nothing happens; a poisoned byte stops the crew with RSM set. -/
theorem test_passCommit :
    after (.passCommit 0) (running [2]) (fun t => tget (t.thr 0 0).regs 64 = 0x40800000 && (t.thr 0 0).mprog = ⟨false, 4, 1⟩
        && (t.blk 0).crew.map (·.granted) = some [])
      && after (.passCommit 0) (running [3]) (fun t => (t.thr 0 0).mprog = ⟨false, 0, 0⟩ && (t.thr 0 0).regs = [])
      && after (.passCommit 0) (running [2] [(66, true)]) (fun t => (t.thr 0 0).mprog.rsm && (t.blk 0).crew = none
        && (t.thr 0 0).panelStop = some 66) = true := by decide +kernel
theorem test_passCommit_premises : lowestBad ((running [2]).myBlk.passRows (run0 []) 0 rows2) = none
    ∧ lowestBad ((running [2]).myBlk.passRows (run0 []) 0 (rows2 [(66, true)])) = some 66 := by decide +kernel
/-- R289: a pass has read its panels before the second cycle after its grant, and not before. -/
theorem test_pass_reads : ((run0 [⟨0, 8, rows2, false⟩]).reads 0 10 ⟨[(1, 0x41)], []⟩).granted.map (·.read) = [true]
    ∧ ((run0 [⟨0, 9, rows2, false⟩]).reads 0 10 ⟨[(1, 0x41)], []⟩).granted = [⟨0, 9, rows2, false⟩]
    ∧ ((run0 [⟨0, 2, rows2, false⟩]).reads 0 10 rows2).granted = [⟨0, 2, rows2, true⟩] := by decide +kernel
/-- R218: 16 cycles after the capture began the tile is in a new command, its crew gone on. -/
def capturing (since : Nat) : State := { (crew true fun th => withRegs [(64, 0x40400000)] th) with cycle := 20 }.modMyBlk fun b =>
  { b with drain := some { (default : DrainReq) with acc := .f32, hc := shape 0xA, sreg := 28, startCap := some since } }
theorem test_drainCapture :
    (match exec (.drainCapture 0) (capturing 4) with
      | .next t => t.cmds.map (fun k => (k.kind, k.tids.length, k.sreg)) = [(.drain, 128, 28)] && (t.blk 0).drain = none
        && (t.thr 0 127).ecnt = 1 && (t.thr 0 127).pc = 0x40000018 && (t.thr 0 127).issuable
      | _ => false) = true ∧ (({ (default : DrainReq) with acc := .f32, hc := shape 0xA }).capture ((capturing 4).myBlk.accAt false 0 0)).1 = 0x40400000 := by
  decide +kernel

-- Events of the engines (R228-R234, R302-R308)

/-- A command 0 of block 0 thread 0, its result to v24, with one more command counted in ECNT. -/
def cmd0 (k : EngKind) (g : List Word) (h : Handle := default) : EngCmd :=
  { (default : EngCmd) with kind := k, tids := [0], sreg := 24, group := g, handle := h }
def commanded (k : EngCmd) : State :=
  let s := (me fun th => { th with ecnt := 2 }).modMyBlk fun b => { b with shm := b.shm.write 0 (clean (leBytes 8 0x1122334455667788)) }
  idle { (s.write64 0 0x8000 0xAABBCCDD00000000).write64 0 0x8100 0x99 with cmds := [k] }
/-- The hypotheses of a granule: its turn, no peer, pages resident, what it writes free to be written and not barred. -/
def ready (s : State) (k : EngCmd) (g : Nat) : Bool :=
  let z := s.startGrans k (k.toStart g)
  let o := z.1.engCheck k (z.1.granPieces k g)
  s.cmd? k.id = some k && k.mayRun g && k.waits = [] && (k.toStart g).all (fun h => !s.granRemote k h) && k.flown = [] && s.granRemote k g = false && z.2
    && match o.2 with
      | .ok xs =>
        let x := o.1.noteCells k (writes xs)
        x.allWritable k g xs && xs.all fun e => x.barred e.2.pkg k.ctx e.2.pa e.1.wr = false
      | _ => false
def delivers (s : State) (g code : Nat) (i : Instr) (f : State → Bool) : Bool :=
  s.cmds.all (fun k => ready s k g) && goes (exec i s) fun t => f t && t.cmds.map (fun k => (k.done, k.code)) = [([g], code)]
/-- One granule of each of copy's four directions, 16 bytes; the last reads a poisoned byte of .g, code 4. -/
def copy16 (dst src : Word) (srcS dstS : Bool) : State :=
  commanded { cmd0 .copy [dst, 0, src, 0, 16, 1, 0, 0] with srcS := srcS, dstS := dstS }
def shm8 (t : State) (a : Nat) : Nat := (t.blk 0).shm.num a 8
theorem test_copyGranule :
    delivers (copy16 32 0x8000 false true) 0 0 (.copyGranule 0 0) (fun t => shm8 t 32 = 0xAABBCCDD00000000)
      && delivers (copy16 32 0 true true) 0 0 (.copyGranule 0 0) (fun t => shm8 t 32 = 0x1122334455667788)
      && delivers (copy16 0x9000 0 true false) 0 0 (.copyGranule 0 0) (fun t => t.read64 0 0x9000 = 0x1122334455667788)
      && delivers { paged (copy16 0x80000000 0x8000 false false) with bad := [(0x8001, true)] } 0 4 (.copyGranule 0 0) (fun t =>
        t.read64 0 0x90000 = 0xAABBCCDD00000000 && t.byteAt 0x90001 = (0, true)) = true := by decide +kernel
/-- Rows of FP32 at 0x8000, 256 bytes apart, four columns; the indexes 1 and 9 stand at 1024 of .s, values at 0. -/
def rowed (k : EngKind) (f : Block → Block := id) : State :=
  (commanded (cmd0 k [0, 1024, 2, 0, 0, 0, 0, 0] (shape 0xA))).modBlk 0 fun b =>
    f { b with shm := (b.shm.write 1024 (clean (leBytes 8 0x0000000900000001))).write 0 (clean (leBytes 8 0x400000003F800000)) }
theorem test_gathPosition :
    delivers (rowed .gath) 0 0 (.gathPosition 0 0) (fun t => shm8 t 0 = 0x99)
      && delivers (rowed .gath) 1 5 (.gathPosition 0 1) (fun t => shm8 t 16 = 0 && shm8 t 0 = 0x400000003F800000) = true := by decide +kernel
/-- 1.0 and 2.0 are added to 1.0 and 1.0 in row 1; an index out of range is code 5; a position already summed. -/
def scatS : State := (rowed .scat).write64 0 0x8100 0x3F8000003F800000
theorem test_scatPosition :
    delivers scatS 0 0 (.scatPosition 0 0) (fun t => t.read64 0 0x8100 = 0x4040000040000000 && t.read64 0 0x8000 = 0xAABBCCDD00000000)
      && delivers scatS 1 5 (.scatPosition 0 1) (fun t => t.read64 0 0x8100 = 0x3F8000003F800000)
      && delivers (scatS.modCmd 0 fun k => { k with cover := [0] }) 0 0 (.scatPosition 0 0) (fun t =>
        t.read64 0 0x8100 = 0x3F8000003F800000) && !scatS.scatBad (cmd0 .scat [0, 1024, 2, 0, 0, 0, 0, 0] (shape 0xA)) 0 = true := by
  decide +kernel
theorem test_drainGranule :
    delivers (commanded { cmd0 .drain [2, 0, 0, 0, 0, 0, 0, 0] (shape 0xA) with acc := .f32, tile := [(0, 0x3F800000), (1, 0x40000000)] })
      0 0 (.drainGranule 0 0) (fun t => t.read64 0 0x8200 = 0x400000003F800000)
      && delivers ((commanded { cmd0 .drain [1, 0, 0, 0, 0, 0, 0, 0] (shape 0xA) with
          acc := .f32, mode := .addf, tile := [(0, 0x3F800000), (1, 0x40000000)], tileBad := [(1, true)] }).write64 0 0x8100 0x3F8000003F800000)
        0 4 (.drainGranule 0 0) (fun t => t.read64 0 0x8100 = 0x4040000040000000 && t.byteAt 0x8103 = (0x40, false)
          && t.byteAt 0x8104 = (0, true)) = true := by decide +kernel
/-- The row 0, 0, 1.0, 0 (BF16) at inverse temperature 0 gives token 2; a poisoned logit code 4. -/
def sampling : State :=
  (commanded (cmd0 .sample [0, 4, 0, 0, 0, 0, 0, 0] (shape 0xD))).write64 0 0x8000 0x00003F8000000000
theorem test_sampleComplete :
    goes (exec (.sampleComplete 0) sampling) (fun t => tget (t.thr 0 0).regs 24 = 2 && tget (t.thr 0 0).regs 25 = 0
        && (t.thr 0 0).ecnt = 1 && t.cmds = [])
      && goes (exec (.sampleComplete 0) { sampling with bad := [(0x8001, true)] }) (fun t => tget (t.thr 0 0).regs 24 = 0xFFFFFFFF
        && tget (t.thr 0 0).regs 25 = 4) = true := by decide +kernel
theorem test_sample_premises :
    (sampleRow .bf16 (elemsOf 2 (leBytes 8 0x00003F8000000000)) [0, 4, 0, 0, 0, 0, 0, 0] 0) = (2, 0)
      ∧ ((sampling.samplesOn 0 0).take 2).map (·.id) = [0]
      ∧ (match (sampling.logitBytes (cmd0 .sample [0, 4, 0, 0, 0, 0, 0, 0] (shape 0xD)) (pieces 0x8000 8 true false)).2 with
        | (.ok _, bs) => bs = leBytes 8 0x00003F8000000000 | _ => false) = true := by decide +kernel
/-- A gauge of one page whose mark is clear rehashes nothing; the slot at the tree's base receives 0. -/
def gauging : State :=
  let s := (paged (commanded (cmd0 .gauge [0x80000000, 0, 1, 0, 0x9000, 0, 0, 0]))).write64 0 0x9000 7
  s.modCtx 0 0 fun c => { c with clean := [(0x8000, 1)] }
theorem test_gaugeComplete : goes (exec (.gaugeComplete 0) gauging) (fun t => t.cmds.map (·.result) = [some (0, 0)]
    && t.read64 0 0x9000 = 0) = true := by decide +kernel
theorem test_gauge_premises : gauging.pageMarked 0 0 0x80000000 = false ∧ gauging.mayWrite 0 0 0 0x9000 32 = true
    ∧ (match (gauging.nodeXls (cmd0 .gauge [0x80000000, 0, 1, 0, 0x9000, 0, 0, 0]) 0x9000 [0]).2 with
      | .ok xs => xs.map (·.1.va) = [0x9000] | _ => false) = true := by decide +kernel
/-- The word: 1 granule delivered, code 0; with code 2 the grid has one fault more. -/
theorem test_engineStatusWrite :
    let k : EngCmd := { cmd0 .copy [0x9000, 0, 0, 0, 16, 1, 0, 0] with srcS := true, done := [0] }
    goes (exec (.engineStatusWrite 0) (commanded k)) (fun t => tget (t.thr 0 0).regs 24 = 0x100 && (t.thr 0 0).ecnt = 1 && t.cmds = [])
      && goes (exec (.engineStatusWrite 0) ((oneGrid (grid .dealt) (commanded { k with done := [], code := 2, stop := true })).modBlk 0
        fun b => { b with grid := 3 })) (fun t => tget (t.thr 0 0).regs 24 = 2 && (t.pkg 0).grids.map (·.faults) = [2]) = true := by
  decide +kernel
/-- R194, R195: bytes delivered leave PEND of the barb at 8. -/
theorem test_barbSub :
    let s := bl fun b => { b with shm := b.shm.write 8 (clean (leBytes 8 0)) }
    let v := ({ ((s.blk 0).barbAt 8) with pend := 96, arr := 1 } : Barb)
    ((s.barbPut 0 8 v false).barbSub 0 8 32 |>.blk 0).barbAt 8 = { v with pend := 64 } := by decide +kernel
-- Events of waits, of the host and of the scheduler

def next (i : Instr) (s : State) : State := match exec i s with | .next t => t | _ => s
/-- Two threads wait in join slot 1, until cycle 5; the third elsewhere. -/
def joined (deadline : Nat) : State := idle ((crowd 3 fun k th =>
  { th with st := .waiting, wait := some (if k = 2 then .passes else .join 1 deadline) }).modMyBlk fun b => { b with joins := [(1, 3), (2, 4)] })
theorem test_joinHoldExpiry :
    goes (exec (.joinHoldExpiry 0 1) (joined 5)) (fun t => (t.thr 0 0).pc = 0x40000018 && (t.thr 0 1).issuable
        && !(t.thr 0 2).issuable && (t.blk 0).joins = [(2, 4)])
      && goes (exec (.joinHoldExpiry 0 1) (joined 11)) (· = joined 11) = true := by decide +kernel

/-- A thread parked for a load of page 0x80000; its request bears tag 4. -/
def parked (preqs : List (Nat × Nat)) (ws : List Who) : State :=
  (idle (me fun th => { th with st := .parked, pk := some (false, 0x80000123), tvec := 0x40000400, scnt := 2 })).modCoh fun h =>
    { h with reqs := [⟨0, 0, 4, 0x80000, 0, false, ws, preqs⟩] }
theorem test_pageAnswer :
    goes (exec (.pageAnswer 0 0 9 0) (parked [] [])) (fun t => (t.pkg 0).late = 1 && t.coh.reqs.length = 1)
      && goes (exec (.pageAnswer 0 0 4 0) (parked [] [.thread 0 0])) (fun t => (t.thr 0 0).issuable && (t.thr 0 0).pk = none
        && (t.thr 0 0).pc = 0x40000010 && t.coh.reqs = [])
      && goes (exec (.pageAnswer 0 0 4 0) (parked [(0, 0)] [])) (fun t => (t.thr 0 0).scnt = 1)
      && goes (exec (.pageAnswer 0 0 4 1) (parked [] [.thread 0 0])) (fun t => (t.thr 0 0).tframe0 = frameWord 0x0A 0x40000010 false
        && (t.thr 0 0).tcause = tcauseWord 0 none && (t.thr 0 0).pc = 0x40000400 && (t.thr 0 0).st = .handler)
      = true := by decide +kernel
/-- A doorbell of one page drops the TLB entry and the L1 line of that page; one of the whole context both. -/
def cached : State :=
  let s := (idle (described 0 base)).modCoh fun h => { h with tlb := [⟨0, 0, 0, 0x1000, 0x1000, 0, 0, true, true, false, none⟩, ⟨0, 0, 1, 0x1000, 0x1000, 0, 0, true, true, false, none⟩] }
  s.modCore 0 0 fun k => { k with l1 := [entry 1, { entry 1 with vtag := 2 ^ 23 }] }
theorem test_invalidationDoorbell :
    goes (exec (.invalidationDoorbell 0 0 (some 0x1000)) cached) (fun t => (t.pctx 0 0).gen = 1 && (t.pctx 0 0).xlat = 0x1001
        && t.coh.tlb.map (·.ctx) = [1] && (t.core 0 0).l1.map (·.vtag) = [2 ^ 23] && (t.pkg 0).host = [.doorbell 0])
      && goes (exec (.invalidationDoorbell 0 0 none) cached) (fun t => (t.pctx 0 0).xlat = 0 && t.coh.tlb.map (·.ctx) = [1]
        && (t.core 0 0).l1 = []) = true := by decide +kernel
/-- The posted writes that wait at their homes, in their order: who, the address and the number written. -/
def posted (t : State) : List (Who × Nat × Nat) :=
  t.coh.ops.filterMap fun o => match o.kind with | .posted ds => some (o.who, o.key, leNat ds) | _ => none
def drained : Nat → State → State
  | 0, s => s
  | n + 1, s => drained n (next (.homeWriteApply 0) s)
/-- The host posts an entry: its record, and behind it TAIL, wait at their homes; then, with EN = 1, it is taken up, checked and
accepted; with QEN = 0 it only stands there. -/
theorem test_hostTailWrite :
    goes (exec (.hostTailWrite 0 0 0 (gridRec 4) 1) (idle (described 0 (served base)))) (fun t =>
        posted t = [(.host, 0x9000, ((gridRec 4).zipIdx.map fun d => d.1.toNat * 2 ^ (64 * d.2)).sum), (.host, 0x700C, 1)]
          && !t.canApply 1 (t.coh.ops.getD 1 default)
          && let u := (drained 2 t).queuesOf 0 0
            tget (u.pctx 0 0).taken 0 = 2 && u.read64 0 0x9000 = 0x0000000100000004 && u.read64 0 0x7008 = 0x0000000100000000
              && (u.pkg 0).grids.map (fun g => (g.id, g.checked, g.queue)) = [(1, true, some (0, 0))])
      && goes (exec (.hostTailWrite 0 0 0 (gridRec 4) 1) (idle ((described 0 base).write64 0 0x6010 0x7000))) (fun t =>
        ((drained 2 t).queuesOf 0 0 |>.pkg 0).grids = [] && (drained 2 t).read64 0 0x9018 = 0x40000000) = true := by decide +kernel
theorem test_queuesOf_premises :
    let s := (idle (described 0 (served base))).write64 0 0x7008 0x0000000300000000
    s.queueOn 0 0 0 = true ∧ s.queueSize 0 0 0 = 16 ∧ s.queueTail 0 0 0 = (s.nextEntry 0 0 0 + 3) % 2 ^ 32
      ∧ tget ((s.queuesOf 0 0).pctx 0 0).taken 0 = 4 ∧ s.hostUp 0 = true ∧ s.rootUp 0 = true ∧ s.inMap 0 0x700C = true
      ∧ s.hostTail 0 0 0 = 3 := by decide +kernel
theorem test_runtimeRegisterWrite :
    let s := idle ((described 0 base).write64 0 0x6010 0x7000)
    goes (exec (.runtimeRegisterWrite 0 (.scheduling 2) 0xFFFFFFFFFFFFFFFF) s) (fun t =>
        (tget (t.pkg 0).parts 2).sched = 0x000027100FFFFFFF && (tget (t.pkg 0).parts 1).sched = 0x000000C803E80080)
      && goes (exec (.runtimeRegisterWrite 0 .errorRing 0x5000) s) (fun t => (t.pkg 0).errBase = 0x5000)
      && goes (exec (.runtimeRegisterWrite 0 (.descriptor 0 1) 0xA001) s) (fun t => posted t = [(.host, 0x6008, 0xA001)])
      && goes (exec (.runtimeRegisterWrite 0 (.queue 0 3 0) 0xFFFFFFFFFFFFFFFF) s) (fun t => posted t = [(.host, 0x7060, 2 ^ 57 - 1)])
      && goes (exec (.runtimeRegisterWrite 0 (.queue 0 3 2) 0x14801) s) (fun t => posted t = [(.host, 0x7070, 0x4800)])
      = true := by decide +kernel

-- The scheduler

/-- Grid 3 dealing, its clusters 4 to 7 still to deal, or held by turnout 0. -/
def dealing (lot : Bool) (f : Grid → Grid := id) : State :=
  (oneGrid (f { grid .dealing with todo := if lot then [] else [(4, 8)] }) (served (idle (described 0 base)))).modPkg 0 fun q =>
    { q with lots := if lot then [⟨0, 5, 4, 8⟩] else [] }
/-- R43, R320-R322: the lowest core takes the block; its 32 threads stand at the entry, loose 8 cycles on. -/
theorem test_turnoutCycle :
    goes (exec (.turnoutCycle 0 0) (dealing true)) (fun t =>
        let b := t.blk 1
        b.place = .resident && b.core = 0 && b.cluster = 4 && b.bid = ⟨4, 0, 0⟩ && b.grid = 3 && b.hold = 0x40 && b.threads.length = 32
        && (tget b.threads 31).pc = 0x40000010 && (tget b.threads 31).readySince = 18 && (tget b.threads 31).sp = 256
        && (tget b.threads 31).ms.res && (tget b.threads 31).allot = 248
        && (t.pkg 0).grids.map (·.placed) = [5] && (t.pkg 0).lots.map (·.lo) = [5] && (t.turnout 0 0).last = 11)
      && goes (exec (.turnoutCycle 0 0) (dealing false)) (· = dealing false) = true := by decide +kernel
/-- Nine blocks of all of a core's shared memory: the head is refused, and where others were back-filled since, ageing
closes the terrace. -/
def full (f : Turnout → Turnout) : State :=
  let s := dealing true
  let b : Block := { (default : Block) with place := .resident, record := (gridRec 8).set 1 0x0004000000000001 }
  { s with cycle := 5000, blocks := s.blocks ++ (List.range 8).map fun c => (c + 1, { b with core := c }) }.modTurnout 0 0 f
theorem test_turnoutCycle_refused : goes (exec (.turnoutCycle 0 0) (full id)) (fun t =>
    (t.turnout 0 0).since ⟨5, 4, false⟩ = some 5000 && t.blocks.length = 9 && (t.turnout 0 0).closed = none) = true := by decide +kernel
theorem test_terraceCloseAgeing :
    let n : Turnout → Turnout := fun n => { n with refused := [(⟨5, 4, false⟩, 10)], backfill := [(3, 20)] }
    goes (exec (.terraceCloseAgeing 0 0) (full n)) (fun t => (t.turnout 0 0).closed = some 0)
      && goes (exec (.terraceCloseAgeing 0 0) (full id)) (fun t => (t.turnout 0 0).closed = none) = true := by decide +kernel
theorem test_checkgateLotRequest :
    goes (exec (.checkgateLotRequest 0 0) (dealing false fun g => { g with todo := [(4, 24)] })) (fun t =>
      (t.pkg 0).lots = [⟨0, 5, 4, 20⟩] && (t.pkg 0).grids.map (·.todo) = [[(20, 24)]]) = true := by decide +kernel
def dead (kill : Bool) : State :=
  oneGrid { grid .dealt with kill := kill } (idle ((me fun th => { th with st := .exited }).modMyBlk fun b => { b with grid := 3 }))
theorem test_blockRetire :
    goes (exec (.blockRetire 0) (dead false)) (fun t => (t.blk 0).place = .retired && (t.blk 0).threads = []
        && (t.pkg 0).grids.map (fun g => (g.fin, g.kld)) = [(3, 1)])
      && goes (exec (.blockRetire 0) (dead true)) (fun t => (t.pkg 0).grids.map (fun g => (g.fin, g.kld)) = [(2, 2)])
      && goes (exec (.blockRetire 0) ((dead false).modThr 0 0 fun th => { th with scnt := 1 })) (fun t => (t.blk 0).place = .resident)
      = true := by decide +kernel
/-- R338-R340: the report at 0xA000; a grid with a block still running goes on. -/
def ending (st : GState) (fin : Nat) : State := oneGrid { grid st with fin := fin, todo := [] } ((idle (described 0 base)).write64 0 0x6008 0xA001)
theorem test_gridComplete :
    goes (exec (.gridComplete 0 5) (ending .cancelling 3)) (fun t => (t.pkg 0).grids.map (·.state) = [.cancelled]
        && (posted t).take 5 = [(.agent, 0xA000, 0x0000000100000003), (.agent, 0xA008, 0xC000000000000001), (.agent, 0xA010, 3),
          (.agent, 0xA018, 1), (.agent, 0xA020, 4)])
      && goes (exec (.gridComplete 0 5) (ending .dealt 3)) (fun t => (t.pkg 0).grids.map (·.state) = [.complete])
      && goes (exec (.gridComplete 0 5) (oneGrid { grid .dealt with fin := 3, faults := 0, queue := some (0, 2), id := 6 } (idle (described 0 base))))
        (fun t => (posted t).take 1 = [(.agent, 0x9138, 0x8000000000000006)])
      && goes (exec (.gridComplete 0 5) (ending .dealt 2)) (· = ending .dealt 2) = true := by decide +kernel
theorem test_gridComplete_pod :
    let h : PodGrid := { podGrid with ended := true, finals := [0], fin := 7 }
    let s := headed h (oneGrid { grid .complete with pod := true, id := 2 ^ 31 + 7 } (idle (described 1 base)))
    goes (exec (.gridComplete 0 5) s) (fun t => (tget t.heads 0).main.grids.map (fun g => (g.complete, g.nst)) = [(true, 0)]) = true := by
  decide +kernel
def lwaiting (p : Place) : State := oneGrid (grid .complete) (idle ((me fun th =>
  { th with st := .waiting, wait := some (.lwait 9), ecnt := 1 }).modMyBlk fun b => { b with place := p, kids := [5], late := [6] }))
theorem test_lwaitResume :
    goes (exec (.lwaitResume 0) (lwaiting (.saved .lwait))) (fun t => (t.blk 0).back)
      && goes (exec (.lwaitResume 0) (lwaiting .resident)) (fun t => tget (t.thr 0 0).regs 9 = 0x80000001 && (t.thr 0 0).ecnt = 0
        && (t.thr 0 0).pc = 0x40000018 && (t.blk 0).kids = [6]) = true := by decide +kernel
-- Pre-emption

/-- The context with a resident block of one thread of grid 3, with a shadow region of 2 MiB, in a state of its save. -/
def pre (st : PreState) (sluice : Dword := 0x0000000200800064) (th : Thread → Thread := id) (c : PkgCtx → PkgCtx := id) : State :=
  let s := served (idle (described 0 (me fun t => th { withRegs [(5, 77)] t with tframe0 := 1 })))
  (((oneGrid (grid .dealt) s).modMyBlk fun b => { b with grid := 3, shm := b.shm.write 0 (clean [1, 2, 3]) }).modPkg 0 fun q =>
    { q with parts := tset q.parts 0 { tget q.parts 0 with sluice := sluice } }).modCtx 0 0 fun k => c { k with pre := st }
/-- The saved block as SAVE_IMAGE leaves it. -/
def saved : State := next (.saveImage 0) (pre .draining)
def preOf (t : State) : PreState := (t.pctx 0 0).pre
theorem test_preemptGraceful :
    goes (exec (.preemptGraceful 0 0) (pre .running)) (fun t => preOf t = .pending && (t.pctx 0 0).t0 = 10)
      && goes (exec (.preemptGraceful 0 0) ((pre .running).modBlk 0 fun b => { b with place := .retired })) (fun t => preOf t = .saved)
      && goes (exec (.preemptGraceful 0 0) (pre .draining)) (· = pre .draining) = true := by decide +kernel
/-- A second block of the grid beside the first, its thread running. -/
def twoBlocks (s : State) : State :=
  { s with blocks := s.blocks ++ [(1, { s.blk 0 with threads := [(0, { base.me with slot := 1 })], cluster := 1, slot := 1 })], nextBlk := 2 }
/-- GDL is 200 µs at reset: 260,000 cycles. With every block at its boundary the deadline finds nothing to close. -/
theorem test_gracefulDeadline :
    let late (s : State) : State := { s with cycle := 260000 }
    let yields (th : Thread) : Thread := { th with st := .waiting, wait := some .yieldHold }
    goes (exec (.gracefulDeadline 0 0) (late (pre .pending))) (fun t => preOf t = .draining && (t.pctx 0 0).tc = 260000)
      && goes (exec (.gracefulDeadline 0 0) (late (twoBlocks (pre .pending 0 yields)))) (fun t => preOf t = .running && (t.thr 0 0).issuable
        && (t.pkg 0).host = [.aborted 0])
      && goes (exec (.gracefulDeadline 0 0) (late (pre .pending 0 yields))) (fun t => preOf t = .pending)
      && goes (exec (.gracefulDeadline 0 0) { (pre .pending) with cycle := 259999 }) (fun t => preOf t = .pending) = true := by decide +kernel
theorem test_preemptForced :
    goes (exec (.preemptForced 0 0) ((pre .running).modBlk 0 fun b => { b with parts := [1] })) (fun t => preOf t = .closing
        && (t.pctx 0 0).tc = 10)
      && goes (exec (.preemptForced 0 0) (pre .running 0)) (fun t => preOf t = .running) = true := by decide +kernel
theorem test_resumeRequest :
    goes (exec (.resumeRequest 0 0) (pre .pending 0 fun th => { th with st := .waiting, wait := some .yieldHold })) (fun t =>
        preOf t = .running && (t.thr 0 0).issuable)
      && goes (exec (.resumeRequest 0 0) ((pre .saved).modBlk 0 fun b => { b with place := .saved .sluice })) (fun t =>
        preOf t = .running && (t.blk 0).back)
      && goes (exec (.resumeRequest 0 0) (pre .draining)) (fun t => preOf t = .draining && (t.pctx 0 0).resume) = true := by decide +kernel
/-- R391: past SDL, 100 µs, the context ends; so it does by Runtime's kill. -/
theorem test_sluiceEscalation :
    goes (exec (.sluiceEscalation 0 0) { (pre .draining) with cycle := 130000 }) (fun t => !(t.pctx 0 0).live && (t.blk 0).place = .retired)
      && goes (exec (.contextKill 0) (pre .running)) (fun t => !(t.pctx 0 0).live && (t.blk 0).place = .retired)
      && goes (exec (.contextKill 3) (pre .running)) (fun t => (t.pctx 0 0).live) = true := by decide +kernel
/-- R393-R394: version 1 in bits [31:16] of dword 0, REASON 1, the grid, MGANG and HOLD in their places. -/
theorem test_saveImage : (pre .draining).saveReason 0 = some .sluice ∧ (pre .draining).quiet 0 = true
    ∧ (pre .draining).blockFits 0 .sluice = true ∧ (saved.blk 0).place = .saved .sluice ∧ preOf saved = .saved
    ∧ (saved.thr 0 0).regs = [(5, 77)] ∧ (saved.images.map fun i => ((i.2.dw 0).extractLsb' 16 16, i.2.dw 1, (i.2.dw 4).extractLsb' 0 16))
      = [(1, 0x0000000300000001, 0x40)] := by decide +kernel
/-- R321, R398: restored on core 0, the lowest that it fits, its threads as they were; an image of another version ends its
context. -/
def again (f : Image → Image) : State :=
  let s := next (.resumeRequest 0 0) saved
  { s with images := s.images.map fun i => (i.1, f i.2), cycle := 20 }
theorem test_blockRestore :
    goes (exec (.blockRestore 0 0) (again id)) (fun t => (t.blk 0).place = .resident && (t.blk 0).core = 0 && (t.thr 0 0).regs = [(5, 77)]
        && (t.thr 0 0).pc = 0x40000010 && (t.thr 0 0).readySince = 28 && (t.blk 0).shm.num 0 3 = 0x030201 && t.images = [])
      && goes (exec (.blockRestore 0 3) (again id)) (fun t => (t.blk 0).place = .saved .sluice)
      && goes (exec (.blockRestore 0 0) (again fun i => { i with base := none, dwords := i.dwords.set 0 0 })) (fun t => !(t.pctx 0 0).live)
      = true := by decide +kernel
/-- (That the image read back raises no fault is what lets the block return above.) -/
theorem test_blockRestore_premises :
    let w := (again id).openQueues 0
    (match w.turnoutPick 0 0 with
      | (v, some d) => d.unit.work = .again [0] && d.cores = [(0, 0)] && (match v.imageFor 0 with
        | some (0, i) => i.base = some 0x200040
          && i.reason = .sluice
        | _ => false)
      | _ => false) = true ∧ (w.turnout 0 0).last ≤ (again id).cycle := by decide +kernel

/-- R327: cores 0 and 1 share core 0; at its quantum's end core 0 halts, and once it is empty core 1 runs; alone it goes on. -/
def sharing (busy : Bool) (f : Core → Core) : State :=
  let s := (pre .running).modPkg 0 fun q => { q with remap := [(0, 0x80100000), (1, 0x80110000)] }
  let s := (s.modCore 0 0 fun k => f { k with quantStart := 1 }).modCore 0 1 fun k => { k with sliced := true }
  { s with cycle := 1301300, blocks := s.blocks ++ if busy then [(1, { s.blk 0 with core := 1 })] else [] }
theorem test_quantumExpiry :
    goes (exec (.quantumExpiry 0 0) (sharing true id)) (fun t => (t.core 0 0).sliced && (t.core 0 1).sliced)
      && goes (exec (.quantumExpiry 0 0) (sharing false id)) (fun t => !(t.core 0 0).sliced && (t.core 0 0).quantStart = 1301300)
      && goes (exec (.quantumExpiry 0 0) { sharing true id with cycle := 1300 }) (fun t => !(t.core 0 0).sliced && (t.core 0 0).quantStart = 1)
      && goes (exec (.quantumExpiry 0 0) ((sharing true fun k => { k with sliced := true }).modBlk 0 fun b => { b with place := .retired })) (fun t =>
        !(t.core 0 1).sliced && (t.core 0 1).quantStart = 1301300) = true := by decide +kernel
/-- At a boundary under a request, at lwait where the swap region holds the image, and where a core is sliced out. -/
def atLwait (swap : Dword) : State :=
  ((pre .running (th := fun th => { th with st := .waiting, wait := some (.lwait 9), ecnt := 1 })).modMyBlk fun b =>
    { b with kids := [5] }).write64 0 0x6020 swap
theorem test_saveImage_reasons :
    (pre .pending (th := fun th => { th with st := .waiting, wait := some .yieldHold })).saveReason 0 = some .boundary
      ∧ (atLwait 0x200800).saveReason 0 = some .lwait ∧ (atLwait 0).saveReason 0 = none
      ∧ (sharing true fun k => { k with sliced := true }).saveReason 0 = some .slice := by decide +kernel
/-- A copy of five granules, of which 0 and 2 are delivered and 1 waits on a page of a peer. -/
def halfDone : EngCmd := { cmd0 .copy [0x9000, 0, 0, 0, 16, 5, 0, 0] with srcS := true, done := [0, 2], begun := 3, waits := [(true, 1, 0x9010)] }
/-- R350, R352: a halt closes the block's commands, and the waiter of a phase completed in its cycle stays at barb.wait. -/
theorem test_halt :
    let s := { (pre .running (th := fun th => { th with freed := some 10, via := some ⟨false, some 0x40000008⟩ })) with cmds := [halfDone] }
    goes (exec (.preemptForced 0 0) s) (fun t => t.cmds.map (fun k => (k.shut, k.gone, k.waits)) = [(true, [1], [])]
      && (t.thr 0 0).pc = 0x40000008 && (t.thr 0 0).via = none) = true := by decide +kernel
/-- R350: saved, the command is cut to the granules before the abandoned one. -/
theorem test_save_prefix :
    let s := { (pre .draining (th := fun th => { th with ecnt := 1 })) with cmds := [halfDone] }
    goes (exec (.saveImage 0) s) (fun t => t.cmds = [] && (t.blk 0).place = .saved .sluice
      && t.images.map (fun i => i.2.cmds.map fun k => (k.done, k.begun)) = [[([0], 1)]]) = true := by decide +kernel
/-- What is not quiet is not saved, but its commands are closed; those of a block that is not saved after all go on. -/
theorem test_save_waits :
    goes (exec (.saveImage 0) { (pre .draining (th := fun th => { th with lcnt := 1 })) with cmds := [halfDone] }) (fun t =>
        (t.blk 0).place = .resident && t.cmds.map (·.shut) = [true])
      && goes (exec (.saveImage 0) { (pre .running) with cmds := [halfDone.close] }) (fun t => t.cmds.map (fun k => (k.shut, k.gone)) = [(false, [])])
      = true := by decide +kernel
/-- R327, R391: a quantum's end that is not over SDL after its halt ends the context, and so does an image that does not fit. -/
theorem test_escalation_late :
    goes (exec (.sluiceEscalation 0 0) (sharing true fun k => { k with sliced := true, sliceAt := 1 })) (fun t => !(t.pctx 0 0).live)
      && goes (exec (.sluiceEscalation 0 0) (pre .draining 0)) (fun t => !(t.pctx 0 0).live)
      && goes (exec (.sluiceEscalation 0 0) (pre .draining)) (· = pre .draining) = true := by decide +kernel
/-- R398: an image changed in memory, here in HOLD, gives what it says. -/
theorem test_restore_changed :
    let s := (again id).modCoh fun h => { h with ops := h.ops ++ [{ (default : HomeOp) with
      key := 0x200040 + 32, who := .agent, kind := .posted (leBytes 8 0x41) }] }
    goes (exec (.blockRestore 0 0) s) (fun t => (t.blk 0).place = .resident && (t.blk 0).hold = 0x41) = true := by decide +kernel
-- Pod grids (R334-R342): packages 0 and 1 of one context, the headgate on package 0

/-- Two served packages alike, numbered 0 and 1, the descriptor's dword 5 of each at its own address. -/
def podS (h : HeadState) : State :=
  let s := twoPackages (idle (described 0x0000004000000001 (served base)))
  { (s.write64 1 0x6028 0x0008004000000001) with heads := [(0, { (default : Head) with main := h, mirror := h, pkgs := [0, 1] })] }
def launchIn (r : List Dword) (ask : PodAsk := .launch) : HeadState := ⟨6, [], [⟨1, 0, 0, 8, 2, r, ask⟩]⟩
def idOf7 : Nat := 2 ^ 31 + 7
theorem test_podGridBroadcast :
    goes (exec (.podGridBroadcast 0) (podS (launchIn (gridRec 8)))) (fun t => t.coh.lands.map (·.regs) = [[(8, 0x80000007), (9, 0)]]
        && (t.pkg 0).grids.map (·.id) = [idOf7] && (t.pkg 1).grids.map (·.id) = [idOf7]
        && (tget t.heads 0).main.grids.map (fun h => (h.id, h.total, h.prio)) = [(idOf7, 8, 2)] && (tget t.heads 0).main.inbox = []
        && (tget t.heads 0).mirror = (tget t.heads 0).main)
      && goes (exec (.podGridBroadcast 0) (podS (launchIn ((gridRec 8).set 6 1)))) (fun t => t.coh.lands.map (·.regs) = [[(8, 0), (9, 1)]]
        && (t.pkg 0).grids = [])
      && goes (exec (.podGridBroadcast 0) { podS (launchIn (gridRec 8)) with heads := [(0, { (default : Head) with
        main := launchIn (gridRec 8), gone := true, pkgs := [0, 1] })] }) (fun t => t.coh.lands.map (·.regs) = [[(8, 0), (9, 10)]])
      = true := by decide +kernel
/-- Grid 7 of 200 blocks, 4 of them dealt, taken up by both packages; its record may set DET or ORD in dword 6. -/
def podMid (d6 : Dword := 0) (f : PodGrid → PodGrid := id) (g : Grid → Grid := id) : State :=
  let r := (gridRec 200).set 6 d6
  let o : Grid := { grid .dealing idOf7 with pod := true, record := r, todo := [], placed := 4, total := 200, fin := 3, sentFin := 1 }
  let s := podS ⟨7, [f { podGrid with record := r, total := 200 }], []⟩
  (s.modPkg 0 fun q => { q with grids := [g o] }).modPkg 1 fun q => { q with grids := [{ o with acc := 9 }] }
def todos (t : State) (p : Nat) : List (Nat × Nat) := (t.pkg p).grids.flatMap (·.todo)
def heads0 (t : State) : List PodGrid := (tget t.heads 0).main.grids
theorem test_podLotRequest :
    goes (exec (.podLotRequest 1 0 idOf7) (podMid)) (fun t => todos t 1 = [(4, 68)] && todos t 0 = [] && (heads0 t).map (·.next) = [68])
      && goes (exec (.podLotRequest 0 0 idOf7) (podMid 0x4000)) (fun t => (todos t 0).take 2 = [(4, 5), (6, 7)] && (todos t 1).take 1 = [(5, 6)]
        && (heads0 t).map (·.next) = [68])
      && goes (exec (.podLotRequest 0 0 idOf7) (podMid (f := fun h => { h with next := 190 }))) (fun t => todos t 0 = [(190, 200)]
        && (heads0 t).map (fun h => (h.next, h.ended)) = [(200, true)])
      && goes (exec (.podLotRequest 0 0 idOf7) (podMid (f := fun h => { h with cancel := true }))) (fun t => todos t 0 = []) = true := by
  decide +kernel
/-- Package 0 has no core to place it on: package 1 is granted; with none able the offer stands. -/
theorem test_podOrdOffer :
    let noCore (p : Nat) (s : State) : State := s.modPkg p fun q => { q with remap := [] }
    goes (exec (.podOrdOffer 0 idOf7) (noCore 0 (podMid 0x8000))) (fun t => todos t 1 = [(4, 5)] && todos t 0 = []
        && (heads0 t).map (·.next) = [5])
      && goes (exec (.podOrdOffer 0 idOf7) (noCore 1 (noCore 0 (podMid 0x8000)))) (fun t => (heads0 t).map (fun h => (h.offer, h.next)) = [(some 4, 4)])
      = true := by decide +kernel
/-- Two blocks finished that package 0 has not told; a summary at most once in 1,000 ns. -/
theorem test_progressSummary :
    goes (exec (.progressSummary 0 0 idOf7) ((podMid).modBlk 0 fun b => { b with grid := idOf7 })) (fun t => (heads0 t).map (·.fin) = [4]
      && (t.pkg 0).grids.map (fun g => (g.sentFin, g.sentAt)) = [(3, 1007)]) = true := by decide +kernel
theorem test_finalSummary :
    let s := podMid (f := fun h => { h with ended := true })
    goes (exec (.finalSummary 0 0 idOf7) s) (fun t => (heads0 t).map (fun h => (h.fin, h.finals)) = [(4, [0])]
        && (t.pkg 0).grids.map (fun g => (g.state, g.finalSent, g.nst)) = [(.complete, true, 196)])
      && goes (exec (.finalSummary 0 0 idOf7) (podMid)) (fun t => (heads0 t).map (·.finals) = [[]]) = true := by decide +kernel
theorem test_podCancel :
    goes (exec (.podCancel 0 idOf7 true) (podMid (f := fun h => { h with cancel := true, kill := true }))) (fun t =>
      [0, 1].all fun p => (t.pkg p).grids.map (fun g => (g.state, g.kill)) = [(.cancelling, true)]) = true := by decide +kernel
/-- No cancel is on its way where none was asked for; one that is reaches the checkgate before the lot that it is sent next. -/
theorem test_cancels_none (q : Nat) : (podMid 0x4000).cancelsTo q 0 = podMid 0x4000 := by
  show (match (podMid 0x4000).findGrid q 0 idOf7 with
    | some g => if (false && !false && (decide (g.state = GState.dealing) || decide (g.state = GState.dealt))) = true then (podMid 0x4000).cancelGrid q g false else podMid 0x4000
    | none => podMid 0x4000) = _
  split <;> rfl
theorem test_cancel_first :
    let s := podMid
    let h : PodGrid := { podGrid with id := idOf7 + 1, seq := 8, cancel := true, kill := false }
    let g : Grid := { grid .dealing (idOf7 + 1) with acc := 11, pod := true }
    let s := (s.modHead 0 fun m => { m with grids := h :: m.grids }).modPkg 1 fun q => { q with grids := g :: q.grids }
    goes (exec (.podLotRequest 1 0 idOf7) s) (fun t => (t.pkg 1).grids.map (fun g => (g.state, g.todo)) = [(.cancelling, g.todo), (.dealing, [(4, 68)])])
      && goes (exec (.podCancel 0 idOf7 true) s) (· = s) = true := by decide +kernel
theorem test_standbyTakeover :
    goes (exec (.standbyTakeover 0) (podMid)) (fun t => (tget t.heads 0).stopped && !(tget t.heads 0).gone)
      && goes (exec (.standbyTakeover 0) (next (.standbyTakeover 0) (podMid))) (fun t => (tget t.heads 0).gone) = true := by decide +kernel

/-- An lcancel and an lstat that follow a launch.pod of their package to the headgate stand behind it, and are answered there in
their turn (R347). -/
theorem test_podAsks :
    let asks (ask : PodAsk) : State := podS ⟨7, [{ podGrid with record := gridRec 200, total := 200 }], [⟨1, 0, 0, 8, 2, [], ask⟩]⟩
    let s := { (regs [(8, 0x80000007)]) with heads := [(0, { (default : Head) with main := ⟨7, [podGrid], [⟨0, 0, 0, 8, 2, [], .launch⟩]⟩ })] }
    goes (exec (.podGridBroadcast 0) (asks (.cancel idOf7 true))) (fun t => t.coh.lands.map (·.regs) = [[(8, 0)]]
        && (heads0 t).map (fun h => (h.cancel, h.kill, h.ended)) = [(true, true, true)] && (tget t.heads 0).main.inbox = [])
      && goes (exec (.podGridBroadcast 0) (asks (.cancel (idOf7 + 1) true))) (fun t => t.coh.lands.map (·.regs) = [[(8, 1)]])
      && goes (exec (.podGridBroadcast 0) (asks (.stat idOf7))) (fun t => t.coh.lands.map (fun l => l.regs.map (·.2)) = [[1, 0, 2, 0, 1, 0, 196, 0]])
      && s.podBehind 0 0 && runs s (.lcancel c0 6 8) (fun t => t.coh.lands = [] && t.me.ecnt = 1
        && (tget t.heads 0).main.inbox.map (·.ask) = [.launch, .cancel idOf7 false])
      && runs s (.lstat c0 16 8) (fun t => (tget t.heads 0).main.inbox.map (·.ask) = [.launch, .stat idOf7]) = true := by decide +kernel

-- Time and links (R343-R348)

/-- Package 1, whose master is package 0; 200 ns behind it. -/
def behind : State := ((podMid).modPkg 0 fun q => { q with goff := 400 }).modPkg 1 fun q => { q with goff := 200, unsync := true, lastMsg := 0 }
theorem test_timeMessage :
    goes (exec (.timeMessage 1 300) behind) (fun t => t.gtime 1 = 300 && !(t.pkg 1).unsync)
      && goes (exec (.timeMessage 1 160) behind) (fun t => t.gtime 1 = 207 && !(t.pkg 1).unsync)
      && goes (exec (.timeMessage 1 500) behind) (fun t => (t.pkg 1).goff = 200 && (t.pkg 1).unsync)
      && goes (exec (.timeMessage 1 100) behind) (fun t => (t.pkg 1).goff = 200 && (t.pkg 1).unsync)
      && goes (exec (.timeMessage 0 0) (podMid)) (fun t => t.pkgs = podMid.pkgs) = true := by decide +kernel
theorem test_timeMessage_premises : behind.master 1 = some 0 ∧ behind.master 0 = none ∧ behind.gtime 0 = 407 := by decide +kernel
theorem test_gtimeUnsync :
    goes (exec (.gtimeUnsync 1) { behind.modCore 1 0 (fun k => { k with l1 := [entry 1] }) with cycle := 130000 }) (fun t =>
        (t.pkg 1).unsync && (t.core 1 0).l1 = [])
      && goes (exec (.gtimeUnsync 1) { (podMid) with cycle := 129999 }) (fun t => !(t.pkg 1).unsync) = true := by decide +kernel
theorem test_linkPortDown :
    goes (exec (.flitReplay 0 17) base) (fun t => tget (t.pkg 0).replays 17 = 1)
      && goes (exec (.flitReplay 0 17) (base.modPkg 0 fun q => { q with replays := [(17, 15)] })) (fun t =>
        tget (t.pkg 0).replays 17 = 16 && (t.pkg 0).portDown = 0x20000)
      && goes (exec (.linkPortDown 0 17) (base.modPkg 0 fun q => { q with replays := [(17, 16)] })) (fun t => (t.pkg 0).portDown = 0x20000)
      && goes (exec (.linkPortDown 0 17) (base.modPkg 0 fun q => { q with replays := [(17, 15)] })) (fun t => (t.pkg 0).portDown = 0) = true := by
  decide +kernel
/-- An add of .pod scope from package 0 to 0x8000 of package 1. -/
def far (ret : Bool) : State := (oneGrid (grid .dealt) (podMid)).modBlk 0 (fun b => { b with grid := 3 }) |>.modCoh fun h =>
  { h with remote := [⟨0, 1, 0x8000, { op (.atom .add false 2 0 ret) with pkg := 1, key := 2 ^ 52 + 0x8000 }, 0, 0x40000010⟩] }
theorem test_remoteRequestArrival :
    goes (exec (.remoteRequestArrival 0) (far true)) (fun t => t.coh.remote = [] && t.coh.ops.map (fun o => (o.pkg, o.va)) = [(1, 0x8000)])
      && goes (exec (.remoteRequestArrival 0) { far true with cycle := 13000 }) (· = { far true with cycle := 13000 })
      = true := by decide +kernel
theorem test_remoteTimeout :
    goes (exec (.remoteTimeout 0) { far true with cycle := 13000 }) (fun t => t.coh.lands.map (fun l => (l.regs, l.marked)) = [([(6, 0)], true)]
        && (t.pkg 0).grids.map (·.faults) = [2])
      && goes (exec (.remoteTimeout 0) { far false with cycle := 13000 }) (fun t => t.coh.acks.length = 1 && t.coh.lands = [])
      && goes (exec (.remoteTimeout 0) { far true with cycle := 12999 }) (· = { far true with cycle := 12999 }) = true := by decide +kernel
/-- A granule of a copy from .s to package 1: it arrives and is performed there; lost, it stops its command with code 2. -/
def farCopy : State :=
  let k : EngCmd := { cmd0 .copy [0x8000, 0x01000800, 0, 0, 16, 1, 0, 0] with srcS := true }
  { (podMid).modCoh fun h => { h with remote := [⟨0, 1, 0x8000, { (default : HomeOp) with who := .engine 0, va := 2 ^ 56 + 2 ^ 43 + 0x8000 }, 0, 0⟩] } with
    cmds := [k] }
theorem test_remote_granule :
    goes (exec (.remoteRequestArrival 0) farCopy) (fun t => t.coh.remote = [] && t.cmds.map (·.done) = [[0]])
      && goes (exec (.remoteRequestArrival 0) { farCopy with cmds := farCopy.cmds.map fun k => { k with stop := true } }) (fun t =>
        t.coh.remote = [] && t.cmds.map (·.done) = [[]])
      && goes (exec (.remoteTimeout 0) { farCopy with cycle := 13000 }) (fun t => t.cmds.map (fun k => (k.stop, k.code)) = [(true, 2)])
      = true := by decide +kernel
/-- A copy from one peer to another goes on to the second; one whose page the peer lacks is held there, its 10 µs from anew. -/
theorem test_remote_legs :
    let k : EngCmd := { cmd0 .copy [0x8000, 0x01000000, 0x8000, 0x01000800, 16, 1, 0, 0] with srcS := false }
    let r : Remote := ⟨0, 1, 0x8000, { (default : HomeOp) with who := .engine 0, va := 2 ^ 56 + 2 ^ 43 + 0x8000 }, 0, 0⟩
    let s : State := { (podMid).modCoh fun h => { h with remote := [r] } with cmds := [k] }
    let w : State := { (podMid).modCoh fun h => { h with remote := [{ r with op := { r.op with va := r.op.va + 0x80000000 } }] } with
      cmds := [{ cmd0 .copy [0x80008000, 0x01000800, 0, 0, 16, 1, 0, 0] with srcS := true }] }
    s.mayArrive 0 r && s.lost r = false && goes (exec (.remoteRequestArrival 0) s) (fun t =>
        t.coh.remote.map (fun r => (r.peer, r.off, r.sent)) = [(0, 0x8000, 7)] && t.cmds.map (·.done) = [[]])
      && goes (exec (.remoteRequestArrival 0) w) (fun t => t.coh.remote.map (·.sent) = [7] && t.cmds.map (·.waits.length) = [1]
        && t.coh.remote.all t.heldAt) = true := by decide +kernel
-- Root and boot (R404-R407)

def told (t : State) (ms : List HostMsg) : Bool := (t.pkg 0).host = ms
/-- Context 5 does not live yet; its descriptor will stand at 0x6000, its number on the package is 40; number 0 is context 0's. -/
theorem test_contextCreate :
    goes (exec (.contextCreate 0 (ctxOperand 5 40) 2 0x6000) ((idle base).write64 0 0x6000 0x9001)) (fun t => (t.pctx 0 5).live && (t.pctx 0 5).part = 2
        && (t.pctx 0 5).desc = 0x6000 && (t.pctx 0 5).num = 40 && (t.pctx 0 5).xlat = 0x9001 && (tget t.heads 5).pkgs = [0])
      && goes (exec (.contextCreate 0 (ctxOperand 0 40) 2 0x6000) (idle base)) (· = idle base)
      && goes (exec (.contextCreate 0 (ctxOperand 5 0) 2 0x6000) (idle base)) (· = idle base) = true := by decide +kernel
/-- The object is in use while a block is saved in it; not while one merely runs. -/
theorem test_codeRelease :
    goes (exec (.codeRelease 0 0 0x50000000) (idle base)) (fun t => told t [.mailbox 1])
      && goes (exec (.codeRelease 0 9 0x40000000) (idle base)) (fun t => told t [.mailbox 1])
      && goes (exec (.codeRelease 0 0 0x40000000) (idle (bl fun b => { b with place := .saved .sluice }))) (fun t => told t [.mailbox 2])
      && goes (exec (.codeRelease 0 0 0x40000000) (cached.modBlk 0 fun b => { b with place := .retired })) (fun t => told t [.mailbox 0]
        && (t.pctx 0 0).objs = [] && (t.pctx 0 0).gen = 1 && t.coh.tlb.map (·.ctx) = [1] && (t.core 0 0).l1 = []) = true := by
  decide +kernel
/-- Partition 1 over basins 2 and 3; it shares terrace 0 with no other. SDL is clamped to 100, and the reserved bits of the
sluice word have no effect (R10). -/
theorem test_partitionConfigure :
    let free := served (bl fun b => { b with place := .retired })
    goes (exec (.partitionConfigure 0 1 [12, 0, 0, 0, 2] [(8, 0x80000008)] 0x10000) free) (fun t => told t [.mailbox 0]
        && (tget (t.pkg 0).parts 1).record = [12, 0, 0, 0, 2] && (tget (t.pkg 0).parts 1).sluice = 100
        && tget (t.pkg 0).remap 8 = 0x80000008 && (tget (t.pkg 0).parts 0).record = [3, 0, 0, 0, 2])
      && goes (exec (.partitionConfigure 0 1 [2, 0, 0, 0, 2] [] 0) free) (fun t => told t [.mailbox 1])
      && goes (exec (.partitionConfigure 0 1 [12, 0, 0, 0, 4] [] 0) free) (fun t => told t [.mailbox 1])
      && goes (exec (.partitionConfigure 0 1 [12, 0x100000000, 0, 0, 2] [] 0) free) (fun t => told t [.mailbox 1])
      && goes (exec (.partitionConfigure 0 0 [3, 0, 0, 0, 2] [] 0) (served base)) (fun t => told t [.mailbox 1]) = true := by decide +kernel
theorem test_regionDescriptorWrite :
    goes (exec (.regionDescriptorWrite 0 7 [0x1000, 0x2000, 0x4FF, 0]) cached) (fun t => told t [.mailbox 0] && t.coh.tlb = []
        && tget (t.pkg 0).regions 7 = [0x1000, 0x2000, 0x4FF, 0])
      && goes (exec (.regionDescriptorWrite 0 7 [0x1001, 0x2000, 0x4FF, 0]) cached) (fun t => told t [.mailbox 1]) = true := by
  decide +kernel
/-- The report holds the nonce first; the leaf moves on. A leaf of 2^40 is none. -/
theorem test_attestRequest :
    goes (exec (.attestRequest 0 [1, 2, 3, 4]) base) (fun t => (t.pkg 0).leaf = 1 && (t.pkg 0).host.any fun m => match m with
        | .attestation r _ => r.take 4 = [1, 2, 3, 4]
        | _ => false)
      && goes (exec (.attestRequest 0 [1, 2, 3, 4]) (base.modPkg 0 fun q => { q with leaf := 2 ^ 40 })) (fun t => told t [.mailbox 2]) = true := by
  decide +kernel
/-- No minimum is lowered or kept, verified or not: 5 stands against 5. (A command that verifies is left to the free value
`Config.updateVerifies`.) -/
theorem test_svnUpdate (sig : List Byte) : goes (exec (.svnUpdate 0 5 sig) (base.modPkg 0 fun q => { q with svnMin := 5 }))
    (fun t => told t [.mailbox 1] && (t.pkg 0).svnMin = 5) = true := by
  cases h : Config.updateVerifies 5 sig <;> simp only [exec, execSvnUpdate, h] <;> decide +kernel
/-- Before boot is READY Root answers nothing. -/
theorem test_mailbox_closed : goes (exec (.attestRequest 0 []) State.reset) (· = State.reset) = true := by decide +kernel
/-- What a package reset clears and what it keeps, whatever the image is; boot at stage 2 waits for a backup. -/
theorem test_packageReset :
    goes (exec (.packageReset 0 [] true true [] []) ({ base with cycle := 50 }.modPkg 0 fun q => { q with leaf := 9, svnMin := 4 })) (fun t =>
        t.blocks = [] && t.ctxs = [] && t.issue = [] && tget t.mem 0x1000 = 7) = true := by decide +kernel
/-- An image of more than 262,144 bytes is not booted. -/
theorem test_backupImage_premise : ¬(Config.imageVerifies (List.replicate 262145 0) = true
    ∧ (List.replicate 262145 (0 : Byte)).length ≤ 262144) := by
  rw [List.length_replicate]; omega
/-- The other premises of the image that verifies, whatever it is: that one does is left to the free value
`Config.imageVerifies` (log entry 13), and its number to `Config.imageSvn`. -/
theorem test_image_premises (image : List Byte) (h : Config.imageVerifies image = true) (n : image.length ≤ 262144) :
    (Config.imageVerifies image = true ∧ image.length ≤ 262144 ∧ (base.pkg 0).svnMin.toNat ≤ (Config.imageSvn image).toNat)
      ∧ (∃ c, c < 384 ∧ bootRemap [] c ≠ 0)
      ∧ (let s := base.modPkg 0 fun q => { q with boot := ⟨false, false, 1, 2, false⟩ }
         (s.pkg 0).boot.stage = 2 ∧ (s.pkg 0).boot.tried = false) :=
  have z : (base.pkg 0).svnMin.toNat = 0 := by decide +kernel
  ⟨⟨h, n, z ▸ Nat.zero_le _⟩, ⟨0, by decide +kernel⟩, by decide +kernel⟩
/-- Under such an image the package boots, by its reset or by the backup image at stage 2. -/
theorem test_image_boots (image : List Byte) (h : Config.imageVerifies image = true) (n : image.length ≤ 262144) :
    (base.pkg 0).imageErr image = 0 := by
  have z : (base.pkg 0).svnMin = 0 := by decide +kernel
  simp [Pkg.imageErr, h, z, Nat.not_lt.mpr n]
theorem test_backupImage : goes (exec (.backupImage 0 [] true true [] []) base) (· = base) = true := by decide +kernel

-- The package (R400-R412)

theorem test_ports :
    goes (exec (.ucieModuleDown 0 3) base) (fun t => (t.pkg 0).ucieDown = 8)
      && goes (exec (.ucieRetrain 0) { next (.ucieModuleDown 0 3) base with cycle := 130000000 }) (fun t => (t.pkg 0).ucieDown = 0
        && (t.pkg 0).retrain = 1)
      && goes (exec (.ucieRetrain 0) { next (.ucieModuleDown 0 3) base with cycle := 129999998 }) (fun t => (t.pkg 0).ucieDown = 8)
      && goes (exec (.poolPortDown 0 1) base) (fun t => (t.pkg 0).poolDown = 2)
      && goes (exec (.scrub 0) base) (fun t => (t.pkg 0).scrubs = 1) = true := by decide +kernel
/-- R408, R409: a corrected error is counted, its record sent once per ms to the ring that Runtime named, if it named one; an uncorrectable one of HBM poisons 32 bytes; a
fatal one leaves nothing. -/
theorem test_errors :
    let s := base.modPkg 0 fun q => { q with errBase := 0x5000 }
    goes (exec (.eccError 0 3 1 0 0x8004) (s.write64 0 0x8000 5)) (fun t => tget (t.pkg 0).errs 13 = 1
        && (t.pkg 0).errRing = [(0x5000, 0x0340000000008004, 0)] && t.byteAt 0x8000 = (5, false))
      && goes (exec (.eccError 0 3 1 0 0x8004) (s.modPkg 0 fun q => { q with lastCorr := [(13, 1)] })) (fun t => tget (t.pkg 0).errs 13 = 1
        && (t.pkg 0).errRing = [])
      && goes (exec (.eccError 0 3 0 1 0x8024) (s.write64 0 0x8020 5)) (fun t => t.byteAt 0x8020 = (5, true) && t.byteAt 0x803F = (0, true)
        && t.byteAt 0x801F = (0, false) && (t.pkg 0).errRing = [(0x5000, 0x0310000000008024, 0)])
      && goes (exec (.eccError 0 7 0 1 0x8024) base) (fun t => t.byteAt 0x8020 = (0, true) && (t.pkg 0).errRing = [])
      && goes (exec (.eccError 0 7 0 1 0) (s.modPkg 0 fun q => { q with ucieDown := 15 })) (fun t => (t.pkg 0).errRing = [])
      && goes (exec (.fatalError 0 6 0 0) (idle s)) (fun t => t.blocks = [] && t.ctxs = [] && !(t.pkg 0).boot.ready
        && (t.pkg 0).errRing = [(0x5000, 0x0620000000000000, 7)]) = true := by decide +kernel
/-- R355, R408: without an address an error of the L2 strikes private memory, one of a link or an engine a register; a line of the
L1 is struck by its address, and no block is. -/
theorem test_errors_core :
    goes (exec (.eccError 0 4 0 1 0) base) (fun t => t.mem = base.mem && t.coh = base.coh)
      && base.blocks.any (fun o => o.2.place = .resident && o.2.pkg = 0 && dieOf o.2.core = 0)
      && goes (exec (.eccError 0 2 0 1 0x1000) (base.modCore 0 0 fun k => { k with l1 := [entry 1] })) (fun t => t.blocks = base.blocks)
      && goes (exec (.eccError 0 4 1 1 0) base) (fun t => t.blocks = base.blocks) = true := by decide +kernel
def powered (pl gduty duty : Nat) (therm : Bool) : State :=
  { base with cycle := 13000 }.modPkg 0 fun q => { q with power := ⟨pl, 0, gduty, duty, therm⟩ }
def powers (i : Instr) (s : State) (w : Power) : Bool := goes (exec i s) fun t => (t.pkg 0).power = w
theorem test_powerControlTick :
    powers (.powerControlTick 0 3001) (powered 3000 16 63 false) ⟨3000, 3001, 15, 63, false⟩
      && powers (.powerControlTick 0 3001) (powered 3000 15 63 false) ⟨3000, 3001, 15, 62, false⟩
      && powers (.powerControlTick 0 2941) (powered 3000 15 62 false) ⟨3000, 2941, 15, 62, false⟩
      && powers (.powerControlTick 0 2940) (powered 3000 15 62 false) ⟨3000, 2940, 15, 63, false⟩
      && powers (.powerControlTick 0 2940) (powered 3000 15 15 true) ⟨3000, 2940, 16, 15, true⟩
      && powers (.powerControlTick 0 2940) (powered 3000 63 63 false) ⟨3000, 2940, 63, 63, false⟩
      && goes (exec (.powerControlTick 0 3001) (powered 3000 16 63 false)) (fun t => (t.pkg 0).gridPast = [(13001, 16)])
      && powers (.powerControlTick 0 3001) { powered 3000 16 63 false with cycle := 12999 } ⟨3000, 0, 16, 63, false⟩ = true := by decide +kernel
theorem test_power_premises : let s := powered 3000 16 63 false
    (s.pkg 0).ticked < s.ns / 10000 ∧ 2 < (s.pkg 0).boot.stage ∧ s.rootUp 0 = true := by decide +kernel
theorem test_powerWordWrite :
    powers (.powerWordWrite 0 2000) (powered 3000 63 63 false) ⟨2000, 0, 63, 63, false⟩
      && powers (.powerWordWrite 0 1499) (powered 3000 63 63 false) ⟨1500, 0, 63, 63, false⟩
      && powers (.powerWordWrite 0 4601) (powered 3000 63 63 false) ⟨4600, 0, 63, 63, false⟩
      && powers (.junctionOvertemp 0 true) (powered 3000 63 40 false) ⟨3000, 0, 63, 15, true⟩
      && powers (.junctionOvertemp 0 false) (powered 3000 63 15 true) ⟨3000, 0, 63, 15, false⟩
      && powers (.coolantChange 0 410 40) (powered 4600 63 63 false) ⟨4500, 0, 63, 63, false⟩
      && powers (.coolantChange 0 400 20) (powered 4600 63 63 false) ⟨2300, 0, 63, 63, false⟩
      && powers (.coolantChange 0 400 8) (powered 4600 63 63 false) ⟨1500, 0, 63, 63, false⟩ = true := by decide +kernel
/-- R400: a store and a load of the host wait at their home; region 0 made secure, a read gets poison, a store nothing. -/
theorem test_cxlMemAccess :
    let secure := base.modPkg 0 fun q => { q with regions := tset q.regions 0 [0, 0xBFFFFFF000, 0x5FF] }
    goes (exec (.cxlMemAccess 0 0x8010 [1, 2] 0) base) (fun t => t.coh.ops.map (fun o => (o.key, o.kind)) = [(0x8010, .hostStore [1, 2])])
      && goes (exec (.cxlMemAccess 0 0x8010 [] 2) base) (fun t => t.coh.ops.map (fun o => (o.key, o.kind)) = [(0x8010, .hostLoad 2)])
      && goes (exec (.cxlMemAccess 0 0x8010 [1, 2] 0) secure) (· = secure)
      && goes (exec (.cxlMemAccess 0 0x8010 [] 2) secure) (fun t => told t [.read [(0, true), (0, true)]]) = true := by decide +kernel

-- Steps

/-- A NOP stored where the next instruction is fetched runs: the member goes on, and its issue is over. -/
theorem test_step : (match step (State.reset.withFetchWord 64 (encode (.nop c0)).toNat) with
    | .next t => t.me.pc = 0x40000018 && t.issue = [] && t.tick = 1
    | _ => false) = true := by decide +kernel
/-- The hypotheses of a step of an instruction, at the loaded machine. -/
theorem test_step_premises : (match (State.reset.loaded (encode (.nop c0))).ticked.fronted.takeMember with
    | some m => m.takesPart && (match m.objAt m.myBlk.pkg m.myBlk.ctx m.me.pc.toNat with
        | some o => !o.isData m.me.pc.toNat
        | none => false)
      && m.panelFault = none && (match m.xlate 0 (coreUnits 0) 0 0x40000010 true false with
        | (x, .ok xl) => !(x.physRead xl.pkg xl.pa 8).any (·.2)
          && BitVec.ofNat 64 (leNat ((x.physRead xl.pkg xl.pa 8).map (·.1))) = encode (.nop c0)
        | _ => false)
    | none => false) = true := by decide +kernel
/-- The poison of a pass is taken before the next instruction (R213). -/
theorem test_step_panel : (match step ((State.reset.loaded (encode (.nop c0))).modThr 0 0 fun th => { th with panelStop := some 66 }) with
    | .next t => t.me.tframe0 = frameWord 0x0F 0x40000010 false && t.me.tcause = tcauseWord 1 (some 66) && t.me.panelStop = none
    | _ => false) = true := by decide +kernel
/-- Two warps of one cycle: the member with the lower tid goes first, but behind one that writes no block register, and behind
that the one that reshapes (R28, R118). -/
theorem test_issue_order :
    let w (tid : Nat) (last : Nat) : IssueWarp := { (default : IssueWarp) with serial := tid, todo := [(0, tid)], last := last }
    (frontWarp [w 7 0, w 3 0, w 5 0]).map (·.serial) = [3, 7, 5]
      ∧ (frontWarp [w 3 2, w 5 1, w 7 0]).map (·.serial) = [7, 3, 5] ∧ (frontWarp [w 3 2, w 5 1]).map (·.serial) = [5, 3] := by decide +kernel
/-- With no warp issuing, what is due in the cycle takes place, then the agenda's next event in its cycle; one that is to come
later lets a cycle pass. -/
theorem test_step_event :
    let s (n : Nat) : State := { idle base with opened := true, agenda := [⟨n, .scrub 0⟩] }
    (match step (s 0), step (s 1), step (idle fourThreads) with
    | .next t, .next u, .next v => (t.pkg 0).scrubs = 1 && t.cycle = 10 && t.agenda = []
        && u.cycle = 11 && u.agenda = [⟨0, .scrub 0⟩] && !u.opened && v.did = [.warpForm 0 0] && v.issue ≠ []
    | _, _, _ => false) = true := by decide +kernel
/-- With no member left to execute, the issue ends and the warp stands. -/
theorem test_step_end : (match step { base with issue := base.issue.map fun w => { w with todo := [], done := [(0, 0)] } } with
    | .next t => t.issue = [] | _ => false) = true := by decide +kernel
/-- The forms that steps keep hold of the loaded machine. -/
theorem test_forms : base.memOk = true ∧ base.copiesOk = true ∧ base.blocksOk = true ∧ State.reset.memOk = true
    ∧ State.reset.copiesOk = true ∧ State.reset.blocksOk = true := by
  decide +kernel
-- States that meet premises not met above

/-- The table of `jumps`: its member predicated off only goes on; where the slots are not marked as data it faults all the same. -/
def unmarked : State := (jumps 1).modCtx 0 0 fun c => { c with objs := [⟨0x80000000, 2048, []⟩] }
theorem test_jump_skipped :
    ([Instr.brx ⟨0, false, 0⟩ 0 7, .callx ⟨0, false, 0⟩ 0 7].all fun i =>
      (jumps 1).skips ⟨0, false, 0⟩ i && goes (exec i (jumps 1)) (fun t => t.me.pc = 0x80000FC8 && t.me.sp = 256 && !t.me.ms.h)
        && unmarked.skips ⟨0, false, 0⟩ i && goes (exec i unmarked) fun t =>
          t.me.ms.h && t.me.tframe0 = frameWord 4 0x80000FC0 false && t.me.tcause = tcauseWord 2 (some 0x80000FF8))
      && faults unmarked (.brx c0 0 7) 4 2 (some 0x80000FF8) 0x80000FC0 && faults unmarked (.callx c0 0 7) 4 2 (some 0x80000FF8) 0x80000FC0
      && !unmarked.blind && !(jumps 1).barred 0 0 0x90FF8 false && !(jumps 1).barred 0 0 0x92000 false = true := by decide +kernel
/-- A parameter segment in a peer window is an address fault (R348, R372). -/
theorem test_const_peer :
    faults ((addr 0).modMyBlk fun b => { b with record := b.record.set 4 (1 <<< 56) }) (.ld c0 8 (mo .c) .b32 .dflt) 7 6 (some (2 ^ 56))
      = true := by decide +kernel
/-- Objects that fail each check of R59, R60 in turn. -/
def object (ds : List Dword) : State := (inHandler.modMe (withRegs [(4, 0x10000)])).writeDws 0 0x10000 ds
def codeStatus (ds : List Dword) (k : Word) : Bool := runs (object ds) (.codereg c0 6 4) fun t => tget t.me.regs 6 = k && t.me.pc = 0x40000018
theorem test_codereg_statuses :
    let m : Dword := 0x000000014F474C55
    codeStatus [m, 0x0001000000000006, 0x0000000200000003] 0 && codeStatus [m + 1, 4] 1 && codeStatus [m, 0x100000004] 1
      && codeStatus [m, 0x0003000000000004] 2 && codeStatus [m, 0x0001000000000006, 0x0000000000000003] 3
      && codeStatus [m, 0x0001000000000006, 0x0000000400000003] 3
      && codeStatus [m, 0x0002000000000008, 0x0000000200000005, 0x0000000200000004] 4
      && runs ((object [m, 4]).modCtx 0 0 fun c => { c with objs := List.replicate Config.maxObjects default }) (.codereg c0 6 4)
        (fun t => tget t.me.regs 6 = 7) = true := by
  decide +kernel
/-- Responses of one peer land in the order of their numbers (R347). -/
theorem test_response_order :
    let l (n : Nat) : Land := { (default : Land) with regs := [(6, 5)], resp := some (1, n) }
    let s := (landing (l 4)).modCoh fun h => { h with lands := [l 4, l 3] }
    !s.mayLand 0 (some (1, 4)) && s.mayLand 0 (some (1, 3)) && after (.loadWriteback 0) s (fun t => t.coh.lands.length = 2)
      && after (.loadWriteback 1) s (fun t => t.coh.lands.length = 1 && (t.thr 0 0).lcnt = 1) = true := by decide +kernel
/-- A store that finds its page in a registered object faults its thread in the home's stead (R120); elsewhere it is applied. -/
theorem test_codeWrite :
    let s := idle (waiting (.store [1, 2, 3, 4]))
    let o := op (.store [1, 2, 3, 4])
    !s.opBarred o && !s.codeWrite o && (s.modCtx 0 0 fun c => { c with objs := [⟨0x8000, 512, []⟩] }).codeWrite { o with va := 0x8004 }
      = true := by decide +kernel
/-- scat into exact accumulation: 1.0 and 2.0 join the cells of row 1. -/
theorem test_scat_cells :
    let k := cmd0 .scat [0, 1024, 1, 0, 0, 0, 0, 0] (shape 0x42)
    let s := { rowed .scat with cmds := [k] }
    ready s k 0 && goes (exec (.scatPosition 0 0) s) (fun t => t.cmds.map (fun k => (k.done, k.code)) = [([0], 0)]
      && t.read64 0 (0x8100 + 8 * 2) = (2 ^ 160 / 2 ^ 128 : Nat)) = true := by decide +kernel
/-- A granule that may not be written yet takes its place at the home, as a write does (R365, R369). -/
theorem test_granule_waits :
    let s := (copy16 0x9000 0 true false).modCoh fun h => { h with lx := [(0x480, 1000)] }
    goes (exec (.copyGranule 0 0) s) (fun t => t.read64 0 0x9000 = 0 && t.coh.ops.map (fun o => (o.key, o.kind)) = [(0x9000, .grain 0 16)]
      && t.cmds.map (·.done) = [[]]) = true := by decide +kernel
/-- Phases of a block that has halted free nobody (R352). -/
theorem test_halted_barb : ((pre .draining).blockRuns ((pre .draining).blk 0)) = false := by decide +kernel

/-- The tables that map the addresses used above are in reach (R375, R401). -/
def tabled (s : State) (vas : List Nat) : Bool := vas.all fun va => decide (s.tableCuts s.myBlk.pkg (coreUnits s.myBlk.core) s.myBlk.ctx va = 0)
theorem test_tables_up :
    tabled base [0x40000000, 0x40000010, 0x8000, 0x1000, 0x80000000] && tabled (jumps 1) [0x80000FF8, 0x80001004, 0x80002000]
      && tabled param [0x80000FF8, 0x80001000] && tabled (paged base) [0x80000123] = true := by decide +kernel
/-- No operation of the homes above is taken in parts. -/
theorem test_no_parts : (idle (waiting (.store [1, 2, 3, 4]))).inParts (op (.store [1, 2, 3, 4])) = false
    ∧ (idle (waiting (.atom .add false 2 0 true))).inParts (op (.atom .add false 2 0 true)) = false := by decide +kernel

end Sys2Proof.Tests
end

section
/-! What a thread's instructions of control have in common beside the laws above: a member that is predicated off, and
the end of a context that an exception in handler mode brings about (R53, R388, R399). -/

namespace Sys2Proof.Machine

-- Predicated off

/-- Under `skips` an instruction does what it does for a member that is predicated off (R53). -/
theorem enterG_skips {s : State} {c : Ctl} {i : Instr} (h : s.skips c i = true) (wait : State → Option Wait)
    (off body : State → State) : s.enterG c (usesOf i) wait off body = off s := by
  unfold State.skips at h
  simp only [Bool.and_eq_true, decide_eq_true_eq, Bool.not_eq_true'] at h
  obtain ⟨⟨⟨hregs, hwin⟩, hchk⟩, hguard⟩ := h
  have hallot : ((usesOf i).regs.any fun r => decide (s.me.allot ≤ r)) = false := by
    rw [List.all_eq_true] at hregs
    rw [List.any_eq_false]
    intro r hr
    have := hregs r hr
    simp only [decide_eq_true_eq] at this ⊢
    omega
  unfold State.enterG
  simp only [hallot, hwin, hchk, hguard, Bool.false_eq_true, if_false, if_true]

-- The end of a context

/-- After a context's end it lives on none of its packages, and every block of it there has retired (R399). -/
theorem killContext_ended (s : State) (p x : Nat) (r : List Dword) {q : Nat} (hq : q ∈ s.ctxPkgs p x) :
    ((s.killContext p x r).pctx q x).live = false ∧ AllRetired (s.killContext p x r) q x := by
  obtain ⟨u, v, -, hheads, hv, hblocks, hctxs, -⟩ := killContext_does s p x r
  have hq' : q ∈ u.ctxPkgs p x := by
    unfold State.ctxPkgs at hq ⊢
    rwa [hheads]
  constructor
  · unfold State.pctx
    rw [hctxs, hv]
    exact kills_live q x _ u (.inl hq')
  · unfold AllRetired
    rw [hblocks, hv]
    exact kills_ended q x _ u (.inl hq')

/-- The end of a context leaves the executing thread its frames and TCAUSE. -/
theorem killContext_framed (s : State) (p x : Nat) (r : List Dword) {f0 f1 tc : Dword} (h : Framed s.me f0 f1 tc) :
    Framed (s.killContext p x r).me f0 f1 tc := by
  obtain ⟨u, v, ⟨ublocks, -, ucur⟩, -, hv, vblocks, -, vcur⟩ := killContext_does s p x r
  have hu : Framed (u.thr s.cur.1 s.cur.2) f0 f1 tc := by
    rw [thr_of_blocks ublocks]
    exact h
  have hcur : (s.killContext p x r).cur = s.cur := by rw [vcur, hv, kills_cur, ucur]
  unfold State.me
  rw [hcur, thr_of_blocks vblocks, hv]
  exact kills_framed x _ _ f0 f1 tc _ u hu

-- An exception in handler mode

/-- What the end of a context starts from has not changed: blocks, contexts, the executing thread and the headgates. -/
def KeepsHeads (s t : State) : Prop := Keeps s t ∧ t.heads = s.heads

theorem keepsHeads_eventOf (s : State) (b t : Nat) : KeepsHeads s (s.eventOf b t) := by
  rcases eventOf_cases s b t with h | h <;> rw [h]
  · exact ⟨⟨event_blocks s, event_ctxs s, event_cur s⟩, event_heads s⟩
  · exact ⟨Keeps.refl s, rfl⟩

theorem keepsHeads_countEvent (s : State) (p x g cls : Nat) (e : EvRec) : KeepsHeads s (s.countEvent p x g cls e) := by
  obtain ⟨f, ⟨-, h⟩ | h⟩ := countEvent_eq s p x g cls e <;> rw [h]
  · exact ⟨keeps_modPkg s p f, rfl⟩
  · exact ⟨Keeps.refl s, rfl⟩

/-- A fault of the executing thread in handler mode: the event is counted, the second frame and TCAUSE are written, and its
context ends (R388). -/
theorem faultW_handler (s : State) (cause : Nat) (tc : Dword) (pc : VAddr) (h : s.me.ms.h = true) :
    ∃ (u : State) (r : List Dword), KeepsHeads s u ∧ s.faultW s.cur.1 s.cur.2 cause tc pc =
      (u.modThr s.cur.1 s.cur.2 fun th => { th with tframe1 := frameWord cause pc true, tcause := tc }).killContext
        s.myBlk.pkg s.myBlk.ctx r := by
  have h' : (s.thr s.cur.1 s.cur.2).ms.h = true := h
  unfold State.faultW
  simp only [h', if_true]
  obtain ⟨hv, hvh⟩ := keepsHeads_eventOf s s.cur.1 s.cur.2
  obtain ⟨hu, huh⟩ := keepsHeads_countEvent (s.eventOf s.cur.1 s.cur.2) s.myBlk.pkg s.myBlk.ctx s.myBlk.grid 6
    ((s.eventOf s.cur.1 s.cur.2).threadEvent s.cur.1 s.cur.2 (frameWord cause pc true) tc 0)
  exact ⟨_, _, ⟨hv.trans hu, huh.trans hvh⟩, rfl⟩

/-- TAKING AN EXCEPTION in handler mode (R388, R399): the second frame and TCAUSE are written, the first frame stays, and on
every package of the thread's context the context lives no more and every block of it has retired. -/
def DoubleFaulted (s t : State) (cause : Nat) (tc : Dword) (pc : VAddr) : Prop :=
  Framed t.me s.me.tframe0 (frameWord cause pc true) tc
    ∧ ∀ p ∈ s.ctxPkgs s.myBlk.pkg s.myBlk.ctx, (t.pctx p s.myBlk.ctx).live = false ∧ AllRetired t p s.myBlk.ctx

theorem doubleFaulted_faultW (s : State) (cause : Nat) (tc : Dword) (pc : VAddr) (h : s.me.ms.h = true) :
    DoubleFaulted s (s.faultW s.cur.1 s.cur.2 cause tc pc) cause tc pc := by
  obtain ⟨u, r, ⟨⟨hblocks, -, hcur⟩, hheads⟩, e⟩ := faultW_handler s cause tc pc h
  rw [e, ← hcur]
  refine ⟨killContext_framed _ _ _ _ ?_, fun p hp => killContext_ended _ _ _ _ ?_⟩
  · have hme : u.me = s.me := by
      unfold State.me
      rw [hcur, thr_of_blocks hblocks]
    rw [← hme]
    show Framed (u.modMe _).me _ _ _
    rw [modMe_me]
    exact ⟨rfl, rfl, rfl⟩
  · show p ∈ u.ctxPkgs _ _
    unfold State.ctxPkgs at hp ⊢
    rwa [hheads]

/-- What a thread does to itself first, its first frame apart, does not show in a double fault. -/
theorem DoubleFaulted.of_modMe {s t : State} {f : Thread → Thread} {cause : Nat} {tc : Dword} {pc : VAddr}
    (hf : (f s.me).tframe0 = s.me.tframe0) (h : DoubleFaulted (s.modMe f) t cause tc pc) :
    DoubleFaulted s t cause tc pc := by
  obtain ⟨hframed, hend⟩ := h
  rw [modMe_me, hf] at hframed
  rw [(onlyMe_modMe s f).blk] at hend
  exact ⟨hframed, hend⟩

end Sys2Proof.Machine
end

section
/-! trap, bkpt and reth (R115, R116). -/

namespace Sys2Proof.Machine

-- The words of a frame

/-- The address in a frame is its bits 54 to 1, as a word address (R39). -/
theorem framePc_eq (f : Dword) : framePc f = f.extractLsb' 1 54 ++ 0#3 := by
  apply BitVec.eq_of_toNat_eq
  refine Eq.trans ?_ (BitVec.toNat_append (f.extractLsb' 1 54) 0#3).symm
  have : f.toNat / 2 % 2 ^ 54 * 8 < 2 ^ 57 := by omega
  simpa [framePc, bitsOf, Nat.shiftRight_eq_div_pow, Nat.shiftLeft_eq] using Nat.mod_eq_of_lt this

/-- Bits 62 to 0 of a dword are the dword with bit 63 cleared. -/
theorem bitsOf_low63 (f : Dword) : BitVec.ofNat 64 (bitsOf f 62 0) = f &&& 0x7FFFFFFFFFFFFFFF#64 := by
  apply BitVec.eq_of_toNat_eq
  have hlow : bitsOf f 62 0 = f.toNat % 2 ^ 63 := by simp [bitsOf]
  rw [BitVec.toNat_ofNat, BitVec.toNat_and, hlow, Nat.mod_eq_of_lt (by omega)]
  exact (Nat.and_two_pow_sub_one_eq_mod f.toNat 63).symm

-- The three instructions where they execute

theorem exec_trap {s : State} {c : Ctl} {code : BitVec 8} (h : s.executes c (.trap c code) = true) :
    exec (.trap c code) s = .next ((s.modMe fun th => { th with stallUntil := s.lastCycle + 1 + c.stall.toNat }).faultW
      s.cur.1 s.cur.2 0x14 (code.zeroExtend 64) (s.me.pc + 8)) := run_executes h _

theorem exec_bkpt {s : State} {c : Ctl} {code : BitVec 8} (h : s.executes c (.bkpt c code) = true) :
    exec (.bkpt c code) s = .next (s.faultW s.cur.1 s.cur.2 0x15 (code.zeroExtend 64) s.me.pc) := run_executes h _

theorem exec_reth {s : State} {c : Ctl} (h : s.executes c (.reth c) = true) : exec (.reth c) s = .next (s.rethMe c) :=
  run_executes h _

/-- A return outside handler mode is a privilege fault (R116). -/
theorem rethMe_outside {s : State} (c : Ctl) (h : s.me.ms.h = false) : s.rethMe c = s.faultMe 0x13 0 none := by
  unfold State.rethMe
  simp only [h, Bool.not_false, if_true]
  rfl

/-- A return without a valid frame is a mode fault (R116). -/
theorem rethMe_invalid {s : State} (c : Ctl) (h : s.me.ms.h = true) (hv : s.me.tframe0.getLsbD 63 = false) :
    s.rethMe c = s.faultMe 0x10 5 none := by
  unfold State.rethMe bitAt
  simp only [h, hv, Bool.not_true, Bool.not_false, Bool.false_eq_true, if_false, if_true]
  rfl

/-- A return with a valid frame (R116). -/
theorem rethMe_valid {s : State} (c : Ctl) (h : s.me.ms.h = true) (hv : s.me.tframe0.getLsbD 63 = true) :
    s.rethMe c = ((s.modMe fun th => { th with ms := { th.ms with h := false } }).jump c (framePc s.me.tframe0)).modMe
      fun th => { th with tframe0 := BitVec.ofNat 64 (bitsOf th.tframe0 62 0) } := by
  unfold State.rethMe bitAt
  simp only [h, hv, Bool.not_true, Bool.false_eq_true, if_false]

/-- It changes the executing thread alone: handler mode ends and the frame is no longer valid, and the thread stands at the
frame's address. -/
theorem rethMe_returns {s : State} (c : Ctl) (h : s.me.ms.h = true) (hv : s.me.tframe0.getLsbD 63 = true) :
    OnlyMe s (s.rethMe c)
      ∧ Went { s.me with ms := { s.me.ms with h := false }, tframe0 := s.me.tframe0 &&& 0x7FFFFFFFFFFFFFFF#64 }
          (s.rethMe c) (s.me.tframe0.extractLsb' 1 54 ++ 0#3) := by
  rw [rethMe_valid c h hv]
  refine ⟨((onlyMe_modMe s _).trans (onlyMe_jump _ c _)).trans (onlyMe_modMe _ _), ?_⟩
  apply went_goto (mv := true) (st := c.stall.toNat)
    (l := (s.modMe fun th => { th with ms := { th.ms with h := false } }).lastCycle)
  rw [modMe_me, jump_me, modMe_me, framePc_eq, bitsOf_low63]
  rfl

/-- Settles O14: outside handler mode by what taking an exception does, in handler mode by the double fault, and reth by its
three cases. -/
theorem trapsAndReturn : Obligations.TrapsAndReturn := by
  unfold Obligations.TrapsAndReturn
  intro s c code
  refine ⟨fun ex h => ⟨_, exec_trap ex, ?_⟩, fun ex h => ⟨_, exec_bkpt ex, took_faultW s _ _ _ h⟩,
    fun ex h => ⟨_, exec_reth ex, ?_⟩, fun ex h hv => ⟨_, exec_reth ex, rethMe_returns c h hv⟩,
    fun i cause pc tc hi ex h => ?_⟩
  · exact took_faultW (s.modMe _) _ _ _ (by rw [modMe_me]; exact h)
  · rw [rethMe_outside c h]
    exact took_faultMe s 0x13 0 none h
  · have hdouble : ∃ t, exec i s = .next t ∧ DoubleFaulted s t cause tc pc := by
      rcases hi with ⟨rfl, rfl, rfl, rfl⟩ | ⟨rfl, rfl, rfl, rfl⟩ | ⟨rfl, rfl, rfl, rfl, hv⟩
      · exact ⟨_, exec_trap ex, .of_modMe rfl (doubleFaulted_faultW (s.modMe _) _ _ _ (by rw [modMe_me]; exact h))⟩
      · exact ⟨_, exec_bkpt ex, doubleFaulted_faultW s _ _ _ h⟩
      · exact ⟨_, (exec_reth ex).trans (congrArg _ (rethMe_invalid c h hv)), doubleFaulted_faultW s _ _ _ h⟩
    obtain ⟨t, ht, ⟨h0, h1, hc⟩, hend⟩ := hdouble
    exact ⟨t, ht, h1, hc, h0, fun p hp => (hend p hp).1⟩

end Sys2Proof.Machine
end

section
/-! nop, pad and bra (R107, R110). -/

namespace Sys2Proof.Machine

-- The bits of a mask of threads

theorem getLsbD_maskSet_true (m : BitVec 1024) {t : Nat} (ht : t < 1024) (k : Nat) :
    (maskSet m t true).getLsbD k = if k = t then true else m.getLsbD k := by
  unfold maskSet
  rw [if_pos rfl, ← BitVec.twoPow_eq, BitVec.getLsbD_or, BitVec.getLsbD_twoPow]
  by_cases hk : k = t
  · simp [hk, ht]
  · simp [hk, Ne.symm hk]

-- Arming a slot (R107)

theorem onlyMine_armMe (s : State) (arm : Bool) (slot : BitVec 4) : OnlyMine s (s.armMe arm slot) := by
  unfold State.armMe
  split
  · exact onlyMine_modMyBlk s _ fun _ _ => rfl
  · exact OnlyMine.refl s

@[simp] theorem armMe_me (s : State) (arm : Bool) (slot : BitVec 4) : (s.armMe arm slot).me = s.me := by
  unfold State.armMe
  split
  · exact modMyBlk_me s _ rfl
  · rfl

theorem armMe_myBlk (s : State) (arm : Bool) (slot : BitVec 4) :
    (s.armMe arm slot).myBlk = { s.myBlk with joins := (s.armMe arm slot).myBlk.joins } := by
  unfold State.armMe
  split
  · rw [modMyBlk_myBlk]
    rfl
  · rfl

/-- Of the slots, arming sets the thread's bit in the slot named and no other. -/
theorem armMe_joins {s : State} (arm : Bool) (slot : BitVec 4) (ht : s.cur.2 < 1024) (n k : Nat) :
    (tget (s.armMe arm slot).myBlk.joins n).getLsbD k =
      if arm = true ∧ n = slot.toNat ∧ k = s.cur.2 then true else (tget s.myBlk.joins n).getLsbD k := by
  unfold State.armMe
  cases arm
  · simp
  · simp only [if_true, true_and, modMyBlk_myBlk, Block.setJoin, tmod, tget_tset]
    by_cases hn : n = slot.toNat
    · simp only [hn, if_true, true_and, getLsbD_maskSet_true _ ht]
    · simp only [hn, if_false, false_and]

-- bra

/-- A member of a bra goes to the target, or predicated off to the next word, and in either case arms first (R107). -/
theorem exec_bra {s : State} {c : Ctl} {arm : Bool} {slot : BitVec 4} {imm : BitVec 28} {pc : VAddr}
    (h : (s.executes c (.bra c arm slot imm) = true ∧ pc = BitVec.ofInt 57 (s.me.pc.toNat + 8 * imm.toInt))
      ∨ (s.skips c (.bra c arm slot imm) = true ∧ pc = s.me.pc + 8)) :
    ∃ t, exec (.bra c arm slot imm) s = .next t ∧ OnlyMe (s.armMe arm slot) t ∧ Went s.me t pc := by
  rcases h with ⟨ex, rfl⟩ | ⟨sk, rfl⟩
  · refine ⟨_, congrArg Host.Outcome.next (enterG_executes ex _ _ _), onlyMe_jump _ c _, ?_⟩
    rw [← branchTarget_eq, ← armMe_me s arm slot]
    exact went_goto (jump_me _ c _)
  · refine ⟨_, congrArg Host.Outcome.next (enterG_skips sk _ _ _), onlyMe_modMe _ _, ?_⟩
    rw [← armMe_me s arm slot]
    exact went_goto (advance_me _ c)

/-- Settles O18: nop and pad write nothing before they move on; of bra, the slots are those that arming leaves. -/
theorem branches : Obligations.Branches := by
  unfold Obligations.Branches
  intro s c arm slot imm label
  refine ⟨completes_run rfl fun _ => (wrote_refl s).advance c, completes_run rfl fun _ => (wrote_refl s).advance c,
    fun pc h ht => ?_⟩
  obtain ⟨t, he, hme, hwent⟩ := exec_bra h
  refine ⟨t, he, (onlyMine_armMe s arm slot).trans hme.mine, hwent, ?_, fun n k => ?_⟩
  · rw [hme.blk, armMe_myBlk]
  · rw [hme.blk]
    exact armMe_joins arm slot ht n k

end Sys2Proof.Machine
end

section
/-! waitcnt (R186, R187). -/

namespace Sys2Proof.Machine

/-- What the performance point at a scope asks of the writes of a thread that are on their way to die copies (R187). -/
theorem performed_iff (s : State) (b t : Nat) (scope : Scope) :
    s.performed b t scope = true ↔
      (scope ≠ .blk → ∀ u ∈ s.coh.pushes, u.who = .thread b t → scope = .die ∧ u.dst ≠ dieOf (s.blk b).core) := by
  cases scope <;> simp [State.performed, Decidable.imp_iff_not_or]

/-- The condition of a waitcnt: the three counts, and what has left them (R186). -/
theorem countsHold_iff (s : State) (b t l sn e : Nat) (scope : Scope) :
    s.countsHold b t l sn e scope = true ↔
      (s.thr b t).lcnt ≤ l ∧ (s.thr b t).scnt ≤ sn ∧ (s.thr b t).ecnt ≤ e ∧ s.performed b t scope = true := by
  simp [State.countsHold, and_assoc]

/-- Where its condition holds a waitcnt clears its L1 lines and moves on. -/
theorem exec_waitcnt_holds {s : State} {c : Ctl} {l st : BitVec 6} {e : BitVec 5} {scope : Scope}
    (ex : s.executes c (.waitcnt c l st e scope) = true)
    (h : s.countsHold s.cur.1 s.cur.2 l.toNat st.toNat e.toNat scope = true) :
    exec (.waitcnt c l st e scope) s = .next ((s.cntClear scope).advance c) :=
  runW_executes ex (if_pos h) _

/-- Where its condition does not hold a waitcnt waits on it. -/
theorem exec_waitcnt_waits {s : State} {c : Ctl} {l st : BitVec 6} {e : BitVec 5} {scope : Scope}
    (ex : s.executes c (.waitcnt c l st e scope) = true)
    (h : ¬s.countsHold s.cur.1 s.cur.2 l.toNat st.toNat e.toNat scope = true) :
    exec (.waitcnt c l st e scope) s = .next (s.waitMe (.counts l.toNat st.toNat e.toNat scope)) :=
  runW_waits ex (if_neg h) _

theorem modCore_cores_ne (s : State) {p c k : Nat} (f : Core → Core) (h : k ≠ coreKey p c) :
    tget (s.modCore p c f).cores k = tget s.cores k := tget_tmod_ne _ f h

/-- Step 3 of a waitcnt changes nothing but the cores. -/
theorem cntClear_eq (s : State) (scope : Scope) : s.cntClear scope = { s with cores := (s.cntClear scope).cores } := by
  unfold State.cntClear
  split <;> rfl

/-- Step 3 of a waitcnt: at .die or wider the executing thread's core loses the L1 lines of its context. -/
theorem cntClear_core (s : State) (scope : Scope) (k : Nat) :
    tget (s.cntClear scope).cores k = if scope ≠ .blk ∧ k = coreKey s.myBlk.pkg s.myBlk.core then
      { tget s.cores k with l1 := (tget s.cores k).l1.filter fun e => e.ctx ≠ s.myBlk.ctx } else tget s.cores k := by
  unfold State.cntClear
  by_cases hb : scope = .blk
  · simp [hb]
  · by_cases hk : k = coreKey s.myBlk.pkg s.myBlk.core
    · subst hk
      simp only [hb, if_false, ne_eq, not_false_eq_true, true_and, if_true]
      exact modCore_core s _ _ _
    · simp only [hb, hk, if_false, and_false]
      exact modCore_cores_ne s _ hk

/-- A thread that moves on after step 3 of a waitcnt is all that has changed, beside the cores. -/
theorem onlyMe_cntClear_advance (s : State) (c : Ctl) (scope : Scope) :
    OnlyMe s { (s.cntClear scope).advance c with cores := s.cores } := by
  rw [cntClear_eq]
  exact onlyMe_modMe s _

theorem went_cntClear_advance (s : State) (c : Ctl) (scope : Scope) :
    Went s.me ((s.cntClear scope).advance c) (s.me.pc + 8) := by
  rw [cntClear_eq]
  exact went_goto (advance_me _ c)

end Sys2Proof.Machine
end

section
/-! The counter generator (R201, R202). -/

namespace Sys2Proof.Machine

/-- The rotations of a round: of x1 by the first, of x3 by the second (R201). -/
def ugenTurns (r : Nat) : Nat × Nat :=
  (([16, 8, 24, 12, 4, 20, 28, 16, 8, 12] : List Nat).getD r 0, ([8, 24, 12, 28, 20, 4, 16, 24, 12, 20] : List Nat).getD r 0)

theorem zip_ugenRot : (List.range 10).zip ugenRot = (List.range 10).map fun r => (r, ugenTurns r) := rfl

/-- Four sequences follow the ten rounds of ugen under a key: each value at r + 1 is what round r makes of those at r. -/
def UgenRun (k0 k1 : Word) (x0 x1 x2 x3 : Nat → Word) : Prop :=
  ∀ r, r < 10 →
    x0 (r + 1) = x0 r + k0 + BitVec.ofNat 32 (r * 0x9E3779B9) + x1 r
      ∧ x3 (r + 1) = (x1 r).rotateLeft (ugenTurns r).1 ^^^ x0 (r + 1)
      ∧ x2 (r + 1) = x2 r + k1 + BitVec.ofNat 32 (r * 0xBB67AE85) + x3 r
      ∧ x1 (r + 1) = (x3 r).rotateLeft (ugenTurns r).2 ^^^ x2 (r + 1)

section
variable {k0 k1 : Word} {x0 x1 x2 x3 : Nat → Word}

theorem UgenRun.round (h : UgenRun k0 k1 x0 x1 x2 x3) {r : Nat} (hr : r < 10) :
    ugenRound k0 k1 r (ugenTurns r) (x0 r, x1 r, x2 r, x3 r) = (x0 (r + 1), x1 (r + 1), x2 (r + 1), x3 (r + 1)) := by
  obtain ⟨h0, h3, h2, h1⟩ := h r hr
  rw [h1, h3, h2, h0, BitVec.ofNat_mul, BitVec.ofNat_mul]
  rfl

/-- After n rounds the four words are the n-th values of the sequences. -/
theorem UgenRun.rounds (h : UgenRun k0 k1 x0 x1 x2 x3) : ∀ n, n ≤ 10 →
    (List.range n).foldl (fun x r => ugenRound k0 k1 r (ugenTurns r) x) (x0 0, x1 0, x2 0, x3 0) = (x0 n, x1 n, x2 n, x3 n)
  | 0, _ => rfl
  | n + 1, hn => by
    rw [List.range_succ, List.foldl_append, h.rounds n (by omega)]
    exact h.round hn

/-- ugen of a key, its high word first, and a counter: the words after ten rounds, and the key added to the last two. -/
theorem UgenRun.ugen_eq (h : UgenRun k0 k1 x0 x1 x2 x3) :
    ugen (k1 ++ k0) (x0 0) (x1 0) (x2 0) (x3 0) = [x0 10, x1 10, x2 10 + k0, x3 10 + k1] := by
  have hlow : BitVec.truncate 32 (k1 ++ k0 : BitVec (32 + 32)) = k0 := BitVec.setWidth_append_eq_right
  have hhigh : BitVec.truncate 32 ((k1 ++ k0 : BitVec (32 + 32)) >>> 32) = k1 :=
    BitVec.setWidth_ushiftRight_eq_extractLsb.trans BitVec.extractLsb'_append_eq_left
  unfold ugen
  simp only [hlow, hhigh, zip_ugenRot, List.foldl_map, h.rounds 10 (Nat.le_refl _)]

/-- ugen of the registers that a rng names (R202). -/
theorem UgenRun.ugenOf_eq {s : State} {a b : RegF} (h : UgenRun (s.rd a) (s.rd (RegF.up a 1)) x0 x1 x2 x3)
    (h0 : x0 0 = s.rd b) (h1 : x1 0 = s.rd (RegF.up b 1)) (h2 : x2 0 = s.rd (RegF.up b 2))
    (h3 : x3 0 = s.rd (RegF.up b 3)) :
    s.ugenOf a b = [x0 10, x1 10, x2 10 + s.rd a, x3 10 + s.rd (RegF.up a 1)] := by
  have hb : RegF.up b 0 = b := by simp [RegF.up]
  have hlist : s.rdList b 4 = [x0 0, x1 0, x2 0, x3 0] := by
    rw [h0, h1, h2, h3]
    simp [State.rdList, List.range_succ, hb]
  unfold State.ugenOf
  rw [hlist]
  exact h.ugen_eq

end

/-- rng.lo completes with the low half of ugen. -/
theorem completes_rngLo {s : State} {c : Ctl} {d a b : RegF} {y0 y1 y2 y3 : Word} (h : s.ugenOf a b = [y0, y1, y2, y3]) :
    Completes s (.rngLo c d a b) c (dstWords d [y0, y1]) [] 0 :=
  completes_wrList (L := 10) rfl (by rw [h]; rfl) fun wf => wf_pD wf (.head _)

/-- rng.hi completes with the high half of ugen. -/
theorem completes_rngHi {s : State} {c : Ctl} {d a b : RegF} {y0 y1 y2 y3 : Word} (h : s.ugenOf a b = [y0, y1, y2, y3]) :
    Completes s (.rngHi c d a b) c (dstWords d [y2, y3]) [] 0 :=
  completes_wrList (L := 10) rfl (by rw [h]; rfl) fun wf => wf_pD wf (.head _)

/-- Settles O40: waitcnt by whether its condition holds, and rng by the run of ugen that the four sequences are. -/
theorem countWaitsAndGenerator : Obligations.CountWaitsAndGenerator := by
  unfold Obligations.CountWaitsAndGenerator
  constructor
  · intro s c l st e scope th me holds ex
    have hiff : s.countsHold s.cur.1 s.cur.2 l.toNat st.toNat e.toNat scope = true ↔ holds := by
      rw [countsHold_iff, performed_iff]
      rfl
    rw [← hiff]
    refine ⟨fun h => ⟨_, exec_waitcnt_holds ex h, onlyMe_cntClear_advance s c scope, went_cntClear_advance s c scope,
        cntClear_core s scope⟩,
      fun h => ⟨_, exec_waitcnt_waits ex h, onlyMe_waitMe s _, waitMe_moved s _, ?_, ?_⟩⟩ <;> rw [waitMe_me]
  · intro s c d a b x0 x1 x2 x3 k0 k1 ra rb h0 h1 h2 h3 hrun
    have h : UgenRun k0 k1 x0 x1 x2 x3 := hrun
    have hy := h.ugenOf_eq h0 h1 h2 h3
    exact ⟨completes_rngLo hy, completes_rngHi hy⟩

end Sys2Proof.Machine
end

section
/-! Exceptions outside handler mode: the fields of a frame and of TCAUSE, and the count of the event in the thread's grid
(R39, R40, R341, R387). -/

namespace Sys2Proof.Machine

-- The words of an exception

/-- The field between two others that a word is put together of. -/
theorem extractLsb'_append_middle {u v w : Nat} (x : BitVec u) (y : BitVec v) (z : BitVec w) :
    (x ++ y ++ z).extractLsb' w v = y := by
  rw [BitVec.extractLsb'_append_eq_of_le (Nat.le_refl w), Nat.sub_self, BitVec.extractLsb'_append_eq_right]

/-- A bit of the upper of two parts. -/
theorem getLsbD_append_add {v w : Nat} (x : BitVec v) (y : BitVec w) (i : Nat) :
    (x ++ y).getLsbD (w + i) = x.getLsbD i := by
  rw [BitVec.getLsbD_append, if_neg (by omega), Nat.add_sub_cancel_left]

/-- The number of two parts put together. -/
theorem toNat_append_add {v w : Nat} (x : BitVec v) (y : BitVec w) : (x ++ y).toNat = x.toNat * 2 ^ w + y.toNat := by
  rw [BitVec.toNat_append, ← Nat.shiftLeft_add_eq_or_of_lt y.isLt, Nat.shiftLeft_eq]

/-- A frame word is V, CAUSE, the word address and HF, the highest first (R39). -/
theorem frameWord_eq {cause : Nat} (h : cause < 256) (pc : VAddr) (hf : Bool) :
    frameWord cause pc hf = 1#1 ++ BitVec.ofNat 8 cause ++ pc.extractLsb' 3 54 ++ BitVec.ofBool hf := by
  have hbit : hf.toNat < 2 := hf.toNat_lt
  apply BitVec.eq_of_toNat_eq
  unfold frameWord
  simp only [toNat_append_add, BitVec.toNat_ofNat, BitVec.toNat_ofBool, BitVec.extractLsb'_toNat,
    Nat.shiftRight_eq_div_pow]
  omega

/-- A TCAUSE word is AV, SUB and the address, 0 where there is none, the highest first (R40). -/
theorem tcauseWord_eq {sub : Nat} (h : sub < 64) (addr : Option Nat) :
    tcauseWord sub addr = BitVec.ofBool addr.isSome ++ BitVec.ofNat 6 sub ++ BitVec.ofNat 57 (addr.getD 0) := by
  apply BitVec.eq_of_toNat_eq
  unfold tcauseWord
  simp only [toNat_append_add, BitVec.toNat_ofNat, BitVec.toNat_ofBool]
  cases addr <;> simp only [Option.isSome_none, Option.isSome_some, Option.getD_none, Option.getD_some,
    Bool.toNat_false, Bool.toNat_true] <;> omega

section
variable {cause : Nat} (h : cause < 256) (pc : VAddr) (hf : Bool)
include h

theorem frameWord_valid : (frameWord cause pc hf).getLsbD 63 = true := by
  rw [frameWord_eq h]
  exact (getLsbD_append_add _ _ 62).trans ((getLsbD_append_add _ _ 8).trans (getLsbD_append_add _ _ 0))

theorem frameWord_cause : (frameWord cause pc hf).extractLsb' 55 8 = BitVec.ofNat 8 cause := by
  rw [frameWord_eq h]
  exact (BitVec.extractLsb'_append_eq_of_le (by decide)).trans (extractLsb'_append_middle _ _ _)

theorem frameWord_pc : (frameWord cause pc hf).extractLsb' 1 54 = pc.extractLsb' 3 54 := by
  rw [frameWord_eq h]
  exact extractLsb'_append_middle _ _ _

theorem frameWord_handler : (frameWord cause pc hf).getLsbD 0 = hf := by
  rw [frameWord_eq h]
  exact BitVec.getLsbD_append.trans (by simp)

end

section
variable {sub : Nat} (h : sub < 64) (addr : Option Nat)
include h

theorem tcauseWord_valid : (tcauseWord sub addr).getLsbD 63 = addr.isSome := by
  rw [tcauseWord_eq h]
  exact (getLsbD_append_add _ _ 6).trans ((getLsbD_append_add _ _ 0).trans (by simp))

theorem tcauseWord_sub : (tcauseWord sub addr).extractLsb' 57 6 = BitVec.ofNat 6 sub := by
  rw [tcauseWord_eq h]
  exact extractLsb'_append_middle _ _ _

theorem tcauseWord_addr : (tcauseWord sub addr).extractLsb' 0 57 = BitVec.ofNat 57 (addr.getD 0) := by
  rw [tcauseWord_eq h]
  exact BitVec.extractLsb'_append_eq_right

end

-- The count of the event

/-- On a package stands a grid with an acceptance number and a count of faults. -/
def FaultCount (s : State) (p acc n : Nat) : Prop := ∃ g ∈ (s.pkg p).grids, g.acc = acc ∧ g.faults = n

theorem mem_of_findGrid {s : State} {p x id : Nat} {g : Grid} (h : s.findGrid p x id = some g) : g ∈ (s.pkg p).grids :=
  (List.mem_filter.mp (List.mem_of_getLast? h)).1

/-- Counting an event raises the faults of the grid it is found for (R341). -/
theorem faultCount_countEvent {s : State} {p x id : Nat} {g : Grid} (h : s.findGrid p x id = some g) (cls : Nat)
    (e : EvRec) : FaultCount (s.countEvent p x id cls e) p g.acc (g.faults + 1) := by
  unfold State.countEvent State.modGrid FaultCount
  simp only [h, modPkg_pkg]
  exact ⟨_, List.mem_map_of_mem (mem_of_findGrid h), by rw [if_pos rfl]; exact ⟨rfl, rfl⟩⟩

theorem eventOf_pkgs (s : State) (b t : Nat) : (s.eventOf b t).pkgs = s.pkgs := by
  rcases eventOf_cases s b t with h | h <;> rw [h]
  exact event_pkgs s

/-- Outside handler mode a fault leaves of the packages what counting its event leaves. -/
theorem faultW_pkgs {s : State} (cause : Nat) (tc : Dword) (pc : VAddr) (h : s.me.ms.h = false) :
    ∃ e, (s.faultW s.cur.1 s.cur.2 cause tc pc).pkgs =
      ((s.eventOf s.cur.1 s.cur.2).countEvent s.myBlk.pkg s.myBlk.ctx s.myBlk.grid (causeClass cause) e).pkgs := by
  have h' : (s.thr s.cur.1 s.cur.2).ms.h = false := h
  unfold State.faultW
  simp only [h', Bool.false_eq_true, if_false]
  exact ⟨_, rfl⟩

/-- Outside handler mode a fault is counted in the grid of its thread. -/
theorem faultCount_faultW {s : State} {g : Grid} (cause : Nat) (tc : Dword) (pc : VAddr) (h : s.me.ms.h = false)
    (hg : s.findGrid s.myBlk.pkg s.myBlk.ctx s.myBlk.grid = some g) :
    FaultCount (s.faultW s.cur.1 s.cur.2 cause tc pc) s.myBlk.pkg g.acc (g.faults + 1) := by
  obtain ⟨e, he⟩ := faultW_pkgs cause tc pc h
  have hg' : (s.eventOf s.cur.1 s.cur.2).findGrid s.myBlk.pkg s.myBlk.ctx s.myBlk.grid = some g := by
    unfold State.findGrid State.pkg at hg ⊢
    rwa [eventOf_pkgs]
  have hcount := faultCount_countEvent hg' (causeClass cause) e
  unfold FaultCount State.pkg at hcount ⊢
  rwa [he]

/-- Settles O12: a fault outside handler mode is taken and counted, and the words it writes have their fields. -/
theorem exceptionEntry : Obligations.ExceptionEntry := by
  unfold Obligations.ExceptionEntry
  constructor
  · intro s cause sub addr h
    exact ⟨took_faultMe s cause sub addr h, fun g hg => faultCount_faultW cause _ _ h hg⟩
  · intro cause sub a pc hf hc hs
    exact ⟨frameWord_valid hc pc hf, frameWord_cause hc pc hf, frameWord_pc hc pc hf, frameWord_handler hc pc hf,
      tcauseWord_valid hs (some a), tcauseWord_sub hs (some a), tcauseWord_addr hs (some a),
      tcauseWord_valid hs none, tcauseWord_sub hs none, tcauseWord_addr hs none⟩

end Sys2Proof.Machine
end
